-- ==== Sys2Proof/Word.lean ====
section
/-! DEFINITION. The word types of the spec (00_scope R11, R13). -/

namespace Sys2Proof

/-- 8 bits, the unit of system memory (20_memory R73). -/
abbrev Byte := BitVec 8
/-- 32 bits, a register value (00_scope R11). -/
abbrev Dword := BitVec 32
/-- 64 bits (00_scope R11). -/
abbrev Qword := BitVec 64
/-- A physical address (00_scope R13). -/
abbrev Addr := BitVec 64
/-- A slot id, 8 bits (00_scope R13). -/
abbrev SlotId := BitVec 8
/-- A port index, 8 bits, starting at 0 (00_scope R13, 43_ports R271). -/
abbrev PortIx := BitVec 8

end Sys2Proof
end

