-- ==== Sys2Proof/Config.lean ====
section
/-! DEFINITION. What an instance fixes (00_scope R8), the encodings the spec leaves as parameters
(30_encoding R104, R110, R125, R131), and the free values: opaque constants with no body. -/

namespace Sys2Proof.Config

/-- TRB slots of the command ring (00_scope R8). -/
def cmdRingSize : Nat := 256
/-- TRB slots of the event ring segment (00_scope R8). -/
def evtRingSize : Nat := 256
/-- TRB slots of an endpoint-0 ring (00_scope R8). -/
def ep0RingSize : Nat := 256
/-- Bytes of a TRB (00_scope R8). -/
def trbSize : Nat := 16
/-- Iterations of every bounded poll (00_scope R8). -/
def pollBudget : Nat := 1000
/-- Offset of port register 0 in the operational block (00_scope R8). -/
def portBase : Nat := 0x400
/-- Bytes between port registers (00_scope R8). -/
def portStride : Nat := 16

/-- The TRB type codes (30_encoding R104): a parameter, log 4. -/
structure TypeCodes where
  normal : BitVec 6
  setup : BitVec 6
  data : BitVec 6
  status : BitVec 6
  link : BitVec 6
  eventData : BitVec 6
  noopXfer : BitVec 6
  enableSlot : BitVec 6
  disableSlot : BitVec 6
  addressDevice : BitVec 6
  configureEndpoint : BitVec 6
  evaluateContext : BitVec 6
  resetEndpoint : BitVec 6
  setTrDequeue : BitVec 6
  resetDevice : BitVec 6
  noopCmd : BitVec 6
  transferEvent : BitVec 6
  cmdCompletion : BitVec 6
  portStatusChange : BitVec 6
  deriving DecidableEq, Repr

/-- The defaults of 30_encoding R104. -/
def typeCodes : TypeCodes where
  normal := 1
  setup := 2
  data := 3
  status := 4
  link := 6
  eventData := 7
  noopXfer := 8
  enableSlot := 9
  disableSlot := 10
  addressDevice := 11
  configureEndpoint := 12
  evaluateContext := 13
  resetEndpoint := 14
  setTrDequeue := 16
  resetDevice := 17
  noopCmd := 23
  transferEvent := 32
  cmdCompletion := 33
  portStatusChange := 34

/-- Every type code. -/
def TypeCodes.all (c : TypeCodes) : List (BitVec 6) :=
  [c.normal, c.setup, c.data, c.status, c.link, c.eventData, c.noopXfer, c.enableSlot,
   c.disableSlot, c.addressDevice, c.configureEndpoint, c.evaluateContext, c.resetEndpoint,
   c.setTrDequeue, c.resetDevice, c.noopCmd, c.transferEvent, c.cmdCompletion,
   c.portStatusChange]

/-- The constraint of 92 D6: the codes are pairwise distinct. -/
abbrev TypeCodes.Distinct (c : TypeCodes) : Prop := c.all.Nodup

/-- The completion codes (30_encoding R125): a parameter, log 6. -/
structure CompletionCodes where
  success : BitVec 8
  shortPacket : BitVec 8
  usbTransactionError : BitVec 8
  trbError : BitVec 8
  stall : BitVec 8
  noSlots : BitVec 8
  slotNotEnabled : BitVec 8
  parameterError : BitVec 8
  contextStateError : BitVec 8
  deriving DecidableEq, Repr

/-- The defaults of 30_encoding R125. -/
def completionCodes : CompletionCodes where
  success := 1
  shortPacket := 13
  usbTransactionError := 4
  trbError := 5
  stall := 6
  noSlots := 9
  slotNotEnabled := 11
  parameterError := 17
  contextStateError := 19

/-- Every completion code. -/
def CompletionCodes.all (c : CompletionCodes) : List (BitVec 8) :=
  [c.success, c.shortPacket, c.usbTransactionError, c.trbError, c.stall, c.noSlots,
   c.slotNotEnabled, c.parameterError, c.contextStateError]

/-- The constraint of 92 D7: the codes are pairwise distinct. -/
abbrev CompletionCodes.Distinct (c : CompletionCodes) : Prop := c.all.Nodup

/-- The register positions the source names only in words (30_encoding R110): a parameter, log 5.
A field of more than one bit is given by its lowest bit. USBCMD.RS 0, USBCMD.INTE 2, PORTSC.Speed
[13:10] and ERDP.EHB 3 are the source's and are not parameters. -/
structure BitPos where
  usbcmdHcrst : Nat
  usbstsHch : Nat
  usbstsCnr : Nat
  crcrRcs : Nat
  maxSlotsEnLo : Nat
  portscCcs : Nat
  portscPed : Nat
  portscPr : Nat
  imanIp : Nat
  imanIe : Nat
  erstszLo : Nat
  dbTargetLo : Nat
  deriving DecidableEq, Repr

/-- The defaults of 30_encoding R110. -/
def bitPos : BitPos where
  usbcmdHcrst := 1
  usbstsHch := 0
  usbstsCnr := 11
  crcrRcs := 0
  maxSlotsEnLo := 0
  portscCcs := 0
  portscPed := 1
  portscPr := 4
  imanIp := 0
  imanIe := 1
  erstszLo := 0
  dbTargetLo := 0

/-- The constraint of 92 D5: within one register the positions are bits of the register,
pairwise distinct and distinct from the source-given ones. CRCR.RCS stands below the pointer
field [63:6] of 30_encoding R115; MaxSlotsEn, the ERSTSZ count and the doorbell target, of 8, 16
and 8 bits, lie within a dword. -/
abbrev BitPos.Distinct (b : BitPos) : Prop :=
  (b.usbcmdHcrst < 32 ∧ b.usbcmdHcrst ≠ 0 ∧ b.usbcmdHcrst ≠ 2) ∧
  (b.usbstsHch < 32 ∧ b.usbstsCnr < 32 ∧ b.usbstsHch ≠ b.usbstsCnr) ∧
  b.crcrRcs < 6 ∧ b.maxSlotsEnLo ≤ 24 ∧ b.erstszLo ≤ 16 ∧ b.dbTargetLo ≤ 24 ∧
  (b.portscCcs < 32 ∧ b.portscPed < 32 ∧ b.portscPr < 32 ∧
    [b.portscCcs, b.portscPed, b.portscPr, 10, 11, 12, 13].Nodup) ∧
  (b.imanIp < 32 ∧ b.imanIe < 32 ∧ b.imanIp ≠ b.imanIe)

/-- A field of a context: a dword index, the lowest bit and the width. -/
structure CtxField where
  dword : Nat
  lo : Nat
  width : Nat
  deriving DecidableEq, Repr

/-- Where the abstract fields of the contexts stand (30_encoding R131): a parameter, log 7. -/
structure CtxLayout where
  /-- input control sub-context: the drop marks, and the add marks of slot and endpoint 0 -/
  drop : CtxField
  addSlot : CtxField
  addEp0 : CtxField
  /-- slot context -/
  route : CtxField
  speed : CtxField
  endpointCount : CtxField
  rootPort : CtxField
  usbAddress : CtxField
  slotState : CtxField
  /-- endpoint-0 context -/
  epState : CtxField
  epType : CtxField
  maxPacket : CtxField
  /-- dword index of the 64-bit ring pointer, and its bit that holds the cycle state -/
  trDequeue : Nat
  dcsBit : Nat
  /-- the values of slot_state Addressed, ep_state Running and endpoint type control -/
  addressed : Dword
  epRunning : Dword
  control : Dword
  deriving DecidableEq, Repr

/-- The positions 93 G9 gives. -/
def ctxLayout : CtxLayout where
  drop := ⟨0, 0, 32⟩
  addSlot := ⟨1, 0, 1⟩
  addEp0 := ⟨1, 1, 1⟩
  route := ⟨0, 0, 20⟩
  speed := ⟨0, 20, 4⟩
  endpointCount := ⟨0, 27, 5⟩
  rootPort := ⟨1, 16, 8⟩
  usbAddress := ⟨3, 0, 8⟩
  slotState := ⟨3, 27, 5⟩
  epState := ⟨0, 0, 3⟩
  epType := ⟨1, 3, 3⟩
  maxPacket := ⟨1, 16, 16⟩
  trDequeue := 2
  dcsBit := 0
  addressed := 2
  epRunning := 1
  control := 4

/-- The dword `k` lies in a context of `size` bytes. -/
abbrev InContext (size k : Nat) : Prop := 4 * k + 4 ≤ size

/-- Every field lies in a context of `size` bytes (30_encoding R131). -/
abbrev CtxLayout.Fits (l : CtxLayout) (size : Nat) : Prop :=
  (∀ f ∈ [l.drop, l.addSlot, l.addEp0, l.route, l.speed, l.endpointCount, l.rootPort,
    l.usbAddress, l.slotState, l.epState, l.epType, l.maxPacket], InContext size f.dword) ∧
  InContext size (l.trDequeue + 1)

/-- The maximum packet size of endpoint 0 for each decoded speed (44_commands R311, 93 G9):
a parameter, log 7. -/
structure MaxPacket where
  low : Dword
  full : Dword
  high : Dword
  super : Dword
  deriving DecidableEq, Repr

/-- The values 93 G9 gives; for Full-Speed it gives 8 to 64. -/
def maxPacket : MaxPacket where
  low := 8
  full := 8
  high := 64
  super := 512

/-- The implementation parameters of 00_scope R8: the constants the capability block reports and
the tables the spec leaves open. No step changes them. -/
structure Params where
  caplength : BitVec 8
  hciversion : BitVec 16
  maxSlots : BitVec 8
  maxIntrs : BitVec 11
  maxPorts : BitVec 8
  dboff : Dword
  rtsoff : Dword
  /-- bits [15:8] of the first capability dword and [23:19] of HCSPARAMS1, which no rule names
  (40_register_access R157) -/
  capRsvd : BitVec 8
  hcsRsvd : BitVec 5
  ctxSize : Nat
  devTableSize : Nat
  tt : TypeCodes
  cc : CompletionCodes
  bitpos : BitPos
  ctx : CtxLayout
  mps : MaxPacket
  deriving DecidableEq, Repr

/-- The instance of 95_test_vectors section 1 with the spec's defaults (log 3). -/
def params : Params where
  caplength := 0x20
  hciversion := 0x0100
  maxSlots := 32
  maxIntrs := 1
  maxPorts := 4
  dboff := 0x2000
  rtsoff := 0x1000
  capRsvd := 0
  hcsRsvd := 0
  ctxSize := 32
  devTableSize := 33
  tt := typeCodes
  cc := completionCodes
  bitpos := bitPos
  ctx := ctxLayout
  mps := maxPacket

/-- The intervals `[a, b)` and `[c, d)` do not meet. -/
abbrev Apart (a b c d : Nat) : Prop := b ≤ c ∨ d ≤ a

/-- The constraints of 92 D5, D6, D7, D27, D34 and D38 on the parameters: code tables distinct,
`CTX_SIZE` a multiple of 32, `DEV_TABLE_SIZE >= 2`, and the four register blocks, sized by the
registers the spec defines, apart. -/
abbrev Params.Ok (c : Params) : Prop :=
  c.tt.Distinct ∧ c.cc.Distinct ∧ c.bitpos.Distinct ∧
  (32 ≤ c.ctxSize ∧ c.ctxSize % 32 = 0 ∧ 2 ≤ c.devTableSize) ∧
  (0x1C ≤ c.caplength.toNat ∧ c.caplength.toNat % 4 = 0) ∧
  c.rtsoff.toNat % 32 = 0 ∧ c.dboff.toNat % 4 = 0 ∧ 1 ≤ c.maxIntrs.toNat ∧
  Apart c.caplength.toNat (c.caplength.toNat + portBase + portStride * c.maxPorts.toNat)
    (c.rtsoff.toNat + 0x20) (c.rtsoff.toNat + 0x40) ∧
  Apart c.caplength.toNat (c.caplength.toNat + portBase + portStride * c.maxPorts.toNat)
    c.dboff.toNat (c.dboff.toNat + 4 * (c.maxSlots.toNat + 1)) ∧
  Apart (c.rtsoff.toNat + 0x20) (c.rtsoff.toNat + 0x40)
    c.dboff.toNat (c.dboff.toNat + 4 * (c.maxSlots.toNat + 1)) ∧
  0x1C ≤ c.rtsoff.toNat + 0x20 ∧ 0x1C ≤ c.dboff.toNat

/-- The stage of a control transfer an error answer names (45_control_transfer R355). -/
inductive Stage where
  | setup
  | data
  | status
  deriving DecidableEq, Repr

/-- The two failure codes a bus transaction can end with (45_control_transfer R355). -/
inductive BusError where
  | stall
  | transaction
  deriving DecidableEq, Repr

/-- A device's answer to one control transfer, drawn by ENV (45_control_transfer R356). -/
inductive ControlAnswer where
  /-- every stage answered; for an IN transfer, the bytes -/
  | ok (data : List Byte)
  /-- `m` bytes, then the end of the Data stage (R354) -/
  | short (m : Nat) (data : List Byte)
  /-- the stage that failed, and how (R355) -/
  | error (stage : Stage) (code : BusError)
  deriving DecidableEq, Repr, Inhabited

/-- FREE VALUE (log 8): a dword the spec leaves open: reserved bits, CRCR and doorbell reads
(93 U1, U7, U8), and which member of a set a draw takes (93 U18). -/
opaque freeDword : Nat → BitVec 32
/-- FREE VALUE (log 8): a byte the spec leaves open, by draw and by place: the buffer after a failed
stage of an IN transfer (93 U11), freed memory (70 R432), bytes a device's answer does not list. -/
opaque freeByte : Nat → Nat → BitVec 8
/-- FREE VALUE (log 13): the outcome of a set-address transaction (44_commands R314). -/
opaque freeSetAddress : Nat → Bool
/-- FREE VALUE (log 13): a device's answer to a control transfer (45_control_transfer R356). -/
opaque freeControl : Nat → ControlAnswer

end Sys2Proof.Config
end

