-- ==== Sys2Proof/Syntax.lean ====
section
/-! DEFINITION. The operations of the hardware: one constructor per row of spec/opcode_table.json
(00_scope R14), and the structures they carry. -/

namespace Sys2Proof

/-- The four register blocks (10_state R20). -/
inductive RegBlock where
  | cap
  | op
  | rt
  | db
  deriving DecidableEq, Repr

/-- The four dwords of the capability block (10_state R21 to R25). -/
inductive CapReg where
  | cap0
  | hcsparams1
  | dboff
  | rtsoff
  deriving DecidableEq, Repr

/-- A Transfer Request Block as stored: parameter, status, control (30_encoding R100). -/
structure Trb where
  parameter : Qword
  status : Dword
  control : Dword
  deriving DecidableEq, Repr

/-- The named fields of a Setup-stage TRB (30_encoding R126). -/
structure SetupTrb where
  packet : Qword
  length : BitVec 17
  idt : Bool
  trt : BitVec 2
  cycle : Bool
  deriving DecidableEq, Repr

/-- The named fields of a Data-stage TRB (30_encoding R127). -/
structure DataTrb where
  buffer : Addr
  length : BitVec 17
  dir : Bool
  cycle : Bool
  deriving DecidableEq, Repr

/-- The named fields of a Status-stage TRB (30_encoding R129). -/
structure StatusTrb where
  dir : Bool
  ioc : Bool
  cycle : Bool
  deriving DecidableEq, Repr

/-- The fields of a Transfer Event (30_encoding R109). -/
structure TransferEvent where
  trbPtr : Qword
  code : BitVec 8
  residual : BitVec 24
  slot : SlotId
  ep : BitVec 5
  cycle : Bool
  deriving DecidableEq, Repr

/-- The fields of a Command Completion Event (30_encoding R107). -/
structure CompletionEvent where
  trbPtr : Qword
  code : BitVec 8
  slot : SlotId
  cycle : Bool
  deriving DecidableEq, Repr

/-- The fields of a Port Status Change Event (30_encoding R108). -/
structure PortEvent where
  portNum : BitVec 8
  code : BitVec 8
  cycle : Bool
  deriving DecidableEq, Repr

/-- The five parts of a USB setup packet (30_encoding R130). -/
structure SetupPacket where
  bmRequestType : BitVec 8
  bRequest : BitVec 8
  wValue : BitVec 16
  wIndex : BitVec 16
  wLength : BitVec 16
  deriving DecidableEq, Repr

/-- The port a host enumerates and the speed code it read there: what it puts into the device
record after a successful Enable Slot (44_commands R306, R328 step 5; log 24). -/
structure PortBinding where
  port : PortIx
  speed : BitVec 4
  deriving DecidableEq, Repr

/-- The consumer that fetches a TRB, and so the ring the TRB stands on (30_encoding R103). -/
inductive RingSel where
  | cmd
  | xfer (slot : SlotId)
  | evt
  deriving DecidableEq, Repr

/-- A step of an agent other than the host, as it may fall between two host accesses
(42_lifecycle R237, 00_scope R4): the steps of XHC and the moves of ENV. -/
inductive CtlMove where
  | halt
  | resetComplete
  | ready
  | start
  | command
  | transfer (slot : SlotId)
  | portAttach (p : PortIx) (speed : BitVec 4)
  | portDetach (p : PortIx)
  | portResetComplete (p : PortIx)
  | portEvent (p : PortIx)
  deriving DecidableEq, Repr

/-- One constructor per row of spec/opcode_table.json, in its order. -/
inductive Instr where
  -- ACCESS, PSEUDO, PCI
  | rd32 (b : RegBlock) (off : Dword)
  | wr32 (b : RegBlock) (off v : Dword)
  | rd64 (b : RegBlock) (off : Dword)
  | wr64 (b : RegBlock) (off : Dword) (v : Qword)
  | set32 (b : RegBlock) (off m : Dword)
  | clr32 (b : RegBlock) (off m : Dword)
  | poll (b : RegBlock) (off mask want : Dword)
  | ringCmd
  | ringEp0 (slot : SlotId)
  | cfgRead (bus : BitVec 8) (device : BitVec 5) (function : BitVec 3) (offset : BitVec 8)
  -- REG32
  | rdCap0
  | rdHcsparams1
  | rdDboff
  | rdRtsoff
  | wrCap (r : CapReg) (v : Dword)
  | rdUsbcmd
  | wrUsbcmd (v : Dword)
  | rdUsbsts
  | wrUsbsts (v : Dword)
  | rdCrcrLo
  | rdCrcrHi
  | wrCrcrLo (v : Dword)
  | wrCrcrHi (v : Dword)
  | rdDcbaapLo
  | rdDcbaapHi
  | wrDcbaapLo (v : Dword)
  | wrDcbaapHi (v : Dword)
  | rdConfig
  | wrConfig (v : Dword)
  | rdPortsc (p : PortIx)
  | wrPortsc (p : PortIx) (v : Dword)
  | rdIman
  | wrIman (v : Dword)
  | rdErstsz
  | wrErstsz (v : Dword)
  | rdErstbaLo
  | rdErstbaHi
  | wrErstbaLo (v : Dword)
  | wrErstbaHi (v : Dword)
  | rdErdpLo
  | rdErdpHi
  | wrErdpLo (v : Dword)
  | wrErdpHi (v : Dword)
  | wrDb0 (v : Dword)
  | wrDbi (i : SlotId) (v : Dword)
  | rdDb (i : SlotId)
  | undefinedOffset (b : RegBlock) (off : Dword) (write : Option Dword)
  -- TRB.command, as the command engine consumes them
  | cmdNoop (cycle : Bool)
  | cmdEnableSlot (cycle : Bool)
  | cmdAddressDevice (slot : SlotId) (ictx : Addr) (cycle : Bool)
  | cmdDisableSlot (slot : SlotId) (cycle : Bool)
  | cmdConfigureEndpoint (slot : SlotId) (ictx : Addr) (cycle : Bool)
  | cmdEvaluateContext (slot : SlotId) (ictx : Addr) (cycle : Bool)
  | cmdResetEndpoint (slot : SlotId) (ep : BitVec 5) (cycle : Bool)
  | cmdSetTrDequeue (slot : SlotId) (ep : BitVec 5) (ptr : Qword) (cycle : Bool)
  | cmdResetDevice (slot : SlotId) (cycle : Bool)
  | cmdLink (t : Trb)
  | cmdOther (t : Trb)
  -- TRB.transfer, as slot i's transfer engine consumes them
  | xferSetup (i : SlotId) (t : SetupTrb)
  | xferData (i : SlotId) (t : DataTrb)
  | xferStatus (i : SlotId) (t : StatusTrb)
  | xferNormal (i : SlotId) (t : Trb)
  | xferLink (i : SlotId) (t : Trb)
  | xferEventData (i : SlotId) (t : Trb)
  | xferNoop (i : SlotId) (t : Trb)
  -- TRB.event, as the host consumes them
  | evTransfer (e : TransferEvent)
  | evCmdCompletion (e : CompletionEvent)
  | evPortStatusChange (e : PortEvent)
  | evOther (t : Trb)
  -- HOST
  | discover
  | parseCapabilities
  | resetController
  | startController
  | discoverAndStart
  | allocate (n : Nat)
  | initCommandRing
  | initEventRing
  | postCommand (t : Trb)
  | processEvents
  | probePorts
  | decodeSpeed (code : BitVec 4)
  | resetPort (p : PortIx)
  | enableSlot
  | onEnableSlotCompletion (bind : Option PortBinding)
  | addressDevice (n : SlotId)
  | fillInputContext (ic : Addr) (n : SlotId)
  | onAddressDeviceCompletion (n : SlotId)
  | controlTransfer (k : SlotId) (setup : SetupPacket) (buf : Addr)
  | ep0Enqueue (k : SlotId) (t : Trb)
  | onTransferCompletion (k : SlotId) (len : Dword)
  -- XHC.STEP
  | xhcHalt
  | xhcResetBegin
  | xhcResetComplete
  | xhcReady
  | xhcStart
  | xhcCommandStep
  | xhcRaiseEvent (e : Trb)
  | xhcTransferStep (i : SlotId)
  | xhcPortAttach (p : PortIx) (speed : BitVec 4)
  | xhcPortDetach (p : PortIx)
  | xhcPortResetComplete (p : PortIx)
  | xhcPortEvent (p : PortIx)
  deriving DecidableEq, Repr

end Sys2Proof
end

