-- ==== Sys2Proof/Decode.lean ====
section
/-! DEFINITION. The operation map (30_encoding R134): a TRB is selected by its type bits and the
ring it stands on, a register operation by its block, offset and direction. After the decoder, the
encoder, written from the same layouts (R105 to R109, R126 to R129, 20_memory R72). -/

namespace Sys2Proof

open Config

/-! ### The TRB record -/

/-- The cycle bit, `control[0]` (30_encoding R101, R102). -/
def Trb.cycle (t : Trb) : Bool := t.control.getLsbD 0

/-- The TRB type, `control[15:10]` (30_encoding R101, R102). -/
def Trb.typ (t : Trb) : BitVec 6 := t.control.extractLsb' 10 6

/-- The slot id of a command or an event, `control[31:24]` (30_encoding R106). -/
def Trb.slot (t : Trb) : SlotId := t.control.extractLsb' 24 8

/-- The endpoint id, `control[20:16]` (30_encoding R109, 44_commands R323). -/
def Trb.endpoint (t : Trb) : BitVec 5 := t.control.extractLsb' 16 5

/-- The completion code of an event, `status[31:24]` (30_encoding R125). -/
def Trb.code (t : Trb) : BitVec 8 := t.status.extractLsb' 24 8

/-- One bit as a one-bit vector. -/
def bit1 (b : Bool) : BitVec 1 := BitVec.ofBool b

/-- The 16 bytes of a TRB, lowest address first, little-endian (30_encoding R100, 20_memory R74). -/
def Trb.bytes (t : Trb) : List Byte :=
  (List.range 8).map (fun k => t.parameter.extractLsb' (8 * k) 8) ++
  (List.range 4).map (fun k => t.status.extractLsb' (8 * k) 8) ++
  (List.range 4).map (fun k => t.control.extractLsb' (8 * k) 8)

/-- Why the decoder rejects. -/
inductive DecodeError where
  /-- fewer than 16 bytes (30_encoding R136) -/
  | tooShort
  /-- a register access that is not an aligned dword (20_memory R77) -/
  | misaligned
  /-- a type that has no place on an endpoint-0 ring (30_encoding R135 (c)) -/
  | notOnTransferRing (typ : BitVec 6)
  deriving DecidableEq, Repr

/-- A TRB from the first 16 bytes, with the bytes that follow. -/
def Trb.ofBytes : List Byte → Except DecodeError (Trb × List Byte)
  | p0 :: p1 :: p2 :: p3 :: p4 :: p5 :: p6 :: p7 :: s0 :: s1 :: s2 :: s3 ::
    c0 :: c1 :: c2 :: c3 :: rest =>
    .ok (⟨p7 ++ p6 ++ p5 ++ p4 ++ p3 ++ p2 ++ p1 ++ p0, s3 ++ s2 ++ s1 ++ s0,
          c3 ++ c2 ++ c1 ++ c0⟩, rest)
  | _ => .error .tooShort

/-! ### Fields of the transfer and event TRBs -/

/-- The fields of a Setup-stage TRB (30_encoding R126). -/
def SetupTrb.ofTrb (t : Trb) : SetupTrb :=
  ⟨t.parameter, t.status.extractLsb' 0 17, t.control.getLsbD 6, t.control.extractLsb' 16 2,
   t.cycle⟩

/-- A Setup-stage TRB (30_encoding R126). -/
def SetupTrb.toTrb (c : TypeCodes) (t : SetupTrb) : Trb :=
  ⟨t.packet, 0#15 ++ t.length,
   0#14 ++ t.trt ++ c.setup ++ 0#3 ++ bit1 t.idt ++ 0#5 ++ bit1 t.cycle⟩

/-- The fields of a Data-stage TRB (30_encoding R127). -/
def DataTrb.ofTrb (t : Trb) : DataTrb :=
  ⟨t.parameter, t.status.extractLsb' 0 17, t.control.getLsbD 16, t.cycle⟩

/-- A Data-stage TRB (30_encoding R127). -/
def DataTrb.toTrb (c : TypeCodes) (t : DataTrb) : Trb :=
  ⟨t.buffer, 0#15 ++ t.length, 0#15 ++ bit1 t.dir ++ c.data ++ 0#9 ++ bit1 t.cycle⟩

/-- The fields of a Status-stage TRB (30_encoding R129). -/
def StatusTrb.ofTrb (t : Trb) : StatusTrb :=
  ⟨t.control.getLsbD 16, t.control.getLsbD 5, t.cycle⟩

/-- A Status-stage TRB (30_encoding R129). -/
def StatusTrb.toTrb (c : TypeCodes) (t : StatusTrb) : Trb :=
  ⟨0, 0, 0#15 ++ bit1 t.dir ++ c.status ++ 0#4 ++ bit1 t.ioc ++ 0#4 ++ bit1 t.cycle⟩

/-- The fields of a Transfer Event (30_encoding R109, 41_ring_protocol R218). -/
def TransferEvent.ofTrb (t : Trb) : TransferEvent :=
  ⟨t.parameter, t.code, t.status.extractLsb' 0 24, t.slot, t.endpoint, t.cycle⟩

/-- A Transfer Event (30_encoding R109). -/
def TransferEvent.toTrb (c : TypeCodes) (e : TransferEvent) : Trb :=
  ⟨e.trbPtr, e.code ++ e.residual,
   e.slot ++ 0#3 ++ e.ep ++ c.transferEvent ++ 0#9 ++ bit1 e.cycle⟩

/-- The fields of a Command Completion Event; the pointer is `parameter` with its low four bits
cleared (30_encoding R107, 41_ring_protocol R218). -/
def CompletionEvent.ofTrb (t : Trb) : CompletionEvent :=
  ⟨t.parameter &&& ~~~0xF#64, t.code, t.slot, t.cycle⟩

/-- A Command Completion Event (30_encoding R107). -/
def CompletionEvent.toTrb (c : TypeCodes) (e : CompletionEvent) : Trb :=
  ⟨e.trbPtr &&& ~~~0xF#64, e.code ++ 0#24,
   e.slot ++ 0#8 ++ c.cmdCompletion ++ 0#9 ++ bit1 e.cycle⟩

/-- The fields of a Port Status Change Event (30_encoding R108). -/
def PortEvent.ofTrb (t : Trb) : PortEvent :=
  ⟨t.parameter.extractLsb' 24 8, t.code, t.cycle⟩

/-- A Port Status Change Event (30_encoding R108). -/
def PortEvent.toTrb (c : TypeCodes) (e : PortEvent) : Trb :=
  ⟨0#32 ++ e.portNum ++ 0#24, e.code ++ 0#24,
   0#16 ++ c.portStatusChange ++ 0#9 ++ bit1 e.cycle⟩

/-! ### Decoding a TRB by the ring it stands on -/

/-- The command ring (30_encoding R134, R135 (b)): the nine command codes, Link, and every other
code as one operation. -/
def decodeCmd (c : TypeCodes) (t : Trb) : Instr :=
  if t.typ = c.noopCmd then .cmdNoop t.cycle
  else if t.typ = c.enableSlot then .cmdEnableSlot t.cycle
  else if t.typ = c.addressDevice then .cmdAddressDevice t.slot t.parameter t.cycle
  else if t.typ = c.disableSlot then .cmdDisableSlot t.slot t.cycle
  else if t.typ = c.configureEndpoint then .cmdConfigureEndpoint t.slot t.parameter t.cycle
  else if t.typ = c.evaluateContext then .cmdEvaluateContext t.slot t.parameter t.cycle
  else if t.typ = c.resetEndpoint then .cmdResetEndpoint t.slot t.endpoint t.cycle
  else if t.typ = c.setTrDequeue then .cmdSetTrDequeue t.slot t.endpoint t.parameter t.cycle
  else if t.typ = c.resetDevice then .cmdResetDevice t.slot t.cycle
  else if t.typ = c.link then .cmdLink t
  else .cmdOther t

/-- Slot `i`'s endpoint-0 ring (30_encoding R134, R135 (c)). -/
def decodeXfer (c : TypeCodes) (i : SlotId) (t : Trb) : Except DecodeError Instr :=
  if t.typ = c.setup then .ok (.xferSetup i (.ofTrb t))
  else if t.typ = c.data then .ok (.xferData i (.ofTrb t))
  else if t.typ = c.status then .ok (.xferStatus i (.ofTrb t))
  else if t.typ = c.normal then .ok (.xferNormal i t)
  else if t.typ = c.link then .ok (.xferLink i t)
  else if t.typ = c.eventData then .ok (.xferEventData i t)
  else if t.typ = c.noopXfer then .ok (.xferNoop i t)
  else .error (.notOnTransferRing t.typ)

/-- The event ring, as the host reads it (30_encoding R134, R135 (a)). -/
def decodeEvt (c : TypeCodes) (t : Trb) : Instr :=
  if t.typ = c.transferEvent then .evTransfer (.ofTrb t)
  else if t.typ = c.cmdCompletion then .evCmdCompletion (.ofTrb t)
  else if t.typ = c.portStatusChange then .evPortStatusChange (.ofTrb t)
  else .evOther t

/-- A TRB on a ring. -/
def decodeTrb (c : TypeCodes) : RingSel → Trb → Except DecodeError Instr
  | .cmd, t => .ok (decodeCmd c t)
  | .xfer i, t => decodeXfer c i t
  | .evt, t => .ok (decodeEvt c t)

/-- The next TRB of a byte string, and the bytes after it: 16 bytes, always (30_encoding R136). -/
def decodeBytes (c : TypeCodes) (r : RingSel) (bs : List Byte) :
    Except DecodeError (Instr × List Byte) :=
  match Trb.ofBytes bs with
  | .error e => .error e
  | .ok (t, rest) =>
    match decodeTrb c r t with
    | .error e => .error e
    | .ok i => .ok (i, rest)

/-! ### Decoding a register access (20_memory R72) -/

/-- A dword access: a read, or a write of a value. -/
structure Access where
  block : RegBlock
  off : Dword
  write : Option Dword
  deriving DecidableEq, Repr

/-- The capability block (40_register_access R157). -/
def decodeCap (off : Dword) : Option Dword → Instr
  | none =>
    if off = 0x00 then .rdCap0 else if off = 0x04 then .rdHcsparams1
    else if off = 0x14 then .rdDboff else if off = 0x18 then .rdRtsoff
    else .undefinedOffset .cap off none
  | some v =>
    if off = 0x00 then .wrCap .cap0 v else if off = 0x04 then .wrCap .hcsparams1 v
    else if off = 0x14 then .wrCap .dboff v else if off = 0x18 then .wrCap .rtsoff v
    else .undefinedOffset .cap off (some v)

/-- The port index an operational offset names: `0x400 + 16 * p` with `p < MAX_PORTS`
(43_ports R270). -/
def portOfOffset (c : Params) (off : Dword) : Option PortIx :=
  let n := off.toNat
  if portBase ≤ n ∧ (n - portBase) % portStride = 0 ∧
      (n - portBase) / portStride < c.maxPorts.toNat
  then some (BitVec.ofNat 8 ((n - portBase) / portStride))
  else none

/-- The operational block (40_register_access R158 to R167). -/
def decodeOp (c : Params) (off : Dword) : Option Dword → Instr
  | none =>
    if off = 0x00 then .rdUsbcmd else if off = 0x04 then .rdUsbsts
    else if off = 0x18 then .rdCrcrLo else if off = 0x1C then .rdCrcrHi
    else if off = 0x30 then .rdDcbaapLo else if off = 0x34 then .rdDcbaapHi
    else if off = 0x38 then .rdConfig
    else match portOfOffset c off with
      | some p => .rdPortsc p
      | none => .undefinedOffset .op off none
  | some v =>
    if off = 0x00 then .wrUsbcmd v else if off = 0x04 then .wrUsbsts v
    else if off = 0x18 then .wrCrcrLo v else if off = 0x1C then .wrCrcrHi v
    else if off = 0x30 then .wrDcbaapLo v else if off = 0x34 then .wrDcbaapHi v
    else if off = 0x38 then .wrConfig v
    else match portOfOffset c off with
      | some p => .wrPortsc p v
      | none => .undefinedOffset .op off (some v)

/-- The runtime block (40_register_access R168 to R171). -/
def decodeRt (off : Dword) : Option Dword → Instr
  | none =>
    if off = 0x20 then .rdIman else if off = 0x28 then .rdErstsz
    else if off = 0x30 then .rdErstbaLo else if off = 0x34 then .rdErstbaHi
    else if off = 0x38 then .rdErdpLo else if off = 0x3C then .rdErdpHi
    else .undefinedOffset .rt off none
  | some v =>
    if off = 0x20 then .wrIman v else if off = 0x28 then .wrErstsz v
    else if off = 0x30 then .wrErstbaLo v else if off = 0x34 then .wrErstbaHi v
    else if off = 0x38 then .wrErdpLo v else if off = 0x3C then .wrErdpHi v
    else .undefinedOffset .rt off (some v)

/-- The doorbell index an offset names: `4 * i` with `i <= MAX_SLOTS` (10_state R39). -/
def doorbellOfOffset (c : Params) (off : Dword) : Option SlotId :=
  if off.toNat / 4 ≤ c.maxSlots.toNat then some (BitVec.ofNat 8 (off.toNat / 4)) else none

/-- The doorbell block (40_register_access R172, R173). -/
def decodeDb (c : Params) (off : Dword) : Option Dword → Instr
  | none =>
    match doorbellOfOffset c off with
    | some i => .rdDb i
    | none => .undefinedOffset .db off none
  | some v =>
    match doorbellOfOffset c off with
    | some i => if i = 0 then .wrDb0 v else .wrDbi i v
    | none => .undefinedOffset .db off (some v)

/-- The register operation an aligned dword access selects (30_encoding R134); an offset no rule
lists selects UNDEFINED_OFFSET (40_register_access R156). -/
def decodeAccess (c : Params) (a : Access) : Except DecodeError Instr :=
  if a.off.toNat % 4 ≠ 0 then .error .misaligned
  else match a.block with
    | .cap => .ok (decodeCap a.off a.write)
    | .op => .ok (decodeOp c a.off a.write)
    | .rt => .ok (decodeRt a.off a.write)
    | .db => .ok (decodeDb c a.off a.write)

/-! ### The encoder -/

/-- What selects an operation: a TRB on a ring, or a register access. -/
inductive Encoding where
  | trb (r : RingSel) (t : Trb)
  | access (a : Access)
  deriving DecidableEq, Repr

/-- The control dword of a command: slot id, endpoint id, type, cycle (30_encoding R105, R106,
44_commands R323). -/
def commandControl (slot : SlotId) (ep : BitVec 5) (ty : BitVec 6) (cycle : Bool) : Dword :=
  slot ++ 0#3 ++ ep ++ ty ++ 0#9 ++ bit1 cycle

/-- The offset of a capability dword (10_state R21 to R25). -/
def CapReg.offset : CapReg → Dword
  | .cap0 => 0x00
  | .hcsparams1 => 0x04
  | .dboff => 0x14
  | .rtsoff => 0x18

/-- The offset of a port register (43_ports R270). -/
def portOffset (p : PortIx) : Dword := BitVec.ofNat 32 (portBase + portStride * p.toNat)

/-- The offset of a doorbell (10_state R39). -/
def doorbellOffset (i : SlotId) : Dword := BitVec.ofNat 32 (4 * i.toNat)

/-- The TRB of a command operation and of a transfer or event operation, with its ring. -/
def encodeTrb (c : TypeCodes) : Instr → Option (RingSel × Trb)
  | .cmdNoop cy => some (.cmd, ⟨0, 0, commandControl 0 0 c.noopCmd cy⟩)
  | .cmdEnableSlot cy => some (.cmd, ⟨0, 0, commandControl 0 0 c.enableSlot cy⟩)
  | .cmdAddressDevice n ic cy => some (.cmd, ⟨ic, 0, commandControl n 0 c.addressDevice cy⟩)
  | .cmdDisableSlot n cy => some (.cmd, ⟨0, 0, commandControl n 0 c.disableSlot cy⟩)
  | .cmdConfigureEndpoint n ic cy =>
    some (.cmd, ⟨ic, 0, commandControl n 0 c.configureEndpoint cy⟩)
  | .cmdEvaluateContext n ic cy => some (.cmd, ⟨ic, 0, commandControl n 0 c.evaluateContext cy⟩)
  | .cmdResetEndpoint n ep cy => some (.cmd, ⟨0, 0, commandControl n ep c.resetEndpoint cy⟩)
  | .cmdSetTrDequeue n ep p cy => some (.cmd, ⟨p, 0, commandControl n ep c.setTrDequeue cy⟩)
  | .cmdResetDevice n cy => some (.cmd, ⟨0, 0, commandControl n 0 c.resetDevice cy⟩)
  | .cmdLink t => some (.cmd, t)
  | .cmdOther t => some (.cmd, t)
  | .xferSetup i t => some (.xfer i, t.toTrb c)
  | .xferData i t => some (.xfer i, t.toTrb c)
  | .xferStatus i t => some (.xfer i, t.toTrb c)
  | .xferNormal i t => some (.xfer i, t)
  | .xferLink i t => some (.xfer i, t)
  | .xferEventData i t => some (.xfer i, t)
  | .xferNoop i t => some (.xfer i, t)
  | .evTransfer e => some (.evt, e.toTrb c)
  | .evCmdCompletion e => some (.evt, e.toTrb c)
  | .evPortStatusChange e => some (.evt, e.toTrb c)
  | .evOther t => some (.evt, t)
  | _ => none

/-- The block, offset and direction of a register operation (20_memory R72). -/
def encodeAccess : Instr → Option Access
  | .rdCap0 => some ⟨.cap, 0x00, none⟩
  | .rdHcsparams1 => some ⟨.cap, 0x04, none⟩
  | .rdDboff => some ⟨.cap, 0x14, none⟩
  | .rdRtsoff => some ⟨.cap, 0x18, none⟩
  | .wrCap r v => some ⟨.cap, r.offset, some v⟩
  | .rdUsbcmd => some ⟨.op, 0x00, none⟩
  | .wrUsbcmd v => some ⟨.op, 0x00, some v⟩
  | .rdUsbsts => some ⟨.op, 0x04, none⟩
  | .wrUsbsts v => some ⟨.op, 0x04, some v⟩
  | .rdCrcrLo => some ⟨.op, 0x18, none⟩
  | .rdCrcrHi => some ⟨.op, 0x1C, none⟩
  | .wrCrcrLo v => some ⟨.op, 0x18, some v⟩
  | .wrCrcrHi v => some ⟨.op, 0x1C, some v⟩
  | .rdDcbaapLo => some ⟨.op, 0x30, none⟩
  | .rdDcbaapHi => some ⟨.op, 0x34, none⟩
  | .wrDcbaapLo v => some ⟨.op, 0x30, some v⟩
  | .wrDcbaapHi v => some ⟨.op, 0x34, some v⟩
  | .rdConfig => some ⟨.op, 0x38, none⟩
  | .wrConfig v => some ⟨.op, 0x38, some v⟩
  | .rdPortsc p => some ⟨.op, portOffset p, none⟩
  | .wrPortsc p v => some ⟨.op, portOffset p, some v⟩
  | .rdIman => some ⟨.rt, 0x20, none⟩
  | .wrIman v => some ⟨.rt, 0x20, some v⟩
  | .rdErstsz => some ⟨.rt, 0x28, none⟩
  | .wrErstsz v => some ⟨.rt, 0x28, some v⟩
  | .rdErstbaLo => some ⟨.rt, 0x30, none⟩
  | .rdErstbaHi => some ⟨.rt, 0x34, none⟩
  | .wrErstbaLo v => some ⟨.rt, 0x30, some v⟩
  | .wrErstbaHi v => some ⟨.rt, 0x34, some v⟩
  | .rdErdpLo => some ⟨.rt, 0x38, none⟩
  | .rdErdpHi => some ⟨.rt, 0x3C, none⟩
  | .wrErdpLo v => some ⟨.rt, 0x38, some v⟩
  | .wrErdpHi v => some ⟨.rt, 0x3C, some v⟩
  | .wrDb0 v => some ⟨.db, 0x00, some v⟩
  | .wrDbi i v => some ⟨.db, doorbellOffset i, some v⟩
  | .rdDb i => some ⟨.db, doorbellOffset i, none⟩
  | .undefinedOffset b off w => some ⟨b, off, w⟩
  | _ => none

/-- What selects an operation: `none` for the accesses by operand, the procedures and the steps,
which no bits select (30_encoding R134). -/
def encode (c : Params) (i : Instr) : Option Encoding :=
  match encodeTrb c.tt i with
  | some (r, t) => some (.trb r t)
  | none => (encodeAccess i).map .access

/-- The operation an encoding selects. -/
def decode (c : Params) : Encoding → Except DecodeError Instr
  | .trb r t => decodeTrb c.tt r t
  | .access a => decodeAccess c a

/-! ### One table word -/

/-- The ring a type is read on when the ring is not given (log 19): transfer types on slot 1's
ring, event types on the event ring, every other code, Link among them, on the command ring. -/
def ringOfType (c : TypeCodes) (ty : BitVec 6) : RingSel :=
  if ty ∈ [c.normal, c.setup, c.data, c.status, c.eventData, c.noopXfer] then .xfer 1
  else if ty ∈ [c.transferEvent, c.cmdCompletion, c.portStatusChange] then .evt
  else .cmd

/-- The TRB a row's word stands for: the table numbers the bits of the control dword, and
parameter and status are 0. -/
def tableTrb (nbits w : Nat) : Trb := ⟨0, 0, BitVec.ofNat 32 (w % 2 ^ nbits)⟩

/-- The instruction the decoder reads from the 16 bytes of a table row's word. -/
def decodeTableWord (nbits w : Nat) : Option Instr :=
  let t := tableTrb nbits w
  match decodeBytes typeCodes (ringOfType typeCodes t.typ) t.bytes with
  | .ok (i, _) => some i
  | .error _ => none

end Sys2Proof
end

