-- ==== Sys2Proof/Machine/State.lean ====
section
/-! DEFINITION. The state of host, controller and shared memory (10_state), as plain data, with the
reset values of 10_state R67 and 70_reset R410; the reasons a step can stop. Every field, its width,
its rule and its reset value are listed in INVENTORY.md under State. -/

namespace Sys2Proof.Machine

open Config

/-- System memory as (address, byte) pairs, addresses strictly rising, no entry equal to what an
unlisted address reads as (log 1). -/
abbrev Memory := List Host.Cell

/-- A table indexed by an 8-bit port index or slot id (log 38). -/
abbrev Tab (α : Type) := Vector α 256

/-- Operational registers (10_state R27 to R31). -/
structure OpRegs where
  rs : Bool
  inte : Bool
  hcrst : Bool
  hch : Bool
  cnr : Bool
  crcrLatch : Qword
  dcbaap : Qword
  maxSlotsEn : BitVec 8
  deriving DecidableEq, Repr

/-- Interrupter registers other than ERDP (10_state R34 to R36). -/
structure IntrRegs where
  ie : Bool
  ip : Bool
  erstsz : BitVec 16
  erstba : Qword
  deriving DecidableEq, Repr

/-- The command engine's working registers (10_state R41 to R43), and whether it has been loaded
from CRCR since reset, before which it fetches nothing (20_memory R85; log 49). -/
structure CmdEngine where
  base : Addr
  deq : Nat
  ccs : Bool
  running : Bool
  loaded : Bool
  deriving DecidableEq, Repr

/-- The event ring producer's working registers and the content of ERDP (10_state R37, R44 to
R47). -/
structure EvtProducer where
  base : Addr
  size : Nat
  enq : Nat
  pcs : Bool
  deqPtr : Addr
  ehb : Bool
  deriving DecidableEq, Repr

/-- One port: the fields of PORTSC and the port engine's record (10_state R32, R50). -/
structure Port where
  ccs : Bool
  ped : Bool
  pr : Bool
  speed : BitVec 4
  attached : Bool
  devSpeed : BitVec 4
  resetting : Bool
  pscPending : Bool
  deriving DecidableEq, Repr

/-- The state of a slot (10_state R49). -/
inductive SlotState where
  | disabled
  | enabled
  | addressed
  deriving DecidableEq, Repr

/-- The controller's record of a slot (10_state R49). -/
structure Slot where
  state : SlotState
  addr : BitVec 7
  ctx : Addr
  deriving DecidableEq, Repr

/-- The transfer engine's working registers for one slot (10_state R51). -/
structure XferRing where
  base : Addr
  deq : Nat
  ccs : Bool
  running : Bool
  deriving DecidableEq, Repr

/-- A ring record of the host; size 0 before allocation (10_state R60, R61, R64). -/
structure Ring where
  base : Addr
  enq : Nat
  deq : Nat
  cycle : Bool
  size : Nat
  deriving DecidableEq, Repr

/-- A per-slot device record of the host (10_state R62). -/
structure Dev where
  slotId : SlotId
  port : BitVec 8
  speed : BitVec 4
  address : BitVec 7
  devCtx : Addr
  inCtx : Addr
  inUse : Bool
  deriving DecidableEq, Repr

/-- `last_completion` (10_state R65). -/
structure LastCompletion where
  code : BitVec 8
  slotId : SlotId
  trbPtr : Qword
  valid : Bool
  deriving DecidableEq, Repr

/-- `last_transfer` (10_state R65). -/
structure LastTransfer where
  code : BitVec 8
  residual : BitVec 24
  slotId : SlotId
  ep : BitVec 5
  trbPtr : Qword
  valid : Bool
  deriving DecidableEq, Repr

/-- `last_port_change` (10_state R65). -/
structure LastPortChange where
  portNum : BitVec 8
  valid : Bool
  deriving DecidableEq, Repr

/-- The host's lifecycle state (10_state R63). -/
inductive HostLife where
  | uninitialized
  | resetting
  | ready
  | running
  | failed
  deriving DecidableEq, Repr

/-- The stage of a timeout (60_exceptions R370). -/
inductive TimeoutStage where
  | halt
  | reset
  | ready
  | start
  | portReset
  deriving DecidableEq, Repr

/-- What an allocation was for (60_exceptions R370). -/
inductive AllocWhat where
  | controller
  | dcbaa
  | ring
  | erst
  | context
  deriving DecidableEq, Repr

/-- Why a host procedure failed (60_exceptions R370); `slotIdRejected` is the failure of
44_commands R306 that has no reason of its own. -/
inductive FailReason where
  | notFound
  | timeout (stage : TimeoutStage)
  | allocationFailure (what : AllocWhat)
  | commandFailed (code : BitVec 8)
  | transferFailed (code : BitVec 8)
  | slotIdRejected (k : SlotId)
  deriving DecidableEq, Repr

/-- A decoded port speed (43_ports R274). -/
inductive Speed where
  | full
  | low
  | high
  | super
  | unknown
  deriving DecidableEq, Repr

/-- What a probe reports of one port (43_ports R272). -/
structure PortReport where
  connected : Bool
  enabled : Bool
  speed : Speed
  deriving DecidableEq, Repr

/-- What a host operation returns (60_exceptions R370; log 12). -/
inductive HostResult where
  | none
  | dword (v : Dword)
  | qword (v : Qword)
  | success
  | failure (r : FailReason)
  | bool (b : Bool)
  | found (bar0 : Addr)
  | ring (r : Ring)
  | slot (k : SlotId)
  | bytes (n : Dword)
  | speed (s : Speed)
  | ports (l : List PortReport)
  | pollSuccess (v : Dword)
  | pollTimeout (v : Dword)
  /-- the event the procedure observes has not been consumed yet (log 27) -/
  | waiting
  deriving DecidableEq, Repr

/-- The host's records (10_state R59 to R65). -/
structure HostRec where
  lifecycle : HostLife
  initialized : Bool
  running : Bool
  found : Bool
  basesFixed : Bool
  capBase : Addr
  opBase : Addr
  rtBase : Addr
  dbBase : Addr
  maxSlots : BitVec 8
  maxPorts : BitVec 8
  maxIntrs : BitVec 11
  hciVersion : BitVec 16
  cmd : Ring
  evt : Ring
  erst : Addr
  dcbaa : Addr
  dev : Tab Dev
  ep0 : Tab Ring
  lastCompletion : LastCompletion
  lastTransfer : LastTransfer
  lastPortChange : LastPortChange
  pollCount : Nat
  busAddr : Addr
  result : HostResult
  deriving DecidableEq, Repr

/-- What an allocated block holds (20_memory R96). -/
inductive BlockKind where
  | dcbaa
  | cmdRing
  | evtRing
  | erst
  | inCtx
  | devCtx
  | ep0Ring
  | ring
  deriving DecidableEq, Repr

/-- A block the allocator handed out (20_memory R84). -/
structure Block where
  base : Addr
  size : Nat
  kind : BlockKind
  deriving DecidableEq, Repr

/-- A PCI configuration word (20_memory R71). -/
structure PciWord where
  bus : BitVec 8
  device : BitVec 5
  function : BitVec 3
  offset : BitVec 8
  word : Dword
  deriving DecidableEq, Repr

/-- A range of memory handed over, and whether the controller is to fill it. -/
structure Region where
  base : Addr
  size : Nat
  isIn : Bool
  deriving DecidableEq, Repr

/-- What goes to the controller with one command (slot 0) or with one control transfer of a slot:
the `need` TRBs it takes and those of them stored so far, what waits for the doorbell, and what the
controller holds (70_reset R424; log 25). -/
structure HandOver where
  slot : SlotId
  need : Nat
  trbs : List Addr
  staged : List Region
  held : List Region
  deriving DecidableEq, Repr

/-- The DCBAA entry of a slot, at the address where the host installed it (70_reset R424; log 25). -/
structure DcbaaEntry where
  slot : SlotId
  addr : Addr
  deriving DecidableEq, Repr

/-- A consumer's place on a ring: the index of the next TRB it has not taken, and the cycle state it
expects there (41_ring_protocol R192). -/
structure RingPos where
  idx : Nat
  cycle : Bool
  deriving DecidableEq, Repr

/-- The model's own account of what is outstanding between host and controller: the controller's
place on the host's command ring and on each of its endpoint-0 rings, kept when an engine leaves the
ring (41_ring_protocol R199, 45_control_transfer R344), what is handed over, the oldest first, and
the DCBAA entries installed since the last controller reset (70_reset R424); logs 17 and 25. No occupancy is counted (41_ring_protocol R193). -/
structure Ledger where
  cmdPos : RingPos
  ep0Pos : Tab RingPos
  handed : List HandOver
  installed : List DcbaaEntry
  deriving DecidableEq, Repr

/-- The platform: its inputs, and the allocator's blocks (60_exceptions R393). -/
structure Platform where
  pci : List PciWord
  heapFull : Bool
  allocs : List (Option Addr)
  live : List Block
  freed : List Block
  deriving DecidableEq, Repr

/-- ENV's coming answers (44_commands R314, 45_control_transfer R356; log 13). -/
structure EnvIn where
  setAddress : List Bool
  control : List ControlAnswer
  deriving DecidableEq, Repr

/-- Which agent moves next (00_scope R3, R4; logs 9 and 10): the operations to be taken, the moves
that fall before the host's coming accesses, and the consumer that fetches when no operation
waits. -/
structure Sched where
  agenda : List Instr
  turns : List (List CtlMove)
  fetch : RingSel
  deriving DecidableEq, Repr

/-- The source of free values (log 8): values taken first, then the opaque constants of Config
applied to `count`. -/
structure FreeSrc where
  tape : List Dword
  count : Nat
  deriving DecidableEq, Repr

/-- The whole machine. -/
structure State where
  cfg : Params
  op : OpRegs
  intr : IntrRegs
  cr : CmdEngine
  er : EvtProducer
  ports : Tab Port
  slots : Tab Slot
  tr : Tab (Option XferRing)
  mem : Memory
  host : HostRec
  plat : Platform
  ledger : Ledger
  env : EnvIn
  sched : Sched
  free : FreeSrc
  deriving DecidableEq, Repr

/-- Why the machine stops with a fault: there is no reason. The host reports failures as values, the
controller by events, and no access faults (60_exceptions R370, R377, 20_memory R86; log 29). -/
inductive Fault where
  deriving DecidableEq, Repr

/-- Why an operation is refused. Every reason but `notModelled` is a `refuse` of the spec or of a
log entry; each is safe, because nothing follows from a run that stops. -/
inductive Refusal where
  /-- an instruction whose meaning has not been written -/
  | notModelled (mnemonic : String)
  /-- an offset with no register (40_register_access R156, 93 U2) -/
  | undefinedOffset
  /-- an access that is not an aligned dword (20_memory R77, 93 U14) -/
  | misalignedAccess
  /-- a block whose base the host does not know yet (40_register_access R154; log 26) -/
  | baseNotFixed
  /-- a register write while HCRST = 1 or CNR = 1 (40_register_access R175, 93 U4) -/
  | notReady
  /-- HCRST written on a running controller (40_register_access R159, 93 U3) -/
  | resetWhileRunning
  /-- a pointer with low bits that must be zero (20_memory R79, 93 U14) -/
  | misalignedPointer
  /-- CONFIG above MAX_SLOTS (40_register_access R165, 93 U13) -/
  | maxSlotsEnTooLarge
  /-- ERSTSZ above 1 when ERSTBA is loaded (40_register_access R168, 93 U13) -/
  | moreThanOneSegment
  /-- a segment of size 0 or above EVT_RING_SIZE (40_register_access R168, 93 U13) -/
  | segmentSize
  /-- a doorbell target the spec does not define (41_ring_protocol R203, 93 U9) -/
  | doorbellTarget
  /-- DISABLE_SLOT fetched (44_commands R320, 93 U5) -/
  | disableSlotUnspecified
  /-- CONFIGURE_ENDPOINT fetched (44_commands R321, 93 U5) -/
  | configureEndpointUnspecified
  /-- EVALUATE_CONTEXT fetched (44_commands R322, 93 U5) -/
  | evaluateContextUnspecified
  /-- RESET_ENDPOINT fetched (44_commands R323, 93 U5) -/
  | resetEndpointUnspecified
  /-- SET_TR_DEQUEUE fetched (44_commands R325, 93 U5) -/
  | setTrDequeueUnspecified
  /-- RESET_DEVICE fetched (44_commands R324, 93 U5) -/
  | resetDeviceUnspecified
  /-- a Link TRB on the command ring (41_ring_protocol R208, 44_commands R326, 93 U5) -/
  | linkOnCommandRing
  /-- a Link TRB on an endpoint-0 ring (45_control_transfer R359, 93 U5) -/
  | linkOnTransferRing
  /-- a Normal TRB on an endpoint-0 ring (45_control_transfer R358, 93 U5) -/
  | normalOnEp0
  /-- an Event Data TRB on an endpoint-0 ring (45_control_transfer R360, 93 U5) -/
  | eventDataOnEp0
  /-- a transfer No-Op on an endpoint-0 ring (45_control_transfer R360, 93 U5) -/
  | noopOnEp0
  /-- any other type on an endpoint-0 ring (45_control_transfer R360, 93 U6) -/
  | otherOnEp0
  /-- a shape the host's staging cannot produce (45_control_transfer R352, 93 U16) -/
  | transferShape
  /-- Address Device with DCBAA[N] zero or misaligned (44_commands R310, 93 U10) -/
  | badDeviceContext
  /-- posting to a full ring (41_ring_protocol R199, 45 R344, 70 R420, 93 U15) -/
  | ringOverrun
  /-- the host writing memory the controller owns (60_exceptions R390, 93 U17) -/
  | hostWritesControllerMemory
  /-- the controller made to write a structure the host owns: "A controller step never writes state
  it does not own" (60_exceptions R390; 20_memory R96; log 33) -/
  | controllerWritesHostMemory
  /-- the host changing a structure it has handed over, or reading the buffer of an IN transfer the
  controller holds (70_reset R424, 45_control_transfer R347, 93 U17; log 25) -/
  | handedOver
  /-- the controller, or the host, writing memory the host has freed and so no longer owns (70_reset
  R432, 93 U12; 60_exceptions R390, 93 U17, 91 N25; log 16) -/
  | freedMemory
  /-- a host write of DCBAA entry 0 (93 U28) -/
  | dcbaaEntryZero
  /-- a ring operation on a ring record that was never allocated (70_reset R417; log 26) -/
  | ringNotAllocated
  /-- an allocator answer that breaks its contract (20_memory R84; log 14) -/
  | allocatorContract
  deriving DecidableEq, Repr

/-- A port with no device, not in reset (10_state R67; log 34). -/
def Port.empty : Port := ⟨false, false, false, 0, false, 0, false, false⟩

/-- A disabled slot (10_state R67; log 34). -/
def Slot.disabled : Slot := ⟨.disabled, 0, 0⟩

/-- A ring record before allocation (log 34). -/
def Ring.unallocated : Ring := ⟨0, 0, 0, false, 0⟩

/-- A device record before use (10_state R62; log 34). -/
def Dev.unused : Dev := ⟨0, 0, 0, 0, 0, 0, false⟩

/-- The host before discovery (10_state R62, R63, R65; log 34). -/
def HostRec.initial : HostRec where
  lifecycle := .uninitialized
  initialized := false
  running := false
  found := false
  basesFixed := false
  capBase := 0
  opBase := 0
  rtBase := 0
  dbBase := 0
  maxSlots := 0
  maxPorts := 0
  maxIntrs := 0
  hciVersion := 0
  cmd := .unallocated
  evt := .unallocated
  erst := 0
  dcbaa := 0
  dev := Vector.replicate 256 .unused
  ep0 := Vector.replicate 256 .unallocated
  lastCompletion := ⟨0, 0, 0, false⟩
  lastTransfer := ⟨0, 0, 0, 0, 0, false⟩
  lastPortChange := ⟨0, false⟩
  pollCount := 0
  busAddr := 0
  result := .none

/-- The PCI function of 95_test_vectors section 1 (log 32). -/
def pciInstance : List PciWord :=
  [⟨0, 4, 0, 0x00, 0x12345678⟩, ⟨0, 4, 0, 0x08, 0x0C033001⟩, ⟨0, 4, 0, 0x10, 0xFEB00004⟩]

/-- A consumer's place on a new ring (41_ring_protocol R190). -/
def RingPos.start : RingPos := ⟨0, true⟩

/-- Nothing outstanding (logs 17 and 25). -/
def Ledger.empty : Ledger :=
  ⟨.start, Vector.replicate 256 .start, [], []⟩

/-- The operational registers after reset; CNR is 1 until the ready step (10_state R67). -/
def OpRegs.reset : OpRegs := ⟨false, false, false, true, true, 0, 0, 0⟩

/-- The interrupter after reset (10_state R67). -/
def IntrRegs.reset : IntrRegs := ⟨false, false, 0, 0⟩

/-- The command engine after reset (10_state R67). -/
def CmdEngine.reset : CmdEngine := ⟨0, 0, false, false, false⟩

/-- The event ring producer after reset (10_state R67). -/
def EvtProducer.reset : EvtProducer := ⟨0, 0, 0, true, 0, false⟩

/-- The machine at power-on: 10_state R67 with the controller NotReady (70_reset R410), and the
values the log names for what the spec leaves open. -/
def State.reset : State where
  cfg := params
  op := .reset
  intr := .reset
  cr := .reset
  er := .reset
  ports := Vector.replicate 256 .empty
  slots := Vector.replicate 256 .disabled
  tr := Vector.replicate 256 none
  mem := []
  host := .initial
  plat := ⟨pciInstance, false, [], [], []⟩
  ledger := .empty
  env := ⟨[], []⟩
  sched := ⟨[], [], .cmd⟩
  free := ⟨[], 0⟩

end Sys2Proof.Machine
end

