-- ==== Sys2Proof/Machine/Operands.lean ====
section
/-! DEFINITION. Operand forms: the halves of a 64-bit register, ring addresses and their advance,
register addresses, the bytes of dwords, context fields, and the words the host assembles
(30_encoding R133, R139). -/

namespace Sys2Proof

/-! ### Parts of TRBs and setup packets -/

/-- A TRB with its cycle bit set to `c` (41_ring_protocol R210). -/
def Trb.withCycle (t : Trb) (c : Bool) : Trb :=
  { t with control := (t.control &&& ~~~1#32) ||| (BitVec.ofBool c).setWidth 32 }

/-- The setup packet as a TRB parameter (30_encoding R130). -/
def SetupPacket.parameter (p : SetupPacket) : Qword :=
  p.wLength ++ p.wIndex ++ p.wValue ++ p.bRequest ++ p.bmRequestType

/-- Whether the transfer is device-to-host (30_encoding R130). -/
def SetupPacket.isIn (p : SetupPacket) : Bool := p.bmRequestType.getLsbD 7

/-- TRT of the Setup stage (45_control_transfer R340). -/
def SetupPacket.trt (p : SetupPacket) : BitVec 2 :=
  if p.wLength = 0 then 0 else if p.isIn then 3 else 2

/-- The transfer length a Setup-stage TRB asks for, `parameter[63:48]` (45_control_transfer
R352). -/
def Trb.setupLength (t : Trb) : BitVec 16 := t.parameter.extractLsb' 48 16

/-- TRT, `control[17:16]` (30_encoding R126). -/
def Trb.trt (t : Trb) : BitVec 2 := t.control.extractLsb' 16 2

/-- The TRBs a transfer takes: two without a Data stage, else three (45_control_transfer R350). -/
def Trb.stages (t : Trb) : Nat := if t.trt = 0 then 2 else 3

end Sys2Proof

namespace Sys2Proof.Config

/-! ### Fields of contexts (30_encoding R131) -/

/-- `width` low ones. -/
def lowOnes (width : Nat) : Dword := BitVec.ofNat 32 (2 ^ width - 1)

/-- The value of a field in a dword. -/
def CtxField.read (f : CtxField) (d : Dword) : Dword := (d >>> f.lo) &&& lowOnes f.width

/-- A dword with a field replaced. -/
def CtxField.write (f : CtxField) (d v : Dword) : Dword :=
  (d &&& ~~~(lowOnes f.width <<< f.lo)) ||| ((v &&& lowOnes f.width) <<< f.lo)

/-- `DEV_CTX_BYTES` (00_scope R8). -/
def Params.devCtxBytes (c : Params) : Nat := 33 * c.ctxSize

/-- `IN_CTX_BYTES` (00_scope R8). -/
def Params.inCtxBytes (c : Params) : Nat := 34 * c.ctxSize

end Sys2Proof.Config

namespace Sys2Proof.Machine

open Config

/-! ### Halves of a 64-bit value (20_memory R75) -/

/-- Bits [31:0]. -/
def lo32 (q : Qword) : Dword := q.extractLsb' 0 32

/-- Bits [63:32]. -/
def hi32 (q : Qword) : Dword := q.extractLsb' 32 32

/-- `q` with its low dword replaced. -/
def withLo (q : Qword) (v : Dword) : Qword := hi32 q ++ v

/-- `q` with its high dword replaced. -/
def withHi (q : Qword) (v : Dword) : Qword := v ++ lo32 q

/-! ### Rings -/

/-- The address of slot `k` of a ring (30_encoding R139). -/
def ringAddr (base : Addr) (k : Nat) : Addr := base + BitVec.ofNat 64 (16 * k)

/-- Advance with wrap (41_ring_protocol R191). -/
def advance (idx : Nat) (cyc : Bool) (size : Nat) : Nat × Bool :=
  if idx + 1 = size then (0, !cyc) else (idx + 1, cyc)

/-- Where the command engine's ring lies: its base with the low bits of the ring's alignment taken
as zero (20_memory R78, R79; log 42). -/
def CmdEngine.ringBase (c : CmdEngine) : Addr := c.base &&& ~~~0xFFF#64

/-- The command engine past one TRB (41_ring_protocol R206). -/
def CmdEngine.advanced (c : CmdEngine) : CmdEngine :=
  { c with deq := (advance c.deq c.ccs cmdRingSize).1, ccs := (advance c.deq c.ccs cmdRingSize).2 }

/-- The event producer past one event (41_ring_protocol R211). -/
def EvtProducer.advanced (e : EvtProducer) : EvtProducer :=
  { e with enq := (advance e.enq e.pcs e.size).1, pcs := (advance e.enq e.pcs e.size).2 }

/-- The host's producer past one TRB (41_ring_protocol R195, 45_control_transfer R342). -/
def Ring.enqAdvanced (r : Ring) : Ring :=
  { r with enq := (advance r.enq r.cycle r.size).1, cycle := (advance r.enq r.cycle r.size).2 }

/-- The host's consumer past one event (41_ring_protocol R216). -/
def Ring.deqAdvanced (r : Ring) : Ring :=
  { r with deq := (advance r.deq r.cycle r.size).1, cycle := (advance r.deq r.cycle r.size).2 }

/-- The position `n` slots after `(idx, cyc)` on an endpoint-0 ring (45_control_transfer R349). -/
def ep0After : Nat → Nat × Bool → Nat × Bool
  | 0, p => p
  | n + 1, p => ep0After n (advance p.1 p.2 ep0RingSize)

/-- Slot `n` of the transfer at the engine's dequeue index: its address and its cycle state. -/
def XferRing.slotAddr (r : XferRing) (n : Nat) : Addr :=
  ringAddr r.base (ep0After n (r.deq, r.ccs)).1

/-- The cycle state expected in slot `n` of the transfer (45_control_transfer R350). -/
def XferRing.slotCycle (r : XferRing) (n : Nat) : Bool := (ep0After n (r.deq, r.ccs)).2

/-- The transfer engine past `n` TRBs (45_control_transfer R350). -/
def XferRing.advanced (r : XferRing) (n : Nat) : XferRing :=
  { r with deq := (ep0After n (r.deq, r.ccs)).1, ccs := (ep0After n (r.deq, r.ccs)).2 }

/-- The command engine's place on its ring (41_ring_protocol R204). -/
def CmdEngine.pos (c : CmdEngine) : RingPos := ⟨c.deq, c.ccs⟩

/-- A transfer engine's place on its ring (45_control_transfer R349). -/
def XferRing.pos (r : XferRing) : RingPos := ⟨r.deq, r.ccs⟩

/-- How far a place lies from the start of a ring, over its two passes: the second pass has the
other cycle state (41_ring_protocol R191). -/
def ringPlace (idx : Nat) (cycle : Bool) (size : Nat) : Nat := if cycle then idx else size + idx

/-- The TRBs the producer of `r` has stored and a consumer at `p` has not taken: a function of the
two sides' indices and cycle states (41_ring_protocol R193, R223). -/
def Ring.outstanding (r : Ring) (p : RingPos) : Nat :=
  (ringPlace r.enq r.cycle r.size + 2 * r.size - ringPlace p.idx p.cycle r.size) % (2 * r.size)

/-! ### Registers -/

/-- The base of a block, as the host holds it (40_register_access R150). -/
def HostRec.base (h : HostRec) : RegBlock → Addr
  | .cap => h.capBase
  | .op => h.opBase
  | .rt => h.rtBase
  | .db => h.dbBase

/-- `base(B) + off` in 64 bits (40_register_access R154). -/
def HostRec.regAddr (h : HostRec) (b : RegBlock) (off : Dword) : Addr :=
  h.base b + off.setWidth 64

/-- Whether the host knows the base of a block (40_register_access R154). -/
def HostRec.baseKnown (h : HostRec) : RegBlock → Bool
  | .cap => h.found
  | .op | .rt | .db => h.basesFixed

/-- A single-bit mask. -/
def mask1 (n : Nat) : Dword := 1#32 <<< n

/-- A flag at a bit position of a dword. -/
def flagAt (b : Bool) (n : Nat) : Dword := if b then mask1 n else 0

/-- Bit `n` of a dword. -/
def bitOf (v : Dword) (n : Nat) : Bool := v.getLsbD n

/-- A field of a dword, from its lowest bit on. -/
def fieldOf (lo w : Nat) (v : Dword) : BitVec w := v.extractLsb' lo w

/-- A dword that holds a field and 0 elsewhere. -/
def fieldAt {w : Nat} (lo : Nat) (x : BitVec w) : Dword := x.setWidth 32 <<< lo

/-- The bits of a field. -/
def fieldMask (lo w : Nat) : Dword := lowOnes w <<< lo

/-- CONFIG.MaxSlotsEn of a written word (30_encoding R117). -/
def maxSlotsEnOf (b : BitPos) (v : Dword) : BitVec 8 := fieldOf b.maxSlotsEnLo 8 v

/-- The entry count of a written ERSTSZ (30_encoding R120). -/
def erstszOf (b : BitPos) (v : Dword) : BitVec 16 := fieldOf b.erstszLo 16 v

/-- The doorbell target of a written word (30_encoding R123). -/
def doorbellTargetOf (b : BitPos) (v : Dword) : BitVec 8 := fieldOf b.dbTargetLo 8 v

/-- The first capability dword's fields (30_encoding R114). -/
def capLength (v : Dword) : BitVec 8 := v.extractLsb' 0 8

/-- The interface version of the first capability dword (30_encoding R114). -/
def capVersion (v : Dword) : BitVec 16 := v.extractLsb' 16 16

/-- HCSPARAMS1.MaxSlots (30_encoding R113). -/
def hcsMaxSlots (v : Dword) : BitVec 8 := v.extractLsb' 0 8

/-- HCSPARAMS1.MaxIntrs (30_encoding R113). -/
def hcsMaxIntrs (v : Dword) : BitVec 11 := v.extractLsb' 8 11

/-- HCSPARAMS1.MaxPorts (30_encoding R113). -/
def hcsMaxPorts (v : Dword) : BitVec 8 := v.extractLsb' 24 8

/-- PORTSC.Speed, bits [13:10] (30_encoding R118). -/
def portSpeedOf (v : Dword) : BitVec 4 := v.extractLsb' 10 4

/-- BAR0 with its low 4 type bits cleared (30_encoding R124). -/
def bar0Of (v : Dword) : Addr := (v &&& 0xFFFFFFF0#32).setWidth 64

/-- Whether a class dword is that of an xHCI controller (42_lifecycle R231, 30_encoding R124). -/
def isXhciClass (v : Dword) : Bool := v.extractLsb' 8 24 == 0x0C0330#24

/-- The decoded speed (43_ports R274). -/
def decodedSpeed (s : BitVec 4) : Speed :=
  if s = 1 then .full else if s = 2 then .low else if s = 3 then .high
  else if s = 4 then .super else .unknown

/-- The report on one port from its register (43_ports R272). -/
def portReport (b : BitPos) (v : Dword) : PortReport :=
  ⟨bitOf v b.portscCcs, bitOf v b.portscPed, decodedSpeed (portSpeedOf v)⟩

/-! ### TRBs the agents assemble -/

/-- The control dword stored by a producer: the caller's with the cycle state OR-ed in
(41_ring_protocol R196). -/
def storedControl (control : Dword) (cycle : Bool) : Dword :=
  control ||| (BitVec.ofBool cycle).setWidth 32

/-- A Command Completion Event before its cycle bit (30_encoding R107). -/
def completionTrb (c : Params) (ptr : Addr) (code : BitVec 8) (slot : SlotId) : Trb :=
  CompletionEvent.toTrb c.tt ⟨ptr, code, slot, false⟩

/-- A Transfer Event for endpoint 0 before its cycle bit (30_encoding R109). -/
def transferTrb (c : Params) (ptr : Addr) (code : BitVec 8) (residual : BitVec 24)
    (slot : SlotId) : Trb :=
  TransferEvent.toTrb c.tt ⟨ptr, code, residual, slot, 1, false⟩

/-- A Port Status Change Event for port index `p` before its cycle bit (30_encoding R108). -/
def portTrb (c : Params) (p : PortIx) : Trb :=
  PortEvent.toTrb c.tt ⟨p + 1, c.cc.success, false⟩

/-- The Setup-stage TRB, cycle bit clear (45_control_transfer R340). -/
def setupStageTrb (c : TypeCodes) (p : SetupPacket) : Trb :=
  SetupTrb.toTrb c ⟨p.parameter, 8, true, p.trt, false⟩

/-- The Data-stage TRB, cycle bit clear (45_control_transfer R340). -/
def dataStageTrb (c : TypeCodes) (p : SetupPacket) (buf : Addr) : Trb :=
  DataTrb.toTrb c ⟨buf, p.wLength.setWidth 17, p.isIn, false⟩

/-- The Status-stage TRB, cycle bit clear (45_control_transfer R340). -/
def statusStageTrb (c : TypeCodes) (p : SetupPacket) : Trb :=
  StatusTrb.toTrb c ⟨p.wLength = 0 || !p.isIn, true, false⟩

/-- The TRBs of a control transfer, in order (45_control_transfer R340, R348). -/
def controlStages (c : TypeCodes) (p : SetupPacket) (buf : Addr) : List Trb :=
  if p.wLength = 0 then [setupStageTrb c p, statusStageTrb c p]
  else [setupStageTrb c p, dataStageTrb c p buf, statusStageTrb c p]

/-! ### Bytes and context fields -/

/-- The little-endian dword at byte `k` of a block (20_memory R74). -/
def dwordAt (bs : List Byte) (k : Nat) : Dword :=
  bs.getD (k + 3) 0 ++ bs.getD (k + 2) 0 ++ bs.getD (k + 1) 0 ++ bs.getD k 0

/-- A block with the dword at byte `k` replaced. -/
def putDwordAt (bs : List Byte) (k : Nat) (v : Dword) : List Byte :=
  (((bs.set k (v.extractLsb' 0 8)).set (k + 1) (v.extractLsb' 8 8)).set (k + 2)
    (v.extractLsb' 16 8)).set (k + 3) (v.extractLsb' 24 8)

/-- A field of a context held as bytes (30_encoding R131). -/
def ctxGet (bs : List Byte) (f : CtxField) : Dword := f.read (dwordAt bs (4 * f.dword))

/-- A context with a field replaced (30_encoding R131). -/
def ctxSet (bs : List Byte) (f : CtxField) (v : Dword) : List Byte :=
  putDwordAt bs (4 * f.dword) (f.write (dwordAt bs (4 * f.dword)) v)

/-- The transfer ring pointer field of an endpoint context, cycle state included. -/
def ctxDequeue (l : CtxLayout) (bs : List Byte) : Qword :=
  dwordAt bs (4 * l.trDequeue + 4) ++ dwordAt bs (4 * l.trDequeue)

/-- The dwords the host changes in an input context whose contexts take `c` bytes each, field by
field: the byte offset, and the new dword from the old (44_commands R311; log 46). -/
def inputUpdates (l : CtxLayout) (c : Nat) (d : Dev) (r : Ring) (packet : Dword) :
    List (Nat × (Dword → Dword)) :=
  let field := fun (k : Nat) (f : CtxField) (v : Dword) =>
    (k * c + 4 * f.dword, fun old => f.write old v)
  let p : Qword := r.base ||| (if r.cycle then 1#64 <<< l.dcsBit else 0)
  [field 0 l.drop 0, field 0 l.addSlot 1, field 0 l.addEp0 1,
   field 1 l.route 0, field 1 l.speed (d.speed.setWidth 32), field 1 l.endpointCount 1,
   field 1 l.rootPort (d.port.setWidth 32),
   (2 * c + 4 * l.trDequeue, fun _ => lo32 p), (2 * c + 4 * l.trDequeue + 4, fun _ => hi32 p),
   field 2 l.epType l.control, field 2 l.maxPacket packet]

/-- The slot context the controller writes back (44_commands R310, R315). -/
def addressedSlotCtx (l : CtxLayout) (a : BitVec 7) (bs : List Byte) : List Byte :=
  ctxSet (ctxSet bs l.usbAddress (a.setWidth 32)) l.slotState l.addressed

/-- The endpoint-0 context the controller writes back (44_commands R310, R315). -/
def runningEpCtx (l : CtxLayout) (bs : List Byte) : List Byte := ctxSet bs l.epState l.epRunning

/-- The ring pointer with its cycle state bit cleared (44_commands R313). -/
def ctxRingPointer (l : CtxLayout) (bs : List Byte) : Addr :=
  ctxDequeue l bs &&& ~~~(1#64 <<< l.dcsBit)

/-- The transfer engine's registers loaded from the endpoint-0 context (44_commands R313). -/
def loadedXferRing (l : CtxLayout) (bs : List Byte) : XferRing where
  base := ctxRingPointer l bs &&& ~~~(BitVec.ofNat 64 (trbSize * ep0RingSize - 1))
  deq := 0
  ccs := (ctxDequeue l bs).getLsbD l.dcsBit
  running := false

/-- The DCBAA entry of slot `n` (30_encoding R133). -/
def dcbaaEntry (dcbaap : Addr) (n : SlotId) : Addr := dcbaap + BitVec.ofNat 64 (8 * n.toNat)

/-- The maximum packet size of a speed code; none where no code is decoded (44_commands R311). -/
def packetSize (m : MaxPacket) (s : BitVec 4) : Option Dword :=
  match decodedSpeed s with
  | .low => some m.low
  | .full => some m.full
  | .high => some m.high
  | .super => some m.super
  | .unknown => none

/-! ### Blocks of memory -/

/-- The `m` bytes from `a` on and the `n` bytes from `b` on meet; addresses wrap (00_scope R11). -/
def rangesMeet (a : Addr) (m : Nat) (b : Addr) (n : Nat) : Bool :=
  0 < m && 0 < n && ((b - a).toNat < m || (a - b).toNat < n)

/-- The block and the range of `n` bytes at `a` meet. -/
def Block.meets (b : Block) (a : Addr) (n : Nat) : Bool := rangesMeet b.base b.size a n

/-- The region and the range of `n` bytes at `a` meet. -/
def Region.meets (r : Region) (a : Addr) (n : Nat) : Bool := rangesMeet r.base r.size a n

/-- The eight bytes of a DCBAA entry (10_state R56). -/
def DcbaaEntry.region (e : DcbaaEntry) : Region := ⟨e.addr, 8, false⟩

/-- What of a block lies outside the range of `n` bytes at `a`. -/
def Block.minus (b : Block) (a : Addr) (n : Nat) : List Block :=
  if b.meets a n then
    (if b.base.toNat < a.toNat then [{ b with size := a.toNat - b.base.toNat }] else []) ++
    (if a.toNat + n < b.base.toNat + b.size then
      [{ b with base := a + BitVec.ofNat 64 n, size := b.base.toNat + b.size - (a.toNat + n) }]
     else [])
  else [b]

/-- The regions the controller writes (20_memory R96). -/
def BlockKind.isController : BlockKind → Bool
  | .evtRing | .devCtx => true
  | .dcbaa | .cmdRing | .erst | .inCtx | .ep0Ring | .ring => false

/-- The regions the host writes (20_memory R96). A block of the Allocate row, kind `.ring`, is on
neither side until a register names it (41_ring_protocol R190): the model's choice (log 51, DESIGN
CHOICE). -/
def BlockKind.isHost : BlockKind → Bool
  | .dcbaa | .cmdRing | .erst | .inCtx | .ep0Ring => true
  | .evtRing | .devCtx | .ring => false

end Sys2Proof.Machine
end

