-- ==== Sys2Proof/Machine/Flags.lean ====
section
/-! DEFINITION. Every flag and every condition computed from the state: the register words with
their reserved bits open, the lifecycle and port states, the interrupt output, the room of the
event ring, and what enables each controller step. -/

namespace Sys2Proof.Machine

open Config

/-! ### Tables -/

/-- The entry at an index. -/
def Tab.get {α : Type} (t : Tab α) (i : BitVec 8) : α :=
  t[i.toNat]'(show i.toNat < 256 from i.isLt)

/-- The table with one entry replaced. -/
def Tab.put {α : Type} (t : Tab α) (i : BitVec 8) (v : α) : Tab α := Vector.set t i.toNat v i.isLt

/-- The table with a function applied to every entry. -/
def Tab.each {α : Type} (t : Tab α) (f : α → α) : Tab α :=
  ⟨(Vector.toList t |>.map f).toArray, by simp⟩

/-! ### Lifecycle (42_lifecycle R248) -/

/-- `hc.state` (10_state R48). -/
inductive LifeState where
  | halted
  | running
  | resetting
  | notReady
  deriving DecidableEq, Repr

/-- The lifecycle state of the three bits; none for a combination no run reaches
(42_lifecycle R248). -/
def OpRegs.lifecycle (o : OpRegs) : Option LifeState :=
  match o.hcrst, o.cnr, o.hch with
  | true, true, true => some .resetting
  | false, true, true => some .notReady
  | false, false, true => some .halted
  | false, false, false => some .running
  | _, _, _ => none

/-- Host writes are accepted (40_register_access R175). -/
def OpRegs.ready (o : OpRegs) : Bool := !o.hcrst && !o.cnr

/-! ### Ports (43_ports R279) -/

/-- The state of a port. -/
inductive PortState where
  | disconnected
  | connected
  | resetting
  | enabled
  deriving DecidableEq, Repr

/-- The state of a port from its register fields; none for a combination no run reaches. -/
def Port.state (p : Port) : Option PortState :=
  match p.ccs, p.ped, p.pr with
  | false, false, false => some .disconnected
  | true, false, false => some .connected
  | _, false, true => some .resetting
  | true, true, false => some .enabled
  | _, true, _ => none

/-! ### Register words -/

/-- A read value: the fields under `mask`, any value elsewhere (30_encoding R122). -/
def openBits (mask fields free : Dword) : Dword := (fields &&& mask) ||| (free &&& ~~~mask)

/-- USBCMD's fields (40_register_access R158). -/
def usbcmdFields (b : BitPos) (o : OpRegs) : Dword :=
  flagAt o.rs 0 ||| flagAt o.hcrst b.usbcmdHcrst ||| flagAt o.inte 2

/-- USBCMD's defined bits. -/
def usbcmdMask (b : BitPos) : Dword := mask1 0 ||| mask1 b.usbcmdHcrst ||| mask1 2

/-- USBSTS's fields (40_register_access R160). -/
def usbstsFields (b : BitPos) (o : OpRegs) : Dword :=
  flagAt o.hch b.usbstsHch ||| flagAt o.cnr b.usbstsCnr

/-- USBSTS's defined bits. -/
def usbstsMask (b : BitPos) : Dword := mask1 b.usbstsHch ||| mask1 b.usbstsCnr

/-- PORTSC's fields (40_register_access R166). -/
def portscFields (b : BitPos) (p : Port) : Dword :=
  flagAt p.ccs b.portscCcs ||| flagAt p.ped b.portscPed ||| flagAt p.pr b.portscPr |||
    (p.speed.setWidth 32 <<< 10)

/-- PORTSC's defined bits. -/
def portscMask (b : BitPos) : Dword :=
  mask1 b.portscCcs ||| mask1 b.portscPed ||| mask1 b.portscPr ||| 0x3C00#32

/-- IMAN's fields (40_register_access R169). -/
def imanFields (b : BitPos) (r : IntrRegs) : Dword := flagAt r.ip b.imanIp ||| flagAt r.ie b.imanIe

/-- IMAN's defined bits. -/
def imanMask (b : BitPos) : Dword := mask1 b.imanIp ||| mask1 b.imanIe

/-- ERDP's low dword: pointer [31:4] and EHB (40_register_access R170). -/
def erdpLoFields (e : EvtProducer) : Dword := (lo32 e.deqPtr &&& ~~~0xF#32) ||| flagAt e.ehb 3

/-- The first capability dword, the same at every read (40_register_access R157). -/
def cap0Word (c : Params) : Dword := c.hciversion ++ c.capRsvd ++ c.caplength

/-- HCSPARAMS1, the same at every read (10_state R23, 40_register_access R157). -/
def hcsWord (c : Params) : Dword := c.maxPorts ++ c.hcsRsvd ++ c.maxIntrs ++ c.maxSlots

/-- The interrupt request output (60_exceptions R384). -/
def State.irq (s : State) : Bool := s.intr.ip && s.intr.ie && s.op.inte

/-! ### The event ring (41_ring_protocol R213, 45_control_transfer R357) -/

/-- `EventRingHasRoom()` (R213); false of a ring of size 0, of which it is never asked (log 22). -/
def EvtProducer.hasRoom (e : EvtProducer) : Bool :=
  e.size != 0 && ringAddr e.base ((e.enq + 1) % e.size) != e.deqPtr

/-- `EventRingFree()` (R357): `x` is the unsigned slot distance of ERDP from the base (00_scope
R11), and the difference is taken modulo the ring's size; 0 of a ring of size 0 (log 22). -/
def EvtProducer.free (e : EvtProducer) : Nat :=
  if e.size = 0 then 0
  else ((e.deqPtr - e.base).toNat / 16 + (e.size - 1 - e.enq % e.size)) % e.size

/-- The producer has a ring and the controller runs (41_ring_protocol R212). -/
def State.eventsOn (s : State) : Bool := !s.op.hch && s.er.size != 0

/-- An event can be produced (41_ring_protocol R210, R213). -/
def State.canRaise (s : State) : Bool := s.eventsOn && s.er.hasRoom

/-! ### What enables the controller's steps -/

/-- The command engine's step (41_ring_protocol R204); nothing is fetched before CRCR is written
(20_memory R85; log 49). -/
def State.commandOn (s : State) : Bool := !s.op.hch && s.cr.running && s.cr.loaded

/-- Slot `i` is addressed. -/
def State.isAddressed (s : State) (i : SlotId) : Bool := (s.slots.get i).state == .addressed

/-- The transfer engine's registers when its step for slot `i` is enabled (45_control_transfer
R350). -/
def State.transferOn (s : State) (i : SlotId) : Option XferRing :=
  match s.tr.get i with
  | some r => if !s.op.hch && s.isAddressed i && r.running then some r else none
  | none => none

/-- The halt step (42_lifecycle R250). -/
def OpRegs.haltOn (o : OpRegs) : Bool := !o.hch && !o.rs

/-- The ready step (42_lifecycle R253). -/
def OpRegs.readyOn (o : OpRegs) : Bool := !o.hcrst && o.cnr

/-- The start step (42_lifecycle R254). -/
def OpRegs.startOn (o : OpRegs) : Bool := o.hch && !o.cnr && !o.hcrst && o.rs

/-- A port of this controller. -/
def State.hasPort (s : State) (p : PortIx) : Bool := p.toNat < s.cfg.maxPorts.toNat

/-- Port reset complete: `resetting = 1` (43_ports R280, R284), in a lifecycle state that allows it
(42_lifecycle R255; log 20). -/
def State.portResetOn (s : State) (p : PortIx) : Bool :=
  s.hasPort p && s.op.ready && (s.ports.get p).resetting

/-- The port event step (43_ports R286). -/
def State.portEventOn (s : State) (p : PortIx) : Bool :=
  s.hasPort p && (s.ports.get p).pscPending && s.canRaise

/-! ### Sets the draws are taken from -/

/-- The ids Enable Slot may hand out (44_commands R304). -/
def State.freeSlotIds (s : State) : List SlotId :=
  ((List.range s.op.maxSlotsEn.toNat).map fun k => BitVec.ofNat 8 (k + 1)).filter
    fun i => (s.slots.get i).state == .disabled

/-- The addresses held by addressed slots other than `n`, from index `k` on. -/
def heldAddresses (n : SlotId) : Nat → List Slot → List (BitVec 7)
  | _, [] => []
  | k, x :: r =>
    if k ≠ n.toNat ∧ x.state = .addressed then x.addr :: heldAddresses n (k + 1) r
    else heldAddresses n (k + 1) r

/-- The addresses Address Device may assign (44_commands R310). -/
def State.freeAddresses (s : State) (n : SlotId) : List (BitVec 7) :=
  let held := heldAddresses n 0 (Vector.toList s.slots)
  ((List.range 127).map fun k => BitVec.ofNat 7 (k + 1)).filter fun a => !held.contains a

/-- The port with a 1-based number, when there is one (44_commands R314). -/
def State.portNumbered (s : State) (n : Dword) : Option Port :=
  if 1 ≤ n.toNat ∧ n.toNat ≤ s.cfg.maxPorts.toNat then
    some (s.ports.get (BitVec.ofNat 8 (n.toNat - 1)))
  else none

/-! ### Ownership (20_memory R96; log 33) -/

/-- The host's command ring and the arrays the controller's registers name: the command ring once
CRCR is loaded, the DCBAA with an entry for each slot and entry 0 (10_state R56), and the segment
table of the event ring loaded. -/
def State.namedTables (s : State) : List Block :=
  (if s.cr.loaded then [⟨s.cr.ringBase, trbSize * cmdRingSize, .cmdRing⟩] else []) ++
  (if s.op.dcbaap = 0 then [] else [⟨s.op.dcbaap, 8 * (s.cfg.maxSlots.toNat + 1), .dcbaa⟩]) ++
  (if s.er.size = 0 then [] else [⟨s.intr.erstba, 16, .erst⟩])

/-- The endpoint-0 rings the transfer engines hold. -/
def namedRings (l : List (Option XferRing)) : List Block :=
  l.filterMap (·.map fun r => ⟨r.base, trbSize * ep0RingSize, .ep0Ring⟩)

/-- The structures the host writes and the controller reads: those of the allocator's blocks, and
those the controller's registers name. -/
def State.hostBlocks (s : State) : List Block :=
  s.plat.live.filter (·.kind.isHost) ++ s.namedTables ++ namedRings (Vector.toList s.tr)

/-- The device contexts of the slots that are addressed. -/
def namedContexts (size : Nat) (l : List Slot) : List Block :=
  l.filterMap fun x => if x.state = .addressed then some ⟨x.ctx, size, .devCtx⟩ else none

/-- The structures the controller writes: those of the allocator's blocks, the event segment loaded,
and the device context of each addressed slot. -/
def State.ctlBlocks (s : State) : List Block :=
  s.plat.live.filter (·.kind.isController) ++
  (if s.er.size = 0 then [] else [⟨s.er.base, trbSize * s.er.size, .evtRing⟩]) ++
  namedContexts s.cfg.devCtxBytes (Vector.toList s.slots)

/-- The bytes overlap what the controller holds. -/
def Ledger.holds (l : Ledger) (a : Addr) (n : Nat) : Bool :=
  l.handed.any fun h => h.held.any (·.meets a n)

/-- The bytes overlap the buffer of an IN transfer the controller holds. -/
def Ledger.fills (l : Ledger) (a : Addr) (n : Nat) : Bool :=
  l.handed.any fun h => h.held.any fun r => r.isIn && r.meets a n

/-- The bytes overlap what the controller holds to read: an input context, a transfer's TRB or the
buffer of an OUT transfer (20_memory R96). -/
def Ledger.reads (l : Ledger) (a : Addr) (n : Nat) : Bool :=
  l.handed.any fun h => h.held.any fun r => !r.isIn && r.meets a n

/-- The bytes overlap a DCBAA entry that the host has installed. -/
def Ledger.entries (l : Ledger) (a : Addr) (n : Nat) : Bool :=
  l.installed.any (·.region.meets a n)

/-- The bytes overlap an installed DCBAA entry of a slot that lives (70_reset R424). -/
def State.entryHeld (s : State) (a : Addr) (n : Nat) : Bool :=
  s.ledger.installed.any fun e => (s.slots.get e.slot).state != .disabled && e.region.meets a n

/-- Why the controller may not write `n` bytes at `a`: the memory was freed (70_reset R432), or it
holds a structure the host owns, what the host has handed over to be read, or a DCBAA entry
(20_memory R96, 60_exceptions R390). -/
def State.ctlRefusal (s : State) (a : Addr) (n : Nat) : Option Refusal :=
  if s.plat.freed.any (·.meets a n) then some .freedMemory
  else if s.hostBlocks.any (·.meets a n) || s.ledger.reads a n || s.ledger.entries a n then
    some .controllerWritesHostMemory
  else none

/-- The bytes overlap a structure the controller may be reading, but for one of kind `own`, which
the host means to write: a ring, the DCBAA or the segment table (70_reset R422, R424). -/
def State.isInUse (s : State) (own : BlockKind) (a : Addr) (n : Nat) : Bool :=
  s.hostBlocks.any fun b => b.kind != .inCtx && b.kind != own && b.meets a n

/-- Why the host may not write `n` bytes at `a`: it has freed the memory and owns it no longer (91
N25; log 16), a structure of the controller's is there (60_exceptions R390), or it has handed the
memory over or installed the DCBAA entry of a living slot there (70_reset R424; log 25). -/
def State.hostRefusal (s : State) (a : Addr) (n : Nat) : Option Refusal :=
  if s.plat.freed.any (·.meets a n) then some .freedMemory
  else if s.ctlBlocks.any (·.meets a n) then
    some .hostWritesControllerMemory
  else if s.ledger.holds a n || s.entryHeld a n then some .handedOver
  else none

/-- Why `n` bytes at `a` may not be zeroed for an allocation: the controller holds them, the DCBAA
entry of a living slot is there, or a structure the controller writes (70_reset R422, R424; log 25). A structure in memory that was freed,
which a register still names, is no reason (60_exceptions R374). -/
def State.allocRefusal (s : State) (a : Addr) (n : Nat) : Option Refusal :=
  if s.ledger.holds a n || s.entryHeld a n then some .handedOver
  else if s.ctlBlocks.any fun b => b.meets a n && !s.plat.freed.any (·.meets b.base b.size) then
    some .hostWritesControllerMemory
  else none

/-- Why the host may not read `n` bytes at `a`: the buffer of an IN transfer is the controller's
until the transfer's last event (45_control_transfer R347). -/
def State.loadRefusal (s : State) (a : Addr) (n : Nat) : Option Refusal :=
  if s.ledger.fills a n then some .handedOver else none

/-- Why the host may not read one of some dwords, the first such. -/
def State.loadsRefusal (s : State) (l : List Addr) : Option Refusal :=
  l.findSome? fun a => s.loadRefusal a 4

/-- The commands posted on the host's ring and not yet retired (41_ring_protocol R193, R199;
log 17). -/
def State.cmdOutstanding (s : State) : Nat := s.host.cmd.outstanding s.ledger.cmdPos

/-- The TRBs of slot `k`'s endpoint-0 ring staged and not yet consumed (45_control_transfer R344;
log 17). -/
def State.ep0Outstanding (s : State) (k : SlotId) : Nat :=
  (s.host.ep0.get k).outstanding (s.ledger.ep0Pos.get k)

/-- The command ring is full: as many commands are posted and not retired as it has slots
(41_ring_protocol R199). -/
def State.cmdRingFull (s : State) : Bool := s.host.cmd.size ≤ s.cmdOutstanding

/-- Slot `k`'s endpoint-0 ring is full (45_control_transfer R344). -/
def State.ep0RingFull (s : State) (k : SlotId) : Bool :=
  (s.host.ep0.get k).size ≤ s.ep0Outstanding k
end Sys2Proof.Machine
end

