-- ==== Sys2Proof/Machine/Ops.lean ====
section
/-! DEFINITION. The named operations over memory, registers, draws, ownership and events. An event
on the event ring is this hardware's exception (60_exceptions R379): `raiseEvent` takes it,
`ackEvent` is the return from it (R381). -/

namespace Sys2Proof.Machine

open Config

/-! ### Memory (20_memory R73, R74) -/

/-- What an address with no entry reads as (log 1). -/
def Memory.unlisted : Byte := 0

/-- One byte. -/
def Memory.read : Memory → Nat → Byte
  | [], _ => Memory.unlisted
  | c :: r, a => if c.1 = a then c.2 else Memory.read r a

/-- The memory without an entry for `a`. -/
def Memory.erase (m : Memory) (a : Nat) : Memory := m.filter fun c => decide (c.1 ≠ a)

/-- An entry put in its place by address. -/
def Memory.insert : Memory → Nat → Byte → Memory
  | [], a, v => [(a, v)]
  | c :: r, a, v => if a < c.1 then (a, v) :: c :: r else c :: Memory.insert r a v

/-- One byte stored; the canonical form is kept. -/
def Memory.write (m : Memory) (a : Nat) (v : Byte) : Memory :=
  if v = Memory.unlisted then m.erase a else (m.erase a).insert a v

/-- The canonical form: addresses strictly rising and inside the address space, no entry equal to
what an unlisted address reads as (log 1). -/
abbrev Memory.wf (m : Memory) : Prop :=
  m.Pairwise (fun c d => c.1 < d.1) ∧ ∀ c ∈ m, c.1 < 2 ^ 64 ∧ c.2 ≠ Memory.unlisted

/-- `n` bytes from `a` on, addresses in 64 bits (00_scope R11). -/
def Memory.readBytes (m : Memory) (a : Addr) : Nat → List Byte
  | 0 => []
  | n + 1 => m.read a.toNat :: Memory.readBytes m (a + 1) n

/-- Bytes stored in increasing address order, addresses in 64 bits. -/
def Memory.writeBytes (m : Memory) (a : Addr) : List Byte → Memory
  | [] => m
  | b :: bs => Memory.writeBytes (m.write a.toNat b) (a + 1) bs

/-- `n` bytes from `a` on become 0. -/
def Memory.zeroBytes (m : Memory) (a n : Nat) : Memory :=
  m.filter fun c => decide (¬ (a ≤ c.1 ∧ c.1 < a + n))

/-- The byte `k` places after an address, in 64 bits. -/
def byteAddr (a : Addr) (k : Nat) : Nat := (a + BitVec.ofNat 64 k).toNat

/-- A dword, little-endian. -/
def Memory.read32 (m : Memory) (a : Addr) : Dword :=
  m.read (byteAddr a 3) ++ m.read (byteAddr a 2) ++ m.read (byteAddr a 1) ++ m.read (byteAddr a 0)

/-- A dword stored, little-endian. -/
def Memory.write32 (m : Memory) (a : Addr) (v : Dword) : Memory :=
  (((m.write (byteAddr a 0) (v.extractLsb' 0 8)).write (byteAddr a 1) (v.extractLsb' 8 8)).write
    (byteAddr a 2) (v.extractLsb' 16 8)).write (byteAddr a 3) (v.extractLsb' 24 8)

/-- A 64-bit value: low dword at the lower address. -/
def Memory.read64 (m : Memory) (a : Addr) : Qword := m.read32 (a + 4) ++ m.read32 a

/-- A 64-bit value stored, low dword first. -/
def Memory.write64 (m : Memory) (a : Addr) (v : Qword) : Memory :=
  (m.write32 a (lo32 v)).write32 (a + 4) (hi32 v)

/-- A TRB (30_encoding R100). -/
def Memory.readTrb (m : Memory) (a : Addr) : Trb :=
  ⟨m.read64 a, m.read32 (a + 8), m.read32 (a + 12)⟩

/-- A TRB stored: parameter, status, then control (20_memory R90). -/
def Memory.writeTrb (m : Memory) (a : Addr) (t : Trb) : Memory :=
  ((m.write64 a t.parameter).write32 (a + 8) t.status).write32 (a + 12) t.control

/-- Dwords changed one after the other, each at its offset from `a`. -/
def Memory.updated (m : Memory) (a : Addr) : List (Nat × (Dword → Dword)) → Memory
  | [] => m
  | u :: r =>
    Memory.updated (m.write32 (a + BitVec.ofNat 64 u.1) (u.2 (m.read32 (a + BitVec.ofNat 64 u.1)))) a r

/-! ### Named updates of the state -/

/-- The state with other operational registers. -/
def State.withOp (s : State) (x : OpRegs) : State := { s with op := x }
/-- The state with other interrupter registers. -/
def State.withIntr (s : State) (x : IntrRegs) : State := { s with intr := x }
/-- The state with another command engine. -/
def State.withCr (s : State) (x : CmdEngine) : State := { s with cr := x }
/-- The state with another event producer. -/
def State.withEr (s : State) (x : EvtProducer) : State := { s with er := x }
/-- The state with another port table. -/
def State.withPorts (s : State) (x : Tab Port) : State := { s with ports := x }
/-- The state with another slot table. -/
def State.withSlots (s : State) (x : Tab Slot) : State := { s with slots := x }
/-- The state with other transfer engines. -/
def State.withTr (s : State) (x : Tab (Option XferRing)) : State := { s with tr := x }
/-- The state with another memory. -/
def State.withMem (s : State) (x : Memory) : State := { s with mem := x }
/-- The state with other host records. -/
def State.withHost (s : State) (x : HostRec) : State := { s with host := x }
/-- The state with another platform record. -/
def State.withPlat (s : State) (x : Platform) : State := { s with plat := x }
/-- The state with another account of what is outstanding. -/
def State.withLedger (s : State) (x : Ledger) : State := { s with ledger := x }
/-- The state with other coming answers of ENV. -/
def State.withEnv (s : State) (x : EnvIn) : State := { s with env := x }
/-- The state with another schedule. -/
def State.withSched (s : State) (x : Sched) : State := { s with sched := x }
/-- The state with another source of free values. -/
def State.withFree (s : State) (x : FreeSrc) : State := { s with free := x }
/-- The state with one port replaced. -/
def State.withPort (s : State) (p : PortIx) (x : Port) : State := s.withPorts (s.ports.put p x)
/-- The state with one slot replaced. -/
def State.withSlot (s : State) (i : SlotId) (x : Slot) : State := s.withSlots (s.slots.put i x)
/-- The state with one transfer engine replaced. -/
def State.withXfer (s : State) (i : SlotId) (x : Option XferRing) : State :=
  s.withTr (s.tr.put i x)
/-- The state with another result of the last host operation. -/
def State.withResult (s : State) (r : HostResult) : State :=
  s.withHost { s.host with result := r }

/-! ### Actions -/

/-- An action on the state that answers a value, or is refused. -/
abbrev Act (α : Type) := StateT State (Except Refusal) α

/-- A meaning's outcome. -/
abbrev Out := Host.Outcome State Fault Refusal

/-- An action as a meaning. -/
def Act.run (m : Act Unit) (s : State) : Out :=
  match m s with
  | .ok (_, t) => .next t
  | .error r => .refused r

/-- Stop with a refusal. -/
def refuse {α : Type} (r : Refusal) : Act α := fun _ => .error r

/-- Refuse unless a condition holds. -/
def require (c : Bool) (r : Refusal) : Act Unit := if c then pure () else refuse r

/-- Refuse for a reason, if there is one. -/
def refuseIf (r : Option Refusal) : Act Unit :=
  match r with
  | some r => refuse r
  | none => pure ()

/-- Record what a host operation returns (60_exceptions R370; log 12). -/
def answer (r : HostResult) : Act Unit := modify (·.withResult r)

/-- An action whose value is what the host operation returns. -/
def answering {α : Type} (f : α → HostResult) (m : Act α) : Act Unit := do
  let a ← m
  answer (f a)

/-! ### Draws (93 U1, U7, U8, U11, U18; logs 8 and 13) -/

/-- A dword the spec leaves open. -/
def drawDword : Act Dword := fun s =>
  match s.free.tape with
  | v :: r => .ok (v, s.withFree { s.free with tape := r })
  | [] => .ok (freeDword s.free.count, s.withFree { s.free with count := s.free.count + 1 })

/-- `n` bytes the spec leaves open. -/
def drawBytes (n : Nat) : Act (List Byte) := fun s =>
  .ok ((List.range n).map (freeByte s.free.count),
    s.withFree { s.free with count := s.free.count + 1 })

/-- A member of a set, `dflt` of an empty one. -/
def pick {α : Type} (l : List α) (dflt : α) (v : Dword) : α := l.getD (v.toNat % l.length) dflt

/-- ENV's answer to the set-address transaction; success only on an enabled port (44_commands
R314). -/
def drawSetAddress (portEnabled : Bool) : Act Bool := fun s =>
  match s.env.setAddress with
  | b :: r => .ok (portEnabled && b, s.withEnv { s.env with setAddress := r })
  | [] => .ok (portEnabled && freeSetAddress s.free.count,
      s.withFree { s.free with count := s.free.count + 1 })

/-- ENV's answer to a control transfer, before its constraints (45_control_transfer R356). -/
def drawControl : Act ControlAnswer := fun s =>
  match s.env.control with
  | a :: r => .ok (a, s.withEnv { s.env with control := r })
  | [] => .ok (freeControl s.free.count, s.withFree { s.free with count := s.free.count + 1 })

/-- A read value with its reserved bits drawn (30_encoding R122). -/
def openRead (mask fields : Dword) : Act Dword := do
  let v ← drawDword
  pure (openBits mask fields v)

/-! ### Stores by their owner (20_memory R96) -/

/-- The controller stores bytes at `a` in increasing address order (20_memory R80). -/
def ctlStore (a : Addr) (bs : List Byte) : Act Unit := do
  let s ← get
  refuseIf (s.ctlRefusal a bs.length)
  set (s.withMem (s.mem.writeBytes a bs))

/-- The controller stores a TRB. -/
def ctlStoreTrb (a : Addr) (t : Trb) : Act Unit := do
  let s ← get
  refuseIf (s.ctlRefusal a 16)
  set (s.withMem (s.mem.writeTrb a t))

/-- The host stores a dword. -/
def hostStore32 (a : Addr) (v : Dword) : Act Unit := do
  let s ← get
  refuseIf (s.hostRefusal a 4)
  set (s.withMem (s.mem.write32 a v))

/-! ### What is outstanding (41_ring_protocol R199, 45_control_transfer R344, 70_reset R424) -/

/-- A command posted with its TRB at `a`, with the memory it hands over. -/
def Ledger.posted (l : Ledger) (a : Addr) (rs : List Region) : Ledger :=
  { l with handed := l.handed ++ [⟨0, 1, [a], [], rs⟩] }

/-- A place on a ring after an engine has moved from `p` to `q`: it follows an engine that stood
there. -/
def RingPos.follow (x p q : RingPos) : RingPos := if x = p then q else x

/-- The command engine `c`, on the host's ring, has retired a command. -/
def Ledger.retired (l : Ledger) (c : CmdEngine) : Ledger :=
  { l with cmdPos := l.cmdPos.follow c.pos c.advanced.pos }

/-- A TRB at `a`, and its memory, added to the newest transfer of slot `k` that still lacks TRBs;
none where there is no such transfer. -/
def addToTransfer (k : SlotId) (a : Addr) (rs : List Region) :
    List HandOver → Option (List HandOver)
  | [] => none
  | h :: r =>
    match addToTransfer k a rs r with
    | some r' => some (h :: r')
    | none =>
      if h.slot = k ∧ h.trbs.length < h.need then
        some ({ h with trbs := h.trbs ++ [a], staged := h.staged ++ rs } :: r)
      else none

/-- What a transfer TRB at `a` hands over: itself, and a Data stage's buffer. -/
def trbRegions (c : TypeCodes) (a : Addr) (t : Trb) : List Region :=
  ⟨a, trbSize, false⟩ ::
    if t.typ = c.data then [⟨t.parameter, (t.status.extractLsb' 0 17).toNat, bitOf t.control 16⟩]
    else []

/-- A TRB stored at `a` on slot `k`'s ring: a Setup stage begins a transfer, any other TRB belongs
to the transfer begun (45_control_transfer R350). -/
def Ledger.staged (l : Ledger) (c : TypeCodes) (k : SlotId) (a : Addr) (t : Trb) : Ledger :=
  let rs := trbRegions c a t
  let begun := l.handed ++ [⟨k, if t.typ = c.setup then t.stages else 1, [a], rs, []⟩]
  { l with
    handed := if t.typ = c.setup then begun else (addToTransfer k a rs l.handed).getD begun }

/-- Slot `k`'s doorbell: what is staged for the slot is the controller's (45_control_transfer R347).
-/
def Ledger.rung (l : Ledger) (k : SlotId) : Ledger :=
  { l with handed := l.handed.map fun h =>
      if h.slot = k then { h with staged := [], held := h.held ++ h.staged } else h }

/-- Slot `k`'s engine `r`, on the host's ring, has consumed `n` TRBs. -/
def Ledger.consumed (l : Ledger) (k : SlotId) (r : XferRing) (n : Nat) : Ledger :=
  { l with ep0Pos := l.ep0Pos.put k ((l.ep0Pos.get k).follow r.pos (r.advanced n).pos) }

/-- The event that ends the use of the TRB at `a` consumed: the oldest such hand-over is the host's
again (70_reset R424). -/
def Ledger.handedBack (l : Ledger) (a : Addr) : Ledger :=
  { l with handed := l.handed.eraseP fun h => h.trbs.contains a }

/-- A command ring allocated: its consumer stands at its start. -/
def Ledger.newCmdRing (l : Ledger) : Ledger := { l with cmdPos := .start }

/-- An endpoint-0 ring allocated for slot `k`. -/
def Ledger.newEp0Ring (l : Ledger) (k : SlotId) : Ledger :=
  { l with ep0Pos := l.ep0Pos.put k .start }

/-- The DCBAA entry of slot `n`, at `e`, has been given the value `v`; a 0 installs nothing (10_state
R56). What lay under it is no entry any more; an entry of the same slot elsewhere stays (70_reset
R424). -/
def Ledger.entrySet (l : Ledger) (n : SlotId) (e v : Addr) : Ledger :=
  { l with
    installed := (if v = 0 then [] else [⟨n, e⟩]) ++ l.installed.filter fun x => !x.region.meets e 8 }

/-- The DCBAA entries that lay in blocks now given back are no one's any more (60_exceptions R374).
-/
def Ledger.entriesFreed (l : Ledger) (bs : List Block) : Ledger :=
  { l with installed := l.installed.filter fun x => !bs.any (·.meets x.addr 8) }

/-- A controller reset ends every use and every slot (70_reset R411). -/
def Ledger.afterReset (l : Ledger) : Ledger :=
  { l with handed := [], installed := [] }

/-- The state with a step of the account made. -/
def State.account (s : State) (f : Ledger → Ledger) : State := s.withLedger (f s.ledger)

/-- The command engine has retired a command: one of the host's posts, where the engine runs on the
host's ring (log 17). -/
def State.noteRetired (s : State) : State :=
  s.account fun l => if s.cr.ringBase = s.host.cmd.base then l.retired s.cr else l

/-- Slot `i`'s engine, at `r`, has consumed `n` TRBs (log 17). -/
def State.noteConsumed (s : State) (i : SlotId) (r : XferRing) (n : Nat) : State :=
  s.account fun l => if r.base = (s.host.ep0.get i).base then l.consumed i r n else l

/-! ### Events: taking the exception and returning from it -/

/-- Event production (41_ring_protocol R210, 60_exceptions R379): the event TRB with the producer's
cycle bit, the advance, EHB and IP. Its requirement, `canRaise`, is the raising step's. -/
def raiseEvent (t : Trb) : Act Unit := do
  let s ← get
  ctlStoreTrb (ringAddr s.er.base s.er.enq) (t.withCycle s.er.pcs)
  modify fun s => (s.withEr { s.er.advanced with ehb := true }).withIntr { s.intr with ip := true }

/-- ERDP's low dword written: the pointer's low part, and EHB cleared by bit 3 (40_register_access
R170, 60_exceptions R381). -/
def EvtProducer.ackLo (e : EvtProducer) (v : Dword) : EvtProducer :=
  { e with deqPtr := withLo e.deqPtr (v &&& ~~~0xF#32), ehb := e.ehb && !bitOf v 3 }

/-- ERDP's high dword written (40_register_access R170). -/
def EvtProducer.ackHi (e : EvtProducer) (v : Dword) : EvtProducer :=
  { e with deqPtr := withHi e.deqPtr v }

/-- The acknowledgement of an event, the low half of the return (60_exceptions R381). -/
def ackEvent (v : Dword) : Act Unit := modify fun s => s.withEr (s.er.ackLo v)

/-- "Change noted" (43_ports R286): the port's event becomes pending where events are on. -/
def noteChange (s : State) (p : Port) : Port := { p with pscPending := p.pscPending || s.eventsOn }

/-! ### Allocation (20_memory R84; log 14) -/

/-- The allocator's next answer: nothing, or a zeroed block of `size` bytes at an address that is
a multiple of `align`. An answer that breaks the contract is refused, and so is one over memory
that the host may not zero (70_reset R424). -/
def alloc (size align : Nat) (kind : BlockKind) : Act (Option Addr) := do
  let s ← get
  match s.plat.allocs with
  | [] => pure none
  | none :: r => do
    set (s.withPlat { s.plat with allocs := r })
    pure none
  | some a :: r => do
    require (a.toNat % align == 0 && a.toNat + size ≤ 2 ^ 64 &&
      !s.plat.live.any (·.meets a size)) .allocatorContract
    refuseIf (s.allocRefusal a size)
    set ((s.withPlat { s.plat with
        allocs := r
        live := ⟨a, size, kind⟩ :: s.plat.live
        freed := s.plat.freed.flatMap (·.minus a size) }).withMem
      (s.mem.zeroBytes a.toNat size))
    pure (some a)

/-- The bytes of blocks that are given back hold any value (70_reset R432; log 16). -/
def scrambleBlocks : List Block → Act Unit
  | [] => pure ()
  | b :: r => do
    let bs ← drawBytes b.size
    modify fun s => s.withMem (s.mem.writeBytes b.base bs)
    scrambleBlocks r

/-- Every block that meets a test given back (60_exceptions R374). -/
def releaseWhere (f : Block → Bool) : Act Unit := do
  let s ← get
  scrambleBlocks (s.plat.live.filter f)
  modify fun s => s.withPlat { s.plat with
    live := s.plat.live.filter fun b => !f b
    freed := s.plat.live.filter f ++ s.plat.freed }

end Sys2Proof.Machine
end

