-- ==== Sys2Proof/Machine/Commands.lean ====
section
/-! DEFINITION. The command engine (41_ring_protocol R204 to R209) and the commands it executes
(44_commands). A command row acts as the engine consuming that TRB at its dequeue index. -/

namespace Sys2Proof.Machine

open Config

/-- Completion code and slot id of a command (44_commands R301). -/
abbrev Completion := BitVec 8 × SlotId

/-! ### What each command does -/

/-- No-Op (44_commands R305). -/
def executeNoop : Act Completion := do
  let s ← get
  pure (s.cfg.cc.success, 0)

/-- Enable Slot (44_commands R304). -/
def executeEnableSlot : Act Completion := do
  let s ← get
  match s.freeSlotIds with
  | [] => pure (s.cfg.cc.noSlots, 0)
  | l => do
    let v ← drawDword
    let i := pick l 0 v
    modify fun s => s.withSlot i { s.slots.get i with state := .enabled }
    pure (s.cfg.cc.success, i)

/-- Why Address Device fails before it reads memory, if it does (44_commands R310, R319). -/
def addressDeviceEarlyError (s : State) (n : SlotId) : Option (BitVec 8) :=
  if n = 0 ∨ s.op.maxSlotsEn.toNat < n.toNat then some s.cfg.cc.trbError
  else match (s.slots.get n).state with
    | .disabled => some s.cfg.cc.slotNotEnabled
    | .addressed => some s.cfg.cc.contextStateError
    | .enabled => none

/-- The add marks of the slot and endpoint-0 contexts are both set (44_commands R310). -/
def addsBoth (l : CtxLayout) (ctl : List Byte) : Bool :=
  ctxGet ctl l.addSlot == 1 && ctxGet ctl l.addEp0 == 1

/-- The port the slot context names is enabled (44_commands R314). -/
def namedPortEnabled (s : State) (sctx : List Byte) : Bool :=
  match s.portNumbered (ctxGet sctx s.cfg.ctx.rootPort) with
  | some p => p.ped
  | none => false

/-- Address Device's effect once the device has taken address `a`: the device context, the slot
record and the transfer engine (44_commands R310, R313, R315). -/
def installDevice (n : SlotId) (dc : Addr) (a : BitVec 7) (sctx ectx : List Byte) : Act Unit := do
  let s ← get
  require (ctxRingPointer s.cfg.ctx ectx &&& BitVec.ofNat 64 (trbSize * ep0RingSize - 1) == 0)
    .misalignedPointer
  ctlStore dc (addressedSlotCtx s.cfg.ctx a sctx ++ runningEpCtx s.cfg.ctx ectx)
  modify fun s => (s.withSlot n ⟨.addressed, a, dc⟩).withXfer n
    (some (loadedXferRing s.cfg.ctx ectx))

/-- Address Device (44_commands R310). -/
def executeAddressDevice (n : SlotId) (ic : Addr) : Act Completion := do
  let s ← get
  match addressDeviceEarlyError s n with
  | some code => pure (code, n)
  | none => do
    require (ic &&& 0x3F#64 == 0) .misalignedPointer
    let dc := s.mem.read64 (dcbaaEntry s.op.dcbaap n)
    require (dc != 0 && dc &&& 0x3F#64 == 0) .badDeviceContext
    let ctx := s.mem.readBytes ic (3 * s.cfg.ctxSize)
    let ctl := ctx.take s.cfg.ctxSize
    let sctx := (ctx.drop s.cfg.ctxSize).take s.cfg.ctxSize
    let ectx := ctx.drop (2 * s.cfg.ctxSize)
    if !addsBoth s.cfg.ctx ctl then pure (s.cfg.cc.parameterError, n)
    else do
      let ok ← drawSetAddress (namedPortEnabled s sctx)
      if !ok then pure (s.cfg.cc.usbTransactionError, n)
      else match s.freeAddresses n with
        | [] => pure (s.cfg.cc.usbTransactionError, n)
        | l => do
          let v ← drawDword
          installDevice n dc (pick l 0 v) sctx ectx
          pure (s.cfg.cc.success, n)

/-- A type that is no command (44_commands R327). -/
def executeOther : Act Completion := do
  let s ← get
  pure (s.cfg.cc.trbError, 0)

/-- `execute(t)` by type (30_encoding R134, R135 (b)). -/
def executeTrb (t : Trb) : Act Completion := do
  let s ← get
  let c := s.cfg.tt
  if t.typ = c.noopCmd then executeNoop
  else if t.typ = c.enableSlot then executeEnableSlot
  else if t.typ = c.addressDevice then executeAddressDevice t.slot t.parameter
  else if t.typ = c.disableSlot then refuse .disableSlotUnspecified
  else if t.typ = c.configureEndpoint then refuse .configureEndpointUnspecified
  else if t.typ = c.evaluateContext then refuse .evaluateContextUnspecified
  else if t.typ = c.resetEndpoint then refuse .resetEndpointUnspecified
  else if t.typ = c.setTrDequeue then refuse .setTrDequeueUnspecified
  else if t.typ = c.resetDevice then refuse .resetDeviceUnspecified
  else if t.typ = c.link then refuse .linkOnCommandRing
  else executeOther

/-! ### The engine -/

/-- The address of the next command TRB (10_state R41, 20_memory R79). -/
def CmdEngine.fetchAddr (c : CmdEngine) : Addr := ringAddr c.ringBase c.deq

/-- The command at the engine's index noted as retired and passed (41_ring_protocol R206). -/
def State.cmdPassed (s : State) : State := s.noteRetired.withCr s.cr.advanced

/-- One command retired: the advance, its effect, its completion event (41_ring_protocol R204,
R206, R209). -/
def retireCommand (m : Act Completion) : Act Unit := do
  let s ← get
  set s.cmdPassed
  let r ← m
  raiseEvent (completionTrb s.cfg s.cr.fetchAddr r.1 r.2)

/-- The engine meets a TRB with cycle bit `cycle` that does `m`: nothing while it is not enabled or
the event ring has no room, a stop at a cycle mismatch (41_ring_protocol R204, R207, R213). -/
def consumeCommand (cycle : Bool) (m : Act Completion) : Act Unit := do
  let s ← get
  if !s.commandOn then pure ()
  else if cycle != s.cr.ccs then set (s.withCr { s.cr with running := false })
  else if !s.er.hasRoom then pure ()
  else retireCommand m

/-- The command engine's step (41_ring_protocol R204). -/
def commandStep : Act Unit := do
  let s ← get
  let t := s.mem.readTrb s.cr.fetchAddr
  consumeCommand t.cycle (executeTrb t)

/-! ### The meanings of the command rows -/

/-- NOOP_CMD (44_commands R305). -/
def execCmdNoop (cycle : Bool) (s : State) : Out := (consumeCommand cycle executeNoop).run s

/-- ENABLE_SLOT (44_commands R304). -/
def execCmdEnableSlot (cycle : Bool) (s : State) : Out :=
  (consumeCommand cycle executeEnableSlot).run s

/-- ADDRESS_DEVICE (44_commands R310). -/
def execCmdAddressDevice (slot : SlotId) (ictx : Addr) (cycle : Bool) (s : State) : Out :=
  (consumeCommand cycle (executeAddressDevice slot ictx)).run s

/-- DISABLE_SLOT: refused (44_commands R320). -/
def execCmdDisableSlot (_slot : SlotId) (_cycle : Bool) (_s : State) : Out :=
  .refused .disableSlotUnspecified

/-- CONFIGURE_ENDPOINT: refused (44_commands R321). -/
def execCmdConfigureEndpoint (_slot : SlotId) (_ictx : Addr) (_cycle : Bool) (_s : State) : Out :=
  .refused .configureEndpointUnspecified

/-- EVALUATE_CONTEXT: refused (44_commands R322). -/
def execCmdEvaluateContext (_slot : SlotId) (_ictx : Addr) (_cycle : Bool) (_s : State) : Out :=
  .refused .evaluateContextUnspecified

/-- RESET_ENDPOINT: refused (44_commands R323). -/
def execCmdResetEndpoint (_slot : SlotId) (_ep : BitVec 5) (_cycle : Bool) (_s : State) : Out :=
  .refused .resetEndpointUnspecified

/-- SET_TR_DEQUEUE: refused (44_commands R325). -/
def execCmdSetTrDequeue (_slot : SlotId) (_ep : BitVec 5) (_ptr : Qword) (_cycle : Bool)
    (_s : State) : Out :=
  .refused .setTrDequeueUnspecified

/-- RESET_DEVICE: refused (44_commands R324). -/
def execCmdResetDevice (_slot : SlotId) (_cycle : Bool) (_s : State) : Out :=
  .refused .resetDeviceUnspecified

/-- LINK.cmd: refused (44_commands R326, 41_ring_protocol R208). -/
def execCmdLink (_t : Trb) (_s : State) : Out := .refused .linkOnCommandRing

/-- CMD.other (44_commands R327). -/
def execCmdOther (t : Trb) (s : State) : Out := (consumeCommand t.cycle executeOther).run s

end Sys2Proof.Machine
end

