-- ==== Sys2Proof/Machine/Registers.lean ====
section
/-! DEFINITION. The registers: what a read returns and what a write does (40_register_access R157 to
R176), the doorbells (41_ring_protocol R200 to R203), and one meaning for each REG32 row. -/

namespace Sys2Proof.Machine

open Config

/-- A host write is accepted only by a ready controller (40_register_access R175). -/
def writable : Act Unit := do
  let s ← get
  require s.op.ready .notReady

/-! ### Reads -/

/-- A register none of whose bits is open. -/
def readField (f : State → Dword) : Act Dword := do
  let s ← get
  pure (f s)

/-- CAPLENGTH and HCIVERSION (40_register_access R157). -/
def readCap0 : Act Dword := readField fun s => cap0Word s.cfg

/-- HCSPARAMS1 (40_register_access R157). -/
def readHcsparams1 : Act Dword := readField fun s => hcsWord s.cfg

/-- USBCMD (40_register_access R158). -/
def readUsbcmd : Act Dword := do
  let s ← get
  openRead (usbcmdMask s.cfg.bitpos) (usbcmdFields s.cfg.bitpos s.op)

/-- USBSTS (40_register_access R160). -/
def readUsbsts : Act Dword := do
  let s ← get
  openRead (usbstsMask s.cfg.bitpos) (usbstsFields s.cfg.bitpos s.op)

/-- CONFIG (40_register_access R165). -/
def readConfig : Act Dword := do
  let s ← get
  openRead (fieldMask s.cfg.bitpos.maxSlotsEnLo 8) (fieldAt s.cfg.bitpos.maxSlotsEnLo s.op.maxSlotsEn)

/-- PORTSC[p] (40_register_access R166). -/
def readPortsc (p : PortIx) : Act Dword := do
  let s ← get
  require (s.hasPort p) .undefinedOffset
  openRead (portscMask s.cfg.bitpos) (portscFields s.cfg.bitpos (s.ports.get p))

/-- IMAN (40_register_access R169). -/
def readIman : Act Dword := do
  let s ← get
  openRead (imanMask s.cfg.bitpos) (imanFields s.cfg.bitpos s.intr)

/-- ERSTSZ (40_register_access R171). -/
def readErstsz : Act Dword := do
  let s ← get
  openRead (fieldMask s.cfg.bitpos.erstszLo 16) (fieldAt s.cfg.bitpos.erstszLo s.intr.erstsz)

/-- ERDP, low dword (40_register_access R170). -/
def readErdpLo : Act Dword := do
  let s ← get
  openRead 0xFFFFFFF8#32 (erdpLoFields s.er)

/-- A doorbell holds no value (40_register_access R173). -/
def readDoorbell (i : SlotId) : Act Dword := do
  let s ← get
  require (i.toNat ≤ s.cfg.maxSlots.toNat) .undefinedOffset
  drawDword

/-! ### Writes -/

/-- USBCMD (40_register_access R159); a written HCRST begins the reset (42_lifecycle R251). -/
def OpRegs.resetBegun (o : OpRegs) : OpRegs := { o with hcrst := true, cnr := true }

/-- USBCMD written (40_register_access R159). -/
def writeUsbcmd (v : Dword) : Act Unit := do
  writable
  let s ← get
  if bitOf v s.cfg.bitpos.usbcmdHcrst then do
    require s.op.hch .resetWhileRunning
    set (s.withOp s.op.resetBegun)
  else set (s.withOp { s.op with rs := bitOf v 0, inte := bitOf v 2 })

/-- A write with no effect (40_register_access R161). -/
def writeNothing : Act Unit := writable

/-- CRCR, low dword: the latch only (40_register_access R163). -/
def writeCrcrLo (v : Dword) : Act Unit := do
  writable
  modify fun s => s.withOp { s.op with crcrLatch := withLo s.op.crcrLatch v }

/-- The command engine loaded from CRCR's latched content (40_register_access R163; log 42). -/
def loadedCmdEngine (b : BitPos) (latch : Qword) : CmdEngine :=
  ⟨latch &&& ~~~0x3F#64, 0, latch.getLsbD b.crcrRcs, false, true⟩

/-- CRCR, high dword: the latch, and the load when the engine does not run (40_register_access
R163). -/
def writeCrcrHi (v : Dword) : Act Unit := do
  writable
  let s ← get
  let latch := withHi s.op.crcrLatch v
  let t := s.withOp { s.op with crcrLatch := latch }
  set (if s.cr.running then t else t.withCr (loadedCmdEngine s.cfg.bitpos latch))

/-- DCBAAP, low dword (40_register_access R164). -/
def writeDcbaapLo (v : Dword) : Act Unit := do
  writable
  require (v &&& 0x3F#32 == 0) .misalignedPointer
  modify fun s => s.withOp { s.op with dcbaap := withLo s.op.dcbaap v }

/-- DCBAAP, high dword (40_register_access R164). -/
def writeDcbaapHi (v : Dword) : Act Unit := do
  writable
  modify fun s => s.withOp { s.op with dcbaap := withHi s.op.dcbaap v }

/-- CONFIG (40_register_access R165; log 45). -/
def writeConfig (v : Dword) : Act Unit := do
  writable
  let s ← get
  let n := maxSlotsEnOf s.cfg.bitpos v
  require (n.toNat ≤ s.cfg.maxSlots.toNat) .maxSlotsEnTooLarge
  set (s.withOp { s.op with maxSlotsEn := n })

/-- The begin of a port reset (43_ports R280, R283). -/
def Port.resetBegun (p : Port) : Port := { p with pr := true, resetting := true, ped := false }

/-- PORTSC[p] (40_register_access R167): only PR is written, and only from 0 to 1. -/
def writePortsc (p : PortIx) (v : Dword) : Act Unit := do
  let s ← get
  require (s.hasPort p) .undefinedOffset
  writable
  if bitOf v s.cfg.bitpos.portscPr && !(s.ports.get p).pr then
    set (s.withPort p (s.ports.get p).resetBegun)
  else pure ()

/-- IMAN (40_register_access R169): IE is stored, IP is cleared by a 1. -/
def writeIman (v : Dword) : Act Unit := do
  writable
  modify fun s => s.withIntr { s.intr with
    ie := bitOf v s.cfg.bitpos.imanIe
    ip := s.intr.ip && !bitOf v s.cfg.bitpos.imanIp }

/-- ERSTSZ (40_register_access R171). -/
def writeErstsz (v : Dword) : Act Unit := do
  writable
  modify fun s => s.withIntr { s.intr with erstsz := erstszOf s.cfg.bitpos v }

/-- ERSTBA, low dword (40_register_access R168, 20_memory R79). -/
def writeErstbaLo (v : Dword) : Act Unit := do
  writable
  require (v &&& 0x3F#32 == 0) .misalignedPointer
  modify fun s => s.withIntr { s.intr with erstba := withLo s.intr.erstba v }

/-- The alignment of a segment of `n` TRBs as a number of low bits: the largest power of two that
divides the array's size, at most a ring's 4096 bytes (20_memory R78; log 48). -/
def segmentAlign (n : Nat) : Nat := Nat.gcd (trbSize * n) 4096

/-- The event producer loaded from entry 0 of the segment table at `a` (40_register_access R168,
30_encoding R128); the base's low bits that the segment's alignment makes zero must be zero
(20_memory R78, R79, 93 U14; log 48). -/
def loadEventRing (a : Addr) : Act Unit := do
  let s ← get
  let base := s.mem.read64 a
  let size := (s.mem.read32 (a + 8)).extractLsb' 0 16
  require (base &&& 0x3F#64 == 0) .misalignedPointer
  require (size != 0 && size.toNat ≤ evtRingSize) .segmentSize
  require (base.toNat % segmentAlign size.toNat == 0) .misalignedPointer
  set (s.withEr { s.er with base := base, size := size.toNat, enq := 0, pcs := true })

/-- ERSTBA, high dword: stored, and the event ring is loaded where ERSTSZ is 1
(40_register_access R168). Where ERSTSZ is 0 nothing is loaded, and a ring loaded by an earlier
write stays in use: the model's choice (log 52, DESIGN CHOICE). -/
def writeErstbaHi (v : Dword) : Act Unit := do
  writable
  let s ← get
  let table := withHi s.intr.erstba v
  set (s.withIntr { s.intr with erstba := table })
  if s.intr.erstsz = 0 then pure ()
  else do
    require (s.intr.erstsz == 1) .moreThanOneSegment
    loadEventRing (table &&& ~~~0x3F#64)

/-- ERDP, low dword: the acknowledgement of an event (40_register_access R170). -/
def writeErdpLo (v : Dword) : Act Unit := do
  writable
  ackEvent v

/-- ERDP, high dword (40_register_access R170). -/
def writeErdpHi (v : Dword) : Act Unit := do
  writable
  modify fun s => s.withEr (s.er.ackHi v)

/-- DB[0] (41_ring_protocol R201, R203; logs 21 and 49): the engine wakes, loaded or not. -/
def writeDb0 (v : Dword) : Act Unit := do
  writable
  let s ← get
  if s.op.hch then pure ()
  else do
    require (doorbellTargetOf s.cfg.bitpos v == 0) .doorbellTarget
    set (s.withCr { s.cr with running := true })

/-- DB[i], `i >= 1`: the engine wakes, and what is staged for the slot is the controller's
(41_ring_protocol R202, R203, 45_control_transfer R347; log 21). -/
def writeDbi (i : SlotId) (v : Dword) : Act Unit := do
  let s ← get
  require (i.toNat ≤ s.cfg.maxSlots.toNat) .undefinedOffset
  writable
  if s.op.hch || !s.isAddressed i then pure ()
  else do
    require (doorbellTargetOf s.cfg.bitpos v == 1) .doorbellTarget
    set ((s.withXfer i ((s.tr.get i).map fun r => { r with running := true })).account (·.rung i))

/-- A doorbell write by index (40_register_access R172). -/
def writeDoorbell (i : SlotId) (v : Dword) : Act Unit := if i = 0 then writeDb0 v else writeDbi i v

/-! ### The meanings of the REG32 rows -/

/-- RD.CAP0 (40_register_access R157). -/
def execRdCap0 (s : State) : Out := (answering .dword readCap0).run s

/-- RD.HCSPARAMS1 (40_register_access R157). -/
def execRdHcsparams1 (s : State) : Out := (answering .dword readHcsparams1).run s

/-- RD.DBOFF (40_register_access R157). -/
def execRdDboff (s : State) : Out := (answering .dword (readField (·.cfg.dboff))).run s

/-- RD.RTSOFF (40_register_access R157). -/
def execRdRtsoff (s : State) : Out := (answering .dword (readField (·.cfg.rtsoff))).run s

/-- RD.USBCMD (40_register_access R158). -/
def execRdUsbcmd (s : State) : Out := (answering .dword readUsbcmd).run s

/-- RD.USBSTS (40_register_access R160, R174). -/
def execRdUsbsts (s : State) : Out := (answering .dword readUsbsts).run s

/-- RD.CRCR_LO (40_register_access R162). -/
def execRdCrcrLo (s : State) : Out := (answering .dword drawDword).run s

/-- RD.CRCR_HI (40_register_access R162). -/
def execRdCrcrHi (s : State) : Out := (answering .dword drawDword).run s

/-- RD.DCBAAP_LO (40_register_access R164). -/
def execRdDcbaapLo (s : State) : Out := (answering .dword (readField fun s => lo32 s.op.dcbaap)).run s

/-- RD.DCBAAP_HI (40_register_access R164). -/
def execRdDcbaapHi (s : State) : Out := (answering .dword (readField fun s => hi32 s.op.dcbaap)).run s

/-- RD.CONFIG (40_register_access R165). -/
def execRdConfig (s : State) : Out := (answering .dword readConfig).run s

/-- RD.IMAN (40_register_access R169). -/
def execRdIman (s : State) : Out := (answering .dword readIman).run s

/-- RD.ERSTSZ (40_register_access R171). -/
def execRdErstsz (s : State) : Out := (answering .dword readErstsz).run s

/-- RD.ERSTBA_LO (40_register_access R168). -/
def execRdErstbaLo (s : State) : Out := (answering .dword (readField fun s => lo32 s.intr.erstba)).run s

/-- RD.ERSTBA_HI (40_register_access R168). -/
def execRdErstbaHi (s : State) : Out := (answering .dword (readField fun s => hi32 s.intr.erstba)).run s

/-- RD.ERDP_LO (40_register_access R170). -/
def execRdErdpLo (s : State) : Out := (answering .dword readErdpLo).run s

/-- RD.ERDP_HI (40_register_access R170). -/
def execRdErdpHi (s : State) : Out := (answering .dword (readField fun s => hi32 s.er.deqPtr)).run s

/-- RD.PORTSC (40_register_access R166). -/
def execRdPortsc (p : PortIx) (s : State) : Out := (answering .dword (readPortsc p)).run s

/-- RD.DB (40_register_access R173). -/
def execRdDb (i : SlotId) (s : State) : Out := (answering .dword (readDoorbell i)).run s

/-- WR.CAP (40_register_access R157): ignored, whatever the state of the controller. -/
def execWrCap (_r : CapReg) (_v : Dword) (s : State) : Out := .next s

/-- WR.USBCMD (40_register_access R159). -/
def execWrUsbcmd (v : Dword) (s : State) : Out := (writeUsbcmd v).run s

/-- WR.USBSTS (40_register_access R161). -/
def execWrUsbsts (_v : Dword) (s : State) : Out := (writeNothing).run s

/-- WR.CRCR_LO (40_register_access R163). -/
def execWrCrcrLo (v : Dword) (s : State) : Out := (writeCrcrLo v).run s

/-- WR.CRCR_HI (40_register_access R163). -/
def execWrCrcrHi (v : Dword) (s : State) : Out := (writeCrcrHi v).run s

/-- WR.DCBAAP_LO (40_register_access R164). -/
def execWrDcbaapLo (v : Dword) (s : State) : Out := (writeDcbaapLo v).run s

/-- WR.DCBAAP_HI (40_register_access R164). -/
def execWrDcbaapHi (v : Dword) (s : State) : Out := (writeDcbaapHi v).run s

/-- WR.CONFIG (40_register_access R165). -/
def execWrConfig (v : Dword) (s : State) : Out := (writeConfig v).run s

/-- WR.IMAN (40_register_access R169). -/
def execWrIman (v : Dword) (s : State) : Out := (writeIman v).run s

/-- WR.ERSTSZ (40_register_access R171). -/
def execWrErstsz (v : Dword) (s : State) : Out := (writeErstsz v).run s

/-- WR.ERSTBA_LO (40_register_access R168). -/
def execWrErstbaLo (v : Dword) (s : State) : Out := (writeErstbaLo v).run s

/-- WR.ERSTBA_HI (40_register_access R168). -/
def execWrErstbaHi (v : Dword) (s : State) : Out := (writeErstbaHi v).run s

/-- WR.ERDP_LO (40_register_access R170). -/
def execWrErdpLo (v : Dword) (s : State) : Out := (writeErdpLo v).run s

/-- WR.ERDP_HI (40_register_access R170). -/
def execWrErdpHi (v : Dword) (s : State) : Out := (writeErdpHi v).run s

/-- WR.DB0 (40_register_access R172). -/
def execWrDb0 (v : Dword) (s : State) : Out := (writeDb0 v).run s

/-- WR.PORTSC (40_register_access R167). -/
def execWrPortsc (p : PortIx) (v : Dword) (s : State) : Out := (writePortsc p v).run s

/-- WR.DBi (40_register_access R172). -/
def execWrDbi (i : SlotId) (v : Dword) (s : State) : Out := (writeDoorbell i v).run s

/-- UNDEFINED_OFFSET: refused (40_register_access R156). -/
def execUndefinedOffset (_b : RegBlock) (_off : Dword) (_w : Option Dword) (_s : State) : Out :=
  .refused .undefinedOffset

end Sys2Proof.Machine
end

