-- ==== Sys2Proof/Machine/Transfers.lean ====
section
/-! DEFINITION. The endpoint-0 transfer engine (45_control_transfer R349 to R360). A transfer row
acts as the engine consuming the control transfer at its dequeue index with that TRB as its Setup,
Data or Status stage; the other stages are read from the ring. -/

namespace Sys2Proof.Machine

open Config

/-! ### The shape of a transfer -/

/-- The Setup stage is as the host stages it: immediate data, 8 bytes, and the TRT that R340 gives
its setup packet's length and direction (45_control_transfer R340, R352). -/
def setupShape (t : Trb) : Bool :=
  bitOf t.control 6 && t.status.extractLsb' 0 17 == 8 &&
    t.trt == (if t.setupLength = 0 then 0 else if t.parameter.getLsbD 7 then 3 else 2)

/-- The Data stage agrees with the Setup stage (45_control_transfer R352). -/
def dataShape (c : TypeCodes) (t0 t : Trb) : Bool :=
  t.typ == c.data && bitOf t.control 16 == (t0.trt == 3) &&
    t.status.extractLsb' 0 17 == t0.setupLength.setWidth 17

/-- `check_well_formed` (45_control_transfer R352). -/
def transferShape (c : TypeCodes) (t0 t1 t2 : Trb) : Bool :=
  setupShape t0 &&
    if t0.stages = 2 then t1.typ == c.status else dataShape c t0 t1 && t2.typ == c.status

/-- Why a TRB that is no Setup stage is refused at the head of a transfer (45_control_transfer R352,
R358 to R360). -/
def headRefusal (c : TypeCodes) (t : Trb) : Refusal :=
  if t.typ = c.data ∨ t.typ = c.status then .transferShape
  else if t.typ = c.normal then .normalOnEp0
  else if t.typ = c.link then .linkOnTransferRing
  else if t.typ = c.eventData then .eventDataOnEp0
  else if t.typ = c.noopXfer then .noopOnEp0
  else .otherOnEp0

/-! ### The device's answer -/

/-- What one transfer asks for: IN or not, the length, whether there is a Data stage. -/
structure Request where
  isIn : Bool
  len : Nat
  hasData : Bool
  deriving DecidableEq, Repr

/-- The request of a Setup stage (45_control_transfer R350, R353). -/
def requestOf (t0 : Trb) : Request := ⟨t0.trt == 3, t0.setupLength.toNat, t0.stages == 3⟩

/-- An error answer R355 allows: a Data stage only where there is one, no stall of the Setup
stage. -/
def errorAllowed (q : Request) (st : Stage) (code : BusError) : Bool :=
  match st, code with
  | .setup, .stall => false
  | .setup, .transaction => true
  | .data, _ => q.hasData
  | .status, _ => true

/-- The first `n` bytes of an answer; bytes it does not list are open (log 13). -/
def answerBytes (open_ : Nat → Byte) (data : List Byte) (n : Nat) : List Byte :=
  (List.range n).map fun k => data.getD k (open_ k)

/-- An answer within the set R356 allows; one outside it stands for a failed transaction
(log 13). -/
def normalAnswer (open_ : Nat → Byte) (q : Request) (portEnabled : Bool) (a : ControlAnswer) :
    ControlAnswer :=
  if !portEnabled then .error .setup .transaction
  else match a with
    | .ok data => .ok (if q.isIn then answerBytes open_ data q.len else [])
    | .short m data =>
      if q.isIn && m < q.len then .short m (answerBytes open_ data m)
      else .error .setup .transaction
    | .error st code =>
      if errorAllowed q st code then .error st code else .error .setup .transaction

/-- `PORTSC` of the port the slot's device context names is Enabled (45_control_transfer R356). -/
def slotPortEnabled (s : State) (i : SlotId) : Bool :=
  let d := s.mem.read32 ((s.slots.get i).ctx + BitVec.ofNat 64 (4 * s.cfg.ctx.rootPort.dword))
  match s.portNumbered (s.cfg.ctx.rootPort.read d) with
  | some p => p.state == some .enabled
  | none => false

/-- `draw(ENV.control(i, setup))` (45_control_transfer R356). -/
def drawAnswer (i : SlotId) (q : Request) : Act ControlAnswer := do
  let s ← get
  let a ← drawControl
  let t ← get
  set (t.withFree { t.free with count := t.free.count + 1 })
  pure (normalAnswer (freeByte t.free.count) q (slotPortEnabled s i) a)

/-- A Transfer Event of slot `i` (45_control_transfer R357). -/
def raiseTransfer (i : SlotId) (ptr : Addr) (code : BitVec 8) (residual : Nat) : Act Unit := do
  let s ← get
  raiseEvent (transferTrb s.cfg ptr code (BitVec.ofNat 24 residual) i)

/-- The code of a bus error (45_control_transfer R355). -/
def busErrorCode (c : CompletionCodes) : BusError → BitVec 8
  | .stall => c.stall
  | .transaction => c.usbTransactionError

/-- The index of a stage among a transfer's TRBs. -/
def stageIndex (q : Request) : Stage → Nat
  | .setup => 0
  | .data => 1
  | .status => if q.hasData then 2 else 1

/-- The answer applied (45_control_transfer R353 to R355): `addr` gives the address of each stage's
TRB, `buf` the Data stage's buffer, which holds any bytes once the Data or the Status stage of an IN
transfer has failed (60_exceptions R378; log 50). -/
def applyAnswer (i : SlotId) (q : Request) (addr : Nat → Addr) (buf : Addr) :
    ControlAnswer → Act Unit
  | .ok data => do
    let s ← get
    if q.isIn then ctlStore buf data else pure ()
    raiseTransfer i (addr (stageIndex q .status)) s.cfg.cc.success 0
  | .short m data => do
    let s ← get
    ctlStore buf data
    raiseTransfer i (addr 1) s.cfg.cc.shortPacket (q.len - m)
    raiseTransfer i (addr (stageIndex q .status)) s.cfg.cc.success 0
  | .error st code => do
    let s ← get
    if q.isIn && st != .setup then do
      let bs ← drawBytes q.len
      ctlStore buf bs
    else pure ()
    raiseTransfer i (addr (stageIndex q st)) (busErrorCode s.cfg.cc code)
      (if st == .data then q.len else 0)

/-! ### The engine -/

/-- The engine of slot `i` stops (45_control_transfer R350, R351). -/
def stopXfer (i : SlotId) (r : XferRing) : Act Unit :=
  modify fun s => s.withXfer i (some { r with running := false })

/-- Slot `i`'s engine, at `r`, past the `n` TRBs of a transfer (45_control_transfer R350). -/
def State.xferPassed (s : State) (i : SlotId) (r : XferRing) (n : Nat) : State :=
  (s.noteConsumed i r n).withXfer i (some (r.advanced n))

/-- A complete transfer consumed and answered (45_control_transfer R350). -/
def serveTransfer (i : SlotId) (r : XferRing) (t0 t1 : Trb) : Act Unit := do
  modify fun s => s.xferPassed i r t0.stages
  let q := requestOf t0
  let a ← drawAnswer i q
  applyAnswer i q r.slotAddr t1.parameter a

/-- The later TRBs of a transfer are valid (45_control_transfer R350, R351). -/
def laterValid (r : XferRing) (t0 t1 t2 : Trb) : Bool :=
  t1.cycle == r.slotCycle 1 && (t0.stages == 2 || t2.cycle == r.slotCycle 2)

/-- The transfer engine's step for slot `i` over the TRBs `t0`, `t1`, `t2` from its dequeue index
on (45_control_transfer R350). -/
def consumeTransfer (i : SlotId) (t0 t1 t2 : Trb) : Act Unit := do
  let s ← get
  match s.transferOn i with
  | none => pure ()
  | some r =>
    if t0.cycle != r.ccs then stopXfer i r
    else if t0.typ != s.cfg.tt.setup then refuse (headRefusal s.cfg.tt t0)
    else if !laterValid r t0 t1 t2 then stopXfer i r
    else if !transferShape s.cfg.tt t0 t1 t2 then refuse .transferShape
    else if s.er.free < 2 then pure ()
    else serveTransfer i r t0 t1

/-- TRB `n` of the transfer at slot `i`'s dequeue index. -/
def State.xferTrb (s : State) (i : SlotId) (n : Nat) : Trb :=
  match s.tr.get i with
  | some r => s.mem.readTrb (r.slotAddr n)
  | none => ⟨0, 0, 0⟩

/-- The transfer engine's step for slot `i` (45_control_transfer R350). -/
def transferStep (i : SlotId) : Act Unit := do
  let s ← get
  consumeTransfer i (s.xferTrb i 0) (s.xferTrb i 1) (s.xferTrb i 2)

/-! ### The meanings of the transfer rows -/

/-- SETUP: the transfer this Setup stage begins (45_control_transfer R350). -/
def execXferSetup (i : SlotId) (t : SetupTrb) (s : State) : Out :=
  (consumeTransfer i (t.toTrb s.cfg.tt) (s.xferTrb i 1) (s.xferTrb i 2)).run s

/-- DATA: the transfer at the dequeue index with this Data stage (45_control_transfer R353). -/
def execXferData (i : SlotId) (t : DataTrb) (s : State) : Out :=
  (consumeTransfer i (s.xferTrb i 0) (t.toTrb s.cfg.tt) (s.xferTrb i 2)).run s

/-- STATUS: the transfer at the dequeue index with this Status stage (45_control_transfer R357). -/
def execXferStatus (i : SlotId) (t : StatusTrb) (s : State) : Out :=
  let t0 := s.xferTrb i 0
  let last := t.toTrb s.cfg.tt
  let t1 := if t0.stages = 2 then last else s.xferTrb i 1
  (consumeTransfer i t0 t1 last).run s

/-- NORMAL: refused (45_control_transfer R358). -/
def execXferNormal (_i : SlotId) (_t : Trb) (_s : State) : Out := .refused .normalOnEp0

/-- LINK.xfer: refused (45_control_transfer R359, 41_ring_protocol R208). -/
def execXferLink (_i : SlotId) (_t : Trb) (_s : State) : Out := .refused .linkOnTransferRing

/-- EVENT_DATA: refused (45_control_transfer R360). -/
def execXferEventData (_i : SlotId) (_t : Trb) (_s : State) : Out := .refused .eventDataOnEp0

/-- NOOP_XFER: refused (45_control_transfer R360). -/
def execXferNoop (_i : SlotId) (_t : Trb) (_s : State) : Out := .refused .noopOnEp0

end Sys2Proof.Machine
end

