-- ==== Sys2Proof/Machine/Lifecycle.lean ====
section
/-! DEFINITION. The controller's own steps: lifecycle (42_lifecycle R249 to R254), ports (43_ports
R280 to R286), and the steps of the engines. A step whose condition does not hold changes nothing
(log 11). -/

namespace Sys2Proof.Machine

open Config

/-! ### Lifecycle -/

/-- An engine stopped, its pointers kept. -/
def CmdEngine.stopped (c : CmdEngine) : CmdEngine := { c with running := false }

/-- A transfer engine stopped, its pointers kept. -/
def XferRing.stopped (r : XferRing) : XferRing := { r with running := false }

/-- The halted machine: every engine stopped, HCH set (42_lifecycle R250). -/
def State.halted (s : State) : State :=
  ((s.withCr s.cr.stopped).withTr (s.tr.each (·.map XferRing.stopped))).withOp
    { s.op with hch := true }

/-- Halt step (42_lifecycle R250). -/
def haltStep : Act Unit := modify fun s => if s.op.haltOn then s.halted else s

/-- Reset begin (42_lifecycle R251), under the write's own conditions (40_register_access R159). -/
def resetBeginStep : Act Unit := do
  writable
  let s ← get
  require s.op.hch .resetWhileRunning
  set (s.withOp s.op.resetBegun)

/-- A port after a controller reset: the device stays (43_ports R280, R282, 70_reset R412). -/
def Port.afterReset (p : Port) : Port where
  ccs := p.attached
  ped := false
  pr := false
  speed := if p.attached then p.devSpeed else 0
  attached := p.attached
  devSpeed := p.devSpeed
  resetting := false
  pscPending := false

/-- The controller with every register and working register at its reset value, CNR still 1
(10_state R67, 70_reset R411 to R413); nothing of the host's is in use any more (log 25). -/
def State.controllerReset (s : State) : State :=
  (((((((s.withOp .reset).withIntr .reset).withCr .reset).withEr .reset).withPorts
    (s.ports.each Port.afterReset)).withSlots (Vector.replicate 256 .disabled)).withTr
    (Vector.replicate 256 none)).account Ledger.afterReset

/-- Reset complete step (42_lifecycle R252). -/
def resetCompleteStep : Act Unit := modify fun s => if s.op.hcrst then s.controllerReset else s

/-- Ready step (42_lifecycle R253). -/
def readyStep : Act Unit :=
  modify fun s => if s.op.readyOn then s.withOp { s.op with cnr := false } else s

/-- Start step (42_lifecycle R254). -/
def startStep : Act Unit :=
  modify fun s => if s.op.startOn then s.withOp { s.op with hch := false } else s

/-! ### Ports -/

/-- A device attached (43_ports R280). -/
def Port.attach (p : Port) (speed : BitVec 4) : Port :=
  { p with attached := true, devSpeed := speed, ccs := true, speed := speed }

/-- The device removed (43_ports R280). -/
def Port.detach (p : Port) : Port :=
  { p with attached := false, ccs := false, ped := false, speed := 0 }

/-- A port reset done (43_ports R284). -/
def Port.resetDone (p : Port) : Port :=
  { p with
    resetting := false
    pr := false
    ped := p.attached
    speed := if p.attached then p.devSpeed else p.speed }

/-- Attach (43_ports R280, R281). -/
def portAttachStep (p : PortIx) (speed : BitVec 4) : Act Unit := modify fun s =>
  if s.hasPort p && !(s.ports.get p).attached then
    s.withPort p (noteChange s ((s.ports.get p).attach speed))
  else s

/-- Detach (43_ports R280, R281). -/
def portDetachStep (p : PortIx) : Act Unit := modify fun s =>
  if s.hasPort p && (s.ports.get p).attached then
    s.withPort p (noteChange s (s.ports.get p).detach)
  else s

/-- Port reset complete (43_ports R284). -/
def portResetCompleteStep (p : PortIx) : Act Unit := modify fun s =>
  if s.portResetOn p then s.withPort p (noteChange s (s.ports.get p).resetDone) else s

/-- Port event (43_ports R286). -/
def portEventStep (p : PortIx) : Act Unit := do
  let s ← get
  if s.portEventOn p then do
    raiseEvent (portTrb s.cfg p)
    modify fun s => s.withPort p { s.ports.get p with pscPending := false }
  else pure ()

/-- A TRB is an event the controller produces: no other type is (60_exceptions R377). -/
def isEventTrb (c : TypeCodes) (t : Trb) : Bool :=
  t.typ == c.transferEvent || t.typ == c.cmdCompletion || t.typ == c.portStatusChange

/-- `raise E` on its own, where its requirements hold (41_ring_protocol R210, 60_exceptions R377;
log 47). -/
def raiseStep (e : Trb) : Act Unit := do
  let s ← get
  if isEventTrb s.cfg.tt e && s.canRaise then raiseEvent e else pure ()

/-! ### Moves between two host accesses (42_lifecycle R237; log 10) -/

/-- One step of an agent other than the host. -/
def moveStep : CtlMove → Act Unit
  | .halt => haltStep
  | .resetComplete => resetCompleteStep
  | .ready => readyStep
  | .start => startStep
  | .command => commandStep
  | .transfer i => transferStep i
  | .portAttach p v => portAttachStep p v
  | .portDetach p => portDetachStep p
  | .portResetComplete p => portResetCompleteStep p
  | .portEvent p => portEventStep p

/-- Steps in order. -/
def moveSteps : List CtlMove → Act Unit
  | [] => pure ()
  | m :: r => do
    moveStep m
    moveSteps r

/-- The moves the schedule puts before the host's next access. -/
def gap : Act Unit := do
  let s ← get
  match s.sched.turns with
  | [] => pure ()
  | ms :: r => do
    set (s.withSched { s.sched with turns := r })
    moveSteps ms

/-! ### The meanings of the XHC.STEP rows -/

/-- xhc.halt (42_lifecycle R250). -/
def execXhcHalt (s : State) : Out := haltStep.run s

/-- xhc.reset_begin (42_lifecycle R251). -/
def execXhcResetBegin (s : State) : Out := resetBeginStep.run s

/-- xhc.reset_complete (42_lifecycle R252). -/
def execXhcResetComplete (s : State) : Out := resetCompleteStep.run s

/-- xhc.ready (42_lifecycle R253). -/
def execXhcReady (s : State) : Out := readyStep.run s

/-- xhc.start (42_lifecycle R254). -/
def execXhcStart (s : State) : Out := startStep.run s

/-- xhc.command_step (41_ring_protocol R204). -/
def execXhcCommandStep (s : State) : Out := commandStep.run s

/-- xhc.raise_event (41_ring_protocol R210). -/
def execXhcRaiseEvent (e : Trb) (s : State) : Out := (raiseStep e).run s

/-- xhc.transfer_step (45_control_transfer R350). -/
def execXhcTransferStep (i : SlotId) (s : State) : Out := (transferStep i).run s

/-- xhc.port_attach (43_ports R280). -/
def execXhcPortAttach (p : PortIx) (speed : BitVec 4) (s : State) : Out :=
  (portAttachStep p speed).run s

/-- xhc.port_detach (43_ports R280). -/
def execXhcPortDetach (p : PortIx) (s : State) : Out := (portDetachStep p).run s

/-- xhc.port_reset_complete (43_ports R284). -/
def execXhcPortResetComplete (p : PortIx) (s : State) : Out := (portResetCompleteStep p).run s

/-- xhc.port_event (43_ports R286). -/
def execXhcPortEvent (p : PortIx) (s : State) : Out := (portEventStep p).run s

end Sys2Proof.Machine
end

