-- ==== Sys2Proof/Machine/Access.lean ====
section
/-! DEFINITION. The register access layer (40_register_access R150 to R156), the pseudo-operations
(30_encoding R138) and the PCI configuration read (42_lifecycle R230). Before each access of the
host the schedule's moves are taken (`gap`, log 10). -/

namespace Sys2Proof.Machine

open Config

/-- `read_effect(B, off)` of a decoded access (40_register_access R150). -/
def readEffect : Instr → Act Dword
  | .rdCap0 => readCap0
  | .rdHcsparams1 => readHcsparams1
  | .rdDboff => readField (·.cfg.dboff)
  | .rdRtsoff => readField (·.cfg.rtsoff)
  | .rdUsbcmd => readUsbcmd
  | .rdUsbsts => readUsbsts
  | .rdCrcrLo => drawDword
  | .rdCrcrHi => drawDword
  | .rdDcbaapLo => readField fun s => lo32 s.op.dcbaap
  | .rdDcbaapHi => readField fun s => hi32 s.op.dcbaap
  | .rdConfig => readConfig
  | .rdPortsc p => readPortsc p
  | .rdIman => readIman
  | .rdErstsz => readErstsz
  | .rdErstbaLo => readField fun s => lo32 s.intr.erstba
  | .rdErstbaHi => readField fun s => hi32 s.intr.erstba
  | .rdErdpLo => readErdpLo
  | .rdErdpHi => readField fun s => hi32 s.er.deqPtr
  | .rdDb i => readDoorbell i
  | _ => refuse .undefinedOffset

/-- `write_effect(B, off, v)` of a decoded access (40_register_access R151). -/
def writeEffect : Instr → Act Unit
  | .wrCap _ _ => pure ()
  | .wrUsbcmd v => writeUsbcmd v
  | .wrUsbsts _ => writeNothing
  | .wrCrcrLo v => writeCrcrLo v
  | .wrCrcrHi v => writeCrcrHi v
  | .wrDcbaapLo v => writeDcbaapLo v
  | .wrDcbaapHi v => writeDcbaapHi v
  | .wrConfig v => writeConfig v
  | .wrPortsc p v => writePortsc p v
  | .wrIman v => writeIman v
  | .wrErstsz v => writeErstsz v
  | .wrErstbaLo v => writeErstbaLo v
  | .wrErstbaHi v => writeErstbaHi v
  | .wrErdpLo v => writeErdpLo v
  | .wrErdpHi v => writeErdpHi v
  | .wrDb0 v => writeDb0 v
  | .wrDbi i v => writeDoorbell i v
  | _ => refuse .undefinedOffset

/-- The operation an access selects (20_memory R72, R77). -/
def selectAccess (a : Access) : Act Instr := do
  let s ← get
  match decodeAccess s.cfg a with
  | .ok i => pure i
  | .error _ => refuse .misalignedAccess

/-- The address of an access, once its base is known (40_register_access R150, R154; log 26). -/
def addressAccess (b : RegBlock) (off : Dword) : Act Unit := do
  let s ← get
  require (s.host.baseKnown b) .baseNotFixed
  set (s.withHost { s.host with busAddr := s.host.regAddr b off })

/-- `RegRead32` (40_register_access R150). -/
def regRead32 (b : RegBlock) (off : Dword) : Act Dword := do
  gap
  addressAccess b off
  let i ← selectAccess ⟨b, off, none⟩
  readEffect i

/-- `RegWrite32` (40_register_access R151). -/
def regWrite32 (b : RegBlock) (off v : Dword) : Act Unit := do
  gap
  addressAccess b off
  let i ← selectAccess ⟨b, off, some v⟩
  writeEffect i

/-- A 64-bit register stands at a multiple of 8 (40_register_access R152). -/
def aligned64 (off : Dword) : Act Unit := require (off.toNat % 8 == 0) .misalignedAccess

/-- `RegRead64`: low dword, then high dword (40_register_access R152). -/
def regRead64 (b : RegBlock) (off : Dword) : Act Qword := do
  aligned64 off
  let lo ← regRead32 b off
  let hi ← regRead32 b (off + 4)
  pure (hi ++ lo)

/-- `RegWrite64`: low dword, then high dword (40_register_access R153). -/
def regWrite64 (b : RegBlock) (off : Dword) (v : Qword) : Act Unit := do
  aligned64 off
  regWrite32 b off (lo32 v)
  regWrite32 b (off + 4) (hi32 v)

/-- A read-modify-write (30_encoding R138). -/
def regUpdate32 (b : RegBlock) (off : Dword) (f : Dword → Dword) : Act Unit := do
  let v ← regRead32 b off
  regWrite32 b off (f v)

/-- `SET32` (30_encoding R138). -/
def regSet32 (b : RegBlock) (off m : Dword) : Act Unit := regUpdate32 b off (· ||| m)

/-- `CLR32` (30_encoding R138). -/
def regClr32 (b : RegBlock) (off m : Dword) : Act Unit := regUpdate32 b off (· &&& ~~~m)

/-- What a bounded poll ends with (42_lifecycle R236): the last value read. -/
inductive PollEnd where
  | success (v : Dword)
  | timeout (v : Dword)
  deriving DecidableEq, Repr

/-- The poll counter after one more read (60_exceptions R392). -/
def countPoll : Act Unit :=
  modify fun s => s.withHost { s.host with pollCount := s.host.pollCount + 1 }

/-- At most `n` reads; `last` is the last value read (42_lifecycle R236). The wait after a read is
the moment of the moves before the next one; after the last read it stands alone (42_lifecycle
R237). -/
def pollReads (b : RegBlock) (off mask want : Dword) : Nat → Dword → Act PollEnd
  | 0, last => do
    gap
    pure (.timeout last)
  | n + 1, _ => do
    let v ← regRead32 b off
    countPoll
    if v &&& mask = want then pure (.success v) else pollReads b off mask want n v

/-- `POLL` (42_lifecycle R236). -/
def regPoll (b : RegBlock) (off mask want : Dword) : Act PollEnd := do
  modify fun s => s.withHost { s.host with pollCount := 0 }
  pollReads b off mask want pollBudget 0

/-- What a poll returns as an operation. -/
def PollEnd.result : PollEnd → HostResult
  | .success v => .pollSuccess v
  | .timeout v => .pollTimeout v

/-- The command doorbell (41_ring_protocol R198). -/
def ringCommandDoorbell : Act Unit := regWrite32 .db 0 0

/-- Slot `k`'s doorbell, target endpoint 0 (45_control_transfer R343, 30_encoding R123). -/
def ringEp0Doorbell (k : SlotId) : Act Unit := do
  let s ← get
  regWrite32 .db (doorbellOffset k) (fieldAt s.cfg.bitpos.dbTargetLo 1#8)

/-- A PCI configuration word; a function that does not answer reads as all ones (42_lifecycle R230,
R232; log 32). -/
def cfgWord (l : List PciWord) (bus : BitVec 8) (device : BitVec 5) (function : BitVec 3)
    (offset : BitVec 8) : Dword :=
  match l.find? fun w => w.bus == bus && w.device == device && w.function == function &&
      w.offset == offset with
  | some w => w.word
  | none => 0xFFFFFFFF

/-! ### The meanings of the ACCESS, PSEUDO and PCI rows -/

/-- RD32 (40_register_access R150). -/
def execRd32 (b : RegBlock) (off : Dword) (s : State) : Out :=
  (answering .dword (regRead32 b off)).run s

/-- WR32 (40_register_access R151). -/
def execWr32 (b : RegBlock) (off v : Dword) (s : State) : Out := (regWrite32 b off v).run s

/-- RD64 (40_register_access R152). -/
def execRd64 (b : RegBlock) (off : Dword) (s : State) : Out :=
  (answering .qword (regRead64 b off)).run s

/-- WR64 (40_register_access R153). -/
def execWr64 (b : RegBlock) (off : Dword) (v : Qword) (s : State) : Out :=
  (regWrite64 b off v).run s

/-- SET32 (30_encoding R138). -/
def execSet32 (b : RegBlock) (off m : Dword) (s : State) : Out := (regSet32 b off m).run s

/-- CLR32 (30_encoding R138). -/
def execClr32 (b : RegBlock) (off m : Dword) (s : State) : Out := (regClr32 b off m).run s

/-- POLL (42_lifecycle R236). -/
def execPoll (b : RegBlock) (off mask want : Dword) (s : State) : Out :=
  (answering PollEnd.result (regPoll b off mask want)).run s

/-- RING_CMD (41_ring_protocol R198). -/
def execRingCmd (s : State) : Out := ringCommandDoorbell.run s

/-- RING_EP0 (45_control_transfer R343). -/
def execRingEp0 (slot : SlotId) (s : State) : Out := (ringEp0Doorbell slot).run s

/-- CfgRead (42_lifecycle R230). -/
def execCfgRead (bus : BitVec 8) (device : BitVec 5) (function : BitVec 3) (offset : BitVec 8)
    (s : State) : Out :=
  (answer (.dword (cfgWord s.plat.pci bus device function offset))).run s

end Sys2Proof.Machine
end

