-- ==== Sys2Proof/Machine/HostRings.lean ====
section
/-! DEFINITION. The host's half of the rings (41_ring_protocol R190 to R197, R214 to R220, R225;
45_control_transfer R342) and the events it consumes. Before each access of the host to memory or
registers the schedule's moves are taken (`gap`, log 10). -/

namespace Sys2Proof.Machine

open Config

/-! ### Procedures that can fail (60_exceptions R370) -/

/-- A host procedure: it answers a value or fails with a reason. -/
abbrev Proc (α : Type) := ExceptT FailReason Act α

/-- `fail <Reason>` (60_exceptions R370). -/
def failWith {α : Type} (r : FailReason) : Proc α := ExceptT.mk (pure (.error r))

/-- A procedure as an operation: its outcome becomes the result (60_exceptions R370). -/
def concluding {α : Type} (ok : α → HostResult) (p : Proc α) : Act Unit := do
  match ← ExceptT.run p with
  | .ok a => answer (ok a)
  | .error r => answer (.failure r)

/-! ### Host accesses to memory -/

/-- A dword load after the moves that fall before it; refused in a buffer the controller holds
(45_control_transfer R347). -/
def hostLoad32 (a : Addr) : Act Dword := do
  gap
  let s ← get
  refuseIf (s.loadRefusal a 4)
  pure (s.mem.read32 a)

/-- A dword store after the moves that fall before it. -/
def hostPut32 (a : Addr) (v : Dword) : Act Unit := do
  gap
  hostStore32 a v

/-- A 64-bit store, low dword first: the model's order (log 53, DESIGN CHOICE), as the spec orders no
8-byte access to memory within itself (20_memory R81). -/
def hostPut64 (a : Addr) (v : Qword) : Act Unit := do
  hostPut32 a (lo32 v)
  hostPut32 (a + 4) (hi32 v)

/-- A host record replaced. -/
def setHost (f : HostRec → HostRec) : Act Unit := modify fun s => s.withHost (f s.host)

/-! ### Allocation of rings -/

/-- A ring record after allocation (41_ring_protocol R190). -/
def Ring.fresh (base : Addr) (n : Nat) : Ring := ⟨base, 0, 0, true, n⟩

/-- `Allocate` (41_ring_protocol R190; log 35). -/
def allocRing (n : Nat) (kind : BlockKind) : Proc Ring := do
  let a ← alloc (trbSize * n) (trbSize * n) kind
  match a with
  | some b => pure (Ring.fresh b n)
  | none => failWith (.allocationFailure .ring)

/-! ### Producing (41_ring_protocol R195, R196) -/

/-- The stores of one TRB at `a`, the cycle state OR-ed in last, the parameter's low dword before its
high one (log 53, DESIGN CHOICE). The moves before the first store are the caller's. -/
def storeTrb (a : Addr) (t : Trb) (cycle : Bool) : Act Unit := do
  hostStore32 a (lo32 t.parameter)
  hostPut32 (a + 4) (hi32 t.parameter)
  hostPut32 (a + 8) t.status
  hostPut32 (a + 12) t.control
  hostPut32 (a + 12) (storedControl t.control cycle)

/-- A step of the account of what is outstanding. -/
def accountFor (f : Ledger → Ledger) : Act Unit := modify (·.account f)

/-- What a command hands over: an Address Device its input context (44_commands R318). -/
def commandRegions (c : Params) (t : Trb) : List Region :=
  if t.typ = c.tt.addressDevice then [⟨t.parameter, c.inCtxBytes, false⟩] else []

/-- A TRB stored at the enqueue index of ring `r`, refused when the ring is full (41_ring_protocol
R195, R199). -/
def enqueueOn (r : Ring) (full : State → Bool) (t : Trb) : Act Unit := do
  require (r.size != 0) .ringNotAllocated
  gap
  let s ← get
  require (!full s) .ringOverrun
  storeTrb (ringAddr r.base r.enq) t r.cycle

/-- `post_command` (41_ring_protocol R195). -/
def postCommand (t : Trb) : Act Unit := do
  let s ← get
  let r := s.host.cmd
  enqueueOn r State.cmdRingFull t
  accountFor (·.posted (ringAddr r.base r.enq) (commandRegions s.cfg t))
  setHost fun h => { h with cmd := r.enqAdvanced }
  ringCommandDoorbell

/-- `ep0_enqueue` (45_control_transfer R342); that slot `k`'s record is in use is the caller's part
(R340; log 31). -/
def ep0Enqueue (k : SlotId) (t : Trb) : Act Unit := do
  let s ← get
  let r := s.host.ep0.get k
  enqueueOn r (State.ep0RingFull · k) t
  accountFor (·.staged s.cfg.tt k (ringAddr r.base r.enq) t)
  setHost fun h => { h with ep0 := h.ep0.put k r.enqAdvanced }

/-! ### Consuming (41_ring_protocol R214 to R219) -/

/-- What was handed over with the TRB at `a` is the host's again (70_reset R424). -/
def handBack (a : Addr) (s : State) : State := s.account (·.handedBack a)

/-- What the host records of a Transfer Event (41_ring_protocol R218); every code but a short
packet ends the transfer, and its buffer is the host's again (45_control_transfer R347). -/
def recordTransfer (e : TransferEvent) (s : State) : State :=
  let t := s.withHost
    { s.host with lastTransfer := ⟨e.code, e.residual, e.slot, e.ep, e.trbPtr, true⟩ }
  if e.code = s.cfg.cc.shortPacket then t else handBack e.trbPtr t

/-- What the host records of a Command Completion Event (41_ring_protocol R218); an input context
handed over with that command is the host's again (44_commands R318). -/
def recordCompletion (e : CompletionEvent) (s : State) : State :=
  handBack e.trbPtr
    (s.withHost { s.host with lastCompletion := ⟨e.code, e.slot, e.trbPtr, true⟩ })

/-- What the host records of a Port Status Change Event (41_ring_protocol R218). -/
def recordPort (e : PortEvent) (s : State) : State :=
  s.withHost { s.host with lastPortChange := ⟨e.portNum, true⟩ }

/-- Dispatch by type; an unrecognised type is skipped (41_ring_protocol R218, R219). -/
def recordTrb (c : TypeCodes) (t : Trb) (s : State) : State :=
  if t.typ = c.transferEvent then recordTransfer (.ofTrb t) s
  else if t.typ = c.cmdCompletion then recordCompletion (.ofTrb t) s
  else if t.typ = c.portStatusChange then recordPort (.ofTrb t) s
  else s

/-- One event consumed: recorded, the index advanced, ERDP written (41_ring_protocol R214, R216,
R217). -/
def consumeValid (record : State → State) : Act Unit := do
  modify record
  setHost fun h => { h with evt := h.evt.deqAdvanced }
  let s ← get
  regWrite64 .rt 0x38 (ringAddr s.host.evt.base s.host.evt.deq ||| 8)
  answer (.bool true)

/-- The host meets an event TRB with cycle bit `cycle`: nothing is pending at a mismatch
(41_ring_protocol R215). -/
def consumeEvent (cycle : Bool) (record : State → State) : Act Unit := do
  let s ← get
  require (s.host.evt.size != 0) .ringNotAllocated
  if cycle != s.host.evt.cycle then answer (.bool false) else consumeValid record

/-- The address of the next event TRB (41_ring_protocol R214). -/
def HostRec.eventAddr (h : HostRec) : Addr := ringAddr h.evt.base h.evt.deq

/-- `process_events` (41_ring_protocol R214): the control dword is read first (70_reset R426), the
parameter's low dword before its high one (log 53, DESIGN CHOICE). -/
def processEvents : Act Unit := do
  let s ← get
  require (s.host.evt.size != 0) .ringNotAllocated
  let a := s.host.eventAddr
  let c ← hostLoad32 (a + 12)
  if bitOf c 0 != s.host.evt.cycle then answer (.bool false)
  else do
    let lo ← hostLoad32 a
    let hi ← hostLoad32 (a + 4)
    let st ← hostLoad32 (a + 8)
    consumeValid (recordTrb s.cfg.tt ⟨hi ++ lo, st, c⟩)

/-! ### Installing the rings -/

/-- CRCR's value for a ring: the base, and the cycle state at RCS (30_encoding R115,
41_ring_protocol R194). -/
def Ring.crcr (b : BitPos) (r : Ring) : Qword :=
  r.base ||| ((BitVec.ofBool r.cycle).setWidth 64 <<< b.crcrRcs)

/-- Initialise the command ring (41_ring_protocol R194). -/
def initCommandRing : Proc Unit := do
  let s ← get
  let r ← allocRing cmdRingSize .cmdRing
  setHost fun h => { h with cmd := r }
  accountFor Ledger.newCmdRing
  regWrite64 .op 0x18 (r.crcr s.cfg.bitpos)

/-- The event ring segment given back, and its record with it (41_ring_protocol R225, 60_exceptions
R374; log 30). -/
def dropEventRing (r : Ring) : Act Unit := do
  releaseWhere fun b => b.kind == .evtRing && b.base == r.base
  setHost fun h => { h with evt := .unallocated }

/-- Initialise the event ring (41_ring_protocol R225). -/
def initEventRing : Proc Unit := do
  let s ← get
  let r ← allocRing evtRingSize .evtRing
  setHost fun h => { h with evt := r }
  let e ← alloc 16 64 .erst
  match e with
  | none => do
    dropEventRing r
    failWith (.allocationFailure .erst)
  | some e => do
    setHost fun h => { h with erst := e }
    hostPut64 e r.base
    hostPut32 (e + 8) 256
    hostPut32 (e + 12) 0
    regWrite32 .rt 0x28 (fieldAt s.cfg.bitpos.erstszLo 1#16)
    regWrite64 .rt 0x30 e
    regWrite64 .rt 0x38 r.base

/-! ### The meanings of the ring rows and the event rows -/

/-- Allocate (41_ring_protocol R190). -/
def execAllocate (n : Nat) (s : State) : Out := (concluding .ring (allocRing n .ring)).run s

/-- init_command_ring (41_ring_protocol R194). -/
def execInitCommandRing (s : State) : Out :=
  (concluding (fun _ => .success) initCommandRing).run s

/-- init_event_ring (41_ring_protocol R225). -/
def execInitEventRing (s : State) : Out := (concluding (fun _ => .success) initEventRing).run s

/-- post_command (41_ring_protocol R195). -/
def execPostCommand (t : Trb) (s : State) : Out :=
  (answering (fun _ => .success) (postCommand t)).run s

/-- process_events (41_ring_protocol R214). -/
def execProcessEvents (s : State) : Out := processEvents.run s

/-- ep0_enqueue (45_control_transfer R342). -/
def execEp0Enqueue (k : SlotId) (t : Trb) (s : State) : Out :=
  (answering (fun _ => .success) (ep0Enqueue k t)).run s

/-- EV.TRANSFER (41_ring_protocol R218). -/
def execEvTransfer (e : TransferEvent) (s : State) : Out :=
  (consumeEvent e.cycle (recordTransfer e)).run s

/-- EV.CMD_COMPLETION (41_ring_protocol R218). -/
def execEvCmdCompletion (e : CompletionEvent) (s : State) : Out :=
  (consumeEvent e.cycle (recordCompletion { e with trbPtr := e.trbPtr &&& ~~~0xF#64 })).run s

/-- EV.PORT_STATUS_CHANGE (41_ring_protocol R218). -/
def execEvPortStatusChange (e : PortEvent) (s : State) : Out :=
  (consumeEvent e.cycle (recordPort e)).run s

/-- EV.other: consumed and skipped (41_ring_protocol R219). -/
def execEvOther (t : Trb) (s : State) : Out := (consumeEvent t.cycle id).run s

end Sys2Proof.Machine
end

