-- ==== Sys2Proof/Machine/Enumeration.lean ====
section
/-! DEFINITION. The host's port procedures (43_ports R272 to R277), slot allocation and device
addressing (44_commands R306 to R317), and control transfers (45_control_transfer R340 to R346). -/

namespace Sys2Proof.Machine

open Config

/-! ### Ports -/

/-- The reports of ports `p`, `p + 1`, ... (43_ports R272). -/
def probeFrom (p : Nat) : Nat → Act (List PortReport)
  | 0 => pure []
  | n + 1 => do
    let v ← regRead32 .op (portOffset (BitVec.ofNat 8 p))
    let s ← get
    let r ← probeFrom (p + 1) n
    pure (portReport s.cfg.bitpos v :: r)

/-- `probe_ports` (43_ports R272); in a state R272 does not ask for, the reads as they are written
(log 31). -/
def probePorts : Act (List PortReport) := do
  let s ← get
  probeFrom 0 s.host.maxPorts.toNat

/-- `reset_port` (43_ports R275, R277). -/
def resetPort (p : PortIx) : Proc Unit := do
  let s ← get
  let m := mask1 s.cfg.bitpos.portscPr
  let v ← regRead32 .op (portOffset p)
  regWrite32 .op (portOffset p) (v ||| m)
  match ← regPoll .op (portOffset p) m 0 with
  | .success _ => pure ()
  | .timeout _ => failWith (.timeout .portReset)

/-! ### Slot allocation (44_commands R306) -/

/-- The Enable Slot TRB, cycle bit clear (30_encoding R105). -/
def enableSlotTrb (c : TypeCodes) : Trb := ⟨0, 0, commandControl 0 0 c.enableSlot false⟩

/-- `enable_slot` (44_commands R306). -/
def enableSlot : Act Unit := do
  let s ← get
  postCommand (enableSlotTrb s.cfg.tt)

/-- The completion's `valid` flag cleared (44_commands R306, R316). -/
def takeCompletion : Act Unit :=
  setHost fun h => { h with lastCompletion := { h.lastCompletion with valid := false } }

/-- A device record after a successful Enable Slot, with what the host read from the port it
enumerates (44_commands R306, R328; log 24). -/
def Dev.enabled (d : Dev) (k : SlotId) (bind : Option PortBinding) : Dev :=
  let d := { d with slotId := k, inUse := true }
  match bind with
  | some b => { d with port := b.port + 1, speed := b.speed }
  | none => d

/-- `on_enable_slot_completion` (44_commands R306, R308; log 27). -/
def onEnableSlotCompletion (bind : Option PortBinding) : Act Unit := do
  let s ← get
  let l := s.host.lastCompletion
  if !l.valid then answer .waiting
  else do
    takeCompletion
    if l.code != s.cfg.cc.success then answer (.failure (.commandFailed l.code))
    else if l.slotId = 0 ∨ s.cfg.devTableSize ≤ l.slotId.toNat then
      answer (.failure (.slotIdRejected l.slotId))
    else do
      setHost fun h => { h with
        dev := h.dev.put l.slotId ((h.dev.get l.slotId).enabled l.slotId bind) }
      answer (.slot l.slotId)

/-! ### Device addressing -/

/-- The maximum packet size the host writes; any value for a speed with no decoding (44_commands
R311; log 7). -/
def choosePacketSize (speed : BitVec 4) : Act Dword := do
  let s ← get
  match packetSize s.cfg.mps speed with
  | some v => pure v
  | none => drawDword

/-- Slot id `n` has a place in the host's device table (44_commands R306; log 25). -/
def State.inTable (s : State) (n : SlotId) : Bool := n.toNat < s.cfg.devTableSize

/-- A slot id with no place in the device table is rejected (00_scope R8, 92 D27; log 25). -/
def rejectSlot (n : SlotId) : Proc Unit := do
  let s ← get
  if s.inTable n then pure () else failWith (.slotIdRejected n)

/-- Dwords changed one after the other, each by a load and a store (20_memory R81; log 46). -/
def updateDwords (a : Addr) : List (Nat × (Dword → Dword)) → Act Unit
  | [] => pure ()
  | u :: r => do
    let v ← hostLoad32 (a + BitVec.ofNat 64 u.1)
    hostPut32 (a + BitVec.ofNat 64 u.1) (u.2 v)
    updateDwords a r

/-- The contexts of slot `n` filled in at `ic` (44_commands R311; log 46). -/
def fillContexts (ic : Addr) (n : SlotId) : Act Unit := do
  let s ← get
  require (!s.isInUse .inCtx ic (3 * s.cfg.ctxSize)) .handedOver
  let packet ← choosePacketSize (s.host.dev.get n).speed
  updateDwords ic
    (inputUpdates s.cfg.ctx s.cfg.ctxSize (s.host.dev.get n) (s.host.ep0.get n) packet)

/-- `fill_input_context` (44_commands R311). -/
def fillInputContext (ic : Addr) (n : SlotId) : Proc Unit := do
  rejectSlot n
  fillContexts ic n

/-- One allocation of a context (44_commands R309). -/
def allocContext (size : Nat) (kind : BlockKind) : Proc Addr := do
  let a ← alloc size 64 kind
  match a with
  | some a => pure a
  | none => failWith (.allocationFailure .context)

/-- A context block given back (60_exceptions R374). -/
def dropBlock (kind : BlockKind) (a : Addr) : Act Unit :=
  releaseWhere fun b => b.kind == kind && b.base == a

/-- The three allocations of `address_device`; a failure gives back the earlier ones (44_commands
R309). -/
def allocDevice : Proc (Addr × Addr × Ring) := do
  let s ← get
  let ic ← allocContext s.cfg.inCtxBytes .inCtx
  let dc ← tryCatch (allocContext s.cfg.devCtxBytes .devCtx) fun r => do
    dropBlock .inCtx ic
    failWith r
  let ring ← tryCatch (allocRing ep0RingSize .ep0Ring) fun r => do
    dropBlock .inCtx ic
    dropBlock .devCtx dc
    failWith r
  pure (ic, dc, ring)

/-- The Address Device TRB, cycle bit clear (30_encoding R106). -/
def addressDeviceTrb (c : TypeCodes) (n : SlotId) (ic : Addr) : Trb :=
  ⟨ic, 0, commandControl n 0 c.addressDevice false⟩

/-- The device context installed in the DCBAA; an entry of a slot that lives is not changed
(44_commands R309, 70_reset R424), entry 0 is not written (93 U28), and neither is an entry whose
place is a ring's or the segment table's (70_reset R422, 93 U17; log 25). -/
def installEntry (n : SlotId) (dc : Addr) : Act Unit := do
  let s ← get
  require (n != 0) .dcbaaEntryZero
  let e := dcbaaEntry s.host.dcbaa n
  require (!s.entryHeld e 8) .handedOver
  require (!s.isInUse .dcbaa e 8) .handedOver
  hostPut64 e dc
  accountFor (·.entrySet n e dc)

/-- `address_device` (44_commands R309; log 25). -/
def addressDevice (n : SlotId) : Proc Unit := do
  let s ← get
  rejectSlot n
  let (ic, dc, ring) ← allocDevice
  setHost fun h => { h with
    ep0 := h.ep0.put n ring
    dev := h.dev.put n { h.dev.get n with inCtx := ic, devCtx := dc } }
  accountFor (·.newEp0Ring n)
  fillContexts ic n
  installEntry n dc
  postCommand (addressDeviceTrb s.cfg.tt n ic)

/-- `on_address_device_completion` (44_commands R316; logs 25 and 27). -/
def onAddressDeviceCompletion (n : SlotId) : Act Unit := do
  let s ← get
  let l := s.host.lastCompletion
  if !l.valid then answer .waiting
  else do
    takeCompletion
    if l.code != s.cfg.cc.success then answer (.failure (.commandFailed l.code))
    else if s.inTable n then do
      let f := s.cfg.ctx.usbAddress
      let v ← hostLoad32 ((s.host.dev.get n).devCtx + BitVec.ofNat 64 (4 * f.dword))
      setHost fun h => { h with
        dev := h.dev.put n { h.dev.get n with address := (f.read v).setWidth 7 } }
      answer .success
    else answer (.failure (.slotIdRejected n))

/-! ### Control transfers -/

/-- Stages enqueued in order (45_control_transfer R340). -/
def stageAll (k : SlotId) : List Trb → Act Unit
  | [] => pure ()
  | t :: r => do
    ep0Enqueue k t
    stageAll k r

/-- `control_transfer` (45_control_transfer R340). That slot `k`'s device record is in use and
addressed is the caller's part: for any other record the stages are staged, and the doorbell rung,
as they are written (log 31, DEDUCED). -/
def controlTransfer (k : SlotId) (setup : SetupPacket) (buf : Addr) : Act Unit := do
  let s ← get
  stageAll k (controlStages s.cfg.tt setup buf)
  ringEp0Doorbell k

/-- The bytes a short packet moved; any value where the residual exceeds the request
(45_control_transfer R346; log 23). -/
def shortLength (len : Dword) (residual : BitVec 24) : Act Dword :=
  if residual.toNat ≤ len.toNat then pure (len - residual.setWidth 32) else drawDword

/-- `on_transfer_completion` (45_control_transfer R346; log 27). -/
def onTransferCompletion (len : Dword) : Act Unit := do
  let s ← get
  let l := s.host.lastTransfer
  if !l.valid then answer .waiting
  else do
    setHost fun h => { h with lastTransfer := { h.lastTransfer with valid := false } }
    if l.code = s.cfg.cc.success then answer (.bytes len)
    else if l.code = s.cfg.cc.shortPacket then do
      let n ← shortLength len l.residual
      answer (.bytes n)
    else answer (.failure (.transferFailed l.code))

/-! ### The meanings of the port, enumeration and transfer rows -/

/-- probe_ports (43_ports R272). -/
def execProbePorts (s : State) : Out := (answering .ports probePorts).run s

/-- decode_speed (43_ports R274). -/
def execDecodeSpeed (v : BitVec 4) (s : State) : Out := (answer (.speed (decodedSpeed v))).run s

/-- reset_port (43_ports R275). -/
def execResetPort (p : PortIx) (s : State) : Out :=
  (concluding (fun _ => .success) (resetPort p)).run s

/-- enable_slot (44_commands R306). -/
def execEnableSlot (s : State) : Out := (answering (fun _ => .success) enableSlot).run s

/-- on_enable_slot_completion (44_commands R306). -/
def execOnEnableSlotCompletion (bind : Option PortBinding) (s : State) : Out :=
  (onEnableSlotCompletion bind).run s

/-- address_device (44_commands R309). -/
def execAddressDevice (n : SlotId) (s : State) : Out :=
  (concluding (fun _ => .success) (addressDevice n)).run s

/-- fill_input_context (44_commands R311). -/
def execFillInputContext (ic : Addr) (n : SlotId) (s : State) : Out :=
  (concluding (fun _ => .success) (fillInputContext ic n)).run s

/-- on_address_device_completion (44_commands R316). -/
def execOnAddressDeviceCompletion (n : SlotId) (s : State) : Out :=
  (onAddressDeviceCompletion n).run s

/-- control_transfer (45_control_transfer R340). -/
def execControlTransfer (k : SlotId) (setup : SetupPacket) (buf : Addr) (s : State) : Out :=
  (answering (fun _ => .success) (controlTransfer k setup buf)).run s

/-- on_transfer_completion (45_control_transfer R346). -/
def execOnTransferCompletion (_k : SlotId) (len : Dword) (s : State) : Out :=
  (onTransferCompletion len).run s

end Sys2Proof.Machine
end

