-- ==== Sys2Proof/Machine/HostBringup.lean ====
section
/-! DEFINITION. Discovery, capability parsing, reset and start (42_lifecycle R231 to R258). -/

namespace Sys2Proof.Machine

open Config

/-! ### Discovery -/

/-- The BAR of a function that is an xHCI controller (42_lifecycle R231). -/
def probeFunction (l : List PciWord) (bus : BitVec 8) (device : BitVec 5)
    (function : BitVec 3) : Option Addr :=
  if (cfgWord l bus device function 0x00).extractLsb' 0 16 = 0xFFFF then none
  else if isXhciClass (cfgWord l bus device function 0x08) then
    some (bar0Of (cfgWord l bus device function 0x10))
  else none

/-- The first match, bus outermost, function innermost (42_lifecycle R231). -/
def scanPci (l : List PciWord) : Option Addr :=
  (List.range 256).findSome? fun b => (List.range 32).findSome? fun d =>
    (List.range 8).findSome? fun f =>
      probeFunction l (BitVec.ofNat 8 b) (BitVec.ofNat 5 d) (BitVec.ofNat 3 f)

/-- The discovery scan (42_lifecycle R231, R234). -/
def discoverController : Act Unit := do
  let s ← get
  match scanPci s.plat.pci with
  | some a => do
    setHost fun h => { h with found := true, capBase := a }
    answer (.found a)
  | none => answer (.failure .notFound)

/-! ### Capability parsing -/

/-- The four reads and the bases (42_lifecycle R233). -/
def parseCaps : Act Unit := do
  let v0 ← regRead32 .cap 0x00
  let v1 ← regRead32 .cap 0x04
  let db ← regRead32 .cap 0x14
  let rt ← regRead32 .cap 0x18
  setHost fun h => { h with
    hciVersion := capVersion v0
    maxSlots := hcsMaxSlots v1
    maxIntrs := hcsMaxIntrs v1
    maxPorts := hcsMaxPorts v1
    opBase := h.capBase + (capLength v0).setWidth 64
    rtBase := h.capBase + rt.setWidth 64
    dbBase := h.capBase + db.setWidth 64
    basesFixed := true
    lifecycle := .uninitialized
    initialized := false
    running := false }

/-! ### Reset (42_lifecycle R238 to R243) -/

/-- A poll that must succeed before the sequence goes on (60_exceptions R372). -/
def pollOrFail (b : RegBlock) (off mask want : Dword) (stage : TimeoutStage) : Proc Unit := do
  match ← regPoll b off mask want with
  | .success _ => pure ()
  | .timeout _ => failWith (.timeout stage)

/-- `reset_controller` (42_lifecycle R238). -/
def resetSequence : Proc Unit := do
  let s ← get
  let b := s.cfg.bitpos
  setHost fun h => { h with lifecycle := .resetting, initialized := false, running := false }
  regClr32 .op 0x00 1
  pollOrFail .op 0x04 (mask1 b.usbstsHch) (mask1 b.usbstsHch) .halt
  regSet32 .op 0x00 (mask1 b.usbcmdHcrst)
  pollOrFail .op 0x00 (mask1 b.usbcmdHcrst) 0 .reset
  pollOrFail .op 0x04 (mask1 b.usbstsCnr) 0 .ready
  setHost fun h => { h with lifecycle := .ready, initialized := true, running := false }

/-! ### Start (42_lifecycle R245 to R247) -/

/-- Step 1: the DCBAA (42_lifecycle R246). -/
def installDcbaa : Proc Unit := do
  let s ← get
  let a ← alloc (8 * (s.host.maxSlots.toNat + 1)) 64 .dcbaa
  match a with
  | none => failWith (.allocationFailure .dcbaa)
  | some a => do
    setHost fun h => { h with dcbaa := a }
    regWrite64 .op 0x30 a

/-- `start_controller` (42_lifecycle R245). -/
def startSequence : Proc Unit := do
  let s ← get
  let b := s.cfg.bitpos
  installDcbaa
  regWrite32 .op 0x38 (fieldAt b.maxSlotsEnLo s.host.maxSlots)
  initCommandRing
  initEventRing
  regSet32 .rt 0x20 (mask1 b.imanIe)
  regSet32 .op 0x00 5
  pollOrFail .op 0x04 (mask1 b.usbstsHch) 0 .start
  setHost fun h => { h with lifecycle := .running, initialized := true, running := true }

/-! ### Failure (42_lifecycle R256, 60_exceptions R374; log 30) -/

/-- The kinds of block a bring-up allocates. -/
def BlockKind.isBringup : BlockKind → Bool
  | .dcbaa | .cmdRing | .evtRing | .erst => true
  | .inCtx | .devCtx | .ep0Ring | .ring => false

/-- The host's records once the Controller record is released. -/
def HostRec.dropped (h : HostRec) : HostRec :=
  { HostRec.initial with lifecycle := .failed, pollCount := h.pollCount, busAddr := h.busAddr }

/-- A failed bring-up: what it allocated and the Controller record are released, no register is
written. The blocks of an earlier bring-up that succeeded are released with them: the model's choice
(log 30, DESIGN CHOICE), where 90_conflicts C3 speaks of what "this bring-up" allocated. -/
def abortBringup (r : FailReason) : Act Unit := do
  let s ← get
  releaseWhere fun b => b.kind.isBringup
  accountFor (·.entriesFreed (s.plat.live.filter (·.kind.isBringup)))
  setHost HostRec.dropped
  answer (.failure r)

/-- A bring-up procedure as an operation. -/
def bringingUp (p : Proc Unit) : Act Unit := do
  match ← ExceptT.run p with
  | .ok _ => answer .success
  | .error r => abortBringup r

/-! ### The whole bring-up (42_lifecycle R258) -/

/-- A new Controller record (10_state R59, 70_reset R417). -/
def HostRec.created (h : HostRec) (bar0 : Addr) : HostRec :=
  { HostRec.initial with
    found := true, capBase := bar0, pollCount := h.pollCount, busAddr := h.busAddr }

/-- Parse, reset, start, each after the success of the one before. -/
def bringupSequence : Proc Unit := do
  parseCaps
  resetSequence
  startSequence

/-- `discover_and_start()` (42_lifecycle R258); a bring-up whose Controller record cannot be
allocated is a failed bring-up with nothing to release (42_lifecycle R256; log 15). -/
def discoverAndStart : Act Unit := do
  let s ← get
  match scanPci s.plat.pci with
  | none => answer (.failure .notFound)
  | some a =>
    if s.plat.heapFull then do
      setHost HostRec.dropped
      answer (.failure (.allocationFailure .controller))
    else do
      setHost fun h => h.created a
      bringingUp bringupSequence

/-! ### The meanings of the bring-up rows -/

/-- discover (42_lifecycle R231). -/
def execDiscover (s : State) : Out := discoverController.run s

/-- parse_capabilities (42_lifecycle R233). -/
def execParseCapabilities (s : State) : Out := (answering (fun _ => .success) parseCaps).run s

/-- reset_controller (42_lifecycle R238). -/
def execResetController (s : State) : Out := (bringingUp resetSequence).run s

/-- start_controller (42_lifecycle R245). -/
def execStartController (s : State) : Out := (bringingUp startSequence).run s

/-- discover_and_start (42_lifecycle R258). -/
def execDiscoverAndStart (s : State) : Out := discoverAndStart.run s

end Sys2Proof.Machine
end

