-- ==== Sys2Proof/Machine/Dispatch.lean ====
section
/-! DEFINITION. One arm per operation (00_scope R14). -/

namespace Sys2Proof.Machine

/-- The meaning of an operation. -/
def exec (i : Instr) (s : State) : Host.Outcome State Fault Refusal :=
  match i with
  | .rd32 b off => Sys2Proof.Machine.execRd32 b off s
  | .wr32 b off v => Sys2Proof.Machine.execWr32 b off v s
  | .rd64 b off => Sys2Proof.Machine.execRd64 b off s
  | .wr64 b off v => Sys2Proof.Machine.execWr64 b off v s
  | .set32 b off m => Sys2Proof.Machine.execSet32 b off m s
  | .clr32 b off m => Sys2Proof.Machine.execClr32 b off m s
  | .poll b off mask want => Sys2Proof.Machine.execPoll b off mask want s
  | .ringCmd => Sys2Proof.Machine.execRingCmd s
  | .ringEp0 slot => Sys2Proof.Machine.execRingEp0 slot s
  | .cfgRead bus device function offset => Sys2Proof.Machine.execCfgRead bus device function offset s
  | .rdCap0 => Sys2Proof.Machine.execRdCap0 s
  | .rdHcsparams1 => Sys2Proof.Machine.execRdHcsparams1 s
  | .rdDboff => Sys2Proof.Machine.execRdDboff s
  | .rdRtsoff => Sys2Proof.Machine.execRdRtsoff s
  | .wrCap r v => Sys2Proof.Machine.execWrCap r v s
  | .rdUsbcmd => Sys2Proof.Machine.execRdUsbcmd s
  | .wrUsbcmd v => Sys2Proof.Machine.execWrUsbcmd v s
  | .rdUsbsts => Sys2Proof.Machine.execRdUsbsts s
  | .wrUsbsts v => Sys2Proof.Machine.execWrUsbsts v s
  | .rdCrcrLo => Sys2Proof.Machine.execRdCrcrLo s
  | .rdCrcrHi => Sys2Proof.Machine.execRdCrcrHi s
  | .wrCrcrLo v => Sys2Proof.Machine.execWrCrcrLo v s
  | .wrCrcrHi v => Sys2Proof.Machine.execWrCrcrHi v s
  | .rdDcbaapLo => Sys2Proof.Machine.execRdDcbaapLo s
  | .rdDcbaapHi => Sys2Proof.Machine.execRdDcbaapHi s
  | .wrDcbaapLo v => Sys2Proof.Machine.execWrDcbaapLo v s
  | .wrDcbaapHi v => Sys2Proof.Machine.execWrDcbaapHi v s
  | .rdConfig => Sys2Proof.Machine.execRdConfig s
  | .wrConfig v => Sys2Proof.Machine.execWrConfig v s
  | .rdPortsc p => Sys2Proof.Machine.execRdPortsc p s
  | .wrPortsc p v => Sys2Proof.Machine.execWrPortsc p v s
  | .rdIman => Sys2Proof.Machine.execRdIman s
  | .wrIman v => Sys2Proof.Machine.execWrIman v s
  | .rdErstsz => Sys2Proof.Machine.execRdErstsz s
  | .wrErstsz v => Sys2Proof.Machine.execWrErstsz v s
  | .rdErstbaLo => Sys2Proof.Machine.execRdErstbaLo s
  | .rdErstbaHi => Sys2Proof.Machine.execRdErstbaHi s
  | .wrErstbaLo v => Sys2Proof.Machine.execWrErstbaLo v s
  | .wrErstbaHi v => Sys2Proof.Machine.execWrErstbaHi v s
  | .rdErdpLo => Sys2Proof.Machine.execRdErdpLo s
  | .rdErdpHi => Sys2Proof.Machine.execRdErdpHi s
  | .wrErdpLo v => Sys2Proof.Machine.execWrErdpLo v s
  | .wrErdpHi v => Sys2Proof.Machine.execWrErdpHi v s
  | .wrDb0 v => Sys2Proof.Machine.execWrDb0 v s
  | .wrDbi k v => Sys2Proof.Machine.execWrDbi k v s
  | .rdDb k => Sys2Proof.Machine.execRdDb k s
  | .undefinedOffset b off write => Sys2Proof.Machine.execUndefinedOffset b off write s
  | .cmdNoop cycle => Sys2Proof.Machine.execCmdNoop cycle s
  | .cmdEnableSlot cycle => Sys2Proof.Machine.execCmdEnableSlot cycle s
  | .cmdAddressDevice slot ictx cycle => Sys2Proof.Machine.execCmdAddressDevice slot ictx cycle s
  | .cmdDisableSlot slot cycle => Sys2Proof.Machine.execCmdDisableSlot slot cycle s
  | .cmdConfigureEndpoint slot ictx cycle => Sys2Proof.Machine.execCmdConfigureEndpoint slot ictx cycle s
  | .cmdEvaluateContext slot ictx cycle => Sys2Proof.Machine.execCmdEvaluateContext slot ictx cycle s
  | .cmdResetEndpoint slot ep cycle => Sys2Proof.Machine.execCmdResetEndpoint slot ep cycle s
  | .cmdSetTrDequeue slot ep ptr cycle => Sys2Proof.Machine.execCmdSetTrDequeue slot ep ptr cycle s
  | .cmdResetDevice slot cycle => Sys2Proof.Machine.execCmdResetDevice slot cycle s
  | .cmdLink t => Sys2Proof.Machine.execCmdLink t s
  | .cmdOther t => Sys2Proof.Machine.execCmdOther t s
  | .xferSetup k t => Sys2Proof.Machine.execXferSetup k t s
  | .xferData k t => Sys2Proof.Machine.execXferData k t s
  | .xferStatus k t => Sys2Proof.Machine.execXferStatus k t s
  | .xferNormal k t => Sys2Proof.Machine.execXferNormal k t s
  | .xferLink k t => Sys2Proof.Machine.execXferLink k t s
  | .xferEventData k t => Sys2Proof.Machine.execXferEventData k t s
  | .xferNoop k t => Sys2Proof.Machine.execXferNoop k t s
  | .evTransfer e => Sys2Proof.Machine.execEvTransfer e s
  | .evCmdCompletion e => Sys2Proof.Machine.execEvCmdCompletion e s
  | .evPortStatusChange e => Sys2Proof.Machine.execEvPortStatusChange e s
  | .evOther t => Sys2Proof.Machine.execEvOther t s
  | .discover => Sys2Proof.Machine.execDiscover s
  | .parseCapabilities => Sys2Proof.Machine.execParseCapabilities s
  | .resetController => Sys2Proof.Machine.execResetController s
  | .startController => Sys2Proof.Machine.execStartController s
  | .discoverAndStart => Sys2Proof.Machine.execDiscoverAndStart s
  | .allocate n => Sys2Proof.Machine.execAllocate n s
  | .initCommandRing => Sys2Proof.Machine.execInitCommandRing s
  | .initEventRing => Sys2Proof.Machine.execInitEventRing s
  | .postCommand t => Sys2Proof.Machine.execPostCommand t s
  | .processEvents => Sys2Proof.Machine.execProcessEvents s
  | .probePorts => Sys2Proof.Machine.execProbePorts s
  | .decodeSpeed code => Sys2Proof.Machine.execDecodeSpeed code s
  | .resetPort p => Sys2Proof.Machine.execResetPort p s
  | .enableSlot => Sys2Proof.Machine.execEnableSlot s
  | .onEnableSlotCompletion bind => Sys2Proof.Machine.execOnEnableSlotCompletion bind s
  | .addressDevice n => Sys2Proof.Machine.execAddressDevice n s
  | .fillInputContext ic n => Sys2Proof.Machine.execFillInputContext ic n s
  | .onAddressDeviceCompletion n => Sys2Proof.Machine.execOnAddressDeviceCompletion n s
  | .controlTransfer k setup buf => Sys2Proof.Machine.execControlTransfer k setup buf s
  | .ep0Enqueue k t => Sys2Proof.Machine.execEp0Enqueue k t s
  | .onTransferCompletion k len => Sys2Proof.Machine.execOnTransferCompletion k len s
  | .xhcHalt => Sys2Proof.Machine.execXhcHalt s
  | .xhcResetBegin => Sys2Proof.Machine.execXhcResetBegin s
  | .xhcResetComplete => Sys2Proof.Machine.execXhcResetComplete s
  | .xhcReady => Sys2Proof.Machine.execXhcReady s
  | .xhcStart => Sys2Proof.Machine.execXhcStart s
  | .xhcCommandStep => Sys2Proof.Machine.execXhcCommandStep s
  | .xhcRaiseEvent e => Sys2Proof.Machine.execXhcRaiseEvent e s
  | .xhcTransferStep k => Sys2Proof.Machine.execXhcTransferStep k s
  | .xhcPortAttach p speed => Sys2Proof.Machine.execXhcPortAttach p speed s
  | .xhcPortDetach p => Sys2Proof.Machine.execXhcPortDetach p s
  | .xhcPortResetComplete p => Sys2Proof.Machine.execXhcPortResetComplete p s
  | .xhcPortEvent p => Sys2Proof.Machine.execXhcPortEvent p s

end Sys2Proof.Machine
end

