-- ==== Sys2Proof/Machine/Fetch.lean ====
section
/-! DEFINITION. Fetching: the next TRB of the consumer the schedule names, decoded by the ring it
stands on (30_encoding R134), and the placing of one instruction where that consumer fetches
(logs 9 and 19). -/

namespace Sys2Proof.Machine

open Config

/-- What a consumer finds at its next slot. -/
inductive Fetched where
  /-- a valid TRB: the operation it selects -/
  | run (i : Instr)
  /-- nothing to consume: the state this leaves -/
  | stay (s : State)
  /-- a TRB the consumer refuses -/
  | refuse (r : Refusal)
  deriving DecidableEq, Repr

/-- A decoded TRB, or the refusal of a type that has no place on the ring (30_encoding R135 (c)). -/
def Fetched.ofDecoded : Except DecodeError Instr → Fetched
  | .ok i => .run i
  | .error _ => .refuse .otherOnEp0

/-- The command engine's fetch (41_ring_protocol R204, R207, R213). -/
def fetchCommand (s : State) : Fetched :=
  let t := s.mem.readTrb s.cr.fetchAddr
  if !s.commandOn then .stay s
  else if t.cycle != s.cr.ccs then .stay (s.withCr s.cr.stopped)
  else if !s.er.hasRoom then .stay s
  else .ofDecoded (decodeTrb s.cfg.tt .cmd t)

/-- The transfer engine's fetch for slot `i` (45_control_transfer R350). -/
def fetchTransfer (s : State) (i : SlotId) : Fetched :=
  match s.transferOn i with
  | none => .stay s
  | some r =>
    let t := s.xferTrb i 0
    if t.cycle != r.ccs then .stay (s.withXfer i (some r.stopped))
    else .ofDecoded (decodeTrb s.cfg.tt (.xfer i) t)

/-- The host's look at the event ring (41_ring_protocol R214, R215): the control dword first, the
others where it is valid, and none of them in a buffer the controller holds (45_control_transfer
R347). -/
def fetchEvent (s : State) : Fetched :=
  let a := s.host.eventAddr
  let t := s.mem.readTrb a
  if s.host.evt.size = 0 then .refuse .ringNotAllocated
  else match s.loadRefusal (a + 12) 4 with
    | some r => .refuse r
    | none =>
      if t.cycle != s.host.evt.cycle then .stay (s.withResult (.bool false))
      else match s.loadsRefusal [a, a + 4, a + 8] with
        | some r => .refuse r
        | none => .ofDecoded (decodeTrb s.cfg.tt .evt t)

/-- The fetch of the consumer the schedule names (log 9). -/
def fetchNext (s : State) : Fetched :=
  match s.sched.fetch with
  | .cmd => fetchCommand s
  | .xfer i => fetchTransfer s i
  | .evt => fetchEvent s

/-- What a fetch leads to. -/
def runFetched (s : State) : Fetched → Host.Outcome State Fault Refusal
  | .run i => exec i s
  | .stay t => .next t
  | .refuse r => .refused r

/-! ### Placing an instruction (log 19) -/

/-- A running controller with nothing on the agenda and a given consumer. -/
def State.awaiting (s : State) (r : RingSel) : State :=
  (s.withSched { s.sched with agenda := [], fetch := r }).withOp
    { s.op with rs := true, hcrst := false, hch := false, cnr := false }

/-- An event ring with room, where there is none. -/
def State.withEventRoom (s : State) : State :=
  if s.er.free < 2 then
    s.withEr { s.er with base := 0x1000, size := evtRingSize, enq := 0, deqPtr := 0x1000 }
  else s

/-- A TRB at the command engine's dequeue index. -/
def State.placeCommand (s : State) (t : Trb) : State :=
  let s := (s.awaiting .cmd).withEventRoom
  (s.withCr { s.cr with ccs := t.cycle, running := true, loaded := true }).withMem
    (s.mem.writeTrb s.cr.fetchAddr t)

/-- The Setup stage of a transfer of `len` bytes, with its cycle bit (45_control_transfer R340). -/
def stagedSetup (c : TypeCodes) (len : BitVec 16) (isIn cycle : Bool) : Trb :=
  (setupStageTrb c ⟨if isIn then 0x80 else 0, 0, 0, 0, len⟩).withCycle cycle

/-- The stages after a Setup stage, with its cycle bit. -/
def stagedRest (c : TypeCodes) (t : Trb) : List Trb :=
  let status := StatusTrb.toTrb c ⟨t.trt != 3, true, t.cycle⟩
  if t.stages = 2 then [status]
  else [DataTrb.toTrb c ⟨0, t.setupLength.setWidth 17, t.trt == 3, t.cycle⟩, status]

/-- The TRBs of the transfer a table TRB belongs to: a Setup stage and what follows it, a Data or
Status stage after the Setup stage that asks for it. -/
def stagedTransfer (c : TypeCodes) (t : Trb) : List Trb :=
  if t.typ = c.setup then t :: stagedRest c t
  else if t.typ = c.data then
    [stagedSetup c (t.status.extractLsb' 0 16) (bitOf t.control 16) t.cycle, t,
     StatusTrb.toTrb c ⟨!bitOf t.control 16, true, t.cycle⟩]
  else if t.typ = c.status then [stagedSetup c 0 false t.cycle, t]
  else [t]

/-- TRBs stored at consecutive slots. -/
def Memory.writeTrbs (m : Memory) (base : Addr) : Nat → List Trb → Memory
  | _, [] => m
  | k, t :: r => Memory.writeTrbs (m.writeTrb (ringAddr base k) t) base (k + 1) r

/-- A transfer at the start of slot `i`'s ring, the slot addressed and its engine awake. -/
def State.placeTransfer (s : State) (i : SlotId) (t : Trb) : State :=
  let s := (s.awaiting (.xfer i)).withEventRoom
  let base := match s.tr.get i with
    | some r => r.base
    | none => 0x2000
  ((s.withSlot i { s.slots.get i with state := .addressed }).withXfer i
    (some ⟨base, 0, t.cycle, true⟩)).withMem
    (s.mem.writeTrbs base 0 (stagedTransfer s.cfg.tt t))

/-- An event at the host's dequeue index, the host's event ring and bases known. -/
def State.placeEvent (s : State) (t : Trb) : State :=
  let s := s.awaiting .evt
  let evt := { s.host.evt with
    cycle := t.cycle, size := if s.host.evt.size = 0 then evtRingSize else s.host.evt.size }
  (s.withHost { s.host with evt := evt, found := true, basesFixed := true }).withMem
    (s.mem.writeTrb s.host.eventAddr t)

/-- A TRB where the consumer of its ring fetches next. -/
def State.placeTrb (s : State) (t : Trb) : RingSel → State
  | .cmd => s.placeCommand t
  | .xfer i => s.placeTransfer i t
  | .evt => s.placeEvent t

end Sys2Proof.Machine
end

