-- ==== Sys2Proof/Machine/Step.lean ====
section
/-! DEFINITION. One step of the machine: the next operation of the agenda, else what the scheduled
consumer fetches (log 9). -/

namespace Sys2Proof.Machine

/-- One step. -/
def step (s : State) : Host.Outcome State Fault Refusal :=
  match s.sched.agenda with
  | i :: r => exec i (s.withSched { s.sched with agenda := r })
  | [] => runFetched s (fetchNext s)

/-- The state with the instruction of a table word where the next step fetches it (log 19). -/
def State.withFetchWord (s : State) (nbits w : Nat) : State :=
  s.placeTrb (tableTrb nbits w) (ringOfType Config.typeCodes (tableTrb nbits w).typ)

end Sys2Proof.Machine
end

