-- ==== Sys2Proof/Safety.lean ====
section
/-! DEFINITION. What claims about runs are stated in: an outcome that goes on, and the invariants
of the machine. Each invariant holds after reset and is kept by every step, from every state. -/

namespace Sys2Proof

/-- The operations of the controller and of ENV: the steps of XHC.STEP, and the TRBs the
controller's engines consume (00_scope R4). Every other operation is the host's. -/
def Instr.isController : Instr → Bool
  | .cmdNoop _ | .cmdEnableSlot _ | .cmdAddressDevice _ _ _ | .cmdDisableSlot _ _
  | .cmdConfigureEndpoint _ _ _ | .cmdEvaluateContext _ _ _ | .cmdResetEndpoint _ _ _
  | .cmdSetTrDequeue _ _ _ _ | .cmdResetDevice _ _ | .cmdLink _ | .cmdOther _ => true
  | .xferSetup _ _ | .xferData _ _ | .xferStatus _ _ | .xferNormal _ _ | .xferLink _ _
  | .xferEventData _ _ | .xferNoop _ _ => true
  | .xhcHalt | .xhcResetBegin | .xhcResetComplete | .xhcReady | .xhcStart | .xhcCommandStep
  | .xhcRaiseEvent _ | .xhcTransferStep _ | .xhcPortAttach _ _ | .xhcPortDetach _
  | .xhcPortResetComplete _ | .xhcPortEvent _ => true
  | _ => false

/-- The operations of the command, transfer and event engines among them. -/
def Instr.isEngine : Instr → Bool
  | .xhcHalt | .xhcResetBegin | .xhcResetComplete | .xhcReady | .xhcStart
  | .xhcPortAttach _ _ | .xhcPortDetach _ | .xhcPortResetComplete _ | .xhcPortEvent _ => false
  | i => i.isController

/-- The operations that may write USBCMD with HCRST set (40_register_access R159): its own row, an
access at its offset, and the procedures that reset the controller. -/
def Instr.writesUsbcmd : Instr → Prop
  | .wrUsbcmd _ | .resetController | .discoverAndStart => True
  | .wr32 b off _ | .wr64 b off _ | .set32 b off _ | .clr32 b off _ => b = .op ∧ off = 0
  | _ => False

/-- The operations that may write CONFIG (40_register_access R165): its own row, an access at its
offset, and the procedures that start the controller. -/
def Instr.writesConfig : Instr → Prop
  | .wrConfig _ | .startController | .discoverAndStart => True
  | .wr32 b off _ | .wr64 b off _ | .set32 b off _ | .clr32 b off _ => b = .op ∧ off = 0x38
  | _ => False

end Sys2Proof

namespace Sys2Proof.Machine

open Config

/-- The outcome is a next state. -/
def Completes (o : Host.Outcome State Fault Refusal) : Prop := ∃ t, o = .next t

/-- No fault and no refusal in the next `n` steps. -/
def SafeFor : Nat → State → Prop
  | 0, _ => True
  | n + 1, s => ∃ t, step s = .next t ∧ SafeFor n t

/-- No move of another agent falls between the host's accesses (log 10). -/
abbrev State.Quiet (s : State) : Prop := s.sched.turns = []

/-- No move falls before the host's next access; moves may be scheduled before later ones. -/
abbrev State.Calm (s : State) : Prop := s.sched.turns.headD [] = []

/-- The schedule once the next `n` host accesses have been made. -/
def State.afterTurns (s : State) (n : Nat) : State :=
  s.withSched { s.sched with turns := s.sched.turns.drop n }

/-- The host has put the address of a register on the bus (40_register_access R150, R154). -/
def State.onBus (s : State) (b : RegBlock) (off : Dword) : State :=
  s.withHost { s.host with busAddr := s.host.regAddr b off }

/-- The poll counter stands at `n` (60_exceptions R392). -/
def State.counted (s : State) (n : Nat) : State := s.withHost { s.host with pollCount := n }

/-- What a register write needs to be carried out (40_register_access R157 to R175, 41_ring_protocol
R201 to R203). -/
def State.accepts (s : State) : Instr → Prop
  | .wrCap _ _ => True
  | .wrUsbcmd v =>
    s.op.ready = true ∧ (bitOf v s.cfg.bitpos.usbcmdHcrst = true → s.op.hch = true)
  | .wrUsbsts _ | .wrCrcrLo _ | .wrCrcrHi _ | .wrDcbaapHi _ | .wrIman _ | .wrErstsz _
  | .wrErdpLo _ | .wrErdpHi _ => s.op.ready = true
  | .wrDcbaapLo v | .wrErstbaLo v => s.op.ready = true ∧ v.extractLsb' 0 6 = 0
  | .wrConfig v => s.op.ready = true ∧
    (v.extractLsb' s.cfg.bitpos.maxSlotsEnLo 8).toNat ≤ s.cfg.maxSlots.toNat
  | .wrPortsc p _ => s.hasPort p = true ∧ s.op.ready = true
  | .wrErstbaHi v =>
    s.op.ready = true ∧ (s.intr.erstsz = 0 ∨ s.intr.erstsz = 1 ∧
      let a := withHi s.intr.erstba v &&& ~~~0x3F#64
      (s.mem.read64 a).extractLsb' 0 6 = 0 ∧
      let size := (s.mem.read32 (a + 8)).extractLsb' 0 16
      size ≠ 0 ∧ size.toNat ≤ evtRingSize ∧
      (s.mem.read64 a).toNat % Nat.gcd (16 * size.toNat) 4096 = 0)
  | .wrDb0 v => s.op.ready = true ∧ (s.op.hch = true ∨ v.extractLsb' s.cfg.bitpos.dbTargetLo 8 = 0)
  | .wrDbi k v =>
    k.toNat ≤ s.cfg.maxSlots.toNat ∧ s.op.ready = true ∧
    (s.op.hch = true ∨ (k ≠ 0 ∧ s.isAddressed k = false) ∨
      v.extractLsb' s.cfg.bitpos.dbTargetLo 8 = if k = 0 then 0 else 1)
  | _ => False

/-- Where the next event is stored. -/
def State.eventAddr (s : State) : Addr := ringAddr s.er.base s.er.enq

/-- The next event may be stored: its slot is no freed memory and no structure of the host's. -/
abbrev State.eventAllowed (s : State) : Prop := s.ctlRefusal s.eventAddr 16 = none

/-- The state after an event (41_ring_protocol R210). -/
def State.raised (s : State) (e : Trb) : State :=
  ((s.withMem (s.mem.writeTrb s.eventAddr (e.withCycle s.er.pcs))).withEr
    { s.er.advanced with ehb := true }).withIntr { s.intr with ip := true }

/-- The command engine consumes a TRB with cycle bit `cycle` (41_ring_protocol R204, R213,
20_memory R85). -/
abbrev State.commandReady (s : State) (cycle : Bool) : Prop :=
  s.op.hch = false ∧ s.cr.running = true ∧ s.cr.loaded = true ∧ cycle = s.cr.ccs ∧
  s.er.hasRoom = true ∧ s.eventAllowed

/-- The TRB at the command engine's index retired with a completion (41_ring_protocol R204, R206,
R209); `s` has the command's own effect already. -/
def State.completed (s : State) (code : BitVec 8) (slot : SlotId) : State :=
  s.cmdPassed.raised (completionTrb s.cfg s.cr.fetchAddr code slot)

/-- Slot `i`'s engine, at `r`, finds a whole transfer of the host's shape, and room for its events
(45_control_transfer R350, R352, R357). -/
def State.transferReady (s : State) (i : SlotId) (r : XferRing) : Prop :=
  s.op.hch = false ∧ s.isAddressed i = true ∧ s.tr.get i = some r ∧ r.running = true ∧
  (s.xferTrb i 0).cycle = r.ccs ∧ (s.xferTrb i 0).typ = s.cfg.tt.setup ∧
  laterValid r (s.xferTrb i 0) (s.xferTrb i 1) (s.xferTrb i 2) = true ∧
  transferShape s.cfg.tt (s.xferTrb i 0) (s.xferTrb i 1) (s.xferTrb i 2) = true ∧
  2 ≤ s.er.free

/-- The operations that serve the transfer at slot `i`'s index: the engine's step, and the transfer
rows with the TRBs that stand there (log 18). -/
def State.transferRows (s : State) (i : SlotId) : List Instr :=
  let t0 := s.xferTrb i 0
  [.xhcTransferStep i, .xferSetup i (.ofTrb t0)] ++
  (if t0.stages = 3 then [.xferData i (.ofTrb (s.xferTrb i 1))] else []) ++
  [.xferStatus i (.ofTrb (if t0.stages = 2 then s.xferTrb i 1 else s.xferTrb i 2))]

/-- The state once the transfer is consumed and ENV has answered, before the answer's effect
(45_control_transfer R350, R356): `left` is what ENV still has coming. -/
def State.transferTaken (s : State) (i : SlotId) (r : XferRing) (left : List ControlAnswer) :
    State :=
  ((s.xferPassed i r (s.xferTrb i 0).stages).withEnv
    { s.env with control := left }).withFree { s.free with count := s.free.count + 1 }

/-! ### What the host stores and is given -/

/-- A byte of the block is one of the `n` bytes at `a`. -/
def Block.Overlaps (b : Block) (a : Addr) (n : Nat) : Prop :=
  ∃ j < b.size, ∃ k < n, byteAddr b.base j = byteAddr a k

/-- A byte of the region is one of the `n` bytes at `a`. -/
def Region.Overlaps (r : Region) (a : Addr) (n : Nat) : Prop :=
  ∃ j < r.size, ∃ k < n, byteAddr r.base j = byteAddr a k

/-- The host has handed over some of `n` bytes at `a`, or installed a living slot's DCBAA entry there
(70_reset R424). -/
def State.Lent (s : State) (a : Addr) (n : Nat) : Prop :=
  (∃ h ∈ s.ledger.handed, ∃ r ∈ h.held, r.Overlaps a n) ∨
  ∃ e ∈ s.ledger.installed, (s.slots.get e.slot).state ≠ .disabled ∧
    (⟨e.addr, 8, false⟩ : Region).Overlaps a n

/-- The host may store the four dwords of a TRB at `a`. -/
abbrev State.mayStoreTrb (s : State) (a : Addr) : Prop :=
  s.hostRefusal a 4 = none ∧ s.hostRefusal (a + 4) 4 = none ∧
  s.hostRefusal (a + 8) 4 = none ∧ s.hostRefusal (a + 12) 4 = none

/-- The host may load the four dwords of a TRB at `a`. -/
abbrev State.mayLoadTrb (s : State) (a : Addr) : Prop :=
  s.loadRefusal a 4 = none ∧ s.loadRefusal (a + 4) 4 = none ∧
  s.loadRefusal (a + 8) 4 = none ∧ s.loadRefusal (a + 12) 4 = none

/-- Memory after a producer's stores of a TRB at `a`, the cycle state OR-ed in last
(41_ring_protocol R195). -/
def Memory.storedTrb (m : Memory) (a : Addr) (t : Trb) (cycle : Bool) : Memory :=
  ((((m.write32 a (lo32 t.parameter)).write32 (a + 4) (hi32 t.parameter)).write32 (a + 8)
    t.status).write32 (a + 12) t.control).write32 (a + 12) (storedControl t.control cycle)

/-- The allocator may hand out `size` bytes at `a` (20_memory R84), and the host may zero them
(70_reset R424). -/
abbrev State.mayGive (s : State) (a : Addr) (size align : Nat) : Prop :=
  a.toNat % align = 0 ∧ a.toNat + size ≤ 2 ^ 64 ∧ s.plat.live.any (·.meets a size) = false ∧
  s.allocRefusal a size = none

/-- The platform once it has handed out `size` bytes at `a`, with `left` the answers that remain. -/
def Platform.giving (p : Platform) (a : Addr) (size : Nat) (kind : BlockKind)
    (left : List (Option Addr)) : Platform :=
  { p with
    allocs := left
    live := ⟨a, size, kind⟩ :: p.live
    freed := p.freed.flatMap (·.minus a size) }

/-- The state once `size` zeroed bytes at `a` are handed out (20_memory R84). -/
def State.given (s : State) (a : Addr) (size : Nat) (kind : BlockKind)
    (left : List (Option Addr)) : State :=
  (s.withPlat (s.plat.giving a size kind left)).withMem (s.mem.zeroBytes a.toNat size)

/-- The alignment a block is asked for with (20_memory R78). -/
def BlockKind.align (k : BlockKind) (size : Nat) : Nat :=
  match k with
  | .dcbaa | .erst | .inCtx | .devCtx => 64
  | .cmdRing | .evtRing | .ep0Ring | .ring => size

/-- Blocks handed out one after the other, with `left` the answers that then remain. -/
def State.givenAll (s : State) (left : List (Option Addr)) : List Block → State
  | [] => s
  | b :: r => (s.given b.base b.size b.kind (r.map (fun c => some c.base) ++ left)).givenAll left r

/-- The allocator may hand out those blocks, one after the other. -/
def State.mayGiveAll (s : State) (left : List (Option Addr)) : List Block → Prop
  | [] => True
  | b :: r => s.mayGive b.base b.size (b.kind.align b.size) ∧
    (s.given b.base b.size b.kind (r.map (fun c => some c.base) ++ left)).mayGiveAll left r

/-- The newest blocks given back: `l` of them, the one given back last first, are freed, and `live`
are left. -/
def State.returned (s : State) (l live : List Block) : State :=
  s.withPlat { s.plat with live := live, freed := l ++ s.plat.freed }

/-- The allocator has said no. -/
def State.denied (s : State) (left : List (Option Addr)) : State :=
  s.withPlat { s.plat with allocs := left }

/-- The host has consumed an event: its index advanced, ERDP written with EHB cleared, by a 64-bit
write whose high half comes last (41_ring_protocol R214, R216, R217). -/
def State.consumed (s : State) : State :=
  (((s.withHost { s.host with evt := s.host.evt.deqAdvanced }).onBus .rt 0x3C).withEr { s.er with
    deqPtr := ringAddr s.host.evt.base s.host.evt.deqAdvanced.deq &&& ~~~0xF#64
    ehb := false }).withResult (.bool true)

/-- The command doorbell has been rung (41_ring_protocol R198, R201, R203). -/
def State.rungCommand (s : State) : State :=
  let t := s.onBus .db 0
  if s.op.hch = true then t else t.withCr { s.cr with running := true }

/-- Slot `k`'s doorbell has been rung for endpoint 0, and what is staged for the slot is the
controller's (45_control_transfer R343, R347, 41_ring_protocol R202, R203). -/
def State.rungSlot (s : State) (k : SlotId) : State :=
  let t := s.onBus .db (doorbellOffset k)
  if s.op.hch = true ∨ s.isAddressed k = false then t
  else (t.withXfer k ((s.tr.get k).map fun r => { r with running := true })).account (·.rung k)

/-- A command TRB stored at the host's enqueue index and noted as posted, its input context handed
over if it is an Address Device, the index advanced, the doorbell rung (41_ring_protocol R195). -/
def State.posted (s : State) (t : Trb) : State :=
  let a := ringAddr s.host.cmd.base s.host.cmd.enq
  ((((s.withMem (s.mem.storedTrb a t s.host.cmd.cycle)).account
    (·.posted a (commandRegions s.cfg t))).withHost
    { s.host with cmd := s.host.cmd.enqAdvanced })).rungCommand

/-- The host can post a command: its ring exists, has a free slot there, and the registers take
writes (41_ring_protocol R195, R199). -/
def State.mayPost (s : State) : Prop :=
  s.host.cmd.size ≠ 0 ∧ s.cmdRingFull = false ∧ s.host.basesFixed = true ∧ s.op.hcrst = false ∧
  s.op.cnr = false ∧ s.mayStoreTrb (ringAddr s.host.cmd.base s.host.cmd.enq)

/-- A TRB stored at the enqueue index of slot `k`'s endpoint-0 ring and noted, the index advanced
(45_control_transfer R342). -/
def State.staged (s : State) (k : SlotId) (t : Trb) : State :=
  let r := s.host.ep0.get k
  ((s.withMem (s.mem.storedTrb (ringAddr r.base r.enq) t r.cycle)).account
    (·.staged s.cfg.tt k (ringAddr r.base r.enq) t)).withHost
    { s.host with ep0 := s.host.ep0.put k r.enqAdvanced }

/-- The host can stage a TRB on slot `k`'s ring (45_control_transfer R342, R344). -/
def State.mayStage (s : State) (k : SlotId) : Prop :=
  (s.host.ep0.get k).size ≠ 0 ∧ s.ep0RingFull k = false ∧
  s.mayStoreTrb (ringAddr (s.host.ep0.get k).base (s.host.ep0.get k).enq)

/-- TRBs staged in order. -/
def State.stagedAll (s : State) (k : SlotId) : List Trb → State
  | [] => s
  | t :: r => (s.staged k t).stagedAll k r

/-- The host can stage TRBs in order. -/
def State.mayStageAll (s : State) (k : SlotId) : List Trb → Prop
  | [] => True
  | t :: r => s.mayStage k ∧ (s.staged k t).mayStageAll k r

/-- The contexts of slot `n` filled in at `ic` (44_commands R311). -/
def State.filled (s : State) (ic : Addr) (n : SlotId) (packet : Dword) : State :=
  s.withMem (s.mem.updated ic
    (inputUpdates s.cfg.ctx s.cfg.ctxSize (s.host.dev.get n) (s.host.ep0.get n) packet))

/-! ### Bring-up -/

/-- The function at a place of PCI space is present and has the class of an xHCI controller
(42_lifecycle R231, R232). -/
def PciHit (l : List PciWord) (b : BitVec 8) (d : BitVec 5) (f : BitVec 3) : Prop :=
  (cfgWord l b d f 0).extractLsb' 0 16 ≠ 0xFFFF ∧ (cfgWord l b d f 8).extractLsb' 8 24 = 0x0C0330

/-- It is the first of them by bus, device and function (42_lifecycle R231). -/
def PciFirst (l : List PciWord) (b : BitVec 8) (d : BitVec 5) (f : BitVec 3) : Prop :=
  PciHit l b d f ∧ ∀ b' d' f', PciHit l b' d' f' →
    256 * b.toNat + 8 * d.toNat + f.toNat ≤ 256 * b'.toNat + 8 * d'.toNat + f'.toNat

/-- The base its BAR0 names (42_lifecycle R231). -/
def pciBar0 (l : List PciWord) (b : BitVec 8) (d : BitVec 5) (f : BitVec 3) : Addr :=
  (cfgWord l b d f 0x10 &&& 0xFFFFFFF0#32).setWidth 64

/-- The schedule with other moves to come. -/
def State.withTurns (s : State) (ts : List (List CtlMove)) : State :=
  s.withSched { s.sched with turns := ts }

/-- The capabilities parsed and the bases fixed (42_lifecycle R233). -/
def State.parsed (s : State) : State := s.withHost { s.host with
  hciVersion := s.cfg.hciversion
  maxSlots := s.cfg.maxSlots
  maxIntrs := s.cfg.maxIntrs
  maxPorts := s.cfg.maxPorts
  opBase := s.host.capBase + s.cfg.caplength.setWidth 64
  rtBase := s.host.capBase + s.cfg.rtsoff.setWidth 64
  dbBase := s.host.capBase + s.cfg.dboff.setWidth 64
  basesFixed := true
  lifecycle := .uninitialized
  initialized := false
  running := false
  busAddr := s.host.capBase + 0x18 }

/-- The controller reset and the host `Ready`, after polls that ended at their first read
(42_lifecycle R238, R244). -/
def State.resetDone (s : State) : State :=
  (s.controllerReset.withOp { OpRegs.reset with cnr := false }).withHost { s.host with
    lifecycle := .ready
    initialized := true
    running := false
    pollCount := 1
    busAddr := s.host.regAddr .op 4 }

/-- The four structures of the start sequence handed out: the DCBAA, the command ring, the event
ring and the segment table (42_lifecycle R245). -/
def State.startGiven (s : State) (d c v e : Addr) (left : List (Option Addr)) : State :=
  (((s.given d (8 * (s.host.maxSlots.toNat + 1)) .dcbaa (some c :: some v :: some e :: left)).given
    c 4096 .cmdRing (some v :: some e :: left)).given v 4096 .evtRing (some e :: left)).given
    e 16 .erst left

/-- The allocator may hand out those four, one after the other. -/
def State.mayStart (s : State) (d c v e : Addr) (left : List (Option Addr)) : Prop :=
  let size := 8 * (s.host.maxSlots.toNat + 1)
  let s1 := s.given d size .dcbaa (some c :: some v :: some e :: left)
  let s2 := s1.given c 4096 .cmdRing (some v :: some e :: left)
  let s3 := s2.given v 4096 .evtRing (some e :: left)
  s.plat.allocs = some d :: some c :: some v :: some e :: left ∧
  s.mayGive d size 64 ∧ s1.mayGive c 4096 4096 ∧ s2.mayGive v 4096 4096 ∧
  s3.mayGive e 16 64 ∧ (s.startGiven d c v e left).mayStoreTrb e

/-- Every register programmed by the start sequence of a halted controller, RS included, before the
controller starts (42_lifecycle R245 to R247, 41_ring_protocol R194, R225). -/
def State.startProgrammed (s : State) (d c v e : Addr) (left : List (Option Addr)) : State :=
  let g := s.startGiven d c v e left
  { g with
    op := ⟨true, true, false, true, false, c ||| 1#64 <<< s.cfg.bitpos.crcrRcs, d, s.host.maxSlots⟩
    intr := ⟨true, false, 1, e⟩
    cr := ⟨c, 0, true, false, true⟩
    er := ⟨v, 256, 0, true, v, s.er.ehb⟩
    ledger := s.ledger.newCmdRing
    mem := (((g.mem.write64 e v).write32 (e + 8) 256).write32 (e + 12) 0) }

/-- The controller started and the host `Running`, after a poll that ended at its first read
(42_lifecycle R254). -/
def State.startDone (s : State) (d c v e : Addr) (left : List (Option Addr)) : State :=
  let t := s.startProgrammed d c v e left
  { t with
    op := { t.op with hch := false }
    host := { s.host with
      dcbaa := d
      cmd := ⟨c, 0, 0, true, 256⟩
      evt := ⟨v, 0, 0, true, 256⟩
      erst := e
      lifecycle := .running
      initialized := true
      running := true
      pollCount := 1
      busAddr := s.host.regAddr .op 4 } }

/-- The bring-up has failed: the Controller record is gone, and of what the host knew only the last
poll's count and bus address remain (42_lifecycle R256, 60_exceptions R372, R374). -/
def HostRec.failed (h : HostRec) (r : FailReason) (n : Nat) (a : Addr) : HostRec :=
  { h.dropped with pollCount := n, busAddr := a, result := .failure r }

/-- `m` and `n` agree outside some blocks. -/
def Memory.AgreeOutside (m n : Memory) (l : List Block) : Prop :=
  ∀ a, (∀ b ∈ l, ∀ k < b.size, a ≠ byteAddr b.base k) → n.read a = m.read a

/-- The blocks of a bring-up given back and the Controller record gone, after a failure
(42_lifecycle R256, 60_exceptions R374): the blocks' bytes are any of `m`'s, the last poll made `n`
reads and the last access was at `a`; the DCBAA entries that lay in them are no one's (log 25). -/
def State.aborted (s : State) (m : Memory) (r : FailReason) (n : Nat) (a : Addr) : State :=
  (((s.withMem m).withPlat { s.plat with
    live := s.plat.live.filter fun b => !b.kind.isBringup
    freed := s.plat.live.filter (·.kind.isBringup) ++ s.plat.freed }).account
    (·.entriesFreed (s.plat.live.filter (·.kind.isBringup)))).withHost (s.host.failed r n a)

/-! ### Device addressing -/

/-- The input context, the device context and the endpoint-0 ring of slot `n` handed out and
recorded (44_commands R309). -/
def State.deviceGiven (s : State) (n : SlotId) (ic dc ring : Addr) (left : List (Option Addr)) :
    State :=
  let g := ((s.given ic s.cfg.inCtxBytes .inCtx (some dc :: some ring :: left)).given
    dc s.cfg.devCtxBytes .devCtx (some ring :: left)).given ring 4096 .ep0Ring left
  (g.account (·.newEp0Ring n)).withHost { g.host with
    ep0 := g.host.ep0.put n ⟨ring, 0, 0, true, 256⟩
    dev := g.host.dev.put n { g.host.dev.get n with inCtx := ic, devCtx := dc } }

/-- The allocator may hand out those three, one after the other. -/
def State.mayGiveDevice (s : State) (ic dc ring : Addr) (left : List (Option Addr)) : Prop :=
  let s1 := s.given ic s.cfg.inCtxBytes .inCtx (some dc :: some ring :: left)
  let s2 := s1.given dc s.cfg.devCtxBytes .devCtx (some ring :: left)
  s.plat.allocs = some ic :: some dc :: some ring :: left ∧
  s.mayGive ic s.cfg.inCtxBytes 64 ∧ s1.mayGive dc s.cfg.devCtxBytes 64 ∧
  s2.mayGive ring 4096 4096

/-- The host may fill the contexts of slot `n` at `ic`: the three contexts overlap no structure the
controller may be reading, and each dword may be loaded and stored (44_commands R311). -/
def State.mayFill (s : State) (ic : Addr) (n : SlotId) : Prop :=
  s.isInUse .inCtx ic (3 * s.cfg.ctxSize) = false ∧
  ∀ packet, ∀ u ∈ inputUpdates s.cfg.ctx s.cfg.ctxSize (s.host.dev.get n) (s.host.ep0.get n) packet,
    s.loadRefusal (ic + BitVec.ofNat 64 u.1) 4 = none ∧
    s.hostRefusal (ic + BitVec.ofNat 64 u.1) 4 = none

/-- The device context of slot `n` installed in the DCBAA (44_commands R309). -/
def State.deviceInstalled (s : State) (n : SlotId) (dc : Addr) : State :=
  let e := dcbaaEntry s.host.dcbaa n
  (s.withMem (s.mem.write64 e dc)).account (·.entrySet n e dc)

/-- The host may store the two dwords of DCBAA entry `n`, which overlap no installed entry of a
living slot, and no structure but the DCBAA that the controller may be reading (70_reset R422, R424).
-/
def State.mayInstall (s : State) (n : SlotId) : Prop :=
  s.entryHeld (dcbaaEntry s.host.dcbaa n) 8 = false ∧
  s.isInUse .dcbaa (dcbaaEntry s.host.dcbaa n) 8 = false ∧
  s.hostRefusal (dcbaaEntry s.host.dcbaa n) 4 = none ∧
  s.hostRefusal (dcbaaEntry s.host.dcbaa n + 4) 4 = none

/-- The low `n` bits of an address are 0. -/
abbrev LowZero (a : Addr) (n : Nat) : Prop := a.toNat % 2 ^ n = 0

/-- Memory has its canonical form, and the blocks handed out lie in the address space (log 1,
20_memory R84). -/
def State.MemoryInv (s : State) : Prop :=
  s.mem.wf ∧ ∀ b ∈ s.plat.live, b.base.toNat + b.size ≤ 2 ^ 64

/-- The lifecycle bits are one of the four combinations of 42_lifecycle R248, and an engine runs
only on a running controller (R250, 41_ring_protocol R201, R202). -/
def State.LifecycleInv (s : State) : Prop :=
  s.op.lifecycle ≠ none ∧
  (s.cr.running = true → s.op.hch = false) ∧
  ∀ i r, s.tr.get i = some r → r.running = true → s.op.hch = false

/-- The fields of a port agree (43_ports R279, R282). -/
def Port.Inv (p : Port) : Prop :=
  p.ccs = p.attached ∧ p.speed = (if p.ccs then p.devSpeed else 0) ∧ p.pr = p.resetting ∧
  (p.ped = true → p.ccs = true ∧ p.pr = false)

/-- Every port's fields agree. -/
def State.PortInv (s : State) : Prop := ∀ p, (s.ports.get p).Inv

/-- Slot ids other than Disabled lie in `1 .. CONFIG.MaxSlotsEn` (44_commands R329): kept by every
operation but a write of CONFIG (log 45). -/
def State.EnabledInRange (s : State) : Prop :=
  ∀ i, (s.slots.get i).state ≠ .disabled → 1 ≤ i.toNat ∧ i.toNat ≤ s.op.maxSlotsEn.toNat

/-- 44_commands R329, controller side: slot ids other than Disabled in `1 .. MAX_SLOTS`, no address
shared, and a transfer engine exactly where a slot is addressed. -/
def State.SlotInv (s : State) : Prop :=
  (∀ i, (s.tr.get i).isSome = s.isAddressed i) ∧
  (∀ i j, s.isAddressed i = true → s.isAddressed j = true →
    (s.slots.get i).addr = (s.slots.get j).addr → i = j) ∧
  (∀ i, s.isAddressed i = true → (s.slots.get i).addr ≠ 0) ∧
  (∀ i, (s.slots.get i).state ≠ .disabled → 1 ≤ i.toNat ∧ i.toNat ≤ s.cfg.maxSlots.toNat) ∧
  s.op.maxSlotsEn.toNat ≤ s.cfg.maxSlots.toNat

/-- 44_commands R329, host side: a DCBAA entry other than 0 is of a slot whose device record is in
use. -/
def State.EntriesInUse (s : State) : Prop :=
  ∀ k : SlotId, k.toNat ≤ s.host.maxSlots.toNat →
    s.mem.read64 (dcbaaEntry s.host.dcbaa k) ≠ 0 → (s.host.dev.get k).inUse = true

/-- Ring pointers are aligned and indices are in range (10_state R41, R44, R45, R47, R51, 20_memory
R78, R79). -/
def State.PointerInv (s : State) : Prop :=
  s.cr.deq < cmdRingSize ∧ LowZero s.cr.base 6 ∧
  (s.er.size = 0 ∨ s.er.enq < s.er.size ∧ s.er.size ≤ evtRingSize ∧
    s.er.base.toNat % Nat.gcd (trbSize * s.er.size) 4096 = 0) ∧
  LowZero s.er.base 6 ∧ LowZero s.er.deqPtr 4 ∧ LowZero s.op.dcbaap 6 ∧ LowZero s.intr.erstba 6 ∧
  ∀ i r, s.tr.get i = some r → r.deq < ep0RingSize ∧ LowZero r.base 12

/-- The host's lifecycle flags follow its lifecycle state (10_state R63), and a poll counts at most
1000 reads (60_exceptions R392). -/
def State.HostInv (s : State) : Prop :=
  (s.host.initialized = true ↔ s.host.lifecycle = .ready ∨ s.host.lifecycle = .running) ∧
  (s.host.running = true ↔ s.host.lifecycle = .running) ∧
  s.host.pollCount ≤ pollBudget

end Sys2Proof.Machine
end

