-- ==== Sys2Proof/WellFormed.lean ====
section
/-! DEFINITION. Which operand values an operation may carry: what its rule admits and its encoding
can hold. -/

namespace Sys2Proof

open Config

/-- A register offset that 20_memory R72 lists for no register, reached by an aligned access. -/
def unlistedOffset (c : Params) (b : RegBlock) (off : Dword) (w : Option Dword) : Bool :=
  decide (decodeAccess c ⟨b, off, w⟩ = .ok (.undefinedOffset b off w))

/-- Well-formed operands of an operation on the instance `c`. -/
def Instr.wellFormed (c : Params) : Instr → Bool
  | .rd32 _ off => decide (off.toNat % 4 = 0)
  | .wr32 _ off _ => decide (off.toNat % 4 = 0)
  | .rd64 _ off => decide (off.toNat % 8 = 0)
  | .wr64 _ off _ => decide (off.toNat % 8 = 0)
  | .set32 _ off _ => decide (off.toNat % 4 = 0)
  | .clr32 _ off _ => decide (off.toNat % 4 = 0)
  | .poll _ off _ _ => decide (off.toNat % 4 = 0)
  | .ringEp0 i => decide (1 ≤ i.toNat ∧ i.toNat ≤ c.maxSlots.toNat)
  | .cfgRead _ _ _ off => decide (off.toNat % 4 = 0)
  | .rdPortsc p => decide (p.toNat < c.maxPorts.toNat)
  | .wrPortsc p _ => decide (p.toNat < c.maxPorts.toNat)
  | .wrDbi i _ => decide (1 ≤ i.toNat ∧ i.toNat ≤ c.maxSlots.toNat)
  | .rdDb i => decide (i.toNat ≤ c.maxSlots.toNat)
  | .undefinedOffset b off w => unlistedOffset c b off w
  | .cmdLink t => decide (t.typ = c.tt.link)
  | .cmdOther t =>
    decide (t.typ ∉ [c.tt.noopCmd, c.tt.enableSlot, c.tt.addressDevice, c.tt.disableSlot,
      c.tt.configureEndpoint, c.tt.evaluateContext, c.tt.resetEndpoint, c.tt.setTrDequeue,
      c.tt.resetDevice, c.tt.link])
  | .xferNormal _ t => decide (t.typ = c.tt.normal)
  | .xferLink _ t => decide (t.typ = c.tt.link)
  | .xferEventData _ t => decide (t.typ = c.tt.eventData)
  | .xferNoop _ t => decide (t.typ = c.tt.noopXfer)
  | .evCmdCompletion e => decide (e.trbPtr &&& 0xF#64 = 0)
  | .evOther t =>
    decide (t.typ ∉ [c.tt.transferEvent, c.tt.cmdCompletion, c.tt.portStatusChange])
  | .allocate n => decide (1 ≤ n)
  | .postCommand t => !t.cycle
  | .resetPort p => decide (p.toNat < c.maxPorts.toNat)
  | .addressDevice n => decide (1 ≤ n.toNat ∧ n.toNat < c.devTableSize)
  | .fillInputContext ic n =>
    decide (ic &&& 0x3F#64 = 0 ∧ 1 ≤ n.toNat ∧ n.toNat < c.devTableSize)
  | .onAddressDeviceCompletion n => decide (1 ≤ n.toNat ∧ n.toNat < c.devTableSize)
  | .controlTransfer k _ _ => decide (1 ≤ k.toNat ∧ k.toNat ≤ c.maxSlots.toNat)
  | .ep0Enqueue k t => decide (1 ≤ k.toNat ∧ k.toNat ≤ c.maxSlots.toNat) && !t.cycle
  | .xhcRaiseEvent e =>
    decide (e.typ ∈ [c.tt.transferEvent, c.tt.cmdCompletion, c.tt.portStatusChange])
  | .xhcTransferStep i => decide (1 ≤ i.toNat ∧ i.toNat ≤ c.maxSlots.toNat)
  | .xhcPortAttach p _ => decide (p.toNat < c.maxPorts.toNat)
  | .xhcPortDetach p => decide (p.toNat < c.maxPorts.toNat)
  | .xhcPortResetComplete p => decide (p.toNat < c.maxPorts.toNat)
  | .xhcPortEvent p => decide (p.toNat < c.maxPorts.toNat)
  | _ => true

end Sys2Proof
end

