-- ==== Sys2Proof/Certificates/Slice0/Obligations.lean ====
section
/-! DEFINITION. The statements for the provers, from the numbered rules of spec/. A statement about
a next state writes the whole of it, so what an operation leaves unchanged is part of it; where
memory changes, `t.withMem s.mem = …` says the rest and `Memory.read` says which bytes. `s.Quiet`
says that no other agent moves between the accesses of one host operation (log 10). -/

open Sys2Proof Sys2Proof.Machine Sys2Proof.Config

/-! ### Encoding -/

/-- Decoding what the encoder writes gives the operation back, for every TRB and every register
access, with every operand at every value its encoding admits (30_encoding R134, R135). -/
def Obligations.DecodeEncode : Prop :=
  ∀ (c : Params) (i : Instr) (e : Encoding), c.Ok → i.wellFormed c = true →
    encode c i = some e → decode c e = .ok i

/-- The same through memory: a TRB is 16 bytes, whatever follows them; fewer bytes are no TRB
(30_encoding R100, R136). -/
def Obligations.DecodeEncodedBytes : Prop :=
  (∀ (c : Params) (i : Instr) (r : RingSel) (t : Trb) (rest : List Byte), c.Ok →
    i.wellFormed c = true → encodeTrb c.tt i = some (r, t) →
      t.bytes.length = 16 ∧ decodeBytes c.tt r (t.bytes ++ rest) = .ok (i, rest)) ∧
  ∀ (c : TypeCodes) (r : RingSel) (bs : List Byte), bs.length < 16 →
    decodeBytes c r bs = .error .tooShort

/-- Which encodings select an operation: every TRB on the command ring and on the event ring; on an
endpoint-0 ring exactly the seven types with a row; every aligned dword access of a register block,
and no other. Of the accesses, those at the offsets of the register map select a register, and every
other offset selects none (30_encoding R134, R135, 20_memory R72, R77, 40_register_access R156). -/
def Obligations.DecodeCovers : Prop :=
  ∀ (c : Params) (i : SlotId) (t : Trb) (a : Access),
    (∃ o, decode c (.trb .cmd t) = .ok o) ∧ (∃ o, decode c (.trb .evt t) = .ok o) ∧
    ((∃ o, decode c (.trb (.xfer i) t) = .ok o) ↔
      t.typ ∈ [c.tt.setup, c.tt.data, c.tt.status, c.tt.normal, c.tt.link, c.tt.eventData,
        c.tt.noopXfer]) ∧
    (decode c (.access a) = .error .misaligned ↔ a.off.toNat % 4 ≠ 0) ∧
    ((∃ o, decode c (.access a) = .ok o) ↔ a.off.toNat % 4 = 0) ∧
    (a.off.toNat % 4 = 0 →
      let listed : Prop := match a.block with
        | .cap => a.off.toNat ∈ [0x00, 0x04, 0x14, 0x18]
        | .op => a.off.toNat ∈ [0x00, 0x04, 0x18, 0x1C, 0x30, 0x34, 0x38] ∨
            ∃ p, p < c.maxPorts.toNat ∧ a.off.toNat = 0x400 + 16 * p
        | .rt => a.off.toNat ∈ [0x20, 0x28, 0x30, 0x34, 0x38, 0x3C]
        | .db => ∃ k, k ≤ c.maxSlots.toNat ∧ a.off.toNat = 4 * k
      (decode c (.access a) = .ok (.undefinedOffset a.block a.off a.write) ↔ ¬ listed))

/-- A few words written out from the layouts: the bytes 41_ring_protocol R195 and R210, 44_commands
R304 and 45_control_transfer R345 and R348 give for a No-Op, an Enable Slot, a completion event and
the three stages of a control transfer, on their rings. -/
def Obligations.DecodeWords : Prop :=
  decodeBytes typeCodes .cmd [0, 0, 0, 0, 0, 0, 0, 0, 0, 0, 0, 0, 0x01, 0x5C, 0, 0] =
    .ok (.cmdNoop true, []) ∧
  decodeBytes typeCodes .cmd [0, 0, 0, 0, 0, 0, 0, 0, 0, 0, 0, 0, 0x01, 0x24, 0, 0] =
    .ok (.cmdEnableSlot true, []) ∧
  decodeBytes typeCodes .evt [0, 0x10, 0x10, 0, 0, 0, 0, 0, 0, 0, 0, 1, 0x01, 0x84, 0, 0] =
    .ok (.evCmdCompletion ⟨0x101000, 1, 0, true⟩, []) ∧
  decodeTrb typeCodes (.xfer 1) ⟨0x0012000001000680, 0x00000008, 0x00030841⟩ =
    .ok (.xferSetup 1 ⟨0x0012000001000680, 8, true, 3, true⟩) ∧
  decodeTrb typeCodes (.xfer 1) ⟨0x0000000000107000, 0x00000012, 0x00010C01⟩ =
    .ok (.xferData 1 ⟨0x107000, 18, true, true⟩) ∧
  decodeTrb typeCodes (.xfer 1) ⟨0, 0, 0x00011021⟩ = .ok (.xferStatus 1 ⟨true, true, true⟩)

/-! ### One step runs the decoded operation -/

/-- The next operation of the agenda is executed; with an empty agenda, the valid TRB at the dequeue
index of the scheduled consumer is fetched, decoded and executed (41_ring_protocol R192, R204, R214,
45_control_transfer R350; how the consumer is chosen is the model's, log 9). An event is fetched
where the host may load it, and a valid one in a buffer the controller holds is refused
(45_control_transfer R347; log 25). -/
def Obligations.StepRunsDecoded : Prop :=
  ∀ (s : State),
    (∀ i r, s.sched.agenda = i :: r → step s = exec i { s with sched.agenda := r }) ∧
    (s.sched.agenda = [] →
      (s.sched.fetch = .cmd → s.op.hch = false → s.cr.running = true → s.cr.loaded = true →
        s.er.hasRoom = true →
        let t := s.mem.readTrb (ringAddr (s.cr.base &&& ~~~0xFFF#64) s.cr.deq)
        ∀ i, t.cycle = s.cr.ccs → decodeTrb s.cfg.tt .cmd t = .ok i → step s = exec i s) ∧
      (∀ k r, s.sched.fetch = .xfer k → s.op.hch = false →
        (s.slots.get k).state = .addressed → s.tr.get k = some r → r.running = true →
          ∀ i, (s.mem.readTrb (ringAddr r.base r.deq)).cycle = r.ccs →
            decodeTrb s.cfg.tt (.xfer k) (s.mem.readTrb (ringAddr r.base r.deq)) = .ok i →
              step s = exec i s) ∧
      (s.sched.fetch = .evt → s.host.evt.size ≠ 0 →
        let a := ringAddr s.host.evt.base s.host.evt.deq
        let t := s.mem.readTrb a
        t.cycle = s.host.evt.cycle →
          (∀ i, s.mayLoadTrb a → decodeTrb s.cfg.tt .evt t = .ok i → step s = exec i s) ∧
          ((∃ h ∈ s.ledger.handed, ∃ r ∈ h.held, r.isIn = true ∧ r.Overlaps a 16) →
            step s = .refused .handedOver)))

/-! ### Invariants -/

/-- After reset every invariant holds (10_state R67, 70_reset R410). The state itself is the model's
choice where the spec gives no value: the fields of ports, slots and host records at power-on (log
34), power-on as the state of reset (log 2), the instance it takes (log 3; DESIGN CHOICE all
three). -/
def Obligations.ResetInvariants : Prop :=
  State.reset.MemoryInv ∧ State.reset.LifecycleInv ∧ State.reset.PortInv ∧ State.reset.SlotInv ∧
    State.reset.PointerInv ∧ State.reset.HostInv

/-- Memory keeps its canonical form, and every block handed out lies in the address space. The
canonical form, addresses strictly rising with no entry of 0, is the model's own representation of
the bytes of 20_memory R73 (log 1, DESIGN CHOICE); the blocks are those of 20_memory R84. -/
def Obligations.StepKeepsMemory : Prop :=
  ∀ s t, s.MemoryInv → step s = .next t → t.MemoryInv

/-- The lifecycle bits stay one of the four combinations, and an engine runs only on a running
controller (42_lifecycle R248, R250). -/
def Obligations.StepKeepsLifecycle : Prop :=
  ∀ s t, s.LifecycleInv → step s = .next t → t.LifecycleInv

/-- CCS follows the attached device, Speed is its speed code while CCS is 1 and 0 otherwise, and the
state of the port stays one of the four (43_ports R279, R282). -/
def Obligations.StepKeepsPorts : Prop :=
  ∀ s t, s.PortInv → step s = .next t → t.PortInv

/-- A transfer engine exists exactly where a slot is addressed, no two addressed slots share an
address, and a slot that is not Disabled has an id in `1 .. MAX_SLOTS`. That such an id lies in
`1 .. CONFIG.MaxSlotsEn` is kept by every operation that writes no CONFIG, whatever else moves
inside it, and by a CONFIG write of no less than the ids in use (44_commands R329; CONFIG stores a
smaller value too, 40_register_access R165, log 45). -/
def Obligations.StepKeepsSlots : Prop :=
  (∀ s t, s.SlotInv → step s = .next t → t.SlotInv) ∧
  (∀ (i : Instr) (s t : State), ¬ i.writesConfig → exec i s = .next t → s.EnabledInRange →
    t.EnabledInRange) ∧
  ∀ (s t : State) (v : Dword), exec (.wrConfig v) s = .next t → s.EnabledInRange →
    (∀ i, (s.slots.get i).state ≠ .disabled →
      i.toNat ≤ (v.extractLsb' s.cfg.bitpos.maxSlotsEnLo 8).toNat) → t.EnabledInRange

/-- Ring pointers stay aligned, the event segment to the largest power of two that divides its size,
and indices in range (20_memory R78, R79, 30_encoding R139; the segment's alignment is log 48's
reading). -/
def Obligations.StepKeepsPointers : Prop :=
  ∀ s t, s.PointerInv → step s = .next t → t.PointerInv

/-- The host's flags follow its lifecycle state, and a poll counts at most 1000 reads (10_state R63,
60_exceptions R392). -/
def Obligations.StepKeepsHost : Prop :=
  ∀ s t, s.HostInv → step s = .next t → t.HostInv

/-- No step changes the capability constants, the implementation parameters or the PCI words, which
are read only (40_register_access R157, 00_scope R8, 42_lifecycle R230). That configuration space is
a list of words (log 32, DESIGN CHOICE), and whether the Controller record can be allocated (log 15,
DESIGN CHOICE), are the model's inputs. -/
def Obligations.StepKeepsConstants : Prop :=
  ∀ s t, step s = .next t →
    t.cfg = s.cfg ∧ t.plat.pci = s.plat.pci ∧ t.plat.heapFull = s.plat.heapFull

/-! ### Rules over all operations -/

/-- With no move of another agent inside a host operation, each lifecycle bit changes only in the
steps 42_lifecycle R249 lists for it, and HCRST and CNR are set, but by the end of a reset, only
where a reset begins: in its step, in a write of USBCMD, and in the procedures that make that write
(40_register_access R159, 42_lifecycle R250 to R254). -/
def Obligations.LifecycleBitsChangeOnlyIn : Prop :=
  ∀ (i : Instr) (s t : State), s.Quiet → exec i s = .next t →
    (s.op.hch = true → t.op.hch = false → i = .xhcStart) ∧
    (s.op.hch = false → t.op.hch = true → i = .xhcHalt ∨ i = .xhcResetComplete) ∧
    (s.op.cnr = true → t.op.cnr = false → i = .xhcReady) ∧
    (s.op.hcrst = true → t.op.hcrst = false → i = .xhcResetComplete) ∧
    (s.cfg.bitpos.Distinct →
      (s.op.hcrst = false → t.op.hcrst = true → i = .xhcResetBegin ∨ i.writesUsbcmd) ∧
      (s.op.cnr = false → t.op.cnr = true →
        i = .xhcResetBegin ∨ i = .xhcResetComplete ∨ i.writesUsbcmd))

/-- What the controller and ENV do leaves every record of the host, the allocator's blocks, the
schedule and the instance alone (60_exceptions R390). -/
def Obligations.ControllerLeavesHostAlone : Prop :=
  ∀ (i : Instr) (s t : State), i.isController = true → exec i s = .next t →
    t.host = s.host ∧ t.plat = s.plat ∧ t.sched = s.sched ∧ t.cfg = s.cfg

/-- With no move of another agent inside it, no operation of the host writes a slot record, a
transfer engine's place, HCH, what ENV has coming, or a port's CCS, Speed, device and pending event,
and none sets IP, EHB or a port's PED (60_exceptions R390, 40_register_access R176). -/
def Obligations.HostLeavesControllerAlone : Prop :=
  ∀ (i : Instr) (s t : State), i.isController = false → s.Quiet → exec i s = .next t →
    t.slots = s.slots ∧ t.op.hch = s.op.hch ∧ t.env = s.env ∧
    (t.intr.ip = true → s.intr.ip = true) ∧ (t.er.ehb = true → s.er.ehb = true) ∧
    (∀ k, (t.tr.get k).map XferRing.stopped = (s.tr.get k).map XferRing.stopped) ∧
    ∀ p, (t.ports.get p).ccs = (s.ports.get p).ccs ∧ (t.ports.get p).speed = (s.ports.get p).speed ∧
      (t.ports.get p).attached = (s.ports.get p).attached ∧
      (t.ports.get p).devSpeed = (s.ports.get p).devSpeed ∧
      (t.ports.get p).pscPending = (s.ports.get p).pscPending ∧
      ((t.ports.get p).ped = true → (s.ports.get p).ped = true)

/-! ### Rings -/

/-- Advancing `k` times from the start of a ring: the index counts modulo the size, and the cycle
state is inverted at each full wrap and at no other time. With `k` TRBs produced and `j` consumed,
the two sides' indices and cycle states give `k - j` outstanding, up to a full ring
(41_ring_protocol R191, R193, R199, R223). -/
def Obligations.AdvanceCounts : Prop :=
  ∀ (n k : Nat) (c : Bool), 0 < n →
    let place := fun m c => Nat.iterate (fun p : Nat × Bool => advance p.1 p.2 n) m (0, c)
    place k c = (k % n, xor c (decide (k / n % 2 = 1))) ∧
    ∀ (base : Addr) (j : Nat), j ≤ k → k ≤ j + n →
      (Nat.iterate Ring.enqAdvanced k ⟨base, 0, 0, true, n⟩).outstanding
        ⟨(place j true).1, (place j true).2⟩ = k - j

/-! ### Register reads -/

/-- Every register reads as what it holds, in every state of the controller, and reading changes
nothing but the result and the source of open bits; a capability register reads the same at every
read, its reserved bits included (their values are parameters, log 3), and a port beyond MAX_PORTS
is refused (40_register_access R157, R158, R160, R164 to R166, R168 to R171, R174, 30_encoding R113,
R114). -/
def Obligations.RegisterFieldsRead : Prop :=
  ∀ s : State,
    exec .rdCap0 s = .next (s.withResult (.dword
      (s.cfg.hciversion ++ s.cfg.capRsvd ++ s.cfg.caplength))) ∧
    exec .rdHcsparams1 s = .next (s.withResult (.dword
      (s.cfg.maxPorts ++ s.cfg.hcsRsvd ++ s.cfg.maxIntrs ++ s.cfg.maxSlots))) ∧
    exec .rdDboff s = .next (s.withResult (.dword s.cfg.dboff)) ∧
    exec .rdRtsoff s = .next (s.withResult (.dword s.cfg.rtsoff)) ∧
    exec .rdDcbaapLo s = .next (s.withResult (.dword (s.op.dcbaap.extractLsb' 0 32))) ∧
    exec .rdDcbaapHi s = .next (s.withResult (.dword (s.op.dcbaap.extractLsb' 32 32))) ∧
    exec .rdErstbaLo s = .next (s.withResult (.dword (s.intr.erstba.extractLsb' 0 32))) ∧
    exec .rdErstbaHi s = .next (s.withResult (.dword (s.intr.erstba.extractLsb' 32 32))) ∧
    exec .rdErdpHi s = .next (s.withResult (.dword (s.er.deqPtr.extractLsb' 32 32))) ∧
    (s.cfg.bitpos.Distinct →
      let reads := fun (i : Instr) (v : Dword) =>
        ∃ x, exec i s = .next ((s.withFree x).withResult (.dword v))
      (∃ v, reads .rdUsbcmd v ∧ v.getLsbD 0 = s.op.rs ∧
        v.getLsbD s.cfg.bitpos.usbcmdHcrst = s.op.hcrst ∧ v.getLsbD 2 = s.op.inte) ∧
      (∃ v, reads .rdUsbsts v ∧ v.getLsbD s.cfg.bitpos.usbstsHch = s.op.hch ∧
        v.getLsbD s.cfg.bitpos.usbstsCnr = s.op.cnr) ∧
      (∃ v, reads .rdConfig v ∧ v.extractLsb' s.cfg.bitpos.maxSlotsEnLo 8 = s.op.maxSlotsEn) ∧
      (∃ v, reads .rdIman v ∧ v.getLsbD s.cfg.bitpos.imanIp = s.intr.ip ∧
        v.getLsbD s.cfg.bitpos.imanIe = s.intr.ie) ∧
      (∃ v, reads .rdErstsz v ∧ v.extractLsb' s.cfg.bitpos.erstszLo 16 = s.intr.erstsz) ∧
      (∃ v, reads .rdErdpLo v ∧ v.extractLsb' 4 28 = s.er.deqPtr.extractLsb' 4 28 ∧
        v.getLsbD 3 = s.er.ehb) ∧
      ∀ p : PortIx,
        (p.toNat < s.cfg.maxPorts.toNat →
          ∃ v, reads (.rdPortsc p) v ∧
            v.getLsbD s.cfg.bitpos.portscCcs = (s.ports.get p).ccs ∧
            v.getLsbD s.cfg.bitpos.portscPed = (s.ports.get p).ped ∧
            v.getLsbD s.cfg.bitpos.portscPr = (s.ports.get p).pr ∧
            v.extractLsb' 10 4 = (s.ports.get p).speed) ∧
        (s.cfg.maxPorts.toNat ≤ p.toNat → exec (.rdPortsc p) s = .refused .undefinedOffset))

/-- CRCR and the doorbells read as some value, and any value may be drawn; so may the reserved bits
of every other register but the constant capability registers (40_register_access R162, R173, R174,
30_encoding R122); a doorbell beyond MAX_SLOTS is refused (R156). -/
def Obligations.OpenBitsReadAnything : Prop :=
  ∀ (s : State) (k : SlotId),
    (∀ i ∈ [Instr.rdCrcrLo, .rdCrcrHi] ++
        (if k.toNat ≤ s.cfg.maxSlots.toNat then [.rdDb k] else []),
      (∃ v x, exec i s = .next ((s.withFree x).withResult (.dword v))) ∧
      ∀ w r, exec i (s.withFree ⟨w :: r, s.free.count⟩) =
        .next ((s.withFree ⟨r, s.free.count⟩).withResult (.dword w))) ∧
    (s.cfg.maxSlots.toNat < k.toNat → exec (.rdDb k) s = .refused .undefinedOffset) ∧
    ∀ x ∈ [(Instr.rdUsbcmd, ~~~usbcmdMask s.cfg.bitpos), (.rdUsbsts, ~~~usbstsMask s.cfg.bitpos),
        (.rdConfig, ~~~fieldMask s.cfg.bitpos.maxSlotsEnLo 8), (.rdIman, ~~~imanMask s.cfg.bitpos),
        (.rdErstsz, ~~~fieldMask s.cfg.bitpos.erstszLo 16), (.rdErdpLo, 0x7)] ++
        (if s.hasPort k = true then [(.rdPortsc k, ~~~portscMask s.cfg.bitpos)] else []),
      ∀ w r, ∃ v, exec x.1 (s.withFree ⟨w :: r, s.free.count⟩) =
          .next ((s.withFree ⟨r, s.free.count⟩).withResult (.dword v)) ∧ v &&& x.2 = w &&& x.2

/-! ### Register writes -/

/-- While HCRST or CNR is 1 every write of an operational, runtime or doorbell register is refused
(40_register_access R175). -/
def Obligations.WritesRefusedInReset : Prop :=
  ∀ (s : State) (v : Dword) (p : PortIx) (k : SlotId), s.op.cnr = true ∨ s.op.hcrst = true →
    p.toNat < s.cfg.maxPorts.toNat → k.toNat ≤ s.cfg.maxSlots.toNat →
    ∀ i ∈ [Instr.wrUsbcmd v, .wrUsbsts v, .wrCrcrLo v, .wrCrcrHi v, .wrDcbaapLo v, .wrDcbaapHi v,
        .wrConfig v, .wrPortsc p v, .wrIman v, .wrErstsz v, .wrErstbaLo v, .wrErstbaHi v,
        .wrErdpLo v, .wrErdpHi v, .wrDb0 v, .wrDbi k v],
      exec i s = .refused .notReady

/-- USBCMD: HCRST begins a reset of a halted controller and is refused on a running one; any other
write stores RS and INTE. The capability registers and USBSTS ignore what is written
(40_register_access R157, R159, R161, 42_lifecycle R251). -/
def Obligations.UsbcmdWrite : Prop :=
  ∀ (s : State) (v : Dword),
    (∀ r, exec (.wrCap r v) s = .next s) ∧
    (s.op.hcrst = false → s.op.cnr = false →
      exec (.wrUsbsts v) s = .next s ∧
      exec (.wrUsbcmd v) s =
        if v.getLsbD s.cfg.bitpos.usbcmdHcrst = true then
          if s.op.hch = true then .next (s.withOp { s.op with hcrst := true, cnr := true })
          else .refused .resetWhileRunning
        else .next (s.withOp { s.op with rs := v.getLsbD 0, inte := v.getLsbD 2 }))

/-- CRCR: both writes latch, and the high one loads the command engine unless the engine runs, and
from then on the engine may fetch (40_register_access R163; 20_memory R85, log 49). DCBAAP stores
its halves and refuses low bits; CONFIG stores its field and refuses a value above MAX_SLOTS
(40_register_access R164, R165; a value below the id of a slot in use is stored too, log 45). -/
def Obligations.PointerAndConfigWrites : Prop :=
  ∀ (s : State) (v : Dword), s.op.hcrst = false → s.op.cnr = false →
    exec (.wrCrcrLo v) s = .next (s.withOp
      { s.op with crcrLatch := s.op.crcrLatch.extractLsb' 32 32 ++ v }) ∧
    (let latch := v ++ s.op.crcrLatch.extractLsb' 0 32
      let t := s.withOp { s.op with crcrLatch := latch }
      exec (.wrCrcrHi v) s = .next (if s.cr.running = true then t else
        t.withCr ⟨latch &&& ~~~0x3F#64, 0, latch.getLsbD s.cfg.bitpos.crcrRcs, false, true⟩)) ∧
    exec (.wrDcbaapLo v) s =
      (if v.extractLsb' 0 6 = 0 then
        .next (s.withOp { s.op with dcbaap := s.op.dcbaap.extractLsb' 32 32 ++ v })
      else .refused .misalignedPointer) ∧
    exec (.wrDcbaapHi v) s =
      .next (s.withOp { s.op with dcbaap := v ++ s.op.dcbaap.extractLsb' 0 32 }) ∧
    let n := v.extractLsb' s.cfg.bitpos.maxSlotsEnLo 8
    exec (.wrConfig v) s = if s.cfg.maxSlots.toNat < n.toNat then .refused .maxSlotsEnTooLarge
      else .next (s.withOp { s.op with maxSlotsEn := n })

/-- PORTSC: a 1 in PR begins a port reset where PR is 0; every other bit is ignored
(40_register_access R167, 43_ports R283). -/
def Obligations.PortscWrite : Prop :=
  ∀ (s : State) (p : PortIx) (v : Dword), s.op.hcrst = false → s.op.cnr = false →
    exec (.wrPortsc p v) s =
      if s.cfg.maxPorts.toNat ≤ p.toNat then .refused .undefinedOffset
      else if v.getLsbD s.cfg.bitpos.portscPr = true ∧ (s.ports.get p).pr = false then
        .next (s.withPort p { s.ports.get p with pr := true, resetting := true, ped := false })
      else .next s

/-- ERSTSZ and the low half of ERSTBA are stored; the high half is stored and loads the event
producer from entry 0 of the table, where the spec's bounds on the entry hold (40_register_access
R168, R171; the refusals of a second segment and of a bad entry: 93 U13, U14; that the base's low
bits that must be 0 are those of the largest power of two that divides the segment's size is log
48's reading of 20_memory R78 and R79). With ERSTSZ 0 nothing is loaded, and that a ring loaded
earlier then stays in use is log 52's (DESIGN CHOICE). -/
def Obligations.ErstWrite : Prop :=
  ∀ (s : State) (v : Dword), s.op.hcrst = false → s.op.cnr = false →
    exec (.wrErstsz v) s = .next (s.withIntr { s.intr with
      erstsz := v.extractLsb' s.cfg.bitpos.erstszLo 16 }) ∧
    exec (.wrErstbaLo v) s =
      (if v.extractLsb' 0 6 = 0 then
        .next (s.withIntr { s.intr with erstba := s.intr.erstba.extractLsb' 32 32 ++ v })
      else .refused .misalignedPointer) ∧
    exec (.wrErstbaHi v) s =
      let q := v ++ s.intr.erstba.extractLsb' 0 32
      let base := s.mem.read64 (q &&& ~~~0x3F#64)
      let size := (s.mem.read32 ((q &&& ~~~0x3F#64) + 8)).extractLsb' 0 16
      let t := s.withIntr { s.intr with erstba := q }
      if s.intr.erstsz = 0 then .next t
      else if s.intr.erstsz ≠ 1 then .refused .moreThanOneSegment
      else if base.extractLsb' 0 6 ≠ 0 then .refused .misalignedPointer
      else if size = 0 ∨ 256 < size.toNat then .refused .segmentSize
      else if base.toNat % Nat.gcd (16 * size.toNat) 4096 ≠ 0 then .refused .misalignedPointer
      else .next (t.withEr { s.er with base := base, size := size.toNat, enq := 0, pcs := true })

/-- IMAN stores IE and clears IP by a 1; ERDP stores its pointer and clears EHB by a 1 in bit 3, the
return from the event (40_register_access R169, R170). The interrupt request is the conjunction of
IP, IE and INTE (60_exceptions R384). -/
def Obligations.InterrupterWrite : Prop :=
  ∀ (s : State) (v : Dword),
    (s.irq = true ↔ s.intr.ip = true ∧ s.intr.ie = true ∧ s.op.inte = true) ∧
    (s.op.hcrst = false → s.op.cnr = false →
      exec (.wrIman v) s = .next (s.withIntr { s.intr with
        ie := v.getLsbD s.cfg.bitpos.imanIe
        ip := if v.getLsbD s.cfg.bitpos.imanIp = true then false else s.intr.ip }) ∧
      exec (.wrErdpLo v) s = .next (s.withEr { s.er with
        deqPtr := s.er.deqPtr.extractLsb' 32 32 ++ v.extractLsb' 4 28 ++ 0#4
        ehb := if v.getLsbD 3 = true then false else s.er.ehb }) ∧
      exec (.wrErdpHi v) s =
        .next (s.withEr { s.er with deqPtr := v ++ s.er.deqPtr.extractLsb' 0 32 }))

/-- The doorbells: which target wakes which engine, what has no effect, and what is refused
(41_ring_protocol R201 to R203; a wrong target on a halted controller or an idle slot has no effect,
log 21); the host's own doorbell writes (41_ring_protocol R198, 45_control_transfer R343). A
doorbell that wakes a slot's engine hands over what is staged for the slot (45_control_transfer
R347; log 25). -/
def Obligations.DoorbellWrite : Prop :=
  ∀ (s : State) (k : SlotId) (v : Dword), s.op.hcrst = false → s.op.cnr = false →
    let target := v.extractLsb' s.cfg.bitpos.dbTargetLo 8
    let woken := fun t : State =>
      (t.withXfer k ((s.tr.get k).map fun r => { r with running := true })).account (·.rung k)
    (exec (.wrDb0 v) s =
      if s.op.hch = true then .next s
      else if target = 0 then .next (s.withCr { s.cr with running := true })
      else .refused .doorbellTarget) ∧
    exec (.wrDbi 0 v) s = exec (.wrDb0 v) s ∧
    (k ≠ 0 → exec (.wrDbi k v) s =
      if s.cfg.maxSlots.toNat < k.toNat then .refused .undefinedOffset
      else if s.op.hch = true ∨ (s.slots.get k).state ≠ .addressed then .next s
      else if target = 1 then .next (woken s)
      else .refused .doorbellTarget) ∧
    (s.Quiet → s.host.basesFixed = true →
      (exec .ringCmd s = let t := s.onBus .db 0
        .next (if s.op.hch = true then t else t.withCr { s.cr with running := true })) ∧
      (k ≠ 0 → k.toNat ≤ s.cfg.maxSlots.toNat → s.cfg.bitpos.Distinct →
        exec (.ringEp0 k) s = let t := s.onBus .db (BitVec.ofNat 32 (4 * k.toNat))
          .next (if s.op.hch = true ∨ (s.slots.get k).state ≠ .addressed then t else woken t)))

/-! ### The access layer -/

/-- An access the spec gives no meaning is refused: an offset with no register, and an offset that
is no multiple of 4 (40_register_access R150, R156, 20_memory R77). -/
def Obligations.UndefinedAccessesRefused : Prop :=
  ∀ (s : State) (b : RegBlock) (off v : Dword),
    (∀ w, exec (.undefinedOffset b off w) s = .refused .undefinedOffset) ∧
    (s.Quiet → s.host.baseKnown b = true →
      (off.toNat % 4 ≠ 0 → exec (.rd32 b off) s = .refused .misalignedAccess ∧
        exec (.wr32 b off v) s = .refused .misalignedAccess) ∧
      (decodeAccess s.cfg ⟨b, off, none⟩ = .ok (.undefinedOffset b off none) →
        exec (.rd32 b off) s = .refused .undefinedOffset ∧
        exec (.wr32 b off v) s = .refused .undefinedOffset))

/-- RD32 puts base + offset on the bus, performs the read of the register that stands there, and
completes for every register (40_register_access R150, R154). -/
def Obligations.Rd32IsTheRead : Prop :=
  ∀ (s : State) (b : RegBlock) (off : Dword) (i : Instr), s.Quiet → s.host.baseKnown b = true →
    decodeAccess s.cfg ⟨b, off, none⟩ = .ok i →
    exec (.rd32 b off) s = exec i (s.onBus b off) ∧
    (i ≠ .undefinedOffset b off none →
      ∃ v x, exec (.rd32 b off) s = .next (((s.onBus b off).withFree x).withResult (.dword v)))

/-- WR32 puts base + offset on the bus and performs the write of the register that stands there; it
completes exactly where that register accepts the value (40_register_access R151, R154; what each
register accepts is R157 to R175, 41_ring_protocol R201 to R203 and 93 U13, U14, with log 48 for the
event segment's alignment, log 36 for ERSTSZ above 1 refused at the load, and log 21 for a wrong
doorbell target with no effect). -/
def Obligations.Wr32IsTheWrite : Prop :=
  ∀ (s : State) (b : RegBlock) (off v : Dword) (i : Instr), s.Quiet → s.host.baseKnown b = true →
    decodeAccess s.cfg ⟨b, off, some v⟩ = .ok i →
    exec (.wr32 b off v) s = exec i (s.onBus b off) ∧
    ((∃ t, exec (.wr32 b off v) s = .next t) ↔ s.accepts i)

/-- RD64 of each 64-bit register, with nothing between its two reads: the low dword's address, then
the high one's, and the whole value (40_register_access R152; CRCR reads as any value, R162; that
an offset that is no multiple of 8 is refused is log 28's, DEDUCED). -/
def Obligations.Rd64Reads : Prop :=
  ∀ (s : State), s.Quiet → s.host.basesFixed = true →
    exec (.rd64 .op 0x30) s = .next ((s.onBus .op 0x34).withResult (.qword s.op.dcbaap)) ∧
    exec (.rd64 .rt 0x30) s = .next ((s.onBus .rt 0x34).withResult (.qword s.intr.erstba)) ∧
    (∃ q x, exec (.rd64 .rt 0x38) s =
        .next (((s.onBus .rt 0x3C).withFree x).withResult (.qword q)) ∧
      q.extractLsb' 4 60 = s.er.deqPtr.extractLsb' 4 60 ∧ q.getLsbD 3 = s.er.ehb) ∧
    (∃ q x, exec (.rd64 .op 0x18) s =
        .next (((s.onBus .op 0x1C).withFree x).withResult (.qword q))) ∧
    ∀ b off, off.toNat % 8 ≠ 0 → exec (.rd64 b off) s = .refused .misalignedAccess

/-- WR64 is the write of the low dword, then that of the high one, whatever happens between them; of
a whole pointer, with nothing between, it leaves the register with that pointer (40_register_access
R153, R163, R164, R170). That an offset that is no multiple of 8 is refused, and that every other
pair of registers is written so, is log 28's (DEDUCED). -/
def Obligations.Wr64Writes : Prop :=
  ∀ (s : State) (q : Qword),
    (∀ (b : RegBlock) (off : Dword), exec (.wr64 b off q) s =
      if off.toNat % 8 ≠ 0 then .refused .misalignedAccess
      else match exec (.wr32 b off (q.extractLsb' 0 32)) s with
        | .next t => exec (.wr32 b (off + 4) (q.extractLsb' 32 32)) t
        | o => o) ∧
    (s.Quiet → s.host.basesFixed = true → s.op.hcrst = false → s.op.cnr = false →
      (q.extractLsb' 0 6 = 0 → exec (.wr64 .op 0x30 q) s =
        .next ((s.onBus .op 0x34).withOp { s.op with dcbaap := q })) ∧
      exec (.wr64 .rt 0x38 q) s = .next ((s.onBus .rt 0x3C).withEr { s.er with
        deqPtr := q &&& ~~~0xF#64, ehb := if q.getLsbD 3 = true then false else s.er.ehb }) ∧
      let t := (s.onBus .op 0x1C).withOp { s.op with crcrLatch := q }
      exec (.wr64 .op 0x18 q) s = .next (if s.cr.running = true then t
        else t.withCr ⟨q &&& ~~~0x3F#64, 0, q.getLsbD s.cfg.bitpos.crcrRcs, false, true⟩))

/-- SET32 and CLR32 are a read, then a write of the value read with bits set or cleared (30_encoding
R138); on USBCMD they change RS and INTE and keep the rest as read (42_lifecycle R239, R247). -/
def Obligations.ReadModifyWrite : Prop :=
  ∀ (s : State) (m : Dword), s.Quiet →
    (∀ (b : RegBlock) (off : Dword) (i : Instr), s.host.baseKnown b = true →
      decodeAccess s.cfg ⟨b, off, none⟩ = .ok i → i ≠ .undefinedOffset b off none →
      ∃ v x, exec (.rd32 b off) s = .next (((s.onBus b off).withFree x).withResult (.dword v)) ∧
        exec (.set32 b off m) s = exec (.wr32 b off (v ||| m)) ((s.onBus b off).withFree x) ∧
        exec (.clr32 b off m) s =
          exec (.wr32 b off (v &&& ~~~m)) ((s.onBus b off).withFree x)) ∧
    (s.cfg.bitpos.Distinct → s.host.basesFixed = true → s.op.hcrst = false → s.op.cnr = false →
      m.getLsbD s.cfg.bitpos.usbcmdHcrst = false →
      (∃ x, exec (.set32 .op 0 m) s = .next (((s.onBus .op 0).withFree x).withOp
        { s.op with rs := s.op.rs || m.getLsbD 0, inte := s.op.inte || m.getLsbD 2 })) ∧
      ∃ x, exec (.clr32 .op 0 m) s = .next (((s.onBus .op 0).withFree x).withOp
        { s.op with rs := s.op.rs && !m.getLsbD 0, inte := s.op.inte && !m.getLsbD 2 }))

/-- POLL is a chain of reads of one register, `v k` the value of read `k` and `u k` the state before
it: none but the last is wanted, there are at most 1000, and 1000 where the last is not wanted
either; it answers the last value read. Waiting for HCH takes one read where it has the value waited
for, and exactly 1000 where the controller never moves (42_lifecycle R236, R240, 60_exceptions
R392). -/
def Obligations.PollReads : Prop :=
  ∀ (s : State), s.Quiet →
    (∀ (b : RegBlock) (off mask want : Dword) (i : Instr), s.host.baseKnown b = true →
      decodeAccess s.cfg ⟨b, off, none⟩ = .ok i → i ≠ .undefinedOffset b off none →
      ∃ (n : Nat) (u : Nat → State) (v : Nat → Dword), n < 1000 ∧ u 0 = s ∧
        (∀ k ≤ n, exec (.rd32 b off) (u k) = .next (u (k + 1)) ∧
          (u (k + 1)).host.result = .dword (v k)) ∧
        (∀ k < n, v k &&& mask ≠ want) ∧ (v n &&& mask ≠ want → n + 1 = 1000) ∧
        exec (.poll b off mask want) s = .next (((u (n + 1)).counted (n + 1)).withResult
          (if v n &&& mask = want then .pollSuccess (v n) else .pollTimeout (v n)))) ∧
    ∀ h : Bool, s.host.basesFixed = true → s.cfg.bitpos.Distinct →
      let m := mask1 s.cfg.bitpos.usbstsHch
      ∃ v x, exec (.poll .op 4 m (if h = true then m else 0)) s =
        .next ((((s.onBus .op 4).withFree x).counted (if s.op.hch = h then 1 else 1000)).withResult
          (if s.op.hch = h then .pollSuccess v else .pollTimeout v))

/-- A configuration read answers the word at its four arguments, all ones where no function
answers, and touches no register; the speed codes have their decoding (42_lifecycle R230, R232,
43_ports R274). That configuration space is a list of words, and that a word not listed reads as all
ones, is the model's choice (log 32, DESIGN CHOICE). -/
def Obligations.CfgReadAndSpeed : Prop :=
  ∀ (s : State),
    (∀ pre w post, s.plat.pci = pre ++ w :: post →
      (∀ u ∈ pre, (u.bus, u.device, u.function, u.offset) ≠
        (w.bus, w.device, w.function, w.offset)) →
      exec (.cfgRead w.bus w.device w.function w.offset) s = .next (s.withResult (.dword w.word))) ∧
    (∀ b d f o, (∀ u ∈ s.plat.pci, (u.bus, u.device, u.function, u.offset) ≠ (b, d, f, o)) →
      exec (.cfgRead b d f o) s = .next (s.withResult (.dword 0xFFFFFFFF))) ∧
    ∀ c, exec (.decodeSpeed c) s = .next (s.withResult (.speed (match c.toNat with
      | 1 => .full | 2 => .low | 3 => .high | 4 => .super | _ => .unknown)))

/-! ### Events and commands -/

/-- Producing an event: the TRB with the producer's cycle bit in the slot and nowhere else, the
producer advanced, EHB and IP set; with the controller halted, no ring installed or no room, the
step is not enabled and nothing changes, and no other type is an event (41_ring_protocol R210 to
R213, 60_exceptions R377). The ring has room where the slot after the producer's is not the one
ERDP names (R213). An event whose slot lies in freed memory, or in a structure the host owns, is
refused (70_reset R432, 20_memory R96, 60_exceptions R390): the host's structures are its blocks,
those the registers name, what it has handed over to be read and the DCBAA entries it has
installed, memory outside them is no one's (logs 25, 33, DEDUCED), and an uninstalled ring is on
neither side (log 51, DESIGN CHOICE). That a step that is not enabled changes nothing is log
11's, that a ring of size 0 has no room log 22's (DEDUCED), the step as an operation of its own log
47's. -/
def Obligations.EventProduction : Prop :=
  ∀ (s : State) (e : Trb),
    let isEvent := e.typ = s.cfg.tt.transferEvent ∨ e.typ = s.cfg.tt.cmdCompletion ∨
      e.typ = s.cfg.tt.portStatusChange
    (s.er.hasRoom = true ↔ s.er.size ≠ 0 ∧
      s.er.base + BitVec.ofNat 64 (16 * ((s.er.enq + 1) % s.er.size)) ≠ s.er.deqPtr) ∧
    (∀ b : Block, b ∈ s.hostBlocks ↔
      (b ∈ s.plat.live ∧ b.kind ∈ [.dcbaa, .cmdRing, .erst, .inCtx, .ep0Ring]) ∨
      (s.cr.loaded = true ∧ b = ⟨s.cr.base &&& ~~~0xFFF#64, 4096, .cmdRing⟩) ∨
      (s.op.dcbaap ≠ 0 ∧ b = ⟨s.op.dcbaap, 8 * (s.cfg.maxSlots.toNat + 1), .dcbaa⟩) ∨
      (s.er.size ≠ 0 ∧ b = ⟨s.intr.erstba, 16, .erst⟩) ∨
      ∃ i r, s.tr.get i = some r ∧ b = ⟨r.base, 4096, .ep0Ring⟩) ∧
    (¬ isEvent ∨ s.op.hch = true ∨ s.er.size = 0 ∨ s.er.hasRoom = false →
      exec (.xhcRaiseEvent e) s = .next s) ∧
    (isEvent → s.op.hch = false → s.er.size ≠ 0 → s.er.hasRoom = true →
      (s.eventAllowed →
        ∃ m, exec (.xhcRaiseEvent e) s = .next (((s.withMem m).withEr { s.er with
              enq := if s.er.enq + 1 = s.er.size then 0 else s.er.enq + 1
              pcs := if s.er.enq + 1 = s.er.size then !s.er.pcs else s.er.pcs
              ehb := true }).withIntr { s.intr with ip := true }) ∧
          m.readTrb s.eventAddr = ⟨e.parameter, e.status,
            (e.control &&& ~~~1#32) ||| (if s.er.pcs = true then 1 else 0)⟩ ∧
          ∀ a, (∀ k < 16, a ≠ byteAddr s.eventAddr k) → m.read a = s.mem.read a) ∧
      (s.eventAllowed ↔ (∀ b ∈ s.plat.freed, ¬ b.Overlaps s.eventAddr 16) ∧
        (∀ b ∈ s.hostBlocks, ¬ b.Overlaps s.eventAddr 16) ∧
        (∀ h ∈ s.ledger.handed, ∀ r ∈ h.held, r.isIn = false → ¬ r.Overlaps s.eventAddr 16) ∧
        ∀ x ∈ s.ledger.installed, ¬ (⟨x.addr, 8, false⟩ : Region).Overlaps s.eventAddr 16) ∧
      ((∃ b ∈ s.plat.freed, b.Overlaps s.eventAddr 16) →
        exec (.xhcRaiseEvent e) s = .refused .freedMemory) ∧
      ((∀ b ∈ s.plat.freed, ¬ b.Overlaps s.eventAddr 16) → ¬ s.eventAllowed →
        exec (.xhcRaiseEvent e) s = .refused .controllerWritesHostMemory))

/-- A No-Op is retired with success, and a type that is no command with a TRB error, both with slot
id 0 and nothing else changed (44_commands R305, R327). -/
def Obligations.NoopAndOtherCommands : Prop :=
  ∀ (s : State) (cycle : Bool) (t : Trb), s.commandReady cycle →
    exec (.cmdNoop cycle) s = .next (s.completed s.cfg.cc.success 0) ∧
    (t.cycle = cycle → exec (.cmdOther t) s = .next (s.completed s.cfg.cc.trbError 0))

/-- Enable Slot hands out an id of CONFIG's range whose slot is Disabled, and may hand out any such
id; with none, no slot changes and the code says so (44_commands R304). -/
def Obligations.EnableSlotCommand : Prop :=
  ∀ (s : State) (cycle : Bool), s.commandReady cycle →
    ((∀ i : SlotId, 1 ≤ i.toNat → i.toNat ≤ s.op.maxSlotsEn.toNat →
        (s.slots.get i).state ≠ .disabled) →
      exec (.cmdEnableSlot cycle) s = .next (s.completed s.cfg.cc.noSlots 0)) ∧
    ((∃ i : SlotId, 1 ≤ i.toNat ∧ i.toNat ≤ s.op.maxSlotsEn.toNat ∧
        (s.slots.get i).state = .disabled) →
      ∃ (i : SlotId) (x : FreeSrc), 1 ≤ i.toNat ∧ i.toNat ≤ s.op.maxSlotsEn.toNat ∧
        (s.slots.get i).state = .disabled ∧
        exec (.cmdEnableSlot cycle) s = .next (((s.withFree x).withSlot i
          { s.slots.get i with state := .enabled }).completed s.cfg.cc.success i)) ∧
    ∀ i : SlotId, 1 ≤ i.toNat → i.toNat ≤ s.op.maxSlotsEn.toNat →
      (s.slots.get i).state = .disabled →
      ∃ w, ∀ r, exec (.cmdEnableSlot cycle) (s.withFree ⟨w :: r, s.free.count⟩) =
        .next (((s.withFree ⟨r, s.free.count⟩).withSlot i
          { s.slots.get i with state := .enabled }).completed s.cfg.cc.success i)

/-- Address Device fails, in the order of the table, with nothing changed but the completion and
what ENV has answered; so where every address is held by another slot. A context pointer or a ring
pointer with low bits that alignment makes zero is refused (44_commands R301, R310, R313, R314,
R319, 93 U10, U14). That ENV's answer is taken where the port is not enabled too is log 13's (DESIGN
CHOICE). -/
def Obligations.AddressDeviceFailures : Prop :=
  ∀ (s : State) (n : SlotId) (ic : Addr) (cycle : Bool), s.commandReady cycle →
    (n = 0 ∨ s.op.maxSlotsEn.toNat < n.toNat →
      exec (.cmdAddressDevice n ic cycle) s = .next (s.completed s.cfg.cc.trbError n)) ∧
    (n ≠ 0 → n.toNat ≤ s.op.maxSlotsEn.toNat →
      ((s.slots.get n).state = .disabled →
        exec (.cmdAddressDevice n ic cycle) s =
          .next (s.completed s.cfg.cc.slotNotEnabled n)) ∧
      ((s.slots.get n).state = .addressed →
        exec (.cmdAddressDevice n ic cycle) s =
          .next (s.completed s.cfg.cc.contextStateError n)) ∧
      ((s.slots.get n).state = .enabled →
        let dc := s.mem.read64 (s.op.dcbaap + BitVec.ofNat 64 (8 * n.toNat))
        let c := s.cfg.ctxSize
        let ctx := s.mem.readBytes ic (3 * c)
        (ic.extractLsb' 0 6 ≠ 0 →
          exec (.cmdAddressDevice n ic cycle) s = .refused .misalignedPointer) ∧
        (ic.extractLsb' 0 6 = 0 → dc = 0 ∨ dc.extractLsb' 0 6 ≠ 0 →
          exec (.cmdAddressDevice n ic cycle) s = .refused .badDeviceContext) ∧
        (ic.extractLsb' 0 6 = 0 → dc ≠ 0 → dc.extractLsb' 0 6 = 0 →
          (addsBoth s.cfg.ctx (ctx.take c) = false →
            exec (.cmdAddressDevice n ic cycle) s =
              .next (s.completed s.cfg.cc.parameterError n)) ∧
          (addsBoth s.cfg.ctx (ctx.take c) = true → ∀ b r, s.env.setAddress = b :: r →
            namedPortEnabled s ((ctx.drop c).take c) = false ∨ b = false →
            exec (.cmdAddressDevice n ic cycle) s = .next ((s.withEnv
              { s.env with setAddress := r }).completed s.cfg.cc.usbTransactionError n)) ∧
          (addsBoth s.cfg.ctx (ctx.take c) = true → ∀ r, s.env.setAddress = true :: r →
            namedPortEnabled s ((ctx.drop c).take c) = true →
            let free := fun a : BitVec 7 =>
              a ≠ 0 ∧ ∀ j, j ≠ n → s.isAddressed j = true → (s.slots.get j).addr ≠ a
            ((¬ ∃ a, free a) → exec (.cmdAddressDevice n ic cycle) s = .next ((s.withEnv
              { s.env with setAddress := r }).completed s.cfg.cc.usbTransactionError n)) ∧
            ((∃ a, free a) →
              (ctxRingPointer s.cfg.ctx (ctx.drop (2 * c))).extractLsb' 0 12 ≠ 0 →
              exec (.cmdAddressDevice n ic cycle) s = .refused .misalignedPointer)))))

/-- Address Device with both contexts added, an enabled port and a device that answers: an address
no other slot holds, and any such address may be it, the device context written, the slot addressed,
its transfer engine loaded (44_commands R310, R313 to R315). The completion event must lie outside
the ring just loaded too (20_memory R96; log 33). -/
def Obligations.AddressDeviceSucceeds : Prop :=
  ∀ (s : State) (n : SlotId) (ic : Addr) (cycle : Bool) (left : List Bool),
    s.commandReady cycle → n ≠ 0 → n.toNat ≤ s.op.maxSlotsEn.toNat →
    (s.slots.get n).state = .enabled → ic.extractLsb' 0 6 = 0 →
    let dc := s.mem.read64 (s.op.dcbaap + BitVec.ofNat 64 (8 * n.toNat))
    let c := s.cfg.ctxSize
    let l := s.cfg.ctx
    let ctx := s.mem.readBytes ic (3 * c)
    let sctx := (ctx.drop c).take c
    let ectx := ctx.drop (2 * c)
    let ring : XferRing :=
      ⟨ctxRingPointer l ectx, 0, (ctxDequeue l ectx).getLsbD l.dcsBit, false⟩
    let free := fun a : BitVec 7 =>
      a ≠ 0 ∧ ∀ j, j ≠ n → s.isAddressed j = true → (s.slots.get j).addr ≠ a
    let installed := fun (a : BitVec 7) (x : FreeSrc) =>
      (((((s.withEnv { s.env with setAddress := left }).withFree x).withMem
        (s.mem.writeBytes dc (addressedSlotCtx l a sctx ++ runningEpCtx l ectx))).withSlot n
        ⟨.addressed, a, dc⟩).withXfer n (some ring)).completed s.cfg.cc.success n
    dc ≠ 0 → dc.extractLsb' 0 6 = 0 → s.ctlRefusal dc (2 * c) = none →
    ctxGet (ctx.take c) l.addSlot = 1 → ctxGet (ctx.take c) l.addEp0 = 1 →
    namedPortEnabled s sctx = true → s.env.setAddress = true :: left →
    (ctxRingPointer l ectx).extractLsb' 0 12 = 0 → (s.withXfer n (some ring)).eventAllowed →
    ((∃ a, free a) → ∃ (a : BitVec 7) (x : FreeSrc), free a ∧
      exec (.cmdAddressDevice n ic cycle) s = .next (installed a x)) ∧
    ∀ a, free a → ∃ w, ∀ r,
      exec (.cmdAddressDevice n ic cycle) (s.withFree ⟨w :: r, s.free.count⟩) =
        .next (installed a ⟨r, s.free.count⟩)

/-- The command engine's step executes the TRB at its index, decoded as a command; the engine
changes nothing while it is not enabled or the event ring has no room, and stops at a cycle mismatch
without advancing (41_ring_protocol R204, R207, R213, 30_encoding R135). The index counts from the
base with the low bits of the ring's alignment as zero (20_memory R79; log 42), and the engine is not
enabled before CRCR is loaded (20_memory R85; log 49). That a step that is not enabled changes
nothing is log 11's, that a command row takes the place of the TRB at the index log 18's (DESIGN
CHOICE), that a ring of size 0 has no room log 22's (DEDUCED). -/
def Obligations.CommandEngineStep : Prop :=
  ∀ (s : State) (n : SlotId) (ic : Addr) (t : Trb),
    let head := s.mem.readTrb ((s.cr.base &&& ~~~0xFFF#64) + BitVec.ofNat 64 (16 * s.cr.deq))
    (s.commandReady head.cycle →
      exec .xhcCommandStep s = exec (decodeCmd s.cfg.tt head) s ∧
      (head.typ = s.cfg.tt.noopCmd →
        exec .xhcCommandStep s = .next (s.completed s.cfg.cc.success 0))) ∧
    ∀ i ∈ [Instr.cmdNoop t.cycle, .cmdEnableSlot t.cycle, .cmdAddressDevice n ic t.cycle,
        .cmdOther t] ++ (if t = head then [.xhcCommandStep] else []),
      (s.op.hch = true ∨ s.cr.running = false ∨ s.cr.loaded = false → exec i s = .next s) ∧
      (s.op.hch = false → s.cr.running = true → s.cr.loaded = true →
        (t.cycle ≠ s.cr.ccs → exec i s = .next (s.withCr { s.cr with running := false })) ∧
        (t.cycle = s.cr.ccs → s.er.hasRoom = false → exec i s = .next s))

/-- The commands and transfer TRBs the spec names and refuses (41_ring_protocol R208, 44_commands
R320 to R326, 45_control_transfer R358 to R360). -/
def Obligations.NamedRefusals : Prop :=
  ∀ (s : State) (n : SlotId) (a : Addr) (ep : BitVec 5) (c : Bool) (t : Trb),
    exec (.cmdDisableSlot n c) s = .refused .disableSlotUnspecified ∧
    exec (.cmdConfigureEndpoint n a c) s = .refused .configureEndpointUnspecified ∧
    exec (.cmdEvaluateContext n a c) s = .refused .evaluateContextUnspecified ∧
    exec (.cmdResetEndpoint n ep c) s = .refused .resetEndpointUnspecified ∧
    exec (.cmdResetDevice n c) s = .refused .resetDeviceUnspecified ∧
    exec (.cmdSetTrDequeue n ep a c) s = .refused .setTrDequeueUnspecified ∧
    exec (.cmdLink t) s = .refused .linkOnCommandRing ∧
    exec (.xferNormal n t) s = .refused .normalOnEp0 ∧
    exec (.xferLink n t) s = .refused .linkOnTransferRing ∧
    exec (.xferEventData n t) s = .refused .eventDataOnEp0 ∧
    exec (.xferNoop n t) s = .refused .noopOnEp0

/-! ### Control transfers -/

/-- A whole transfer that the device answers in full: the engine past its TRBs, the bytes of an IN
transfer at the buffer, one event for the Status TRB (45_control_transfer R350, R353, R357; bytes
ENV's answer does not list are open, log 13). That the rows of one transfer each serve the whole of
it is log 18's (DESIGN CHOICE). -/
def Obligations.TransferAnswered : Prop :=
  ∀ (s : State) (i : SlotId) (r : XferRing) (data : List Byte) (left : List ControlAnswer),
    s.transferReady i r → slotPortEnabled s i = true → s.env.control = .ok data :: left →
    s.eventAllowed →
    let t0 := s.xferTrb i 0
    let buf := (s.xferTrb i 1).parameter
    let len := t0.setupLength.toNat
    let event := transferTrb s.cfg (r.slotAddr (t0.stages - 1)) s.cfg.cc.success 0 i
    ∀ row ∈ s.transferRows i,
      (t0.trt = 0 → exec row s = .next ((s.transferTaken i r left).raised event)) ∧
      (t0.trt = 2 → exec row s = .next ((s.transferTaken i r left).raised event)) ∧
      (t0.trt = 3 → s.ctlRefusal buf len = none →
        ∃ bs : List Byte, bs.length = len ∧ (∀ k < len, k < data.length → bs[k]? = data[k]?) ∧
          exec row s = .next (((s.transferTaken i r left).withMem
            (s.mem.writeBytes buf bs)).raised event))

/-- A short packet stores its bytes and raises two events, the Status stage's success second. A
failed stage raises one event, for its TRB, and the engine is past the whole transfer all the same;
after the Data or the Status stage of an IN transfer has failed the buffer holds any bytes
(60_exceptions R378; log 50). A port that is not Enabled fails the Setup stage, whatever ENV would
have answered (45_control_transfer R354 to R356; that ENV's answer is taken all the same is log
13's, that the rows of one transfer each serve the whole of it log 18's, DESIGN CHOICE). -/
def Obligations.TransferShortOrFailed : Prop :=
  ∀ (s : State) (i : SlotId) (r : XferRing) (a : ControlAnswer) (left : List ControlAnswer),
    s.transferReady i r → s.env.control = a :: left → s.eventAllowed →
    let t0 := s.xferTrb i 0
    let buf := (s.xferTrb i 1).parameter
    let len := t0.setupLength.toNat
    let taken := s.transferTaken i r left
    let event := fun n code residual =>
      transferTrb s.cfg (r.slotAddr n) code (BitVec.ofNat 24 residual) i
    ∀ row ∈ s.transferRows i,
      (slotPortEnabled s i = false →
        exec row s = .next (taken.raised (event 0 s.cfg.cc.usbTransactionError 0))) ∧
      (slotPortEnabled s i = true →
        (∀ m data, a = .short m data → t0.trt = 3 → m < len → s.ctlRefusal buf m = none →
          s.ctlRefusal (ringAddr s.er.base s.er.advanced.enq) 16 = none →
          ∃ bs : List Byte, bs.length = m ∧ (∀ k < m, k < data.length → bs[k]? = data[k]?) ∧
            exec row s = .next (((taken.withMem (s.mem.writeBytes buf bs)).raised
              (event 1 s.cfg.cc.shortPacket (len - m))).raised
              (event 2 s.cfg.cc.success 0))) ∧
        (a = .error .setup .transaction →
          exec row s = .next (taken.raised (event 0 s.cfg.cc.usbTransactionError 0))) ∧
        ∀ code, let c := if code = .stall then s.cfg.cc.stall else s.cfg.cc.usbTransactionError
          (a = .error .status code → t0.trt ≠ 3 →
            exec row s = .next (taken.raised (event (t0.stages - 1) c 0))) ∧
          (a = .error .data code → t0.trt = 2 →
            exec row s = .next (taken.raised (event 1 c len))) ∧
          (t0.trt = 3 → s.ctlRefusal buf len = none →
            ∃ (bs : List Byte) (x : FreeSrc), bs.length = len ∧
              let t := (taken.withFree x).withMem (s.mem.writeBytes buf bs)
              (a = .error .data code → exec row s = .next (t.raised (event 1 c len))) ∧
              (a = .error .status code → exec row s = .next (t.raised (event 2 c 0)))))

/-- The transfer engine changes nothing while it is not enabled, or without room for two events; it
stops, with its place kept, where the next TRB is not valid or a later TRB of the transfer is
missing; and it refuses a TRB that begins no transfer and a transfer of another shape
(45_control_transfer R350 to R352, R357 to R360). The room is the slots between the producer and
ERDP, less one. That a step that is not enabled changes nothing is log 11's, that the rows of one
transfer each serve the whole of it log 18's (DESIGN CHOICE), what the room is of a ring of size 0
log 22's (DEDUCED). -/
def Obligations.TransferEngineWaits : Prop :=
  ∀ (s : State) (i : SlotId),
    (s.op.hch = true ∨ s.isAddressed i = false ∨ s.tr.get i = none ∨
      (∃ r, s.tr.get i = some r ∧ r.running = false) →
      ∀ row ∈ s.transferRows i, exec row s = .next s) ∧
    (∀ d < s.er.size, s.er.size ≤ 256 → s.er.enq < s.er.size →
      s.er.deqPtr = s.er.base + BitVec.ofNat 64 (16 * d) →
        s.er.free = (d + s.er.size - 1 - s.er.enq) % s.er.size) ∧
    ∀ r, s.op.hch = false → s.isAddressed i = true → s.tr.get i = some r → r.running = true →
      let t0 := s.xferTrb i 0
      let t1 := s.xferTrb i 1
      let t2 := s.xferTrb i 2
      let stopped := s.withXfer i (some { r with running := false })
      (t0.cycle ≠ r.ccs → exec (.xhcTransferStep i) s = .next stopped) ∧
      (t0.cycle = r.ccs →
        (t0.typ ≠ s.cfg.tt.setup → ∃ e ∈ [Refusal.transferShape, .normalOnEp0, .linkOnTransferRing,
          .eventDataOnEp0, .noopOnEp0, .otherOnEp0],
          exec (.xhcTransferStep i) s = .refused e) ∧
        (t0.typ = s.cfg.tt.setup →
          (t1.cycle ≠ r.slotCycle 1 ∨ t0.stages = 3 ∧ t2.cycle ≠ r.slotCycle 2 →
            exec (.xhcTransferStep i) s = .next stopped) ∧
          (laterValid r t0 t1 t2 = true →
            (transferShape s.cfg.tt t0 t1 t2 = false →
              exec (.xhcTransferStep i) s = .refused .transferShape) ∧
            (transferShape s.cfg.tt t0 t1 t2 = true → s.er.free < 2 →
              ∀ row ∈ s.transferRows i, exec row s = .next s))))

/-! ### The controller's own steps -/

/-- The lifecycle steps, each where its condition holds; elsewhere a step changes nothing
(42_lifecycle R250 to R254, 10_state R67). The end of a reset leaves nothing handed over (log 25).
That a step whose condition does not hold changes nothing is log 11's (DESIGN CHOICE). -/
def Obligations.LifecycleSteps : Prop :=
  ∀ s : State,
    (exec .xhcHalt s = if s.op.hch = false ∧ s.op.rs = false then
        .next (((s.withCr { s.cr with running := false }).withTr
          (s.tr.each (·.map fun r => { r with running := false }))).withOp
          { s.op with hch := true })
      else .next s) ∧
    (exec .xhcResetBegin s = if s.op.cnr = true ∨ s.op.hcrst = true then .refused .notReady
      else if s.op.hch = false then .refused .resetWhileRunning
      else .next (s.withOp { s.op with hcrst := true, cnr := true })) ∧
    (exec .xhcReady s = if s.op.hcrst = false ∧ s.op.cnr = true then
        .next (s.withOp { s.op with cnr := false })
      else .next s) ∧
    (exec .xhcStart s = if s.op.hch = true ∧ s.op.cnr = false ∧ s.op.hcrst = false ∧ s.op.rs = true
      then .next (s.withOp { s.op with hch := false }) else .next s) ∧
    (s.op.hcrst = false → exec .xhcResetComplete s = .next s) ∧
    (s.op.hcrst = true → ∃ (ports : Tab Port),
      exec .xhcResetComplete s = .next ((((((((s.withOp
        ⟨false, false, false, true, true, 0, 0, 0⟩).withIntr ⟨false, false, 0, 0⟩).withCr
        ⟨0, 0, false, false, false⟩).withEr ⟨0, 0, 0, true, 0, false⟩).withPorts ports).withSlots
        (Vector.replicate 256 ⟨.disabled, 0, 0⟩)).withTr (Vector.replicate 256 none)).account
        fun l => { l with handed := [], installed := [] }) ∧
      ∀ p, ports.get p = { s.ports.get p with
        ccs := (s.ports.get p).attached
        ped := false
        pr := false
        speed := if (s.ports.get p).attached = true then (s.ports.get p).devSpeed else 0
        resetting := false
        pscPending := false })

/-- Attach, detach and the end of a port reset, each with its change noted where events are on;
where its condition does not hold a step changes nothing (43_ports R280, R284, R286; that such a
step changes nothing is log 11's, DESIGN CHOICE; a port reset ends only on a ready controller,
42_lifecycle R255, log 20's reading, DEDUCED). -/
def Obligations.PortMoves : Prop :=
  ∀ (s : State) (p : PortIx) (v : BitVec 4),
    let q := s.ports.get p
    let noted := q.pscPending || (!s.op.hch && decide (s.er.size ≠ 0))
    (exec (.xhcPortAttach p v) s =
      if p.toNat < s.cfg.maxPorts.toNat ∧ q.attached = false then
        .next (s.withPort p { q with
          attached := true, devSpeed := v, ccs := true, speed := v, pscPending := noted })
      else .next s) ∧
    (exec (.xhcPortDetach p) s =
      if p.toNat < s.cfg.maxPorts.toNat ∧ q.attached = true then
        .next (s.withPort p { q with
          attached := false, ccs := false, ped := false, speed := 0, pscPending := noted })
      else .next s) ∧
    exec (.xhcPortResetComplete p) s =
      if p.toNat < s.cfg.maxPorts.toNat ∧ s.op.hcrst = false ∧ s.op.cnr = false ∧ q.resetting = true
      then .next (s.withPort p { q with
        resetting := false
        pr := false
        ped := q.attached
        speed := if q.attached = true then q.devSpeed else q.speed
        pscPending := noted })
      else .next s

/-- A pending change of a port raises one event with the port's number, and is pending no more;
while nothing is pending, the controller is halted or the ring has no room, nothing changes
(43_ports R271, R286, 30_encoding R108). That a step that is not enabled changes nothing is log 11's
(DESIGN CHOICE), that a ring of size 0 has no room log 22's (DEDUCED). -/
def Obligations.PortEventStep : Prop :=
  ∀ (s : State) (p : PortIx),
    ((s.ports.get p).pscPending = false ∨ s.op.hch = true ∨ s.er.size = 0 ∨ s.er.hasRoom = false ∨
      s.cfg.maxPorts.toNat ≤ p.toNat → exec (.xhcPortEvent p) s = .next s) ∧
    (p.toNat < s.cfg.maxPorts.toNat → (s.ports.get p).pscPending = true → s.op.hch = false →
      s.er.size ≠ 0 → s.er.hasRoom = true → s.eventAllowed →
      exec (.xhcPortEvent p) s = .next ((s.raised
        (PortEvent.toTrb s.cfg.tt ⟨p + 1, s.cfg.cc.success, false⟩)).withPort p
        { s.ports.get p with pscPending := false }))

/-! ### Rings and events, host side -/

/-- Allocating a ring zeroes its block and nothing else and records it with cycle state 1; a refusal
of the allocator is the failure. The command ring is allocated and its base, with the cycle state,
is written to CRCR, which loads an engine that does not run (41_ring_protocol R190, R194,
60_exceptions R373). A block over what the controller holds, over a living slot's DCBAA entry, or
over a structure the controller writes, is not zeroed: the run is refused (70_reset R422, R424; how
what is handed over or installed is kept is log 25's, DEDUCED). That an allocation with no answer listed fails is log 14's (DESIGN CHOICE), the
controller's place on the ring log 17's. -/
def Obligations.RingAllocation : Prop :=
  ∀ (s : State) (n : Nat) (a : Addr) (left : List (Option Addr)),
    (s.plat.allocs = some a :: left → s.mayGive a (16 * n) (16 * n) →
      let g := s.given a (16 * n) .ring left
      exec (.allocate n) s = .next (g.withResult (.ring ⟨a, 0, 0, true, n⟩)) ∧
      ∀ k, g.mem.read k = if a.toNat ≤ k ∧ k < a.toNat + 16 * n then 0 else s.mem.read k) ∧
    (s.plat.allocs = some a :: left → a.toNat % (16 * n) = 0 → a.toNat + 16 * n ≤ 2 ^ 64 →
      (∀ b ∈ s.plat.live, ¬ b.Overlaps a (16 * n)) →
      (s.Lent a (16 * n) → exec (.allocate n) s = .refused .handedOver) ∧
      (¬ s.Lent a (16 * n) → (∃ b ∈ s.ctlBlocks, b.Overlaps a (16 * n) ∧
          ∀ f ∈ s.plat.freed, ¬ f.Overlaps b.base b.size) →
        exec (.allocate n) s = .refused .hostWritesControllerMemory)) ∧
    (s.plat.allocs = none :: left → exec (.allocate n) s =
      .next ((s.denied left).withResult (.failure (.allocationFailure .ring)))) ∧
    (s.plat.allocs = [] → exec (.allocate n) s =
      .next (s.withResult (.failure (.allocationFailure .ring)))) ∧
    (s.Quiet → s.host.basesFixed = true → s.op.hcrst = false → s.op.cnr = false →
      s.cfg.bitpos.Distinct → s.plat.allocs = some a :: left → s.mayGive a 4096 4096 →
      let g := s.given a 4096 .cmdRing left
      let t := (((g.withHost { s.host with cmd := ⟨a, 0, 0, true, 256⟩ }).account
        fun l => { l with cmdPos := ⟨0, true⟩ }).onBus .op 0x1C).withOp
        { s.op with crcrLatch := a ||| 1#64 <<< s.cfg.bitpos.crcrRcs }
      exec .initCommandRing s = .next ((if s.cr.running = true then t
        else t.withCr ⟨a, 0, true, false, true⟩).withResult .success))

/-- The event ring and its one-entry table allocated, the table written, ERSTSZ, ERSTBA and ERDP
programmed, and so the producer loaded; with no room for the table the ring just allocated is given
back (41_ring_protocol R225, 40_register_access R168, 60_exceptions R374), and the ring's record
with it (log 30). -/
def Obligations.EventRingInstalled : Prop :=
  ∀ (s : State) (v e : Addr) (left : List (Option Addr)),
    s.mayGive v 4096 4096 →
    (s.Quiet → s.host.basesFixed = true → s.op.hcrst = false → s.op.cnr = false →
      s.cfg.bitpos.Distinct → s.plat.allocs = some v :: some e :: left →
      let g := (s.given v 4096 .evtRing (some e :: left)).given e 16 .erst left
      (s.given v 4096 .evtRing (some e :: left)).mayGive e 16 64 → g.mayStoreTrb e →
      exec .initEventRing s = .next { g with
        intr := { s.intr with erstsz := 1, erstba := e }
        er := ⟨v, 256, 0, true, v, s.er.ehb⟩
        mem := ((g.mem.write64 e v).write32 (e + 8) 256).write32 (e + 12) 0
        host := { s.host with
          evt := ⟨v, 0, 0, true, 256⟩
          erst := e
          busAddr := s.host.regAddr .rt 0x3C
          result := .success } }) ∧
    (s.plat.allocs = some v :: none :: left → (∀ b ∈ s.plat.live, b.base ≠ v) →
      ∃ m x, s.mem.AgreeOutside m [⟨v, 4096, .evtRing⟩] ∧
        exec .initEventRing s = .next ((((s.withMem m).withFree x).withPlat { s.plat with
          allocs := left
          freed := ⟨v, 4096, .evtRing⟩ :: s.plat.freed.flatMap (·.minus v 4096) }).withHost
          { s.host with
            evt := ⟨0, 0, 0, false, 0⟩
            result := .failure (.allocationFailure .erst) }))

/-- Posting a command stores its TRB in the slot at the enqueue index, the cycle state OR-ed in, and
nothing else; the index advances and the doorbell is rung, and one more command is outstanding; one
less is when the engine retires one. Enable Slot is such a post. A ring whose slots are all posted
and not retired is refused, a ring never allocated too (41_ring_protocol R195 to R199, R206,
44_commands R306; the controller's place on the host's ring is log 17's, the ring never allocated
log 26's, DEDUCED). So is a store over memory the host has freed, over a structure the controller
writes, be it a block of that kind, the event segment loaded or the device context of a slot (log
33), and over memory the controller has been handed or a living slot's DCBAA entry (20_memory R96,
60_exceptions R390, 70_reset R424; logs 16 and 25). -/
def Obligations.PostCommand : Prop :=
  ∀ (s : State) (t : Trb),
    let a := s.host.cmd.base + BitVec.ofNat 64 (16 * s.host.cmd.enq)
    let owned := fun n => ∃ b ∈ s.ctlBlocks, b.Overlaps a n
    let lent := fun n => s.Lent a n
    let freed := fun n => ∃ b ∈ s.plat.freed, b.Overlaps a n
    (∀ b : Block, b ∈ s.ctlBlocks ↔
      (b ∈ s.plat.live ∧ (b.kind = .evtRing ∨ b.kind = .devCtx)) ∨
      (s.er.size ≠ 0 ∧ b = ⟨s.er.base, 16 * s.er.size, .evtRing⟩) ∨
      ∃ i, (s.slots.get i).state = .addressed ∧
        b = ⟨(s.slots.get i).ctx, s.cfg.devCtxBytes, .devCtx⟩) ∧
    (s.Quiet → s.mayPost →
      exec (.postCommand t) s = .next ((s.posted t).withResult .success) ∧
      exec .enableSlot s = .next ((s.posted ⟨0, 0,
        s.cfg.tt.enableSlot.setWidth 32 <<< 10⟩).withResult .success) ∧
      (s.posted t).mem.readTrb a = ⟨t.parameter, t.status,
        t.control ||| (if s.host.cmd.cycle = true then 1 else 0)⟩ ∧
      (∀ k, (∀ j < 16, k ≠ byteAddr a j) → (s.posted t).mem.read k = s.mem.read k) ∧
      (s.posted t).host.cmd = { s.host.cmd with
        enq := if s.host.cmd.enq + 1 = s.host.cmd.size then 0 else s.host.cmd.enq + 1
        cycle := if s.host.cmd.enq + 1 = s.host.cmd.size then !s.host.cmd.cycle
          else s.host.cmd.cycle } ∧
      (s.host.cmd.enq < s.host.cmd.size → s.ledger.cmdPos.idx < s.host.cmd.size →
        (s.posted t).cmdOutstanding = s.cmdOutstanding + 1) ∧
      (s.posted t).cr.running = (s.cr.running || !s.op.hch)) ∧
    (s.host.cmd.size = 256 → s.cr.base &&& ~~~0xFFF#64 = s.host.cmd.base →
      s.ledger.cmdPos = ⟨s.cr.deq, s.cr.ccs⟩ → s.cr.deq < 256 → s.cmdOutstanding ≠ 0 →
        s.cmdPassed.cmdOutstanding = s.cmdOutstanding - 1) ∧
    (s.host.cmd.size = 0 → exec (.postCommand t) s = .refused .ringNotAllocated) ∧
    (s.Quiet → s.host.cmd.size ≠ 0 →
      (s.host.cmd.size ≤ s.cmdOutstanding → exec (.postCommand t) s = .refused .ringOverrun) ∧
      (s.cmdOutstanding < s.host.cmd.size →
        (freed 16 → ¬ owned 16 → ¬ lent 16 → exec (.postCommand t) s = .refused .freedMemory) ∧
        (owned 16 → ¬ lent 16 → ¬ freed 16 →
          exec (.postCommand t) s = .refused .hostWritesControllerMemory) ∧
        (lent 16 → ¬ owned 16 → ¬ freed 16 → exec (.postCommand t) s = .refused .handedOver)))

/-- A control transfer stages two TRBs, or three where there is data, each with the ring's cycle
state, and rings the slot's doorbell once. From a doorbell that wakes the engine on, the TRBs and
the data buffer are the controller's: the host may store none of them, nor load the buffer of an IN
transfer (45_control_transfer R340 to R343, R347, R348; how what is handed over is kept is log 25's,
that slot `k` need not be addressed log 31's, DEDUCED). Each TRB staged is one more outstanding, a
transfer consumed takes off its own, and a ring whose slots are all staged and not consumed is
refused (R344; log 17). -/
def Obligations.ControlTransfer : Prop :=
  ∀ (s : State) (k : SlotId), s.Quiet →
    (∀ t : Trb, s.mayStage k →
      let r := s.host.ep0.get k
      let a := r.base + BitVec.ofNat 64 (16 * r.enq)
      exec (.ep0Enqueue k t) s = .next ((s.staged k t).withResult .success) ∧
      (s.staged k t).mem.readTrb a =
        ⟨t.parameter, t.status, t.control ||| (if r.cycle = true then 1 else 0)⟩ ∧
      (r.enq < r.size → (s.ledger.ep0Pos.get k).idx < r.size →
        (s.staged k t).ep0Outstanding k = s.ep0Outstanding k + 1) ∧
      ∀ b, (∀ j < 16, b ≠ byteAddr a j) → (s.staged k t).mem.read b = s.mem.read b) ∧
    (∀ (x : XferRing) (n : Nat), (s.host.ep0.get k).size = 256 → x.base = (s.host.ep0.get k).base →
      s.ledger.ep0Pos.get k = ⟨x.deq, x.ccs⟩ → x.deq < 256 → n ≤ s.ep0Outstanding k →
        (s.xferPassed k x n).ep0Outstanding k = s.ep0Outstanding k - n) ∧
    (∀ t : Trb, (s.host.ep0.get k).size ≠ 0 → (s.host.ep0.get k).size ≤ s.ep0Outstanding k →
        exec (.ep0Enqueue k t) s = .refused .ringOverrun) ∧
    ∀ (p : SetupPacket) (buf : Addr),
      k ≠ 0 → k.toNat ≤ s.cfg.maxSlots.toNat → s.cfg.bitpos.Distinct →
        s.host.basesFixed = true → s.op.hcrst = false → s.op.cnr = false →
        let tt := s.cfg.tt
        let setup := fun trt : Dword => (⟨p.wLength ++ p.wIndex ++ p.wValue ++ p.bRequest ++
          p.bmRequestType, 8, (trt <<< 16) ||| (tt.setup.setWidth 32 <<< 10) ||| (1 <<< 6)⟩ : Trb)
        let data := fun dir : Dword => (⟨buf, p.wLength.setWidth 32,
          (dir <<< 16) ||| (tt.data.setWidth 32 <<< 10)⟩ : Trb)
        let status := fun dir : Dword => (⟨0, 0,
          (dir <<< 16) ||| (tt.status.setWidth 32 <<< 10) ||| (1 <<< 5)⟩ : Trb)
        let r := s.host.ep0.get k
        let run := fun l => let t := (s.stagedAll k l).rungSlot k
          exec (.controlTransfer k p buf) s = .next (t.withResult .success) ∧
          (s.op.hch = false → (s.slots.get k).state = .addressed → ∀ (a : Addr) (n : Nat),
            (∀ m < l.length,
              (⟨ringAddr r.base (Nat.iterate Ring.enqAdvanced m r).enq, 16, false⟩ :
                Region).Overlaps a n → t.hostRefusal a n ≠ none) ∧
            (p.wLength ≠ 0 → (⟨buf, p.wLength.toNat, false⟩ : Region).Overlaps a n →
              t.hostRefusal a n ≠ none ∧
              (p.bmRequestType.getLsbD 7 = true → t.loadRefusal a n = some .handedOver)))
        (p.wLength = 0 → s.mayStageAll k [setup 0, status 1] → run [setup 0, status 1]) ∧
        (p.wLength ≠ 0 → p.bmRequestType.getLsbD 7 = true →
          s.mayStageAll k [setup 3, data 1, status 0] → run [setup 3, data 1, status 0]) ∧
        (p.wLength ≠ 0 → p.bmRequestType.getLsbD 7 = false →
          s.mayStageAll k [setup 2, data 0, status 1] → run [setup 2, data 0, status 1])

/-- The host meets an event TRB: at a cycle mismatch nothing is pending and nothing changes; else it
is recorded by its type, an unrecognised one is skipped, the index advances, ERDP is written with
EHB, and what was handed over with a finished command or transfer, the oldest its TRB stands for, is
the host's again (log 25). `process_events` does so with the TRB at its index, where it may load it,
and is refused where a valid TRB lies in a buffer the controller holds (41_ring_protocol R214 to
R220, 44_commands R318, 45_control_transfer R347). -/
def Obligations.EventsConsumed : Prop :=
  ∀ (s : State), s.host.evt.size ≠ 0 →
    (s.Quiet → s.mayLoadTrb s.host.eventAddr → exec .processEvents s =
      exec (decodeEvt s.cfg.tt (s.mem.readTrb (s.host.evt.base +
        BitVec.ofNat 64 (16 * s.host.evt.deq)))) s) ∧
    (s.Quiet → (s.mem.readTrb s.host.eventAddr).cycle = s.host.evt.cycle →
      (∃ h ∈ s.ledger.handed, ∃ r ∈ h.held, r.isIn = true ∧ r.Overlaps s.host.eventAddr 16) →
      exec .processEvents s = .refused .handedOver) ∧
    ∀ (e : TransferEvent) (c : CompletionEvent) (p : PortEvent) (t : Trb),
      (e.cycle ≠ s.host.evt.cycle →
        exec (.evTransfer e) s = .next (s.withResult (.bool false))) ∧
      (c.cycle ≠ s.host.evt.cycle →
        exec (.evCmdCompletion c) s = .next (s.withResult (.bool false))) ∧
      (p.cycle ≠ s.host.evt.cycle →
        exec (.evPortStatusChange p) s = .next (s.withResult (.bool false))) ∧
      (t.cycle ≠ s.host.evt.cycle → exec (.evOther t) s = .next (s.withResult (.bool false))) ∧
      (s.Quiet → s.host.basesFixed = true → s.op.hcrst = false → s.op.cnr = false →
        (e.cycle = s.host.evt.cycle →
          let r := s.withHost { s.host with
            lastTransfer := ⟨e.code, e.residual, e.slot, e.ep, e.trbPtr, true⟩ }
          exec (.evTransfer e) s = .next (if e.code = s.cfg.cc.shortPacket then r.consumed
            else (handBack e.trbPtr r).consumed)) ∧
        (c.cycle = s.host.evt.cycle →
          exec (.evCmdCompletion c) s = .next (handBack (c.trbPtr &&& ~~~0xF#64) (s.withHost
            { s.host with lastCompletion :=
              ⟨c.code, c.slot, c.trbPtr &&& ~~~0xF#64, true⟩ })).consumed) ∧
        (p.cycle = s.host.evt.cycle →
          exec (.evPortStatusChange p) s = .next (s.withHost
            { s.host with lastPortChange := ⟨p.portNum, true⟩ }).consumed) ∧
        (t.cycle = s.host.evt.cycle → exec (.evOther t) s = .next s.consumed))

/-! ### Bring-up -/

/-- The scan answers the first function, by bus, device and function, that is present and has the
class of an xHCI controller, and its base; with none the host is told so and nothing else changes.
Parsing reads the four capability dwords and fixes the bases (42_lifecycle R231 to R234). -/
def Obligations.DiscoverAndParse : Prop :=
  ∀ (s : State),
    let word := cfgWord s.plat.pci
    let hit := fun (b : BitVec 8) (d : BitVec 5) (f : BitVec 3) =>
      (word b d f 0).extractLsb' 0 16 ≠ 0xFFFF ∧ (word b d f 8).extractLsb' 8 24 = 0x0C0330
    let place := fun (b : BitVec 8) (d : BitVec 5) (f : BitVec 3) =>
      256 * b.toNat + 8 * d.toNat + f.toNat
    (∀ b d f, hit b d f → (∀ b' d' f', hit b' d' f' → place b d f ≤ place b' d' f') →
      let bar0 := (word b d f 0x10 &&& 0xFFFFFFF0#32).setWidth 64
      exec .discover s = .next ((s.withHost
        { s.host with found := true, capBase := bar0 }).withResult (.found bar0))) ∧
    ((∀ b d f, ¬ hit b d f) →
      exec .discover s = .next (s.withResult (.failure .notFound)) ∧
      exec .discoverAndStart s = .next (s.withResult (.failure .notFound))) ∧
    (s.Quiet → s.host.found = true →
      ∃ x, exec .parseCapabilities s = .next ((s.parsed.withFree x).withResult .success))

/-- The reset sequence of a halted controller, or of a running one that halts when it is first
asked, that completes its reset and becomes ready when it is first asked: every register at its
reset value, the host Ready. A controller that never halts, one that never ends its reset and one
that never becomes ready let the poll of that stage time out after 1000 reads, and the bring-up is
given up (42_lifecycle R238 to R244, R256, 60_exceptions R372, R374); what that releases, and what
it leaves of the host's records, is log 30's (DESIGN CHOICE). -/
def Obligations.ResetController : Prop :=
  ∀ (s : State) (rest : List (List CtlMove)), s.cfg.bitpos.Distinct → s.host.basesFixed = true →
    s.op.hcrst = false → s.op.cnr = false →
    let halting : List CtlMove := if s.op.hch = true then [] else [.halt]
    let blocks := s.plat.live.filter (·.kind.isBringup)
    (s.sched.turns = [[], [], halting, [], []] ++ [[.resetComplete], [.ready]] ++ rest →
      ∃ x, exec .resetController s =
        .next (((s.resetDone.withFree x).withTurns rest).withResult .success)) ∧
    (s.Quiet →
      (s.op.hch = false → ∃ m x, s.mem.AgreeOutside m blocks ∧
        exec .resetController s = .next (((s.withOp { s.op with rs := false }).withFree x).aborted m
          (.timeout .halt) 1000 (s.host.regAddr .op 4))) ∧
      (s.op.hch = true → ∃ m x, s.mem.AgreeOutside m blocks ∧
        exec .resetController s = .next (((s.withOp { s.op with
          rs := false, hcrst := true, cnr := true }).withFree x).aborted m
          (.timeout .reset) 1000 (s.host.regAddr .op 0)))) ∧
    (s.sched.turns = [[], [], halting, [], []] ++ [[.resetComplete]] →
      ∃ m x, s.mem.AgreeOutside m blocks ∧ exec .resetController s =
        .next (((s.controllerReset.withFree x).withTurns []).aborted m (.timeout .ready) 1000
          (s.host.regAddr .op 4)))

/-- The start sequence of a halted controller: the four structures allocated and zeroed, the segment
table written, every register programmed, and, when the controller starts as it is first asked, the
host Running. A controller that never starts lets the poll time out: the bring-up is given up with
RS still set. An allocation that fails ends it there, with the registers programmed so far and every
block given back (42_lifecycle R245 to R247, R256, 60_exceptions R373, R374). What a failure
releases, and what it leaves of the host's records, is log 30's (DESIGN CHOICE), that it runs
without a reset_controller before it log 31's, the controller's place on the ring log 17's (DEDUCED
both). -/
def Obligations.StartController : Prop :=
  ∀ (s : State) (d c v e : Addr) (left : List (Option Addr)) (rest : List (List CtlMove)),
    (s.plat.allocs = none :: left → ∃ m x,
      s.mem.AgreeOutside m (s.plat.live.filter (·.kind.isBringup)) ∧
      exec .startController s = .next (((s.denied left).withFree x).aborted m
        (.allocationFailure .dcbaa) s.host.pollCount s.host.busAddr)) ∧
    (s.cfg.bitpos.Distinct → s.host.basesFixed = true → s.op.hch = true → s.op.hcrst = false →
      s.op.cnr = false → s.cr.running = false → s.host.maxSlots.toNat ≤ s.cfg.maxSlots.toNat →
      (s.mayStart d c v e left →
        (s.sched.turns = List.replicate 18 [] ++ [[.start]] ++ rest →
          ∃ x, exec .startController s = .next
            ((((s.startDone d c v e left).withFree x).withTurns rest).withResult .success)) ∧
        (s.Quiet → ∃ m x,
          s.mem.AgreeOutside m ((s.startGiven d c v e left).plat.live.filter (·.kind.isBringup)) ∧
          exec .startController s = .next (((s.startProgrammed d c v e left).withFree x).aborted m
            (.timeout .start) 1000 (s.host.regAddr .op 4)))) ∧
      (s.Quiet →
        let D : Block := ⟨d, 8 * (s.host.maxSlots.toNat + 1), .dcbaa⟩
        let C : Block := ⟨c, 4096, .cmdRing⟩
        let V : Block := ⟨v, 4096, .evtRing⟩
        let op := { s.op with dcbaap := d, maxSlotsEn := s.host.maxSlots }
        let loaded := fun t : State => ((t.withOp { op with
          crcrLatch := c ||| 1#64 <<< s.cfg.bitpos.crcrRcs }).withCr
          ⟨c, 0, true, false, true⟩).account Ledger.newCmdRing
        (s.plat.allocs = some d :: none :: left → s.mayGiveAll (none :: left) [D] →
          let u := (s.givenAll (none :: left) [D]).denied left
          ∃ m x, s.mem.AgreeOutside m (u.plat.live.filter (·.kind.isBringup)) ∧
            exec .startController s = .next (((u.withOp op).withFree x).aborted m
              (.allocationFailure .ring) s.host.pollCount (s.host.regAddr .op 0x38))) ∧
        (s.plat.allocs = some d :: some c :: none :: left →
          s.mayGiveAll (none :: left) [D, C] →
          let u := (s.givenAll (none :: left) [D, C]).denied left
          ∃ m x, s.mem.AgreeOutside m (u.plat.live.filter (·.kind.isBringup)) ∧
            exec .startController s = .next (((loaded u).withFree x).aborted m
              (.allocationFailure .ring) s.host.pollCount (s.host.regAddr .op 0x1C))) ∧
        (s.plat.allocs = some d :: some c :: some v :: none :: left →
          s.mayGiveAll (none :: left) [D, C, V] → (∀ b ∈ C :: D :: s.plat.live, b.base ≠ v) →
          let u := (s.givenAll (none :: left) [D, C, V]).denied left
          ∃ m x, s.mem.AgreeOutside m (u.plat.live.filter (·.kind.isBringup)) ∧
            exec .startController s = .next ((((loaded u).returned [V]
              (C :: D :: s.plat.live)).withFree x).aborted m
              (.allocationFailure .erst) s.host.pollCount (s.host.regAddr .op 0x1C)))))

/-- The whole bring-up, where a PCI function is found: discovery, parsing, reset and start, each
after the success of the one before, of a halted controller or of a running one that halts when it
is asked; with no memory for the Controller record it fails, and the host is Failed (42_lifecycle
R231, R256, R258, 60_exceptions R373; log 15). -/
def Obligations.DiscoverAndStart : Prop :=
  ∀ (s : State) (b : BitVec 8) (dev : BitVec 5) (f : BitVec 3), PciFirst s.plat.pci b dev f →
    (s.plat.heapFull = true → exec .discoverAndStart s =
      .next ((s.withHost { HostRec.initial with
        lifecycle := .failed
        pollCount := s.host.pollCount
        busAddr := s.host.busAddr }).withResult (.failure (.allocationFailure .controller)))) ∧
    ∀ (d c v e : Addr) (left : List (Option Addr)) (rest : List (List CtlMove)),
      let h := { HostRec.initial with found := true, capBase := pciBar0 s.plat.pci b dev f }
      let u := (s.withHost h).parsed.resetDone
      let halting : List CtlMove := if s.op.hch = true then [] else [.halt]
      s.plat.heapFull = false → s.cfg.bitpos.Distinct → s.op.hcrst = false →
      s.op.cnr = false → u.mayStart d c v e left →
      s.sched.turns = List.replicate 4 [] ++ ([[], [], halting, [], []] ++
        [[.resetComplete], [.ready]] ++ (List.replicate 18 [] ++ [[.start]] ++ rest)) →
      ∃ x, exec .discoverAndStart s = .next
        ((((u.startDone d c v e left).withFree x).withTurns rest).withResult .success)

/-! ### Ports and enumeration, host side -/

/-- Probing reads every port once, in order, and reports what stands in its register. A port reset
sets PR, which drops the port's enable; it succeeds when the controller clears PR, and fails, for
that port only, after 1000 reads (43_ports R272, R275 to R277, R283, R284). That both run as they are
written on a controller that is not Running is log 31's (DEDUCED). -/
def Obligations.PortProcedures : Prop :=
  ∀ (s : State) (p : PortIx) (rest : List (List CtlMove)), s.host.basesFixed = true →
    s.cfg.bitpos.Distinct →
    (s.Quiet → s.host.maxPorts.toNat ≤ s.cfg.maxPorts.toNat →
      ∃ x l, l.length = s.host.maxPorts.toNat ∧
        (∀ i : PortIx, i.toNat < s.host.maxPorts.toNat → l[i.toNat]? =
          some ⟨(s.ports.get i).ccs, (s.ports.get i).ped, decodedSpeed (s.ports.get i).speed⟩) ∧
        exec .probePorts s = .next (((if s.host.maxPorts = 0 then s
          else s.onBus .op (portOffset (s.host.maxPorts - 1))).withFree x).withResult
          (.ports l))) ∧
    (p.toNat < s.cfg.maxPorts.toNat → s.op.hcrst = false → s.op.cnr = false →
      let q := s.ports.get p
      let t := s.onBus .op (portOffset p)
      (s.Quiet → ∃ x, exec (.resetPort p) s = .next ((((t.withFree x).withPort p
        (if q.pr = true then q else { q with pr := true, resetting := true, ped := false })).counted
        1000).withResult (.failure (.timeout .portReset)))) ∧
      (q.pr = false → s.sched.turns = [[], [], [.portResetComplete p]] ++ rest →
        ∃ x, exec (.resetPort p) s = .next (((((t.withFree x).withPort p { q with
          pr := false
          resetting := false
          ped := q.attached
          speed := if q.attached = true then q.devSpeed else q.speed
          pscPending := q.pscPending || (!s.op.hch && decide (s.er.size ≠ 0)) }).counted
          1).withTurns rest).withResult .success)))

/-- What the host makes of a completion: the flag is cleared, a code other than success is the
failure, a slot id outside the device table is rejected, and a success marks the device record,
copies the device's address from its context, or answers the bytes moved. A record marked so is in
use of a slot that is not Disabled. Where the event has not been consumed yet it waits, and a load
of a buffer the controller fills is refused (44_commands R306, R308, R316, R329, 45_control_transfer
R346, R347; waiting is log 27's, the port binding log 24's, a residual above the request log 23's, a
slot id outside the device table after Address Device log 25's). -/
def Obligations.Completions : Prop :=
  ∀ (s : State) (n : SlotId) (len : Dword) (bind : Option PortBinding),
    (s.host.lastCompletion.valid = false →
      exec (.onEnableSlotCompletion bind) s = .next (s.withResult .waiting) ∧
      exec (.onAddressDeviceCompletion n) s = .next (s.withResult .waiting)) ∧
    (s.host.lastTransfer.valid = false →
      exec (.onTransferCompletion n len) s = .next (s.withResult .waiting)) ∧
    (s.host.lastCompletion.valid = true →
      let k := s.host.lastCompletion.slotId
      let code := s.host.lastCompletion.code
      let h := { s.host with lastCompletion := { s.host.lastCompletion with valid := false } }
      (code ≠ s.cfg.cc.success →
        exec (.onEnableSlotCompletion bind) s =
          .next ((s.withHost h).withResult (.failure (.commandFailed code))) ∧
        exec (.onAddressDeviceCompletion n) s =
          .next ((s.withHost h).withResult (.failure (.commandFailed code)))) ∧
      (code = s.cfg.cc.success →
        (k = 0 ∨ s.cfg.devTableSize ≤ k.toNat →
          exec (.onEnableSlotCompletion bind) s =
            .next ((s.withHost h).withResult (.failure (.slotIdRejected k)))) ∧
        (k ≠ 0 → k.toNat < s.cfg.devTableSize →
          let d := { s.host.dev.get k with slotId := k, inUse := true }
          exec (.onEnableSlotCompletion bind) s = .next ((s.withHost { h with
            dev := s.host.dev.put k (match bind with
              | none => d
              | some b => { d with port := b.port + 1, speed := b.speed }) }).withResult
            (.slot k))) ∧
        (s.cfg.devTableSize ≤ n.toNat → exec (.onAddressDeviceCompletion n) s =
          .next ((s.withHost h).withResult (.failure (.slotIdRejected n)))) ∧
        ((s.slots.get k).state ≠ .disabled →
          (∀ j, (s.host.dev.get j).inUse = true → (s.slots.get j).state ≠ .disabled) →
          ∀ t, exec (.onEnableSlotCompletion bind) s = .next t →
            ∀ j, (t.host.dev.get j).inUse = true → (t.slots.get j).state ≠ .disabled) ∧
        (s.Quiet → n.toNat < s.cfg.devTableSize →
          let d := s.host.dev.get n
          let f := s.cfg.ctx.usbAddress
          let v := s.mem.read32 (d.devCtx + BitVec.ofNat 64 (4 * f.dword))
          let a := d.devCtx + BitVec.ofNat 64 (4 * f.dword)
          (s.loadRefusal a 4 = none →
            exec (.onAddressDeviceCompletion n) s = .next ((s.withHost { h with
              dev := s.host.dev.put n { d with address := (f.read v).setWidth 7 } }).withResult
              .success)) ∧
          ((∃ x ∈ s.ledger.handed, ∃ r ∈ x.held, r.isIn = true ∧ r.Overlaps a 4) →
            exec (.onAddressDeviceCompletion n) s = .refused .handedOver)))) ∧
    (s.host.lastTransfer.valid = true →
      let code := s.host.lastTransfer.code
      let residual := s.host.lastTransfer.residual
      let t := s.withHost
        { s.host with lastTransfer := { s.host.lastTransfer with valid := false } }
      (code = s.cfg.cc.success →
        exec (.onTransferCompletion n len) s = .next (t.withResult (.bytes len))) ∧
      (code ≠ s.cfg.cc.success → code = s.cfg.cc.shortPacket →
        (residual.toNat ≤ len.toNat → exec (.onTransferCompletion n len) s =
          .next (t.withResult (.bytes (len - residual.setWidth 32)))) ∧
        (len.toNat < residual.toNat → ∃ m x, exec (.onTransferCompletion n len) s =
          .next ((t.withFree x).withResult (.bytes m)))) ∧
      (code ≠ s.cfg.cc.success → code ≠ s.cfg.cc.shortPacket →
        exec (.onTransferCompletion n len) s =
          .next (t.withResult (.failure (.transferFailed code)))))

/-- Filling the input context: the packet size of the device's speed (any value where the speed has
no decoding: log 7), every field in its place, no byte outside the three contexts. The positions are
the layout of 93 G9 (44_commands R311, R314; log 7), the stores field by field (log 46). A slot id
with no place in the device table is rejected, and a structure the controller may be reading, be it
a block of the host's or one the registers name, is not written (70_reset R422, R424; logs 25, 33).
One the controller writes is not either (20_memory R96, 60_exceptions R390). -/
def Obligations.InputContext : Prop :=
  ∀ (s : State) (ic : Addr) (n : SlotId),
    (s.cfg.devTableSize ≤ n.toNat → exec (.fillInputContext ic n) s =
      .next (s.withResult (.failure (.slotIdRejected n)))) ∧
    (n.toNat < s.cfg.devTableSize →
      ((∃ b ∈ s.hostBlocks, b.kind ≠ .inCtx ∧ b.Overlaps ic (3 * s.cfg.ctxSize)) →
        exec (.fillInputContext ic n) s = .refused .handedOver) ∧
      (let why := fun u : Nat × (Dword → Dword) => s.hostRefusal (ic + BitVec.ofNat 64 u.1) 4
        let l := inputUpdates s.cfg.ctx s.cfg.ctxSize (s.host.dev.get n) (s.host.ep0.get n) 0
        s.Quiet → s.isInUse .inCtx ic (3 * s.cfg.ctxSize) = false →
        (∀ u ∈ l, s.loadRefusal (ic + BitVec.ofNat 64 u.1) 4 = none ∧
          (why u = none ∨ why u = some .hostWritesControllerMemory)) →
        (∃ u ∈ l, why u = some .hostWritesControllerMemory) →
        exec (.fillInputContext ic n) s = .refused .hostWritesControllerMemory) ∧
      (s.Quiet → s.mayFill ic n → ∃ (packet : Dword) (x : FreeSrc),
        (∀ v, packetSize s.cfg.mps (s.host.dev.get n).speed = some v → packet = v) ∧
        exec (.fillInputContext ic n) s = .next (((s.filled ic n packet).withFree x).withResult
          .success) ∧
        (s.cfg.ctx.Fits s.cfg.ctxSize → ∀ a, (∀ k < 3 * s.cfg.ctxSize, a ≠ byteAddr ic k) →
          (s.filled ic n packet).mem.read a = s.mem.read a) ∧
        (32 ≤ s.cfg.ctxSize → 3 * s.cfg.ctxSize ≤ 2 ^ 64 → s.cfg.ctx = ctxLayout →
          (s.host.ep0.get n).base.getLsbD 0 = false →
          let c := s.cfg.ctxSize
          let l := s.cfg.ctx
          let bs := (s.filled ic n packet).mem.readBytes ic (3 * c)
          let slot := (bs.drop c).take c
          let ep := bs.drop (2 * c)
          ctxGet bs l.drop = 0 ∧ ctxGet bs l.addSlot = 1 ∧ ctxGet bs l.addEp0 = 1 ∧
          ctxGet slot l.route = 0 ∧ ctxGet slot l.speed = (s.host.dev.get n).speed.setWidth 32 ∧
          ctxGet slot l.endpointCount = 1 ∧
          ctxGet slot l.rootPort = (s.host.dev.get n).port.setWidth 32 ∧
          ctxRingPointer l ep = (s.host.ep0.get n).base ∧
          (ctxDequeue l ep).getLsbD l.dcsBit = (s.host.ep0.get n).cycle ∧
          ctxGet ep l.epType = l.control ∧ ctxGet ep l.maxPacket = packet &&& 0xFFFF)))

/-- The host's half of Address Device: three blocks allocated and recorded, the input context
filled, the device context installed in the DCBAA, the command posted, in that order, and no other
byte changed, so no other slot's DCBAA entry: for a device record in use, entries other than 0 stay
those of records in use (44_commands R309, R329). An allocation that fails ends it with the blocks
before it given back and nothing else changed (60_exceptions R373, R374). A slot id with no place in
the device table is rejected (log 25); entry 0, the entry of a slot that lives, and an entry whose
place is a ring's or the segment table's, are not written (93 U28, 70_reset R422, R424; log 25).
That the procedure runs as it is written for a record that is not in use is log 31's, and log 25's
(DEDUCED both). -/
def Obligations.AddressDeviceHost : Prop :=
  ∀ (s : State) (n : SlotId) (ic dc ring : Addr) (left : List (Option Addr)),
    let I : Block := ⟨ic, s.cfg.inCtxBytes, .inCtx⟩
    let D : Block := ⟨dc, s.cfg.devCtxBytes, .devCtx⟩
    let R : Block := ⟨ring, 4096, .ep0Ring⟩
    (s.cfg.devTableSize ≤ n.toNat → exec (.addressDevice n) s =
      .next (s.withResult (.failure (.slotIdRejected n)))) ∧
    (n.toNat < s.cfg.devTableSize →
      (s.plat.allocs = none :: left → exec (.addressDevice n) s =
        .next ((s.denied left).withResult (.failure (.allocationFailure .context)))) ∧
      (s.plat.allocs = some ic :: none :: left → s.mayGiveAll (none :: left) [I] →
        (∀ b ∈ s.plat.live, b.base ≠ ic) →
        let u := (s.givenAll (none :: left) [I]).denied left
        ∃ m x, s.mem.AgreeOutside m [I] ∧ exec (.addressDevice n) s =
          .next ((((u.returned [I] s.plat.live).withFree x).withMem m).withResult
            (.failure (.allocationFailure .context)))) ∧
      (s.plat.allocs = some ic :: some dc :: none :: left →
        s.mayGiveAll (none :: left) [I, D] → (∀ b ∈ s.plat.live, b.base ≠ ic ∧ b.base ≠ dc) →
        let u := (s.givenAll (none :: left) [I, D]).denied left
        ∃ m x, s.mem.AgreeOutside m [I, D] ∧ exec (.addressDevice n) s =
          .next ((((u.returned [D, I] s.plat.live).withFree x).withMem m).withResult
            (.failure (.allocationFailure .ring)))) ∧
      (s.Quiet → s.mayGiveDevice ic dc ring left →
        let g := s.deviceGiven n ic dc ring left
        g.mayFill ic n →
        (n = 0 → exec (.addressDevice n) s = .refused .dcbaaEntryZero) ∧
        (n ≠ 0 → (∃ x ∈ s.ledger.installed, (s.slots.get x.slot).state ≠ .disabled ∧
            (⟨x.addr, 8, false⟩ : Region).Overlaps (dcbaaEntry s.host.dcbaa n) 8) →
          exec (.addressDevice n) s = .refused .handedOver) ∧
        (n ≠ 0 → (∃ b ∈ g.hostBlocks, b.kind ≠ .inCtx ∧ b.kind ≠ .dcbaa ∧
            b.Overlaps (dcbaaEntry s.host.dcbaa n) 8) →
          exec (.addressDevice n) s = .refused .handedOver) ∧
        (n ≠ 0 → g.mayInstall n → (g.deviceInstalled n dc).mayPost →
          ∃ (packet : Dword) (x : FreeSrc),
            (∀ v, packetSize s.cfg.mps (s.host.dev.get n).speed = some v → packet = v) ∧
            let t := ((g.filled ic n packet).deviceInstalled n dc).posted ⟨ic, 0,
              (n.setWidth 32 <<< 24) ||| (s.cfg.tt.addressDevice.setWidth 32 <<< 10)⟩
            exec (.addressDevice n) s = .next ((t.withFree x).withResult .success) ∧
            (s.cfg.ctx.Fits s.cfg.ctxSize → ∀ a,
              (∀ b ∈ [I, D, R], ∀ k < b.size, a ≠ byteAddr b.base k) →
              (∀ k < 8, a ≠ byteAddr (dcbaaEntry s.host.dcbaa n) k) →
              (∀ k < 16, a ≠ byteAddr (ringAddr s.host.cmd.base s.host.cmd.enq) k) →
              t.mem.read a = s.mem.read a) ∧
            (s.cfg.ctx.Fits s.cfg.ctxSize → (s.host.dev.get n).inUse = true → s.EntriesInUse →
              (∀ k : SlotId, k.toNat ≤ s.host.maxSlots.toNat → ∀ j < 8,
                let a := byteAddr (dcbaaEntry s.host.dcbaa k) j
                (∀ b ∈ [I, D, R], ∀ m < b.size, a ≠ byteAddr b.base m) ∧
                ∀ m < 16, a ≠ byteAddr (ringAddr s.host.cmd.base s.host.cmd.enq) m) →
              t.EntriesInUse))))
end

