-- ==== Sys2Proof/Laws/Bits.lean ====
section
/-! SUPPORT. The halves of 64-bit registers, single-bit masks and low bits that are 0. -/

namespace Sys2Proof.Machine

/-! ### Halves -/

@[simp] theorem lo32_append (h l : Dword) : lo32 (h ++ l) = l := by
  unfold lo32
  ext i hi
  have e := BitVec.getLsbD_append (x := h) (y := l) (i := 0 + i)
  rw [BitVec.getElem_extractLsb']
  refine e.trans ?_
  simp [hi]

@[simp] theorem hi32_append (h l : Dword) : hi32 (h ++ l) = h := by
  unfold hi32
  ext i hi
  have e := BitVec.getLsbD_append (x := h) (y := l) (i := 32 + i)
  rw [BitVec.getElem_extractLsb']
  refine e.trans ?_
  simp [hi]

@[simp] theorem lo32_withLo (q : Qword) (v : Dword) : lo32 (withLo q v) = v := lo32_append _ _

@[simp] theorem hi32_withLo (q : Qword) (v : Dword) : hi32 (withLo q v) = hi32 q := hi32_append _ _

@[simp] theorem lo32_withHi (q : Qword) (v : Dword) : lo32 (withHi q v) = lo32 q := lo32_append _ _

@[simp] theorem hi32_withHi (q : Qword) (v : Dword) : hi32 (withHi q v) = v := hi32_append _ _

/-- Both halves written, low first: the whole value. -/
@[simp] theorem withHi_withLo (q v : Qword) : withHi (withLo q (lo32 v)) (hi32 v) = v := by
  unfold withHi
  rw [lo32_withLo]
  ext i hi
  rw [BitVec.getElem_append]
  split
  · simp [lo32, BitVec.getLsbD_eq_getElem hi]
  · rename_i h
    simp only [hi32, BitVec.getElem_extractLsb']
    rw [show 32 + (i - 32) = i by omega, BitVec.getLsbD_eq_getElem hi]

/-! ### Bits of dwords -/

/-- A single-bit mask, bit by bit. -/
theorem getLsbD_mask1 (n i : Nat) : (mask1 n).getLsbD i = (decide (i = n) && decide (i < 32)) := by
  unfold mask1
  rw [BitVec.getLsbD_shiftLeft]
  by_cases h : i = n
  · subst h
    by_cases h32 : i < 32 <;> simp [h32]
  · by_cases hlt : i < n
    · simp [h, hlt]
    · have : i - n ≠ 0 := by omega
      simp [h, hlt, BitVec.getLsbD_one, this]

/-- A flag placed in a dword, bit by bit. -/
theorem getLsbD_flagAt (b : Bool) (n i : Nat) :
    (flagAt b n).getLsbD i = (b && (decide (i = n) && decide (i < 32))) := by
  unfold flagAt
  cases b
  · simp
  · simp [getLsbD_mask1]

/-- A read value shows the fields under the mask and the drawn value elsewhere. -/
theorem getLsbD_openBits (m f v : Dword) (i : Nat) (hi : i < 32) :
    (openBits m f v).getLsbD i = if m.getLsbD i then f.getLsbD i else v.getLsbD i := by
  unfold openBits
  simp only [BitVec.getLsbD_or, BitVec.getLsbD_and, BitVec.getLsbD_not, hi, decide_true,
    Bool.true_and]
  cases m.getLsbD i <;> simp

/-! ### Low bits that are 0 -/

theorem LowZero.of_and {q : Qword} {k : Nat} (hk : k < 64)
    (h : q &&& BitVec.ofNat 64 (2 ^ k - 1) = 0#64) : LowZero q k := by
  have h1 := congrArg BitVec.toNat h
  have h2 : 2 ^ k < 2 ^ 64 := Nat.pow_lt_pow_right (by norm_num) hk
  have h3 := Nat.two_pow_pos k
  rw [BitVec.toNat_and, BitVec.toNat_ofNat, Nat.mod_eq_of_lt (by omega),
    Nat.and_two_pow_sub_one_eq_mod] at h1
  simpa using h1

/-- Clearing the low bits leaves them 0. -/
theorem lowZero_mask (q : Qword) {k : Nat} (hk : k < 64) :
    LowZero (q &&& ~~~(BitVec.ofNat 64 (2 ^ k - 1))) k := by
  refine LowZero.of_and hk ?_
  rw [BitVec.and_assoc, BitVec.and_comm (~~~ _), BitVec.and_not_self]
  exact BitVec.and_zero

theorem toNat_withLo (q : Qword) (v : Dword) :
    (withLo q v).toNat = (hi32 q).toNat * 2 ^ 32 + v.toNat := by
  unfold withLo
  rw [BitVec.toNat_append, Nat.shiftLeft_eq, Nat.mul_comm, Nat.two_pow_add_eq_or_of_lt v.isLt]

theorem toNat_withHi (q : Qword) (v : Dword) :
    (withHi q v).toNat = v.toNat * 2 ^ 32 + q.toNat % 2 ^ 32 := by
  unfold withHi
  rw [BitVec.toNat_append, Nat.shiftLeft_eq, Nat.mul_comm, lo32, BitVec.extractLsb'_toNat,
    Nat.shiftRight_zero, Nat.two_pow_add_eq_or_of_lt (Nat.mod_lt _ (by norm_num))]

/-- A low half written keeps its own low bits. -/
theorem lowZero_withLo (q : Qword) (v : Dword) {k : Nat} (hk : k ≤ 32)
    (h : v.toNat % 2 ^ k = 0) : LowZero (withLo q v) k := by
  show (withLo q v).toNat % 2 ^ k = 0
  obtain ⟨c, hc⟩ := Nat.pow_dvd_pow 2 hk
  rw [toNat_withLo, Nat.add_mod, h, hc]
  simp [Nat.mul_left_comm]

/-- A high half written keeps the low bits. -/
theorem lowZero_withHi {q : Qword} (v : Dword) {k : Nat} (hk : k ≤ 32) (h : LowZero q k) :
    LowZero (withHi q v) k := by
  show (withHi q v).toNat % 2 ^ k = 0
  obtain ⟨c, hc⟩ := Nat.pow_dvd_pow 2 hk
  have h2 : q.toNat % 2 ^ 32 % 2 ^ k = 0 := by
    rw [Nat.mod_mod_of_dvd _ ⟨c, hc⟩]
    exact h
  rw [toNat_withHi, Nat.add_mod, h2, hc]
  simp [Nat.mul_left_comm]

/-- A dword whose masked low bits are 0. -/
theorem Dword.low_of_and {v : Dword} {k : Nat} (hk : k < 32)
    (h : v &&& BitVec.ofNat 32 (2 ^ k - 1) = 0#32) : v.toNat % 2 ^ k = 0 := by
  have h1 := congrArg BitVec.toNat h
  have h2 : 2 ^ k < 2 ^ 32 := Nat.pow_lt_pow_right (by norm_num) hk
  have h3 := Nat.two_pow_pos k
  rw [BitVec.toNat_and, BitVec.toNat_ofNat, Nat.mod_eq_of_lt (by omega),
    Nat.and_two_pow_sub_one_eq_mod] at h1
  simpa using h1

/-! ### Ring indices -/

/-- An index stays in its ring. -/
theorem advance_lt {i : Nat} {c : Bool} {n : Nat} (h : i < n) : (advance i c n).1 < n := by
  unfold advance
  split <;> dsimp only <;> omega

theorem ep0After_lt (k : Nat) {p : Nat × Bool} (h : p.1 < Config.ep0RingSize) :
    (ep0After k p).1 < Config.ep0RingSize := by
  induction k generalizing p with
  | zero => exact h
  | succ k ih => exact ih (p := advance p.1 p.2 Config.ep0RingSize) (advance_lt h)

end Sys2Proof.Machine
end

