-- ==== Sys2Proof/Laws/State.lean ====
section
/-! SUPPORT. One lemma per field per named update of the state, true by rfl. -/

namespace Sys2Proof.Machine

variable (s : State)

@[simp] theorem State.cfg_withOp (x : OpRegs) : (s.withOp x).cfg = s.cfg := rfl
@[simp] theorem State.op_withOp (x : OpRegs) : (s.withOp x).op = x := rfl
@[simp] theorem State.intr_withOp (x : OpRegs) : (s.withOp x).intr = s.intr := rfl
@[simp] theorem State.cr_withOp (x : OpRegs) : (s.withOp x).cr = s.cr := rfl
@[simp] theorem State.er_withOp (x : OpRegs) : (s.withOp x).er = s.er := rfl
@[simp] theorem State.ports_withOp (x : OpRegs) : (s.withOp x).ports = s.ports := rfl
@[simp] theorem State.slots_withOp (x : OpRegs) : (s.withOp x).slots = s.slots := rfl
@[simp] theorem State.tr_withOp (x : OpRegs) : (s.withOp x).tr = s.tr := rfl
@[simp] theorem State.mem_withOp (x : OpRegs) : (s.withOp x).mem = s.mem := rfl
@[simp] theorem State.host_withOp (x : OpRegs) : (s.withOp x).host = s.host := rfl
@[simp] theorem State.plat_withOp (x : OpRegs) : (s.withOp x).plat = s.plat := rfl
@[simp] theorem State.ledger_withOp (x : OpRegs) : (s.withOp x).ledger = s.ledger := rfl
@[simp] theorem State.env_withOp (x : OpRegs) : (s.withOp x).env = s.env := rfl
@[simp] theorem State.sched_withOp (x : OpRegs) : (s.withOp x).sched = s.sched := rfl
@[simp] theorem State.free_withOp (x : OpRegs) : (s.withOp x).free = s.free := rfl

@[simp] theorem State.cfg_withIntr (x : IntrRegs) : (s.withIntr x).cfg = s.cfg := rfl
@[simp] theorem State.op_withIntr (x : IntrRegs) : (s.withIntr x).op = s.op := rfl
@[simp] theorem State.intr_withIntr (x : IntrRegs) : (s.withIntr x).intr = x := rfl
@[simp] theorem State.cr_withIntr (x : IntrRegs) : (s.withIntr x).cr = s.cr := rfl
@[simp] theorem State.er_withIntr (x : IntrRegs) : (s.withIntr x).er = s.er := rfl
@[simp] theorem State.ports_withIntr (x : IntrRegs) : (s.withIntr x).ports = s.ports := rfl
@[simp] theorem State.slots_withIntr (x : IntrRegs) : (s.withIntr x).slots = s.slots := rfl
@[simp] theorem State.tr_withIntr (x : IntrRegs) : (s.withIntr x).tr = s.tr := rfl
@[simp] theorem State.mem_withIntr (x : IntrRegs) : (s.withIntr x).mem = s.mem := rfl
@[simp] theorem State.host_withIntr (x : IntrRegs) : (s.withIntr x).host = s.host := rfl
@[simp] theorem State.plat_withIntr (x : IntrRegs) : (s.withIntr x).plat = s.plat := rfl
@[simp] theorem State.ledger_withIntr (x : IntrRegs) : (s.withIntr x).ledger = s.ledger := rfl
@[simp] theorem State.env_withIntr (x : IntrRegs) : (s.withIntr x).env = s.env := rfl
@[simp] theorem State.sched_withIntr (x : IntrRegs) : (s.withIntr x).sched = s.sched := rfl
@[simp] theorem State.free_withIntr (x : IntrRegs) : (s.withIntr x).free = s.free := rfl

@[simp] theorem State.cfg_withCr (x : CmdEngine) : (s.withCr x).cfg = s.cfg := rfl
@[simp] theorem State.op_withCr (x : CmdEngine) : (s.withCr x).op = s.op := rfl
@[simp] theorem State.intr_withCr (x : CmdEngine) : (s.withCr x).intr = s.intr := rfl
@[simp] theorem State.cr_withCr (x : CmdEngine) : (s.withCr x).cr = x := rfl
@[simp] theorem State.er_withCr (x : CmdEngine) : (s.withCr x).er = s.er := rfl
@[simp] theorem State.ports_withCr (x : CmdEngine) : (s.withCr x).ports = s.ports := rfl
@[simp] theorem State.slots_withCr (x : CmdEngine) : (s.withCr x).slots = s.slots := rfl
@[simp] theorem State.tr_withCr (x : CmdEngine) : (s.withCr x).tr = s.tr := rfl
@[simp] theorem State.mem_withCr (x : CmdEngine) : (s.withCr x).mem = s.mem := rfl
@[simp] theorem State.host_withCr (x : CmdEngine) : (s.withCr x).host = s.host := rfl
@[simp] theorem State.plat_withCr (x : CmdEngine) : (s.withCr x).plat = s.plat := rfl
@[simp] theorem State.ledger_withCr (x : CmdEngine) : (s.withCr x).ledger = s.ledger := rfl
@[simp] theorem State.env_withCr (x : CmdEngine) : (s.withCr x).env = s.env := rfl
@[simp] theorem State.sched_withCr (x : CmdEngine) : (s.withCr x).sched = s.sched := rfl
@[simp] theorem State.free_withCr (x : CmdEngine) : (s.withCr x).free = s.free := rfl

@[simp] theorem State.cfg_withEr (x : EvtProducer) : (s.withEr x).cfg = s.cfg := rfl
@[simp] theorem State.op_withEr (x : EvtProducer) : (s.withEr x).op = s.op := rfl
@[simp] theorem State.intr_withEr (x : EvtProducer) : (s.withEr x).intr = s.intr := rfl
@[simp] theorem State.cr_withEr (x : EvtProducer) : (s.withEr x).cr = s.cr := rfl
@[simp] theorem State.er_withEr (x : EvtProducer) : (s.withEr x).er = x := rfl
@[simp] theorem State.ports_withEr (x : EvtProducer) : (s.withEr x).ports = s.ports := rfl
@[simp] theorem State.slots_withEr (x : EvtProducer) : (s.withEr x).slots = s.slots := rfl
@[simp] theorem State.tr_withEr (x : EvtProducer) : (s.withEr x).tr = s.tr := rfl
@[simp] theorem State.mem_withEr (x : EvtProducer) : (s.withEr x).mem = s.mem := rfl
@[simp] theorem State.host_withEr (x : EvtProducer) : (s.withEr x).host = s.host := rfl
@[simp] theorem State.plat_withEr (x : EvtProducer) : (s.withEr x).plat = s.plat := rfl
@[simp] theorem State.ledger_withEr (x : EvtProducer) : (s.withEr x).ledger = s.ledger := rfl
@[simp] theorem State.env_withEr (x : EvtProducer) : (s.withEr x).env = s.env := rfl
@[simp] theorem State.sched_withEr (x : EvtProducer) : (s.withEr x).sched = s.sched := rfl
@[simp] theorem State.free_withEr (x : EvtProducer) : (s.withEr x).free = s.free := rfl

@[simp] theorem State.cfg_withPorts (x : Tab Port) : (s.withPorts x).cfg = s.cfg := rfl
@[simp] theorem State.op_withPorts (x : Tab Port) : (s.withPorts x).op = s.op := rfl
@[simp] theorem State.intr_withPorts (x : Tab Port) : (s.withPorts x).intr = s.intr := rfl
@[simp] theorem State.cr_withPorts (x : Tab Port) : (s.withPorts x).cr = s.cr := rfl
@[simp] theorem State.er_withPorts (x : Tab Port) : (s.withPorts x).er = s.er := rfl
@[simp] theorem State.ports_withPorts (x : Tab Port) : (s.withPorts x).ports = x := rfl
@[simp] theorem State.slots_withPorts (x : Tab Port) : (s.withPorts x).slots = s.slots := rfl
@[simp] theorem State.tr_withPorts (x : Tab Port) : (s.withPorts x).tr = s.tr := rfl
@[simp] theorem State.mem_withPorts (x : Tab Port) : (s.withPorts x).mem = s.mem := rfl
@[simp] theorem State.host_withPorts (x : Tab Port) : (s.withPorts x).host = s.host := rfl
@[simp] theorem State.plat_withPorts (x : Tab Port) : (s.withPorts x).plat = s.plat := rfl
@[simp] theorem State.ledger_withPorts (x : Tab Port) : (s.withPorts x).ledger = s.ledger := rfl
@[simp] theorem State.env_withPorts (x : Tab Port) : (s.withPorts x).env = s.env := rfl
@[simp] theorem State.sched_withPorts (x : Tab Port) : (s.withPorts x).sched = s.sched := rfl
@[simp] theorem State.free_withPorts (x : Tab Port) : (s.withPorts x).free = s.free := rfl

@[simp] theorem State.cfg_withSlots (x : Tab Slot) : (s.withSlots x).cfg = s.cfg := rfl
@[simp] theorem State.op_withSlots (x : Tab Slot) : (s.withSlots x).op = s.op := rfl
@[simp] theorem State.intr_withSlots (x : Tab Slot) : (s.withSlots x).intr = s.intr := rfl
@[simp] theorem State.cr_withSlots (x : Tab Slot) : (s.withSlots x).cr = s.cr := rfl
@[simp] theorem State.er_withSlots (x : Tab Slot) : (s.withSlots x).er = s.er := rfl
@[simp] theorem State.ports_withSlots (x : Tab Slot) : (s.withSlots x).ports = s.ports := rfl
@[simp] theorem State.slots_withSlots (x : Tab Slot) : (s.withSlots x).slots = x := rfl
@[simp] theorem State.tr_withSlots (x : Tab Slot) : (s.withSlots x).tr = s.tr := rfl
@[simp] theorem State.mem_withSlots (x : Tab Slot) : (s.withSlots x).mem = s.mem := rfl
@[simp] theorem State.host_withSlots (x : Tab Slot) : (s.withSlots x).host = s.host := rfl
@[simp] theorem State.plat_withSlots (x : Tab Slot) : (s.withSlots x).plat = s.plat := rfl
@[simp] theorem State.ledger_withSlots (x : Tab Slot) : (s.withSlots x).ledger = s.ledger := rfl
@[simp] theorem State.env_withSlots (x : Tab Slot) : (s.withSlots x).env = s.env := rfl
@[simp] theorem State.sched_withSlots (x : Tab Slot) : (s.withSlots x).sched = s.sched := rfl
@[simp] theorem State.free_withSlots (x : Tab Slot) : (s.withSlots x).free = s.free := rfl

@[simp] theorem State.cfg_withTr (x : Tab (Option XferRing)) : (s.withTr x).cfg = s.cfg := rfl
@[simp] theorem State.op_withTr (x : Tab (Option XferRing)) : (s.withTr x).op = s.op := rfl
@[simp] theorem State.intr_withTr (x : Tab (Option XferRing)) : (s.withTr x).intr = s.intr := rfl
@[simp] theorem State.cr_withTr (x : Tab (Option XferRing)) : (s.withTr x).cr = s.cr := rfl
@[simp] theorem State.er_withTr (x : Tab (Option XferRing)) : (s.withTr x).er = s.er := rfl
@[simp] theorem State.ports_withTr (x : Tab (Option XferRing)) : (s.withTr x).ports = s.ports := rfl
@[simp] theorem State.slots_withTr (x : Tab (Option XferRing)) : (s.withTr x).slots = s.slots := rfl
@[simp] theorem State.tr_withTr (x : Tab (Option XferRing)) : (s.withTr x).tr = x := rfl
@[simp] theorem State.mem_withTr (x : Tab (Option XferRing)) : (s.withTr x).mem = s.mem := rfl
@[simp] theorem State.host_withTr (x : Tab (Option XferRing)) : (s.withTr x).host = s.host := rfl
@[simp] theorem State.plat_withTr (x : Tab (Option XferRing)) : (s.withTr x).plat = s.plat := rfl
@[simp] theorem State.ledger_withTr (x : Tab (Option XferRing)) : (s.withTr x).ledger = s.ledger := rfl
@[simp] theorem State.env_withTr (x : Tab (Option XferRing)) : (s.withTr x).env = s.env := rfl
@[simp] theorem State.sched_withTr (x : Tab (Option XferRing)) : (s.withTr x).sched = s.sched := rfl
@[simp] theorem State.free_withTr (x : Tab (Option XferRing)) : (s.withTr x).free = s.free := rfl

@[simp] theorem State.cfg_withMem (x : Memory) : (s.withMem x).cfg = s.cfg := rfl
@[simp] theorem State.op_withMem (x : Memory) : (s.withMem x).op = s.op := rfl
@[simp] theorem State.intr_withMem (x : Memory) : (s.withMem x).intr = s.intr := rfl
@[simp] theorem State.cr_withMem (x : Memory) : (s.withMem x).cr = s.cr := rfl
@[simp] theorem State.er_withMem (x : Memory) : (s.withMem x).er = s.er := rfl
@[simp] theorem State.ports_withMem (x : Memory) : (s.withMem x).ports = s.ports := rfl
@[simp] theorem State.slots_withMem (x : Memory) : (s.withMem x).slots = s.slots := rfl
@[simp] theorem State.tr_withMem (x : Memory) : (s.withMem x).tr = s.tr := rfl
@[simp] theorem State.mem_withMem (x : Memory) : (s.withMem x).mem = x := rfl
@[simp] theorem State.host_withMem (x : Memory) : (s.withMem x).host = s.host := rfl
@[simp] theorem State.plat_withMem (x : Memory) : (s.withMem x).plat = s.plat := rfl
@[simp] theorem State.ledger_withMem (x : Memory) : (s.withMem x).ledger = s.ledger := rfl
@[simp] theorem State.env_withMem (x : Memory) : (s.withMem x).env = s.env := rfl
@[simp] theorem State.sched_withMem (x : Memory) : (s.withMem x).sched = s.sched := rfl
@[simp] theorem State.free_withMem (x : Memory) : (s.withMem x).free = s.free := rfl

@[simp] theorem State.cfg_withHost (x : HostRec) : (s.withHost x).cfg = s.cfg := rfl
@[simp] theorem State.op_withHost (x : HostRec) : (s.withHost x).op = s.op := rfl
@[simp] theorem State.intr_withHost (x : HostRec) : (s.withHost x).intr = s.intr := rfl
@[simp] theorem State.cr_withHost (x : HostRec) : (s.withHost x).cr = s.cr := rfl
@[simp] theorem State.er_withHost (x : HostRec) : (s.withHost x).er = s.er := rfl
@[simp] theorem State.ports_withHost (x : HostRec) : (s.withHost x).ports = s.ports := rfl
@[simp] theorem State.slots_withHost (x : HostRec) : (s.withHost x).slots = s.slots := rfl
@[simp] theorem State.tr_withHost (x : HostRec) : (s.withHost x).tr = s.tr := rfl
@[simp] theorem State.mem_withHost (x : HostRec) : (s.withHost x).mem = s.mem := rfl
@[simp] theorem State.host_withHost (x : HostRec) : (s.withHost x).host = x := rfl
@[simp] theorem State.plat_withHost (x : HostRec) : (s.withHost x).plat = s.plat := rfl
@[simp] theorem State.ledger_withHost (x : HostRec) : (s.withHost x).ledger = s.ledger := rfl
@[simp] theorem State.env_withHost (x : HostRec) : (s.withHost x).env = s.env := rfl
@[simp] theorem State.sched_withHost (x : HostRec) : (s.withHost x).sched = s.sched := rfl
@[simp] theorem State.free_withHost (x : HostRec) : (s.withHost x).free = s.free := rfl

@[simp] theorem State.cfg_withPlat (x : Platform) : (s.withPlat x).cfg = s.cfg := rfl
@[simp] theorem State.op_withPlat (x : Platform) : (s.withPlat x).op = s.op := rfl
@[simp] theorem State.intr_withPlat (x : Platform) : (s.withPlat x).intr = s.intr := rfl
@[simp] theorem State.cr_withPlat (x : Platform) : (s.withPlat x).cr = s.cr := rfl
@[simp] theorem State.er_withPlat (x : Platform) : (s.withPlat x).er = s.er := rfl
@[simp] theorem State.ports_withPlat (x : Platform) : (s.withPlat x).ports = s.ports := rfl
@[simp] theorem State.slots_withPlat (x : Platform) : (s.withPlat x).slots = s.slots := rfl
@[simp] theorem State.tr_withPlat (x : Platform) : (s.withPlat x).tr = s.tr := rfl
@[simp] theorem State.mem_withPlat (x : Platform) : (s.withPlat x).mem = s.mem := rfl
@[simp] theorem State.host_withPlat (x : Platform) : (s.withPlat x).host = s.host := rfl
@[simp] theorem State.plat_withPlat (x : Platform) : (s.withPlat x).plat = x := rfl
@[simp] theorem State.ledger_withPlat (x : Platform) : (s.withPlat x).ledger = s.ledger := rfl
@[simp] theorem State.env_withPlat (x : Platform) : (s.withPlat x).env = s.env := rfl
@[simp] theorem State.sched_withPlat (x : Platform) : (s.withPlat x).sched = s.sched := rfl
@[simp] theorem State.free_withPlat (x : Platform) : (s.withPlat x).free = s.free := rfl

@[simp] theorem State.cfg_withLedger (x : Ledger) : (s.withLedger x).cfg = s.cfg := rfl
@[simp] theorem State.op_withLedger (x : Ledger) : (s.withLedger x).op = s.op := rfl
@[simp] theorem State.intr_withLedger (x : Ledger) : (s.withLedger x).intr = s.intr := rfl
@[simp] theorem State.cr_withLedger (x : Ledger) : (s.withLedger x).cr = s.cr := rfl
@[simp] theorem State.er_withLedger (x : Ledger) : (s.withLedger x).er = s.er := rfl
@[simp] theorem State.ports_withLedger (x : Ledger) : (s.withLedger x).ports = s.ports := rfl
@[simp] theorem State.slots_withLedger (x : Ledger) : (s.withLedger x).slots = s.slots := rfl
@[simp] theorem State.tr_withLedger (x : Ledger) : (s.withLedger x).tr = s.tr := rfl
@[simp] theorem State.mem_withLedger (x : Ledger) : (s.withLedger x).mem = s.mem := rfl
@[simp] theorem State.host_withLedger (x : Ledger) : (s.withLedger x).host = s.host := rfl
@[simp] theorem State.plat_withLedger (x : Ledger) : (s.withLedger x).plat = s.plat := rfl
@[simp] theorem State.ledger_withLedger (x : Ledger) : (s.withLedger x).ledger = x := rfl
@[simp] theorem State.env_withLedger (x : Ledger) : (s.withLedger x).env = s.env := rfl
@[simp] theorem State.sched_withLedger (x : Ledger) : (s.withLedger x).sched = s.sched := rfl
@[simp] theorem State.free_withLedger (x : Ledger) : (s.withLedger x).free = s.free := rfl

@[simp] theorem State.cfg_withEnv (x : EnvIn) : (s.withEnv x).cfg = s.cfg := rfl
@[simp] theorem State.op_withEnv (x : EnvIn) : (s.withEnv x).op = s.op := rfl
@[simp] theorem State.intr_withEnv (x : EnvIn) : (s.withEnv x).intr = s.intr := rfl
@[simp] theorem State.cr_withEnv (x : EnvIn) : (s.withEnv x).cr = s.cr := rfl
@[simp] theorem State.er_withEnv (x : EnvIn) : (s.withEnv x).er = s.er := rfl
@[simp] theorem State.ports_withEnv (x : EnvIn) : (s.withEnv x).ports = s.ports := rfl
@[simp] theorem State.slots_withEnv (x : EnvIn) : (s.withEnv x).slots = s.slots := rfl
@[simp] theorem State.tr_withEnv (x : EnvIn) : (s.withEnv x).tr = s.tr := rfl
@[simp] theorem State.mem_withEnv (x : EnvIn) : (s.withEnv x).mem = s.mem := rfl
@[simp] theorem State.host_withEnv (x : EnvIn) : (s.withEnv x).host = s.host := rfl
@[simp] theorem State.plat_withEnv (x : EnvIn) : (s.withEnv x).plat = s.plat := rfl
@[simp] theorem State.ledger_withEnv (x : EnvIn) : (s.withEnv x).ledger = s.ledger := rfl
@[simp] theorem State.env_withEnv (x : EnvIn) : (s.withEnv x).env = x := rfl
@[simp] theorem State.sched_withEnv (x : EnvIn) : (s.withEnv x).sched = s.sched := rfl
@[simp] theorem State.free_withEnv (x : EnvIn) : (s.withEnv x).free = s.free := rfl

@[simp] theorem State.cfg_withSched (x : Sched) : (s.withSched x).cfg = s.cfg := rfl
@[simp] theorem State.op_withSched (x : Sched) : (s.withSched x).op = s.op := rfl
@[simp] theorem State.intr_withSched (x : Sched) : (s.withSched x).intr = s.intr := rfl
@[simp] theorem State.cr_withSched (x : Sched) : (s.withSched x).cr = s.cr := rfl
@[simp] theorem State.er_withSched (x : Sched) : (s.withSched x).er = s.er := rfl
@[simp] theorem State.ports_withSched (x : Sched) : (s.withSched x).ports = s.ports := rfl
@[simp] theorem State.slots_withSched (x : Sched) : (s.withSched x).slots = s.slots := rfl
@[simp] theorem State.tr_withSched (x : Sched) : (s.withSched x).tr = s.tr := rfl
@[simp] theorem State.mem_withSched (x : Sched) : (s.withSched x).mem = s.mem := rfl
@[simp] theorem State.host_withSched (x : Sched) : (s.withSched x).host = s.host := rfl
@[simp] theorem State.plat_withSched (x : Sched) : (s.withSched x).plat = s.plat := rfl
@[simp] theorem State.ledger_withSched (x : Sched) : (s.withSched x).ledger = s.ledger := rfl
@[simp] theorem State.env_withSched (x : Sched) : (s.withSched x).env = s.env := rfl
@[simp] theorem State.sched_withSched (x : Sched) : (s.withSched x).sched = x := rfl
@[simp] theorem State.free_withSched (x : Sched) : (s.withSched x).free = s.free := rfl

@[simp] theorem State.cfg_withFree (x : FreeSrc) : (s.withFree x).cfg = s.cfg := rfl
@[simp] theorem State.op_withFree (x : FreeSrc) : (s.withFree x).op = s.op := rfl
@[simp] theorem State.intr_withFree (x : FreeSrc) : (s.withFree x).intr = s.intr := rfl
@[simp] theorem State.cr_withFree (x : FreeSrc) : (s.withFree x).cr = s.cr := rfl
@[simp] theorem State.er_withFree (x : FreeSrc) : (s.withFree x).er = s.er := rfl
@[simp] theorem State.ports_withFree (x : FreeSrc) : (s.withFree x).ports = s.ports := rfl
@[simp] theorem State.slots_withFree (x : FreeSrc) : (s.withFree x).slots = s.slots := rfl
@[simp] theorem State.tr_withFree (x : FreeSrc) : (s.withFree x).tr = s.tr := rfl
@[simp] theorem State.mem_withFree (x : FreeSrc) : (s.withFree x).mem = s.mem := rfl
@[simp] theorem State.host_withFree (x : FreeSrc) : (s.withFree x).host = s.host := rfl
@[simp] theorem State.plat_withFree (x : FreeSrc) : (s.withFree x).plat = s.plat := rfl
@[simp] theorem State.ledger_withFree (x : FreeSrc) : (s.withFree x).ledger = s.ledger := rfl
@[simp] theorem State.env_withFree (x : FreeSrc) : (s.withFree x).env = s.env := rfl
@[simp] theorem State.sched_withFree (x : FreeSrc) : (s.withFree x).sched = s.sched := rfl
@[simp] theorem State.free_withFree (x : FreeSrc) : (s.withFree x).free = x := rfl

@[simp] theorem State.cfg_withPort (p : PortIx) (x : Port) :
    (s.withPort p x).cfg = s.cfg := rfl
@[simp] theorem State.op_withPort (p : PortIx) (x : Port) :
    (s.withPort p x).op = s.op := rfl
@[simp] theorem State.intr_withPort (p : PortIx) (x : Port) :
    (s.withPort p x).intr = s.intr := rfl
@[simp] theorem State.cr_withPort (p : PortIx) (x : Port) :
    (s.withPort p x).cr = s.cr := rfl
@[simp] theorem State.er_withPort (p : PortIx) (x : Port) :
    (s.withPort p x).er = s.er := rfl
@[simp] theorem State.ports_withPort (p : PortIx) (x : Port) :
    (s.withPort p x).ports = s.ports.put p x := rfl
@[simp] theorem State.slots_withPort (p : PortIx) (x : Port) :
    (s.withPort p x).slots = s.slots := rfl
@[simp] theorem State.tr_withPort (p : PortIx) (x : Port) :
    (s.withPort p x).tr = s.tr := rfl
@[simp] theorem State.mem_withPort (p : PortIx) (x : Port) :
    (s.withPort p x).mem = s.mem := rfl
@[simp] theorem State.host_withPort (p : PortIx) (x : Port) :
    (s.withPort p x).host = s.host := rfl
@[simp] theorem State.plat_withPort (p : PortIx) (x : Port) :
    (s.withPort p x).plat = s.plat := rfl
@[simp] theorem State.ledger_withPort (p : PortIx) (x : Port) :
    (s.withPort p x).ledger = s.ledger := rfl
@[simp] theorem State.env_withPort (p : PortIx) (x : Port) :
    (s.withPort p x).env = s.env := rfl
@[simp] theorem State.sched_withPort (p : PortIx) (x : Port) :
    (s.withPort p x).sched = s.sched := rfl
@[simp] theorem State.free_withPort (p : PortIx) (x : Port) :
    (s.withPort p x).free = s.free := rfl

@[simp] theorem State.cfg_withSlot (i : SlotId) (x : Slot) :
    (s.withSlot i x).cfg = s.cfg := rfl
@[simp] theorem State.op_withSlot (i : SlotId) (x : Slot) :
    (s.withSlot i x).op = s.op := rfl
@[simp] theorem State.intr_withSlot (i : SlotId) (x : Slot) :
    (s.withSlot i x).intr = s.intr := rfl
@[simp] theorem State.cr_withSlot (i : SlotId) (x : Slot) :
    (s.withSlot i x).cr = s.cr := rfl
@[simp] theorem State.er_withSlot (i : SlotId) (x : Slot) :
    (s.withSlot i x).er = s.er := rfl
@[simp] theorem State.ports_withSlot (i : SlotId) (x : Slot) :
    (s.withSlot i x).ports = s.ports := rfl
@[simp] theorem State.slots_withSlot (i : SlotId) (x : Slot) :
    (s.withSlot i x).slots = s.slots.put i x := rfl
@[simp] theorem State.tr_withSlot (i : SlotId) (x : Slot) :
    (s.withSlot i x).tr = s.tr := rfl
@[simp] theorem State.mem_withSlot (i : SlotId) (x : Slot) :
    (s.withSlot i x).mem = s.mem := rfl
@[simp] theorem State.host_withSlot (i : SlotId) (x : Slot) :
    (s.withSlot i x).host = s.host := rfl
@[simp] theorem State.plat_withSlot (i : SlotId) (x : Slot) :
    (s.withSlot i x).plat = s.plat := rfl
@[simp] theorem State.ledger_withSlot (i : SlotId) (x : Slot) :
    (s.withSlot i x).ledger = s.ledger := rfl
@[simp] theorem State.env_withSlot (i : SlotId) (x : Slot) :
    (s.withSlot i x).env = s.env := rfl
@[simp] theorem State.sched_withSlot (i : SlotId) (x : Slot) :
    (s.withSlot i x).sched = s.sched := rfl
@[simp] theorem State.free_withSlot (i : SlotId) (x : Slot) :
    (s.withSlot i x).free = s.free := rfl

@[simp] theorem State.cfg_withXfer (i : SlotId) (x : Option XferRing) :
    (s.withXfer i x).cfg = s.cfg := rfl
@[simp] theorem State.op_withXfer (i : SlotId) (x : Option XferRing) :
    (s.withXfer i x).op = s.op := rfl
@[simp] theorem State.intr_withXfer (i : SlotId) (x : Option XferRing) :
    (s.withXfer i x).intr = s.intr := rfl
@[simp] theorem State.cr_withXfer (i : SlotId) (x : Option XferRing) :
    (s.withXfer i x).cr = s.cr := rfl
@[simp] theorem State.er_withXfer (i : SlotId) (x : Option XferRing) :
    (s.withXfer i x).er = s.er := rfl
@[simp] theorem State.ports_withXfer (i : SlotId) (x : Option XferRing) :
    (s.withXfer i x).ports = s.ports := rfl
@[simp] theorem State.slots_withXfer (i : SlotId) (x : Option XferRing) :
    (s.withXfer i x).slots = s.slots := rfl
@[simp] theorem State.tr_withXfer (i : SlotId) (x : Option XferRing) :
    (s.withXfer i x).tr = s.tr.put i x := rfl
@[simp] theorem State.mem_withXfer (i : SlotId) (x : Option XferRing) :
    (s.withXfer i x).mem = s.mem := rfl
@[simp] theorem State.host_withXfer (i : SlotId) (x : Option XferRing) :
    (s.withXfer i x).host = s.host := rfl
@[simp] theorem State.plat_withXfer (i : SlotId) (x : Option XferRing) :
    (s.withXfer i x).plat = s.plat := rfl
@[simp] theorem State.ledger_withXfer (i : SlotId) (x : Option XferRing) :
    (s.withXfer i x).ledger = s.ledger := rfl
@[simp] theorem State.env_withXfer (i : SlotId) (x : Option XferRing) :
    (s.withXfer i x).env = s.env := rfl
@[simp] theorem State.sched_withXfer (i : SlotId) (x : Option XferRing) :
    (s.withXfer i x).sched = s.sched := rfl
@[simp] theorem State.free_withXfer (i : SlotId) (x : Option XferRing) :
    (s.withXfer i x).free = s.free := rfl

@[simp] theorem State.cfg_withResult (r : HostResult) :
    (s.withResult r).cfg = s.cfg := rfl
@[simp] theorem State.op_withResult (r : HostResult) :
    (s.withResult r).op = s.op := rfl
@[simp] theorem State.intr_withResult (r : HostResult) :
    (s.withResult r).intr = s.intr := rfl
@[simp] theorem State.cr_withResult (r : HostResult) :
    (s.withResult r).cr = s.cr := rfl
@[simp] theorem State.er_withResult (r : HostResult) :
    (s.withResult r).er = s.er := rfl
@[simp] theorem State.ports_withResult (r : HostResult) :
    (s.withResult r).ports = s.ports := rfl
@[simp] theorem State.slots_withResult (r : HostResult) :
    (s.withResult r).slots = s.slots := rfl
@[simp] theorem State.tr_withResult (r : HostResult) :
    (s.withResult r).tr = s.tr := rfl
@[simp] theorem State.mem_withResult (r : HostResult) :
    (s.withResult r).mem = s.mem := rfl
@[simp] theorem State.host_withResult (r : HostResult) :
    (s.withResult r).host = { s.host with result := r } := rfl
@[simp] theorem State.plat_withResult (r : HostResult) :
    (s.withResult r).plat = s.plat := rfl
@[simp] theorem State.ledger_withResult (r : HostResult) :
    (s.withResult r).ledger = s.ledger := rfl
@[simp] theorem State.env_withResult (r : HostResult) :
    (s.withResult r).env = s.env := rfl
@[simp] theorem State.sched_withResult (r : HostResult) :
    (s.withResult r).sched = s.sched := rfl
@[simp] theorem State.free_withResult (r : HostResult) :
    (s.withResult r).free = s.free := rfl

@[simp] theorem State.cfg_account (f : Ledger → Ledger) :
    (s.account f).cfg = s.cfg := rfl
@[simp] theorem State.op_account (f : Ledger → Ledger) :
    (s.account f).op = s.op := rfl
@[simp] theorem State.intr_account (f : Ledger → Ledger) :
    (s.account f).intr = s.intr := rfl
@[simp] theorem State.cr_account (f : Ledger → Ledger) :
    (s.account f).cr = s.cr := rfl
@[simp] theorem State.er_account (f : Ledger → Ledger) :
    (s.account f).er = s.er := rfl
@[simp] theorem State.ports_account (f : Ledger → Ledger) :
    (s.account f).ports = s.ports := rfl
@[simp] theorem State.slots_account (f : Ledger → Ledger) :
    (s.account f).slots = s.slots := rfl
@[simp] theorem State.tr_account (f : Ledger → Ledger) :
    (s.account f).tr = s.tr := rfl
@[simp] theorem State.mem_account (f : Ledger → Ledger) :
    (s.account f).mem = s.mem := rfl
@[simp] theorem State.host_account (f : Ledger → Ledger) :
    (s.account f).host = s.host := rfl
@[simp] theorem State.plat_account (f : Ledger → Ledger) :
    (s.account f).plat = s.plat := rfl
@[simp] theorem State.ledger_account (f : Ledger → Ledger) :
    (s.account f).ledger = f s.ledger := rfl
@[simp] theorem State.env_account (f : Ledger → Ledger) :
    (s.account f).env = s.env := rfl
@[simp] theorem State.sched_account (f : Ledger → Ledger) :
    (s.account f).sched = s.sched := rfl
@[simp] theorem State.free_account (f : Ledger → Ledger) :
    (s.account f).free = s.free := rfl

@[simp] theorem State.cfg_cmdPassed :
    s.cmdPassed.cfg = s.cfg := rfl
@[simp] theorem State.op_cmdPassed :
    s.cmdPassed.op = s.op := rfl
@[simp] theorem State.intr_cmdPassed :
    s.cmdPassed.intr = s.intr := rfl
@[simp] theorem State.cr_cmdPassed :
    s.cmdPassed.cr = s.cr.advanced := rfl
@[simp] theorem State.er_cmdPassed :
    s.cmdPassed.er = s.er := rfl
@[simp] theorem State.ports_cmdPassed :
    s.cmdPassed.ports = s.ports := rfl
@[simp] theorem State.slots_cmdPassed :
    s.cmdPassed.slots = s.slots := rfl
@[simp] theorem State.tr_cmdPassed :
    s.cmdPassed.tr = s.tr := rfl
@[simp] theorem State.mem_cmdPassed :
    s.cmdPassed.mem = s.mem := rfl
@[simp] theorem State.host_cmdPassed :
    s.cmdPassed.host = s.host := rfl
@[simp] theorem State.plat_cmdPassed :
    s.cmdPassed.plat = s.plat := rfl
@[simp] theorem State.ledger_cmdPassed :
    s.cmdPassed.ledger = if s.cr.ringBase = s.host.cmd.base then s.ledger.retired s.cr else s.ledger := rfl
@[simp] theorem State.env_cmdPassed :
    s.cmdPassed.env = s.env := rfl
@[simp] theorem State.sched_cmdPassed :
    s.cmdPassed.sched = s.sched := rfl
@[simp] theorem State.free_cmdPassed :
    s.cmdPassed.free = s.free := rfl

@[simp] theorem State.cfg_xferPassed (i : SlotId) (r : XferRing) (n : Nat) :
    (s.xferPassed i r n).cfg =
      s.cfg := rfl
@[simp] theorem State.op_xferPassed (i : SlotId) (r : XferRing) (n : Nat) :
    (s.xferPassed i r n).op =
      s.op := rfl
@[simp] theorem State.intr_xferPassed (i : SlotId) (r : XferRing) (n : Nat) :
    (s.xferPassed i r n).intr =
      s.intr := rfl
@[simp] theorem State.cr_xferPassed (i : SlotId) (r : XferRing) (n : Nat) :
    (s.xferPassed i r n).cr =
      s.cr := rfl
@[simp] theorem State.er_xferPassed (i : SlotId) (r : XferRing) (n : Nat) :
    (s.xferPassed i r n).er =
      s.er := rfl
@[simp] theorem State.ports_xferPassed (i : SlotId) (r : XferRing) (n : Nat) :
    (s.xferPassed i r n).ports =
      s.ports := rfl
@[simp] theorem State.slots_xferPassed (i : SlotId) (r : XferRing) (n : Nat) :
    (s.xferPassed i r n).slots =
      s.slots := rfl
@[simp] theorem State.tr_xferPassed (i : SlotId) (r : XferRing) (n : Nat) :
    (s.xferPassed i r n).tr =
      s.tr.put i (some (r.advanced n)) := rfl
@[simp] theorem State.mem_xferPassed (i : SlotId) (r : XferRing) (n : Nat) :
    (s.xferPassed i r n).mem =
      s.mem := rfl
@[simp] theorem State.host_xferPassed (i : SlotId) (r : XferRing) (n : Nat) :
    (s.xferPassed i r n).host =
      s.host := rfl
@[simp] theorem State.plat_xferPassed (i : SlotId) (r : XferRing) (n : Nat) :
    (s.xferPassed i r n).plat =
      s.plat := rfl
@[simp] theorem State.ledger_xferPassed (i : SlotId) (r : XferRing) (n : Nat) :
    (s.xferPassed i r n).ledger =
      if r.base = (s.host.ep0.get i).base then s.ledger.consumed i r n else s.ledger := rfl
@[simp] theorem State.env_xferPassed (i : SlotId) (r : XferRing) (n : Nat) :
    (s.xferPassed i r n).env =
      s.env := rfl
@[simp] theorem State.sched_xferPassed (i : SlotId) (r : XferRing) (n : Nat) :
    (s.xferPassed i r n).sched =
      s.sched := rfl
@[simp] theorem State.free_xferPassed (i : SlotId) (r : XferRing) (n : Nat) :
    (s.xferPassed i r n).free =
      s.free := rfl

end Sys2Proof.Machine
end

