-- ==== Sys2Proof/Laws/Act.lean ====
section
/-! SUPPORT. How actions run: one lemma per way of building one, what a sequence that answers went
through, and what a chain of actions keeps. -/

namespace Sys2Proof.Machine

variable {α β : Type}

/-! ### Running an action -/

@[simp] theorem Act.pure_apply (a : α) (s : State) : (pure a : Act α) s = .ok (a, s) := rfl

theorem Act.bind_apply (m : Act α) (f : α → Act β) (s : State) :
    (m >>= f) s = match m s with
      | .ok (a, t) => f a t
      | .error e => .error e := by
  show StateT.bind m f s = _
  unfold StateT.bind
  show Except.bind (m s) _ = _
  cases h : m s <;> rfl

/-- The rest of a sequence runs where the first action answered. -/
theorem Act.bind_ok {m : Act α} {f : α → Act β} {s t : State} {a : α} (h : m s = .ok (a, t)) :
    (m >>= f) s = f a t := by
  rw [Act.bind_apply, h]

theorem Act.bind_error {m : Act α} {f : α → Act β} {s : State} {e : Refusal}
    (h : m s = .error e) : (m >>= f) s = .error e := by
  rw [Act.bind_apply, h]

/-- A sequence answers only through its parts. -/
theorem Act.bind_eq_ok {m : Act α} {f : α → Act β} {s u : State} {b : β} :
    (m >>= f) s = .ok (b, u) ↔ ∃ a t, m s = .ok (a, t) ∧ f a t = .ok (b, u) := by
  rw [Act.bind_apply]
  constructor
  · intro h
    split at h
    · exact ⟨_, _, ‹_›, h⟩
    · cases h
  · rintro ⟨a, t, h1, h2⟩
    rw [h1]
    exact h2

@[simp] theorem Act.get_apply (s : State) : (get : Act State) s = .ok (s, s) := rfl

@[simp] theorem Act.set_apply (s t : State) : (set t : Act PUnit) s = .ok (⟨⟩, t) := rfl

@[simp] theorem Act.modify_apply (f : State → State) (s : State) :
    (modify f : Act PUnit) s = .ok (⟨⟩, f s) := rfl

@[simp] theorem refuse_apply (r : Refusal) (s : State) :
    (refuse r : Act α) s = .error r := rfl

@[simp] theorem Act.get_bind (f : State → Act β) (s : State) :
    ((get : Act State) >>= f) s = f s s := rfl

@[simp] theorem Act.set_bind (t : State) (f : PUnit → Act β) (s : State) :
    ((set t : Act PUnit) >>= f) s = f ⟨⟩ t := rfl

@[simp] theorem Act.modify_bind (g : State → State) (f : PUnit → Act β) (s : State) :
    ((modify g : Act PUnit) >>= f) s = f ⟨⟩ (g s) := rfl

@[simp] theorem require_true (r : Refusal) (s : State) : require true r s = .ok ((), s) := rfl

@[simp] theorem require_false (r : Refusal) (s : State) :
    require false r s = .error r := rfl

/-- A requirement answers exactly where its condition holds, and changes nothing. -/
theorem require_eq_ok {c : Bool} {r : Refusal} {s t : State} :
    require c r s = .ok ((), t) ↔ c = true ∧ t = s := by
  cases c <;> simp [require, eq_comm]

@[simp] theorem refuseIf_none (s : State) : refuseIf none s = .ok ((), s) := rfl

/-- A conditional refusal answers exactly where there is no reason, and changes nothing. -/
theorem refuseIf_eq_ok {r : Option Refusal} {s t : State} :
    refuseIf r s = .ok ((), t) ↔ r = none ∧ t = s := by
  cases r <;> simp [refuseIf, eq_comm]

@[simp] theorem answer_apply (r : HostResult) (s : State) :
    answer r s = .ok ((), s.withResult r) := rfl

/-- A meaning's next state is that of its action. -/
theorem Act.run_eq_next {m : Act Unit} {s t : State} : m.run s = .next t ↔ m s = .ok ((), t) := by
  unfold Act.run
  constructor
  · intro h
    split at h
    · rename_i u hu; cases h; exact hu
    · cases h
  · intro h
    rw [h]

theorem Act.run_of_ok {m : Act Unit} {s t : State} (h : m s = .ok ((), t)) : m.run s = .next t :=
  Act.run_eq_next.2 h

/-- An operation that returns a value: the action's state with the result recorded. -/
theorem answering_ok {f : α → HostResult} {m : Act α} {s t : State} {a : α}
    (h : m s = .ok (a, t)) : answering f m s = .ok ((), t.withResult (f a)) := by
  unfold answering
  rw [Act.bind_ok h]
  rfl

/-! ### What a chain of actions keeps -/

/-- Every state an action answers in keeps `P`. -/
def Act.Keeps (P : State → Prop) (m : Act α) : Prop :=
  ∀ s a t, P s → m s = .ok (a, t) → P t

theorem Act.Keeps.pure {P : State → Prop} (a : α) : Act.Keeps P (Pure.pure a : Act α) := by
  intro s b t hs h
  cases h
  exact hs

theorem Act.Keeps.bind {P : State → Prop} {m : Act α} {f : α → Act β} (hm : Act.Keeps P m)
    (hf : ∀ a, Act.Keeps P (f a)) : Act.Keeps P (m >>= f) := by
  intro s b u hs h
  obtain ⟨a, t, h1, h2⟩ := Act.bind_eq_ok.1 h
  exact hf a t b u (hm s a t hs h1) h2

/-- A sequence that begins by looking at the state. -/
theorem Act.Keeps.get_bind {P : State → Prop} {f : State → Act β}
    (hf : ∀ s b u, P s → f s s = .ok (b, u) → P u) :
    Act.Keeps P ((get : Act State) >>= f) := fun s b u hs h => hf s b u hs h

/-- Every state an action answers in from `s` has `P`. -/
def Act.Leads (P : State → Prop) (m : Act α) (s : State) : Prop := ∀ a t, m s = .ok (a, t) → P t

/-- A sequence that looks at the state first, split on what it sees. -/
theorem Act.Keeps.of_get {P : State → Prop} {f : State → Act β}
    (hf : ∀ s, P s → Act.Leads P (f s) s) : Act.Keeps P ((get : Act State) >>= f) :=
  fun s b u hs h => hf s hs b u h

theorem Act.Keeps.leads {P : State → Prop} {m : Act α} (hm : Act.Keeps P m) {s : State}
    (hs : P s) : Act.Leads P m s := fun a t h => hm s a t hs h

theorem Act.Leads.stay {P : State → Prop} {a : α} {s : State} (hs : P s) :
    Act.Leads P (Pure.pure a : Act α) s := by
  intro b t h
  cases h
  exact hs

theorem Act.Leads.refuse {P : State → Prop} {r : Refusal} {s : State} :
    Act.Leads P (refuse r : Act α) s := by
  intro b t h
  cases h

theorem Act.Leads.set {P : State → Prop} {s t : State} (ht : P t) :
    Act.Leads P (set t : Act PUnit) s := by
  intro b u h
  cases h
  exact ht

/-- Behind a requirement its condition holds and the state is the same. -/
theorem Act.Leads.require {P : State → Prop} {c : Bool} {r : Refusal} {f : Unit → Act α}
    {s : State} (h : c = true → Act.Leads P (f ()) s) :
    Act.Leads P (require c r >>= f) s := by
  intro a u hr
  obtain ⟨_, t, h1, h2⟩ := Act.bind_eq_ok.1 hr
  obtain ⟨hc, rfl⟩ := require_eq_ok.1 h1
  exact h hc a u h2

theorem Act.Leads.bind {P : State → Prop} {m : Act α} {f : α → Act β} {s : State}
    (h : ∀ a t, m s = .ok (a, t) → Act.Leads P (f a) t) : Act.Leads P (m >>= f) s := by
  intro b u hr
  obtain ⟨a, t, h1, h2⟩ := Act.bind_eq_ok.1 hr
  exact h a t h1 b u h2

theorem Act.Keeps.get {P : State → Prop} : Act.Keeps P (MonadState.get : Act State) := by
  intro s a t hs h
  cases h
  exact hs

theorem Act.Keeps.modify {P : State → Prop} {f : State → State} (hf : ∀ s, P s → P (f s)) :
    Act.Keeps P (modify f : Act PUnit) := by
  intro s a t hs h
  cases h
  exact hf s hs

theorem Act.Keeps.refuse {P : State → Prop} (r : Refusal) :
    Act.Keeps P (refuse r : Act α) := by
  intro s a t hs h
  cases h

theorem Act.Keeps.require {P : State → Prop} (c : Bool) (r : Refusal) :
    Act.Keeps P (require c r) := by
  intro s a t hs h
  obtain ⟨-, rfl⟩ := require_eq_ok.1 h
  exact hs

theorem Act.Keeps.refuseIf {P : State → Prop} (r : Option Refusal) :
    Act.Keeps P (refuseIf r) := by
  intro s a t hs h
  obtain ⟨-, rfl⟩ := refuseIf_eq_ok.1 h
  exact hs

theorem Act.Keeps.answer {P : State → Prop} (r : HostResult)
    (hP : ∀ s, P s → P (s.withResult r)) : Act.Keeps P (answer r) :=
  Act.Keeps.modify fun s hs => hP s hs

/-- A meaning keeps what its action keeps. -/
theorem Act.Keeps.run {P : State → Prop} {m : Act Unit} (hm : Act.Keeps P m) {s t : State}
    (hs : P s) (h : m.run s = .next t) : P t :=
  hm s () t hs (Act.run_eq_next.1 h)

end Sys2Proof.Machine
end

