-- ==== Sys2Proof/Laws/Ops.lean ====
section
/-! SUPPORT. One lemma per shared operation of Ops: what it answers, and when. -/

namespace Sys2Proof.Machine

open Config

variable {α : Type}

/-- A dword draw changes the source of free values only. -/
theorem drawDword_eq_ok {s t : State} {v : Dword} (h : drawDword s = .ok (v, t)) :
    ∃ x, t = s.withFree x := by
  unfold drawDword at h
  split at h <;> cases h <;> exact ⟨_, rfl⟩

/-- A draw of bytes changes the source of free values only. -/
theorem drawBytes_eq_ok {n : Nat} {s t : State} {bs : List Byte} (h : drawBytes n s = .ok (bs, t)) :
    bs.length = n ∧ ∃ x, t = s.withFree x := by
  unfold drawBytes at h
  cases h
  exact ⟨by simp, _, rfl⟩

/-- ENV's answer changes what is left of its answers, or the source of free values. -/
theorem drawSetAddress_eq_ok {b c : Bool} {s t : State} (h : drawSetAddress b s = .ok (c, t)) :
    (∃ x, t = s.withEnv x) ∨ ∃ x, t = s.withFree x := by
  unfold drawSetAddress at h
  split at h <;> cases h
  · exact .inl ⟨_, rfl⟩
  · exact .inr ⟨_, rfl⟩

/-- What a store of the controller answers: the bytes stored, where the ownership rules allow. -/
theorem ctlStore_eq_ok {a : Addr} {bs : List Byte} {s t : State} :
    ctlStore a bs s = .ok ((), t) ↔
      s.ctlRefusal a bs.length = none ∧ t = s.withMem (s.mem.writeBytes a bs) := by
  unfold ctlStore
  rw [Act.get_bind, Act.bind_eq_ok]
  constructor
  · rintro ⟨_, u, h1, h2⟩
    obtain ⟨h, rfl⟩ := refuseIf_eq_ok.1 h1
    cases h2
    exact ⟨h, rfl⟩
  · rintro ⟨h, rfl⟩
    exact ⟨(), s, refuseIf_eq_ok.2 ⟨h, rfl⟩, rfl⟩

/-- What storing a TRB answers. -/
theorem ctlStoreTrb_eq_ok {a : Addr} {t : Trb} {s u : State} :
    ctlStoreTrb a t s = .ok ((), u) ↔
      s.ctlRefusal a 16 = none ∧ u = s.withMem (s.mem.writeTrb a t) := by
  unfold ctlStoreTrb
  rw [Act.get_bind, Act.bind_eq_ok]
  constructor
  · rintro ⟨_, u, h1, h2⟩
    obtain ⟨h, rfl⟩ := refuseIf_eq_ok.1 h1
    cases h2
    exact ⟨h, rfl⟩
  · rintro ⟨h, rfl⟩
    exact ⟨(), s, refuseIf_eq_ok.2 ⟨h, rfl⟩, rfl⟩

/-- What a host dword store answers. -/
theorem hostStore32_eq_ok {a : Addr} {v : Dword} {s u : State} :
    hostStore32 a v s = .ok ((), u) ↔
      s.hostRefusal a 4 = none ∧ u = s.withMem (s.mem.write32 a v) := by
  unfold hostStore32
  rw [Act.get_bind, Act.bind_eq_ok]
  constructor
  · rintro ⟨_, u, h1, h2⟩
    obtain ⟨h, rfl⟩ := refuseIf_eq_ok.1 h1
    cases h2
    exact ⟨h, rfl⟩
  · rintro ⟨h, rfl⟩
    exact ⟨(), s, refuseIf_eq_ok.2 ⟨h, rfl⟩, rfl⟩

/-- Taking the exception: the event stored, the producer advanced, EHB and IP set. -/
theorem raiseEvent_eq_ok {t : Trb} {s u : State} :
    raiseEvent t s = .ok ((), u) ↔
      s.ctlRefusal (ringAddr s.er.base s.er.enq) 16 = none ∧
      u = (((s.withMem (s.mem.writeTrb (ringAddr s.er.base s.er.enq) (t.withCycle s.er.pcs))).withEr
        { s.er.advanced with ehb := true }).withIntr { s.intr with ip := true }) := by
  unfold raiseEvent
  rw [Act.get_bind, Act.bind_eq_ok]
  constructor
  · rintro ⟨_, v, h1, h2⟩
    obtain ⟨h, rfl⟩ := ctlStoreTrb_eq_ok.1 h1
    cases h2
    exact ⟨h, rfl⟩
  · rintro ⟨h, rfl⟩
    exact ⟨(), _, ctlStoreTrb_eq_ok.2 ⟨h, rfl⟩, rfl⟩

/-- A drawn member is a member. -/
theorem pick_mem {l : List α} {d : α} {v : Dword} (h : l ≠ []) : pick l d v ∈ l := by
  have hp : 0 < l.length := List.length_pos_iff.2 h
  have hlt : v.toNat % l.length < l.length := Nat.mod_lt _ hp
  unfold pick
  rw [List.getD_eq_getElem _ _ hlt]
  exact List.getElem_mem hlt

@[simp] theorem length_putDwordAt (bs : List Byte) (k : Nat) (v : Dword) :
    (putDwordAt bs k v).length = bs.length := by
  simp [putDwordAt]

@[simp] theorem length_ctxSet (bs : List Byte) (f : CtxField) (v : Dword) :
    (ctxSet bs f v).length = bs.length := by
  simp [ctxSet]

end Sys2Proof.Machine
end

