-- ==== Sys2Proof/Laws/Access.lean ====
section
/-! SUPPORT. Host accesses with no move of another agent before them: what a register read, a
register write, a load and a store answer. -/

namespace Sys2Proof.Machine

open Config

variable {α : Type}

/-! ### The schedule -/

theorem State.Quiet.calm {s : State} (h : s.Quiet) : s.Calm := by
  unfold State.Calm
  rw [h]
  rfl

@[simp] theorem State.Quiet.afterTurns {s : State} (h : s.Quiet) (n : Nat) : s.afterTurns n = s := by
  unfold State.afterTurns State.withSched
  have : s.sched.turns.drop n = s.sched.turns := by
    rw [h]
    simp
  rw [this]

/-- No move is taken where none is scheduled. -/
theorem gap_calm {s : State} (h : s.Calm) : gap s = .ok ((), s.afterTurns 1) := by
  unfold gap
  rw [Act.get_bind]
  cases ht : s.sched.turns with
  | nil =>
    have : s.afterTurns 1 = s := State.Quiet.afterTurns ht 1
    rw [this]
    rfl
  | cons m r =>
    have hm : m = [] := by
      have := h
      unfold State.Calm at this
      rw [ht] at this
      exact this
    subst hm
    unfold State.afterTurns
    rw [ht]
    rfl

theorem gap_quiet {s : State} (h : s.Quiet) : gap s = .ok ((), s) := by
  rw [gap_calm h.calm, h.afterTurns]

/-- The moves scheduled before the next access are taken first. -/
theorem gap_moves {s : State} {m : List CtlMove} {r : List (List CtlMove)}
    (h : s.sched.turns = m :: r) :
    gap s = moveSteps m (s.withSched { s.sched with turns := r }) := by
  unfold gap
  rw [Act.get_bind, h]
  rfl

/-! ### Overlap -/

/-- Two ranges meet exactly where they share a byte. -/
theorem rangesMeet_iff {a b : Addr} {m n : Nat} :
    rangesMeet a m b n = true ↔ ∃ j < m, ∃ k < n, byteAddr a j = byteAddr b k := by
  unfold rangesMeet
  simp only [Bool.and_eq_true, Bool.or_eq_true, decide_eq_true_eq]
  have key : ∀ x y : Addr, (x - y).toNat + (y - x).toNat = 2 ^ 64 ∨ x = y := by
    intro x y
    by_cases h : x = y
    · exact .inr h
    · left
      have h' : x.toNat ≠ y.toNat := fun e => h (BitVec.eq_of_toNat_eq e)
      have := x.isLt
      have := y.isLt
      simp only [BitVec.toNat_sub]
      omega
  constructor
  · have ha := a.isLt
    have hb := b.isLt
    rintro ⟨⟨hm, hn⟩, h | h⟩
    · refine ⟨(b - a).toNat, h, 0, hn, ?_⟩
      simp [byteAddr]
      omega
    · refine ⟨0, hm, (a - b).toNat, h, ?_⟩
      simp [byteAddr]
      omega
  · rintro ⟨j, hj, k, hk, h⟩
    refine ⟨⟨by omega, by omega⟩, ?_⟩
    by_contra hc
    push Not at hc
    obtain ⟨h1, h2⟩ := hc
    rcases key a b with e | rfl
    · have := a.isLt
      have := b.isLt
      simp only [byteAddr, BitVec.toNat_add, BitVec.toNat_ofNat, BitVec.toNat_sub] at h h1 h2 e
      omega
    · simp at h1
      omega

/-- What `meets` decides. -/
theorem Block.meets_iff {b : Block} {a : Addr} {n : Nat} : b.meets a n = true ↔ b.Overlaps a n :=
  rangesMeet_iff

theorem Region.meets_iff {r : Region} {a : Addr} {n : Nat} : r.meets a n = true ↔ r.Overlaps a n :=
  rangesMeet_iff

/-- A region over a TRB overlaps one of its dwords. -/
theorem Region.overlaps_dword {r : Region} {a : Addr} (h : r.Overlaps a 16) :
    r.Overlaps a 4 ∨ r.Overlaps (a + 4) 4 ∨ r.Overlaps (a + 8) 4 ∨ r.Overlaps (a + 12) 4 := by
  obtain ⟨j, hj, k, hk, h⟩ := h
  have e : ∀ (c : Addr) (m : Nat), byteAddr (a + c) m = byteAddr a (c.toNat + m) := by
    intro c m
    unfold byteAddr
    rw [BitVec.add_assoc]
    congr 2
    apply BitVec.eq_of_toNat_eq
    simp [BitVec.toNat_add, BitVec.toNat_ofNat]
  have at_ : ∀ c : Addr, c.toNat ≤ k → k < c.toNat + 4 → r.Overlaps (a + c) 4 := fun c h1 h2 =>
    ⟨j, hj, k - c.toNat, by omega, by rw [h, e, Nat.add_sub_cancel' h1]⟩
  rcases Nat.lt_or_ge k 4 with h1 | h1
  · exact .inl ⟨j, hj, k, h1, h⟩
  · rcases Nat.lt_or_ge k 8 with h2 | h2
    · exact .inr (.inl (at_ 4 h1 h2))
    · rcases Nat.lt_or_ge k 12 with h3 | h3
      · exact .inr (.inr (.inl (at_ 8 h2 h3)))
      · exact .inr (.inr (.inr (at_ 12 h3 hk)))

/-- The host may load several dwords where it may load each. -/
theorem State.loadsRefusal_eq_none {s : State} {l : List Addr} :
    s.loadsRefusal l = none ↔ ∀ a ∈ l, s.loadRefusal a 4 = none := by
  simp [State.loadsRefusal, List.findSome?_eq_none_iff]

/-! ### Register accesses -/

@[simp] theorem State.cfg_onBus (s : State) (b : RegBlock) (off : Dword) :
    (s.onBus b off).cfg = s.cfg := rfl
@[simp] theorem State.op_onBus (s : State) (b : RegBlock) (off : Dword) :
    (s.onBus b off).op = s.op := rfl
@[simp] theorem State.sched_onBus (s : State) (b : RegBlock) (off : Dword) :
    (s.onBus b off).sched = s.sched := rfl
@[simp] theorem HostRec.baseKnown_onBus (s : State) (b c : RegBlock) (off : Dword) :
    (s.onBus b off).host.baseKnown c = s.host.baseKnown c := by
  cases c <;> rfl
@[simp] theorem HostRec.regAddr_onBus (s : State) (b c : RegBlock) (off o : Dword) :
    (s.onBus b off).host.regAddr c o = s.host.regAddr c o := by
  cases c <;> rfl
@[simp] theorem State.onBus_onBus (s : State) (b c : RegBlock) (off o : Dword) :
    (s.onBus b off).onBus c o = s.onBus c o := by
  cases c <;> rfl

/-- Before a register's own effect: the moves, the base, the bus, the decoding. -/
theorem regRead32_ok {b : RegBlock} {off : Dword} {i : Instr} {v : Dword} {s s' t : State}
    (hg : gap s = .ok ((), s')) (hk : s'.host.baseKnown b = true)
    (hd : decodeAccess s'.cfg ⟨b, off, none⟩ = .ok i)
    (hr : readEffect i (s'.onBus b off) = .ok (v, t)) : regRead32 b off s = .ok (v, t) := by
  unfold regRead32
  rw [Act.bind_ok hg]
  have ha : addressAccess b off s' = .ok ((), s'.onBus b off) := by
    unfold addressAccess
    rw [Act.get_bind, hk, Act.bind_ok (require_true _ _)]
    rfl
  rw [Act.bind_ok ha]
  have hs : selectAccess ⟨b, off, none⟩ (s'.onBus b off) = .ok (i, s'.onBus b off) := by
    unfold selectAccess
    rw [Act.get_bind]
    simp only [State.cfg_onBus, hd]
    rfl
  rw [Act.bind_ok hs]
  exact hr

theorem regWrite32_apply {b : RegBlock} {off v : Dword} {i : Instr} {s s' : State}
    (hg : gap s = .ok ((), s')) (hk : s'.host.baseKnown b = true)
    (hd : decodeAccess s'.cfg ⟨b, off, some v⟩ = .ok i) :
    regWrite32 b off v s = writeEffect i (s'.onBus b off) := by
  unfold regWrite32
  rw [Act.bind_ok hg]
  have ha : addressAccess b off s' = .ok ((), s'.onBus b off) := by
    unfold addressAccess
    rw [Act.get_bind, hk, Act.bind_ok (require_true _ _)]
    rfl
  rw [Act.bind_ok ha]
  have hs : selectAccess ⟨b, off, some v⟩ (s'.onBus b off) = .ok (i, s'.onBus b off) := by
    unfold selectAccess
    rw [Act.get_bind]
    simp only [State.cfg_onBus, hd]
    rfl
  rw [Act.bind_ok hs]

theorem regRead32_apply {b : RegBlock} {off : Dword} {i : Instr} {s s' : State}
    (hg : gap s = .ok ((), s')) (hk : s'.host.baseKnown b = true)
    (hd : decodeAccess s'.cfg ⟨b, off, none⟩ = .ok i) :
    regRead32 b off s = readEffect i (s'.onBus b off) := by
  unfold regRead32
  rw [Act.bind_ok hg]
  have ha : addressAccess b off s' = .ok ((), s'.onBus b off) := by
    unfold addressAccess
    rw [Act.get_bind, hk, Act.bind_ok (require_true _ _)]
    rfl
  rw [Act.bind_ok ha]
  have hs : selectAccess ⟨b, off, none⟩ (s'.onBus b off) = .ok (i, s'.onBus b off) := by
    unfold selectAccess
    rw [Act.get_bind]
    simp only [State.cfg_onBus, hd]
    rfl
  rw [Act.bind_ok hs]

/-! ### Reads of open bits -/

/-- A dword draw answers, and changes the source of free values only. -/
theorem drawDword_ok (s : State) : ∃ v x, drawDword s = .ok (v, s.withFree x) := by
  unfold drawDword
  cases h : s.free.tape with
  | nil => exact ⟨_, _, rfl⟩
  | cons v r => exact ⟨_, _, rfl⟩

/-- A read with reserved bits answers the fields under the mask. -/
theorem openRead_ok (m f : Dword) (s : State) :
    ∃ v x, openRead m f s = .ok (openBits m f v, s.withFree x) := by
  obtain ⟨v, x, h⟩ := drawDword_ok s
  refine ⟨v, x, ?_⟩
  unfold openRead
  rw [Act.bind_ok h]
  rfl

/-! ### Loads and stores -/

theorem hostLoad32_calm {s : State} (h : s.Calm) {a : Addr} (hr : s.loadRefusal a 4 = none) :
    hostLoad32 a s = .ok (s.mem.read32 a, s.afterTurns 1) := by
  unfold hostLoad32
  have hr' : (s.afterTurns 1).loadRefusal a 4 = none := hr
  rw [Act.bind_ok (gap_calm h), Act.get_bind, Act.bind_ok (refuseIf_eq_ok.2 ⟨hr', rfl⟩)]
  rfl

theorem hostPut32_calm {s : State} (h : s.Calm) {a : Addr} (v : Dword)
    (hr : s.hostRefusal a 4 = none) :
    hostPut32 a v s = .ok ((), (s.afterTurns 1).withMem (s.mem.write32 a v)) := by
  unfold hostPut32
  rw [Act.bind_ok (gap_calm h)]
  exact hostStore32_eq_ok.2 ⟨hr, rfl⟩

end Sys2Proof.Machine
end

