-- ==== Sys2Proof/Laws/Memory.lean ====
section
/-! SUPPORT. What the memory operations can do: a read after a write, what a write leaves alone, and
that every operation keeps the canonical form. No law but the last kind needs the form. -/

namespace Sys2Proof.Machine

/-! ### Reading what was written -/

theorem Memory.read_erase_same (m : Memory) (a : Nat) : (m.erase a).read a = Memory.unlisted := by
  induction m with
  | nil => rfl
  | cons c r ih =>
    unfold Memory.erase at ih ⊢
    by_cases h : c.1 = a
    · simpa [h] using ih
    · simpa [h, Memory.read] using ih

theorem Memory.read_erase_ne (m : Memory) {a b : Nat} (h : b ≠ a) :
    (m.erase a).read b = m.read b := by
  induction m with
  | nil => rfl
  | cons c r ih =>
    unfold Memory.erase at ih ⊢
    by_cases hc : c.1 = a
    · have hb : c.1 ≠ b := fun e => h (e ▸ hc)
      simpa [hc, Memory.read, hb, show a ≠ b from fun e => h e.symm] using ih
    · by_cases hb : c.1 = b
      · simp [Memory.read, hb, h]
      · simpa [hc, Memory.read, hb] using ih

theorem Memory.read_insert_ne (m : Memory) {a b : Nat} (v : Byte) (h : b ≠ a) :
    (m.insert a v).read b = m.read b := by
  induction m with
  | nil => simp [Memory.insert, Memory.read, h.symm]
  | cons c r ih =>
    unfold Memory.insert
    split
    · simp [Memory.read, h.symm]
    · simp [Memory.read, ih]

theorem Memory.read_insert_same (m : Memory) (a : Nat) (v : Byte) (h : ∀ c ∈ m, c.1 ≠ a) :
    (m.insert a v).read a = v := by
  induction m with
  | nil => simp [Memory.insert, Memory.read]
  | cons c r ih =>
    unfold Memory.insert
    split
    · simp [Memory.read]
    · simp [Memory.read, h c, ih fun d hd => h d (by simp [hd])]

theorem Memory.ne_of_mem_erase (m : Memory) (a : Nat) : ∀ c ∈ m.erase a, c.1 ≠ a := by
  intro c hc
  simpa using (List.mem_filter.1 hc).2

/-- A byte reads back as it was written. -/
@[simp] theorem Memory.read_write_same (m : Memory) (a : Nat) (v : Byte) :
    (m.write a v).read a = v := by
  unfold Memory.write
  split
  · rename_i h; rw [Memory.read_erase_same, h]
  · exact Memory.read_insert_same _ _ _ (Memory.ne_of_mem_erase m a)

/-- A write leaves every other byte alone. -/
theorem Memory.read_write_ne (m : Memory) {a b : Nat} (v : Byte) (h : b ≠ a) :
    (m.write a v).read b = m.read b := by
  unfold Memory.write
  split
  · exact Memory.read_erase_ne m h
  · rw [Memory.read_insert_ne _ _ h, Memory.read_erase_ne m h]

theorem Memory.read_write (m : Memory) (a b : Nat) (v : Byte) :
    (m.write a v).read b = if b = a then v else m.read b := by
  split
  · subst b; simp
  · exact Memory.read_write_ne m v ‹_›

/-- Bytes outside a zeroed range stay, bytes inside read as unlisted. -/
theorem Memory.read_zeroBytes (m : Memory) (a n b : Nat) :
    (m.zeroBytes a n).read b = if a ≤ b ∧ b < a + n then Memory.unlisted else m.read b := by
  induction m with
  | nil => simp [Memory.zeroBytes, Memory.read]
  | cons c r ih =>
    unfold Memory.zeroBytes at ih ⊢
    by_cases hc : a ≤ c.1 ∧ c.1 < a + n
    · rw [List.filter_cons_of_neg (by simpa using hc), ih]
      by_cases hb : c.1 = b
      · subst hb; simp [hc]
      · simp [Memory.read, hb]
    · rw [List.filter_cons_of_pos (p := fun c : Host.Cell => decide ¬(a ≤ c.1 ∧ c.1 < a + n))
        (decide_eq_true hc)]
      by_cases hb : c.1 = b
      · subst hb; simp only [Memory.read, if_true, if_neg hc]
      · simp only [Memory.read, if_neg hb]; exact ih

/-! ### Addresses -/

theorem byteAddr_lt (a : Addr) (k : Nat) : byteAddr a k < 2 ^ 64 := BitVec.isLt _

/-- The four bytes of a dword stand at four addresses. -/
theorem byteAddr_ne (a : Addr) {j k : Nat} (hj : j < 16) (hk : k < 16) (h : j ≠ k) :
    byteAddr a j ≠ byteAddr a k := by
  intro e
  unfold byteAddr at e
  have e' := BitVec.eq_of_toNat_eq e
  have e2 : BitVec.ofNat 64 j = BitVec.ofNat 64 k := by
    have := congrArg (fun x => x - a) e'
    simpa [BitVec.add_comm a, BitVec.add_sub_cancel] using this
  have := congrArg BitVec.toNat e2
  simp only [BitVec.toNat_ofNat] at this
  omega

theorem byteAddr_add (a : Addr) (j k : Nat) :
    byteAddr (a + BitVec.ofNat 64 j) k = byteAddr a (j + k) := by
  unfold byteAddr
  rw [BitVec.add_assoc, ← BitVec.ofNat_add]

/-! ### Blocks -/

theorem byteAddr_zero (a : Addr) : byteAddr a 0 = a.toNat := by simp [byteAddr]

/-- The bytes of a block stand at as many addresses. -/
theorem byteAddr_inj (a : Addr) {j k : Nat} (hj : j < 2 ^ 64) (hk : k < 2 ^ 64)
    (h : byteAddr a j = byteAddr a k) : j = k := by
  unfold byteAddr at h
  have h' := congrArg (fun x => x - a) (BitVec.eq_of_toNat_eq h)
  have e : BitVec.ofNat 64 j = BitVec.ofNat 64 k := by
    simpa [BitVec.add_comm a, BitVec.add_sub_cancel] using h'
  have := congrArg BitVec.toNat e
  simp only [BitVec.toNat_ofNat] at this
  omega

theorem byteAddr_succ (a : Addr) (k : Nat) : byteAddr (a + 1) k = byteAddr a (k + 1) := by
  have := byteAddr_add a 1 k
  rw [Nat.add_comm 1 k] at this
  exact this

/-- A block of writes leaves every byte outside the block alone. -/
theorem Memory.read_writeBytes_ne (bs : List Byte) (m : Memory) (a : Addr) (b : Nat)
    (h : ∀ k < bs.length, b ≠ byteAddr a k) : (m.writeBytes a bs).read b = m.read b := by
  induction bs generalizing m a with
  | nil => rfl
  | cons v r ih =>
    simp only [List.length_cons] at h
    unfold Memory.writeBytes
    rw [ih (m.write a.toNat v) (a + 1) fun k hk => by rw [byteAddr_succ]; exact h (k + 1) (by omega),
      Memory.read_write_ne _ _ (by rw [← byteAddr_zero a]; exact h 0 (by omega))]

/-- A byte of a block reads back as it was written. -/
theorem Memory.read_writeBytes_same (bs : List Byte) (m : Memory) (a : Addr) (k : Nat)
    (h : k < bs.length) (hl : bs.length ≤ 2 ^ 64) :
    (m.writeBytes a bs).read (byteAddr a k) = bs[k] := by
  induction bs generalizing m a k with
  | nil => simp at h
  | cons v r ih =>
    simp only [List.length_cons] at hl
    unfold Memory.writeBytes
    cases k with
    | zero =>
      rw [Memory.read_writeBytes_ne, byteAddr_zero]
      · simp
      · intro j hj e
        rw [byteAddr_succ] at e
        have := byteAddr_inj a (by omega) (by omega) e
        omega
    | succ k =>
      have hk : k < r.length := by simpa using h
      have := ih (m.write a.toNat v) (a + 1) k hk (by omega)
      rw [byteAddr_succ] at this
      rw [this]
      rfl

@[simp] theorem Memory.length_readBytes (m : Memory) (a : Addr) (n : Nat) :
    (m.readBytes a n).length = n := by
  induction n generalizing a with
  | zero => rfl
  | succ n ih => simp [Memory.readBytes, ih]

/-- A block's bytes are those at its addresses. -/
theorem Memory.getElem?_readBytes (m : Memory) (a : Addr) {n k : Nat} (h : k < n) :
    (m.readBytes a n)[k]? = some (m.read (byteAddr a k)) := by
  induction n generalizing a k with
  | zero => omega
  | succ n ih =>
    cases k with
    | zero => simp [Memory.readBytes, byteAddr_zero]
    | succ k =>
      have := ih (a + 1) (k := k) (by omega)
      rw [byteAddr_succ] at this
      exact this

/-! ### TRBs -/

/-- A dword reads back as it was written. -/
@[simp] theorem Memory.read32_write32_same (m : Memory) (a : Addr) (v : Dword) :
    (m.write32 a v).read32 a = v := by
  have h : ∀ j k : Nat, j < 4 → k < 4 → (byteAddr a j = byteAddr a k ↔ j = k) := by
    intro j k hj hk
    constructor
    · intro e
      by_contra hne
      exact byteAddr_ne a (by omega) (by omega) hne e
    · rintro rfl; rfl
  unfold Memory.read32 Memory.write32
  simp only [Memory.read_write, h 0 1 (by omega) (by omega), h 0 2 (by omega) (by omega),
    h 0 3 (by omega) (by omega), h 1 2 (by omega) (by omega), h 1 3 (by omega) (by omega),
    h 2 3 (by omega) (by omega)]
  apply BitVec.eq_of_getLsbD_eq
  intro i hi
  simp only [BitVec.getLsbD_append]
  rcases Nat.lt_or_ge i 8 with h1 | h1
  · simp [h1]
  · rcases Nat.lt_or_ge i 16 with h2 | h2
    · simp [show ¬ i < 8 by omega, show i - 8 < 8 by omega, show 8 + (i - 8) = i by omega]
    · rcases Nat.lt_or_ge i 24 with h3 | h3
      · simp [show ¬ i < 8 by omega, show ¬ i - 8 < 8 by omega, show i - 8 - 8 < 8 by omega,
          show 16 + (i - 8 - 8) = i by omega]
      · simp [show ¬ i < 8 by omega, show ¬ i - 8 < 8 by omega, show ¬ i - 8 - 8 < 8 by omega,
          show i - 8 - 8 - 8 < 8 by omega, show 24 + (i - 8 - 8 - 8) = i by omega]

/-- A dword write leaves every byte outside its four alone. -/
theorem Memory.read_write32_ne (m : Memory) (a : Addr) (v : Dword) (b : Nat)
    (h : ∀ k < 4, b ≠ byteAddr a k) : (m.write32 a v).read b = m.read b := by
  simp [Memory.write32, Memory.read_write, h 0, h 1, h 2, h 3]

/-- A dword write leaves a dword of four other bytes alone. -/
theorem Memory.read32_write32_ne (m : Memory) (a b : Addr) (v : Dword)
    (h : ∀ j < 4, ∀ k < 4, byteAddr b j ≠ byteAddr a k) :
    (m.write32 a v).read32 b = m.read32 b := by
  unfold Memory.read32
  rw [Memory.read_write32_ne _ _ _ _ (h 3 (by omega)),
    Memory.read_write32_ne _ _ _ _ (h 2 (by omega)),
    Memory.read_write32_ne _ _ _ _ (h 1 (by omega)),
    Memory.read_write32_ne _ _ _ _ (h 0 (by omega))]

theorem Memory.read32_write32_off (m : Memory) (a : Addr) (i j : Nat) (v : Dword)
    (hi : i + 4 ≤ 16) (hj : j + 4 ≤ 16) (h : i + 4 ≤ j ∨ j + 4 ≤ i) :
    (m.write32 (a + BitVec.ofNat 64 j) v).read32 (a + BitVec.ofNat 64 i) =
      m.read32 (a + BitVec.ofNat 64 i) := by
  apply Memory.read32_write32_ne
  intro x hx y hy
  rw [byteAddr_add, byteAddr_add]
  exact byteAddr_ne a (by omega) (by omega) (by omega)

theorem hi32_append_lo32 (q : Qword) : hi32 q ++ lo32 q = q := by
  apply BitVec.eq_of_getLsbD_eq
  intro i hi
  simp only [hi32, lo32, BitVec.getLsbD_append, BitVec.getLsbD_extractLsb']
  by_cases h : i < 32
  · simp [h]
  · simp [h, show i - 32 < 32 by omega, show 32 + (i - 32) = i by omega]

/-- A TRB reads back as it was written. -/
@[simp] theorem Memory.readTrb_writeTrb_same (m : Memory) (a : Addr) (t : Trb) :
    (m.writeTrb a t).readTrb a = t := by
  have h0 : a + BitVec.ofNat 64 0 = a := by simp
  have off := fun (m : Memory) (i j : Nat) (v : Dword) hi hj h =>
    Memory.read32_write32_off m a i j v hi hj h
  have e4 : (4 : Addr) = BitVec.ofNat 64 4 := rfl
  have e8 : (8 : Addr) = BitVec.ofNat 64 8 := rfl
  have e12 : (12 : Addr) = BitVec.ofNat 64 12 := rfl
  cases t with
  | mk p s c =>
    have r12 : (m.writeTrb a ⟨p, s, c⟩).read32 (a + 12) = c := by simp [Memory.writeTrb]
    have r8 : (m.writeTrb a ⟨p, s, c⟩).read32 (a + 8) = s := by
      simp only [Memory.writeTrb]
      rw [e12, e8, off _ 8 12 _ (by omega) (by omega) (by omega)]
      simp
    have r4 : (m.writeTrb a ⟨p, s, c⟩).read32 (a + 4) = hi32 p := by
      simp only [Memory.writeTrb, Memory.write64]
      rw [e12, e8, e4, off _ 4 12 _ (by omega) (by omega) (by omega),
        off _ 4 8 _ (by omega) (by omega) (by omega)]
      simp
    have r0 : (m.writeTrb a ⟨p, s, c⟩).read32 a = lo32 p := by
      have o0 := fun (m : Memory) (j : Nat) (v : Dword) hj h =>
        (by simpa only [h0] using off m 0 j v (by omega) hj h :
          (m.write32 (a + BitVec.ofNat 64 j) v).read32 a = m.read32 a)
      simp only [Memory.writeTrb, Memory.write64]
      rw [e12, e8, e4, o0 _ 12 _ (by omega) (by omega), o0 _ 8 _ (by omega) (by omega),
        o0 _ 4 _ (by omega) (by omega)]
      simp
    unfold Memory.readTrb Memory.read64
    rw [r0, r4, r8, r12, hi32_append_lo32]

/-- A TRB write leaves every byte outside its sixteen alone. -/
theorem Memory.read_writeTrb_ne (m : Memory) (a : Addr) (t : Trb) (b : Nat)
    (h : ∀ k < 16, b ≠ byteAddr a k) : (m.writeTrb a t).read b = m.read b := by
  have e4 : (4 : Addr) = BitVec.ofNat 64 4 := rfl
  have e8 : (8 : Addr) = BitVec.ofNat 64 8 := rfl
  have e12 : (12 : Addr) = BitVec.ofNat 64 12 := rfl
  simp only [Memory.writeTrb, Memory.write64, e4, e8, e12]
  rw [Memory.read_write32_ne, Memory.read_write32_ne, Memory.read_write32_ne,
    Memory.read_write32_ne]
  · exact fun k hk => h k (by omega)
  · intro k hk; rw [byteAddr_add]; exact h _ (by omega)
  · intro k hk; rw [byteAddr_add]; exact h _ (by omega)
  · intro k hk; rw [byteAddr_add]; exact h _ (by omega)

/-! ### Dwords changed in order -/

/-- Dwords changed in order leave every byte outside them alone. -/
theorem Memory.read_updated_ne (l : List (Nat × (Dword → Dword))) (m : Memory) (a : Addr) (b : Nat)
    (h : ∀ u ∈ l, ∀ k < 4, b ≠ byteAddr a (u.1 + k)) : (m.updated a l).read b = m.read b := by
  induction l generalizing m with
  | nil => rfl
  | cons u r ih =>
    unfold Memory.updated
    rw [ih _ fun v hv => h v (by simp [hv]), Memory.read_write32_ne]
    intro k hk
    rw [byteAddr_add]
    exact h u (by simp) k hk

/-- A dword none of the changed ones overlaps is as before. -/
theorem Memory.read32_updated_ne (l : List (Nat × (Dword → Dword))) (m : Memory) (a : Addr) (i : Nat)
    (h : ∀ u ∈ l, ∀ j < 4, ∀ k < 4, byteAddr a (i + j) ≠ byteAddr a (u.1 + k)) :
    (m.updated a l).read32 (a + BitVec.ofNat 64 i) = m.read32 (a + BitVec.ofNat 64 i) := by
  unfold Memory.read32
  simp only [byteAddr_add]
  rw [Memory.read_updated_ne l m a _ fun u hu k hk => h u hu 3 (by omega) k hk,
    Memory.read_updated_ne l m a _ fun u hu k hk => h u hu 2 (by omega) k hk,
    Memory.read_updated_ne l m a _ fun u hu k hk => h u hu 1 (by omega) k hk,
    Memory.read_updated_ne l m a _ fun u hu k hk => h u hu 0 (by omega) k hk]

/-- The first of the changed dwords, where no later one overlaps it. -/
theorem Memory.read32_updated_cons (m : Memory) (a : Addr) (u : Nat × (Dword → Dword))
    (r : List (Nat × (Dword → Dword)))
    (h : ∀ v ∈ r, ∀ j < 4, ∀ k < 4, byteAddr a (u.1 + j) ≠ byteAddr a (v.1 + k)) :
    (m.updated a (u :: r)).read32 (a + BitVec.ofNat 64 u.1) =
      u.2 (m.read32 (a + BitVec.ofNat 64 u.1)) := by
  unfold Memory.updated
  rw [Memory.read32_updated_ne r _ a u.1 h, Memory.read32_write32_same]

/-! ### The canonical form is kept -/

theorem Memory.wf_filter {m : Memory} (h : m.wf) (f : Host.Cell → Bool) :
    Memory.wf (m.filter f) :=
  ⟨h.1.filter f, fun c hc => h.2 c (List.mem_filter.1 hc).1⟩

theorem Memory.mem_insert {m : Memory} {a : Nat} {v : Byte} {c : Host.Cell}
    (h : c ∈ m.insert a v) : c = (a, v) ∨ c ∈ m := by
  induction m with
  | nil => simpa [Memory.insert] using h
  | cons d r ih =>
    unfold Memory.insert at h
    split at h
    · simpa using h
    · rcases List.mem_cons.1 h with h | h
      · simp [h]
      · rcases ih h with h | h <;> simp [h]

theorem Memory.wf_insert {m : Memory} (h : m.wf) {a : Nat} {v : Byte} (hm : ∀ c ∈ m, c.1 ≠ a)
    (ha : a < 2 ^ 64) (hv : v ≠ Memory.unlisted) : Memory.wf (m.insert a v) := by
  refine ⟨?_, ?_⟩
  · obtain ⟨hp, -⟩ := h
    induction m with
    | nil => simp [Memory.insert]
    | cons d r ih =>
      unfold Memory.insert
      obtain ⟨hd, hr⟩ := List.pairwise_cons.1 hp
      split
      · rename_i hlt
        refine List.pairwise_cons.2 ⟨fun c hc => ?_, hp⟩
        rcases List.mem_cons.1 hc with rfl | hc
        · exact hlt
        · exact Nat.lt_trans hlt (hd c hc)
      · rename_i hlt
        refine List.pairwise_cons.2
          ⟨fun c hc => ?_, ih (fun c hc => hm c (by simp [hc])) hr⟩
        rcases Memory.mem_insert hc with rfl | hc
        · have := hm d (by simp); show d.1 < a; omega
        · exact hd c hc
  · intro c hc
    rcases Memory.mem_insert hc with rfl | hc
    · exact ⟨ha, hv⟩
    · exact h.2 c hc

theorem Memory.wf_write {m : Memory} (h : m.wf) {a : Nat} (ha : a < 2 ^ 64) (v : Byte) :
    Memory.wf (m.write a v) := by
  unfold Memory.write
  split
  · exact Memory.wf_filter h _
  · exact Memory.wf_insert (Memory.wf_filter h _) (Memory.ne_of_mem_erase m a) ha ‹_›

theorem Memory.wf_writeBytes {m : Memory} (h : m.wf) (bs : List Byte) (a : Addr) :
    Memory.wf (m.writeBytes a bs) := by
  induction bs generalizing m a with
  | nil => exact h
  | cons b r ih => exact ih (Memory.wf_write h a.isLt b) (a + 1)

theorem Memory.wf_zeroBytes {m : Memory} (h : m.wf) (a n : Nat) :
    Memory.wf (m.zeroBytes a n) := Memory.wf_filter h _

theorem Memory.wf_write32 {m : Memory} (h : m.wf) (a : Addr) (v : Dword) :
    Memory.wf (m.write32 a v) :=
  Memory.wf_write (Memory.wf_write (Memory.wf_write (Memory.wf_write h (byteAddr_lt a 0) _)
    (byteAddr_lt a 1) _) (byteAddr_lt a 2) _) (byteAddr_lt a 3) _

theorem Memory.wf_write64 {m : Memory} (h : m.wf) (a : Addr) (v : Qword) :
    Memory.wf (m.write64 a v) := Memory.wf_write32 (Memory.wf_write32 h _ _) _ _

theorem Memory.wf_writeTrb {m : Memory} (h : m.wf) (a : Addr) (t : Trb) :
    Memory.wf (m.writeTrb a t) :=
  Memory.wf_write32 (Memory.wf_write32 (Memory.wf_write64 h _ _) _ _) _ _

theorem Memory.wf_updated {m : Memory} (h : m.wf) (a : Addr) (l : List (Nat × (Dword → Dword))) :
    Memory.wf (m.updated a l) := by
  induction l generalizing m with
  | nil => exact h
  | cons u r ih => exact ih (Memory.wf_write32 h _ _)

theorem State.reset_mem_wf : State.reset.mem.wf := ⟨List.Pairwise.nil, by simp [State.reset]⟩

end Sys2Proof.Machine
end

