-- ==== Sys2Proof/Laws/Tab.lean ====
section
/-! SUPPORT. Tables indexed by 8 bits: what a replaced, mapped or constant table holds. -/

namespace Sys2Proof.Machine

variable {α : Type}

@[simp] theorem Tab.get_put_same (t : Tab α) (i : BitVec 8) (v : α) : (t.put i v).get i = v := by
  simp [Tab.get, Tab.put]

theorem Tab.get_put_ne (t : Tab α) {i j : BitVec 8} (v : α) (h : j ≠ i) :
    (t.put i v).get j = t.get j := by
  have h' : i.toNat ≠ j.toNat := fun e => h (BitVec.eq_of_toNat_eq e.symm)
  simp [Tab.get, Tab.put, Vector.getElem_set_ne, h']

theorem Tab.get_put (t : Tab α) (i j : BitVec 8) (v : α) :
    (t.put i v).get j = if j = i then v else t.get j := by
  split
  · subst j; simp
  · exact Tab.get_put_ne t v ‹_›

@[simp] theorem Tab.get_each (t : Tab α) (f : α → α) (i : BitVec 8) :
    (t.each f).get i = f (t.get i) := by
  simp [Tab.get, Tab.each]

@[simp] theorem Tab.get_replicate (v : α) (i : BitVec 8) :
    Tab.get (Vector.replicate 256 v) i = v := by
  simp [Tab.get]

theorem Tab.ext {t u : Tab α} (h : ∀ i : BitVec 8, t.get i = u.get i) : t = u := by
  apply Vector.ext
  intro k hk
  simpa [Tab.get, Nat.mod_eq_of_lt hk] using h (BitVec.ofNat 8 k)

end Sys2Proof.Machine
end

