-- ==== Sys2Proof/Laws/Ownership.lean ====
section
/-! SUPPORT. Which structures the host writes and which the controller writes, and what of the state
decides it. -/

namespace Sys2Proof.Machine

open Config

/-! ### The blocks named by the controller's registers -/

theorem mem_toList_tab {α : Type} {t : Tab α} {x : α} : x ∈ Vector.toList t ↔ ∃ i, t.get i = x := by
  simp only [List.mem_iff_getElem, Vector.length_toList, Vector.getElem_toList]
  constructor
  · rintro ⟨j, hj, rfl⟩
    refine ⟨BitVec.ofNat 8 j, ?_⟩
    simp only [Tab.get, BitVec.toNat_ofNat, Nat.mod_eq_of_lt hj]
  · rintro ⟨i, rfl⟩
    exact ⟨i.toNat, i.isLt, rfl⟩

theorem mem_namedRings {t : Tab (Option XferRing)} {b : Block} :
    b ∈ namedRings (Vector.toList t) ↔
      ∃ i r, t.get i = some r ∧ b = ⟨r.base, 4096, .ep0Ring⟩ := by
  simp only [namedRings, List.mem_filterMap, mem_toList_tab, Option.map_eq_some_iff]
  constructor
  · rintro ⟨_, ⟨i, rfl⟩, r, hr, rfl⟩
    exact ⟨i, r, hr, rfl⟩
  · rintro ⟨i, r, hr, rfl⟩
    exact ⟨_, ⟨i, rfl⟩, r, hr, rfl⟩

theorem mem_namedContexts {t : Tab Slot} {n : Nat} {b : Block} :
    b ∈ namedContexts n (Vector.toList t) ↔
      ∃ i, (t.get i).state = .addressed ∧ b = ⟨(t.get i).ctx, n, .devCtx⟩ := by
  simp only [namedContexts, List.mem_filterMap, mem_toList_tab]
  constructor
  · rintro ⟨_, ⟨i, rfl⟩, h⟩
    split at h
    · exact ⟨i, ‹_›, by simpa using h.symm⟩
    · cases h
  · rintro ⟨i, h, rfl⟩
    exact ⟨_, ⟨i, rfl⟩, by rw [if_pos h]⟩

/-- The structures the host writes. -/
theorem State.mem_hostBlocks {s : State} {b : Block} :
    b ∈ s.hostBlocks ↔
      (b ∈ s.plat.live ∧ b.kind.isHost = true) ∨
      (s.cr.loaded = true ∧ b = ⟨s.cr.ringBase, 4096, .cmdRing⟩) ∨
      (s.op.dcbaap ≠ 0 ∧ b = ⟨s.op.dcbaap, 8 * (s.cfg.maxSlots.toNat + 1), .dcbaa⟩) ∨
      (s.er.size ≠ 0 ∧ b = ⟨s.intr.erstba, 16, .erst⟩) ∨
      ∃ i r, s.tr.get i = some r ∧ b = ⟨r.base, 4096, .ep0Ring⟩ := by
  have e1 : ∀ {c : Prop} [Decidable c] {x : Block}, b ∈ (if c then [x] else []) ↔ c ∧ b = x := by
    intro c _ x
    split <;> simp_all
  have e2 : ∀ {c : Prop} [Decidable c] {x : Block}, b ∈ (if c then [] else [x]) ↔ ¬c ∧ b = x := by
    intro c _ x
    split <;> simp_all
  simp only [State.hostBlocks, State.namedTables, List.mem_append, List.mem_filter, e1, e2,
    mem_namedRings, or_assoc, ne_eq]
  rfl

/-- The structures the controller writes. -/
theorem State.mem_ctlBlocks {s : State} {b : Block} :
    b ∈ s.ctlBlocks ↔
      (b ∈ s.plat.live ∧ b.kind.isController = true) ∨
      (s.er.size ≠ 0 ∧ b = ⟨s.er.base, 16 * s.er.size, .evtRing⟩) ∨
      ∃ i, s.isAddressed i = true ∧ b = ⟨(s.slots.get i).ctx, s.cfg.devCtxBytes, .devCtx⟩ := by
  have e2 : ∀ {c : Prop} [Decidable c] {x : Block}, b ∈ (if c then [] else [x]) ↔ ¬c ∧ b = x := by
    intro c _ x
    split <;> simp_all
  simp only [State.ctlBlocks, List.mem_append, List.mem_filter, e2, mem_namedContexts, or_assoc,
    ne_eq, State.isAddressed, beq_iff_eq]
  rfl

/-! ### When a store is allowed -/

theorem any_meets_eq_false {l : List Block} {a : Addr} {n : Nat} :
    l.any (·.meets a n) = false ↔ ∀ b ∈ l, ¬ b.Overlaps a n := by
  simp only [List.any_eq_false, Block.meets_iff]

theorem Ledger.reads_eq_false {l : Ledger} {a : Addr} {n : Nat} :
    l.reads a n = false ↔ ∀ h ∈ l.handed, ∀ r ∈ h.held, r.isIn = false → ¬ r.Overlaps a n := by
  simp only [Ledger.reads, List.any_eq_false, List.any_eq_true, Bool.and_eq_true,
    Bool.not_eq_true', Region.meets_iff, not_exists, not_and]

theorem Ledger.entries_eq_false {l : Ledger} {a : Addr} {n : Nat} :
    l.entries a n = false ↔ ∀ e ∈ l.installed, ¬ (⟨e.addr, 8, false⟩ : Region).Overlaps a n := by
  simp only [Ledger.entries, List.any_eq_false, Region.meets_iff]
  rfl

/-- The controller may store where nothing freed, no structure of the host's, nothing handed over to
be read and no DCBAA entry lies. -/
theorem State.ctlRefusal_eq_none {s : State} {a : Addr} {n : Nat} :
    s.ctlRefusal a n = none ↔
      (∀ b ∈ s.plat.freed, ¬ b.Overlaps a n) ∧ (∀ b ∈ s.hostBlocks, ¬ b.Overlaps a n) ∧
      (∀ h ∈ s.ledger.handed, ∀ r ∈ h.held, r.isIn = false → ¬ r.Overlaps a n) ∧
      ∀ e ∈ s.ledger.installed, ¬ (⟨e.addr, 8, false⟩ : Region).Overlaps a n := by
  unfold State.ctlRefusal
  rw [← any_meets_eq_false, ← any_meets_eq_false, ← Ledger.reads_eq_false,
    ← Ledger.entries_eq_false]
  cases s.plat.freed.any (·.meets a n) <;> cases s.hostBlocks.any (·.meets a n) <;>
    cases s.ledger.reads a n <;> cases s.ledger.entries a n <;> simp

/-- What the host has lent: memory the controller holds, or a living slot's entry. -/
theorem State.not_lent {s : State} {a : Addr} {n : Nat} :
    (s.ledger.holds a n || s.entryHeld a n) = false ↔ ¬ s.Lent a n := by
  simp only [Ledger.holds, State.entryHeld, State.Lent, Bool.or_eq_false_iff, List.any_eq_false,
    List.any_eq_true, Bool.and_eq_true, bne_iff_ne, Region.meets_iff, not_or, not_exists, not_and]
  rfl

/-- The host may store where nothing freed, no structure of the controller's and nothing lent lies.
-/
theorem State.hostRefusal_eq_none {s : State} {a : Addr} {n : Nat} :
    s.hostRefusal a n = none ↔
      (∀ b ∈ s.plat.freed, ¬ b.Overlaps a n) ∧ (∀ b ∈ s.ctlBlocks, ¬ b.Overlaps a n) ∧
      ¬ s.Lent a n := by
  unfold State.hostRefusal
  rw [← any_meets_eq_false, ← any_meets_eq_false, ← State.not_lent]
  cases s.plat.freed.any (·.meets a n) <;> cases s.ctlBlocks.any (·.meets a n) <;>
    cases s.ledger.holds a n || s.entryHeld a n <;> simp

/-- Memory may be zeroed for an allocation where nothing lent lies, and no structure of the
controller's but one in memory that was freed. -/
theorem State.allocRefusal_eq_none {s : State} {a : Addr} {n : Nat} :
    s.allocRefusal a n = none ↔ ¬ s.Lent a n ∧
      ∀ b ∈ s.ctlBlocks, (∀ f ∈ s.plat.freed, ¬ f.Overlaps b.base b.size) → ¬ b.Overlaps a n := by
  have e : (s.ctlBlocks.any fun b => b.meets a n && !s.plat.freed.any (·.meets b.base b.size)) =
      false ↔ ∀ b ∈ s.ctlBlocks,
        (∀ f ∈ s.plat.freed, ¬ f.Overlaps b.base b.size) → ¬ b.Overlaps a n := by
    simp only [List.any_eq_false, Bool.and_eq_true, Bool.not_eq_true', Block.meets_iff,
      not_and]
    exact ⟨fun h b hb hf hm => h b hb hm hf, fun h b hb hm hf => h b hb hf hm⟩
  unfold State.allocRefusal
  rw [← State.not_lent, ← e]
  cases s.ledger.holds a n || s.entryHeld a n <;>
    cases s.ctlBlocks.any fun b => b.meets a n && !s.plat.freed.any (·.meets b.base b.size) <;> simp

/-- No structure the controller may be reading lies there, but for one of the kind being written. -/
theorem State.isInUse_eq_false {s : State} {own : BlockKind} {a : Addr} {n : Nat} :
    s.isInUse own a n = false ↔
      ∀ b ∈ s.hostBlocks, b.kind ≠ .inCtx → b.kind ≠ own → ¬ b.Overlaps a n := by
  simp only [State.isInUse, List.any_eq_false, Bool.and_eq_true, bne_iff_ne, ne_eq,
    Block.meets_iff, not_and, and_imp]

/-- What the controller may store depends on the freed blocks, on the host's structures, on what is
handed over and on the entries installed. -/
theorem State.ctlRefusal_congr {s t : State} (hf : t.plat.freed = s.plat.freed)
    (hb : t.hostBlocks = s.hostBlocks) (hh : t.ledger.handed = s.ledger.handed)
    (hi : t.ledger.installed = s.ledger.installed) (a : Addr) (n : Nat) :
    t.ctlRefusal a n = s.ctlRefusal a n := by
  unfold State.ctlRefusal Ledger.reads Ledger.entries
  rw [hf, hb, hh, hi]

/-! ### What leaves the host's structures as they are -/

variable (s : State)

@[simp] theorem State.hostBlocks_withMem (x : Memory) :
    (s.withMem x).hostBlocks = s.hostBlocks := rfl
@[simp] theorem State.hostBlocks_withEnv (x : EnvIn) :
    (s.withEnv x).hostBlocks = s.hostBlocks := rfl
@[simp] theorem State.hostBlocks_withFree (x : FreeSrc) :
    (s.withFree x).hostBlocks = s.hostBlocks := rfl
@[simp] theorem State.hostBlocks_withSlot (i : SlotId) (x : Slot) :
    (s.withSlot i x).hostBlocks = s.hostBlocks := rfl
@[simp] theorem State.hostBlocks_cmdPassed : s.cmdPassed.hostBlocks = s.hostBlocks := rfl

/-- A transfer engine that moves on its ring names the same ring. -/
theorem State.hostBlocks_withXfer {s : State} {i : SlotId} {r q : XferRing}
    (h : s.tr.get i = some r) (hb : q.base = r.base) :
    (s.withXfer i (some q)).hostBlocks = s.hostBlocks := by
  have e : namedRings (Vector.toList (s.tr.put i (some q))) = namedRings (Vector.toList s.tr) := by
    have m : ∀ l : List (Option XferRing), ∀ k, l[k]? = some (some r) →
        namedRings (l.set k (some q)) = namedRings l := by
      intro l
      induction l with
      | nil => intro k h; cases h
      | cons x l ih =>
        intro k hk
        cases k with
        | zero =>
          cases hk
          simp [namedRings, hb]
        | succ k =>
          have := ih k hk
          unfold namedRings at this ⊢
          rw [List.set_cons_succ, List.filterMap_cons, List.filterMap_cons, this]
    have hget : (Vector.toList s.tr)[i.toNat]? = some (some r) := by
      rw [List.getElem?_eq_getElem (by simpa using i.isLt), Vector.getElem_toList]
      exact congrArg some h
    rw [show Vector.toList (s.tr.put i (some q)) = (Vector.toList s.tr).set i.toNat (some q) by
      unfold Tab.put
      rw [Vector.toList_set]]
    exact m _ _ hget
  show s.plat.live.filter (·.kind.isHost) ++ s.namedTables ++
    namedRings (Vector.toList (s.tr.put i (some q))) = _
  rw [e]
  rfl

/-- A transfer consumed leaves the host's structures as they are. -/
theorem State.hostBlocks_xferPassed {s : State} {i : SlotId} {r : XferRing}
    (h : s.tr.get i = some r) (n : Nat) : (s.xferPassed i r n).hostBlocks = s.hostBlocks :=
  (State.hostBlocks_withXfer (s := s.noteConsumed i r n) (q := r.advanced n) h rfl).trans rfl

end Sys2Proof.Machine
end

