-- ==== Sys2Proof/Laws/Slots.lean ====
section
/-! SUPPORT. The sets Enable Slot and Address Device choose from. -/

namespace Sys2Proof.Machine

/-- The ids Enable Slot may hand out: enabled by CONFIG, and disabled now. -/
theorem State.mem_freeSlotIds {s : State} {i : SlotId} :
    i ∈ s.freeSlotIds ↔
      1 ≤ i.toNat ∧ i.toNat ≤ s.op.maxSlotsEn.toNat ∧ (s.slots.get i).state = .disabled := by
  simp only [State.freeSlotIds, List.mem_filter, List.mem_map, List.mem_range, beq_iff_eq]
  constructor
  · rintro ⟨⟨k, hk, rfl⟩, h⟩
    have := s.op.maxSlotsEn.isLt
    refine ⟨?_, ?_, h⟩ <;> rw [BitVec.toNat_ofNat, Nat.mod_eq_of_lt (by omega)] <;> omega
  · rintro ⟨h1, h2, h⟩
    refine ⟨⟨i.toNat - 1, by omega, ?_⟩, h⟩
    apply BitVec.eq_of_toNat_eq
    rw [BitVec.toNat_ofNat, Nat.sub_add_cancel h1, Nat.mod_eq_of_lt i.isLt]

/-- The addresses held by the addressed slots of a list, its first slot at index `k`. -/
theorem mem_heldAddresses {n : SlotId} {a : BitVec 7} (l : List Slot) (k : Nat) :
    a ∈ heldAddresses n k l ↔
      ∃ (j : Nat) (hj : j < l.length),
        k + j ≠ n.toNat ∧ l[j].state = .addressed ∧ l[j].addr = a := by
  induction l generalizing k with
  | nil => simp [heldAddresses]
  | cons x r ih =>
    have tail : (∃ (j : Nat) (hj : j < r.length),
        (k + 1) + j ≠ n.toNat ∧ r[j].state = .addressed ∧ r[j].addr = a) ↔
        ∃ (j : Nat) (hj : j + 1 < (x :: r).length),
          k + (j + 1) ≠ n.toNat ∧ (x :: r)[j + 1].state = .addressed ∧
            (x :: r)[j + 1].addr = a := by
      simp [Nat.add_assoc, Nat.add_comm 1]
    have split : (∃ (j : Nat) (hj : j < (x :: r).length),
        k + j ≠ n.toNat ∧ (x :: r)[j].state = .addressed ∧ (x :: r)[j].addr = a) ↔
        (k ≠ n.toNat ∧ x.state = .addressed ∧ x.addr = a) ∨
        ∃ (j : Nat) (hj : j + 1 < (x :: r).length),
          k + (j + 1) ≠ n.toNat ∧ (x :: r)[j + 1].state = .addressed ∧
            (x :: r)[j + 1].addr = a := by
      constructor
      · rintro ⟨j, hj, h⟩
        cases j with
        | zero => exact .inl h
        | succ j => exact .inr ⟨j, hj, h⟩
      · rintro (h | ⟨j, hj, h⟩)
        · exact ⟨0, by simp, h⟩
        · exact ⟨j + 1, hj, h⟩
    rw [split, ← tail, ← ih]
    have e : heldAddresses n k (x :: r) = if k ≠ n.toNat ∧ x.state = .addressed
        then x.addr :: heldAddresses n (k + 1) r else heldAddresses n (k + 1) r := rfl
    rw [e]
    by_cases hc : k ≠ n.toNat ∧ x.state = .addressed
    · rw [if_pos hc, List.mem_cons]
      constructor
      · rintro (h | h)
        · exact .inl ⟨hc.1, hc.2, h.symm⟩
        · exact .inr h
      · rintro (h | h)
        · exact .inl h.2.2.symm
        · exact .inr h
    · rw [if_neg hc]
      exact ⟨.inr, fun h => h.resolve_left fun e => hc ⟨e.1, e.2.1⟩⟩

/-- The addresses Address Device may assign to slot `n`: not 0, and held by no other slot. -/
theorem State.mem_freeAddresses {s : State} {n : SlotId} {a : BitVec 7} :
    a ∈ s.freeAddresses n ↔
      a ≠ 0 ∧ ∀ i, i ≠ n → s.isAddressed i = true → (s.slots.get i).addr ≠ a := by
  have held : a ∈ heldAddresses n 0 (Vector.toList s.slots) ↔
      ∃ i, i ≠ n ∧ s.isAddressed i = true ∧ (s.slots.get i).addr = a := by
    rw [mem_heldAddresses]
    simp only [Nat.zero_add, Vector.getElem_toList, Vector.length_toList, State.isAddressed,
      beq_iff_eq]
    constructor
    · rintro ⟨j, hj, h1, h2⟩
      have e : (BitVec.ofNat 8 j).toNat = j := by
        rw [BitVec.toNat_ofNat, Nat.mod_eq_of_lt hj]
      refine ⟨BitVec.ofNat 8 j, fun h => h1 (by rw [← h, e]), ?_⟩
      simp only [Tab.get, e]
      exact h2
    · rintro ⟨i, h1, h2⟩
      exact ⟨i.toNat, i.isLt, fun h => h1 (BitVec.eq_of_toNat_eq h), h2⟩
  simp only [State.freeAddresses, List.mem_filter, List.mem_map, List.mem_range,
    Bool.not_eq_true', List.contains_eq_mem, decide_eq_false_iff_not, held]
  constructor
  · rintro ⟨⟨k, hk, rfl⟩, h⟩
    refine ⟨?_, fun i h1 h2 h3 => h ⟨i, h1, h2, h3⟩⟩
    intro h0
    have := congrArg BitVec.toNat h0
    rw [BitVec.toNat_ofNat, Nat.mod_eq_of_lt (by omega)] at this
    simp at this
  · rintro ⟨h0, h⟩
    refine ⟨⟨a.toNat - 1, ?_, ?_⟩, fun ⟨i, h1, h2, h3⟩ => h i h1 h2 h3⟩
    · have := a.isLt
      have : a.toNat ≠ 0 := fun e => h0 (BitVec.eq_of_toNat_eq e)
      omega
    · have : a.toNat ≠ 0 := fun e => h0 (BitVec.eq_of_toNat_eq e)
      apply BitVec.eq_of_toNat_eq
      rw [BitVec.toNat_ofNat, Nat.sub_add_cancel (by omega), Nat.mod_eq_of_lt a.isLt]

end Sys2Proof.Machine
end

