-- ==== Sys2Proof/Laws/Commands.lean ====
section
/-! SUPPORT. The command engine: what it does with a TRB, and what each command's execution answers.
-/

namespace Sys2Proof.Machine

open Config

/-! ### Low bits -/

/-- An alignment check by mask is a check of the low bits. -/
theorem and_low_beq {w : Nat} (k : Nat) (q : BitVec w) (hk : k < w) :
    (q &&& BitVec.ofNat w (2 ^ k - 1) == 0#w) = decide (q.extractLsb' 0 k = 0#k) := by
  have hp := Nat.two_pow_pos k
  have h2 : 2 ^ k < 2 ^ w := Nat.pow_lt_pow_right (by norm_num) hk
  have e1 : (q &&& BitVec.ofNat w (2 ^ k - 1)).toNat = q.toNat % 2 ^ k := by
    rw [BitVec.toNat_and, BitVec.toNat_ofNat, Nat.mod_eq_of_lt (by omega),
      Nat.and_two_pow_sub_one_eq_mod]
  have e2 : (q.extractLsb' 0 k).toNat = q.toNat % 2 ^ k := by
    rw [BitVec.extractLsb'_toNat, Nat.shiftRight_zero]
  by_cases h : q.toNat % 2 ^ k = 0
  · have a : q &&& BitVec.ofNat w (2 ^ k - 1) = 0#w := by
      apply BitVec.eq_of_toNat_eq
      rw [e1, h, BitVec.toNat_zero]
    have b : q.extractLsb' 0 k = 0#k := by
      apply BitVec.eq_of_toNat_eq
      rw [e2, h, BitVec.toNat_zero]
    rw [a, b]
    simp
  · have a : q &&& BitVec.ofNat w (2 ^ k - 1) ≠ 0#w := fun e => h (by rw [← e1, e, BitVec.toNat_zero])
    have b : q.extractLsb' 0 k ≠ 0#k := fun e => h (by rw [← e2, e, BitVec.toNat_zero])
    rw [beq_eq_false_iff_ne.2 a, decide_eq_false b]

/-- Clearing low bits that are 0 changes nothing. -/
theorem and_not_low {w : Nat} (k : Nat) (q : BitVec w) (hk : k < w) (h : q.extractLsb' 0 k = 0#k) :
    q &&& ~~~(BitVec.ofNat w (2 ^ k - 1)) = q := by
  have h0 : q &&& BitVec.ofNat w (2 ^ k - 1) = 0#w := by
    have e := and_low_beq k q hk
    rw [h] at e
    exact beq_iff_eq.1 (e.trans (by simp))
  apply BitVec.eq_of_getLsbD_eq
  intro i hi
  have e := congrArg (fun x => x.getLsbD i) h0
  simp only [BitVec.getLsbD_and, BitVec.getLsbD_zero] at e
  simp only [BitVec.getLsbD_and, BitVec.getLsbD_not, hi, decide_true, Bool.true_and]
  cases hq : q.getLsbD i
  · simp
  · rw [hq] at e
    rw [Bool.true_and] at e
    rw [e]
    rfl

/-! ### The engine -/

/-- A command that answers a completion and leaves the event ring alone is retired with it. -/
theorem consumeCommand_ok {s t : State} {cycle : Bool} {m : Act Completion} {code : BitVec 8}
    {k : SlotId} (h : s.commandReady cycle) (hm : m s.cmdPassed = .ok ((code, k), t))
    (he : t.er = s.er) (ho : t.ctlRefusal s.eventAddr 16 = none) :
    consumeCommand cycle m s =
      .ok ((), t.raised (completionTrb s.cfg s.cr.fetchAddr code k)) := by
  obtain ⟨h1, h2, hl, h3, h4, h5⟩ := h
  unfold consumeCommand
  rw [Act.get_bind]
  simp only [State.commandOn, h1, h2, hl, h3, h4, Bool.not_false, Bool.and_true, Bool.not_true,
    Bool.false_eq_true, if_false, bne_self_eq_false]
  unfold retireCommand
  rw [Act.get_bind, Act.set_bind, Act.bind_ok hm]
  refine raiseEvent_eq_ok.2 ⟨?_, rfl⟩
  rw [he]
  exact ho

/-- A command the engine refuses to execute. -/
theorem consumeCommand_error {s : State} {cycle : Bool} {m : Act Completion} {e : Refusal}
    (h : s.commandReady cycle) (hm : m s.cmdPassed = .error e) :
    consumeCommand cycle m s = .error e := by
  obtain ⟨h1, h2, hl, h3, h4, h5⟩ := h
  unfold consumeCommand
  rw [Act.get_bind]
  simp only [State.commandOn, h1, h2, hl, h3, h4, Bool.not_false, Bool.and_true, Bool.not_true,
    Bool.false_eq_true, if_false, bne_self_eq_false]
  unfold retireCommand
  rw [Act.get_bind, Act.set_bind, Act.bind_error hm]

/-! ### Enable Slot -/

theorem executeEnableSlot_none {s : State} (h : s.freeSlotIds = []) :
    executeEnableSlot s = .ok ((s.cfg.cc.noSlots, 0), s) := by
  unfold executeEnableSlot
  rw [Act.get_bind, h]
  rfl

theorem executeEnableSlot_some {s : State} {v : Dword} {x : FreeSrc} (h : s.freeSlotIds ≠ [])
    (hd : drawDword s = .ok (v, s.withFree x)) :
    executeEnableSlot s = .ok ((s.cfg.cc.success, pick s.freeSlotIds 0 v),
      (s.withFree x).withSlot (pick s.freeSlotIds 0 v)
        { s.slots.get (pick s.freeSlotIds 0 v) with state := .enabled }) := by
  unfold executeEnableSlot
  rw [Act.get_bind]
  cases hl : s.freeSlotIds with
  | nil => exact absurd hl h
  | cons y l =>
    dsimp only
    rw [Act.bind_ok hd]
    rfl

/-! ### Address Device -/

/-- What Address Device reads and checks before it fails or goes on to the bus. -/
structure AddressDeviceReads (s : State) (n : SlotId) (ic : Addr) : Prop where
  early : addressDeviceEarlyError s n = none
  icAligned : ic.extractLsb' 0 6 = 0
  entry : s.mem.read64 (dcbaaEntry s.op.dcbaap n) ≠ 0
  entryAligned : (s.mem.read64 (dcbaaEntry s.op.dcbaap n)).extractLsb' 0 6 = 0

/-- The rest of Address Device, once its reads are made. -/
def addressDeviceRest (s : State) (n : SlotId) (ic : Addr) : Act Completion :=
  let ctx := s.mem.readBytes ic (3 * s.cfg.ctxSize)
  let sctx := (ctx.drop s.cfg.ctxSize).take s.cfg.ctxSize
  if !addsBoth s.cfg.ctx (ctx.take s.cfg.ctxSize) then pure (s.cfg.cc.parameterError, n)
  else do
    let ok ← drawSetAddress (namedPortEnabled s sctx)
    if !ok then pure (s.cfg.cc.usbTransactionError, n)
    else match s.freeAddresses n with
      | [] => pure (s.cfg.cc.usbTransactionError, n)
      | l => do
        let v ← drawDword
        installDevice n (s.mem.read64 (dcbaaEntry s.op.dcbaap n)) (pick l 0 v) sctx
          (ctx.drop (2 * s.cfg.ctxSize))
        pure (s.cfg.cc.success, n)

theorem executeAddressDevice_reads {s : State} {n : SlotId} {ic : Addr}
    (h : AddressDeviceReads s n ic) :
    executeAddressDevice n ic s = addressDeviceRest s n ic s := by
  obtain ⟨h1, h2, h3, h4⟩ := h
  unfold executeAddressDevice
  rw [Act.get_bind, h1]
  dsimp only
  have e1 : require (ic &&& 0x3F#64 == 0) .misalignedPointer s = .ok ((), s) :=
    require_eq_ok.2 ⟨(and_low_beq 6 ic (by norm_num)).trans (decide_eq_true h2), rfl⟩
  have e2 : require (s.mem.read64 (dcbaaEntry s.op.dcbaap n) != 0 &&
      s.mem.read64 (dcbaaEntry s.op.dcbaap n) &&& 0x3F#64 == 0) .badDeviceContext s =
      .ok ((), s) := by
    refine require_eq_ok.2 ⟨?_, rfl⟩
    rw [Bool.and_eq_true, bne_iff_ne]
    exact ⟨h3, (and_low_beq 6 _ (by norm_num)).trans (decide_eq_true h4)⟩
  rw [Act.bind_ok e1, Act.bind_ok e2]
  rfl

/-- The device context written, the slot addressed and its engine loaded. -/
theorem installDevice_ok {s : State} {n : SlotId} {dc : Addr} {a : BitVec 7}
    {sctx ectx : List Byte} (hp : (ctxRingPointer s.cfg.ctx ectx).extractLsb' 0 12 = 0)
    (ho : s.ctlRefusal dc (sctx.length + ectx.length) = none) :
    installDevice n dc a sctx ectx s = .ok ((),
      ((s.withMem (s.mem.writeBytes dc
          (addressedSlotCtx s.cfg.ctx a sctx ++ runningEpCtx s.cfg.ctx ectx))).withSlot n
        ⟨.addressed, a, dc⟩).withXfer n
        (some ⟨ctxRingPointer s.cfg.ctx ectx, 0,
          (ctxDequeue s.cfg.ctx ectx).getLsbD s.cfg.ctx.dcsBit, false⟩)) := by
  unfold installDevice
  rw [Act.get_bind]
  have e1 : require (ctxRingPointer s.cfg.ctx ectx &&& BitVec.ofNat 64 (trbSize * ep0RingSize - 1)
      == 0) .misalignedPointer s = .ok ((), s) :=
    require_eq_ok.2 ⟨(and_low_beq 12 _ (by norm_num)).trans (decide_eq_true hp), rfl⟩
  have hl : (addressedSlotCtx s.cfg.ctx a sctx ++ runningEpCtx s.cfg.ctx ectx).length =
      sctx.length + ectx.length := by
    unfold addressedSlotCtx runningEpCtx
    simp
  rw [Act.bind_ok e1, Act.bind_ok (ctlStore_eq_ok.2 ⟨by rw [hl]; exact ho, rfl⟩), Act.modify_apply]
  have e2 : loadedXferRing s.cfg.ctx ectx = ⟨ctxRingPointer s.cfg.ctx ectx, 0,
      (ctxDequeue s.cfg.ctx ectx).getLsbD s.cfg.ctx.dcsBit, false⟩ := by
    unfold loadedXferRing
    rw [show BitVec.ofNat 64 (trbSize * ep0RingSize - 1) = BitVec.ofNat 64 (2 ^ 12 - 1) from rfl,
      and_not_low 12 _ (by norm_num) hp]
  rw [State.cfg_withMem, e2]

end Sys2Proof.Machine
end

