-- ==== Sys2Proof/Laws/Contexts.lean ====
section
/-! SUPPORT. Fields of contexts held as bytes: what a replaced dword and a replaced field read as,
and that the others stay. -/

namespace Sys2Proof.Machine

open Config

/-! ### Blocks in memory -/

/-- A stored block reads back. -/
theorem Memory.readBytes_writeBytes_same (bs : List Byte) (m : Memory) (a : Addr)
    (hl : bs.length ≤ 2 ^ 64) : (m.writeBytes a bs).readBytes a bs.length = bs := by
  apply List.ext_getElem?
  intro k
  by_cases hk : k < bs.length
  · rw [Memory.getElem?_readBytes _ _ hk, Memory.read_writeBytes_same _ _ _ _ hk hl]
    simp [hk]
  · rw [List.getElem?_eq_none (by simp; omega), List.getElem?_eq_none (by omega)]

/-! ### Dwords of a block -/

/-- A dword is its four bytes. -/
theorem append_bytes (v : Dword) :
    v.extractLsb' 24 8 ++ v.extractLsb' 16 8 ++ v.extractLsb' 8 8 ++ v.extractLsb' 0 8 = v := by
  apply BitVec.eq_of_getLsbD_eq
  intro i hi
  simp only [BitVec.getLsbD_append, BitVec.getLsbD_extractLsb']
  by_cases h0 : i < 8
  · simp [h0]
  · by_cases h1 : i < 16
    · simp [h0, show i - 8 < 8 by omega, show 8 + (i - 8) = i by omega]
    · by_cases h2 : i < 24
      · simp [h0, show ¬ i - 8 < 8 by omega, show i - 8 - 8 < 8 by omega,
          show 16 + (i - 8 - 8) = i by omega]
      · simp [h0, show ¬ i - 8 < 8 by omega, show ¬ i - 8 - 8 < 8 by omega,
          show i - 8 - 8 - 8 < 8 by omega, show 24 + (i - 8 - 8 - 8) = i by omega]

theorem dwordAt_putDwordAt_same (bs : List Byte) {k : Nat} (v : Dword)
    (h : k + 4 ≤ bs.length) : dwordAt (putDwordAt bs k v) k = v := by
  unfold dwordAt putDwordAt
  simp only [List.getD_eq_getElem?_getD, List.getElem?_set]
  simp [show k < bs.length by omega, show k + 1 < bs.length by omega,
    show k + 2 < bs.length by omega, show k + 3 < bs.length by omega]
  exact append_bytes v

theorem dwordAt_putDwordAt_ne (bs : List Byte) {j k : Nat} (v : Dword)
    (h : j + 4 ≤ k ∨ k + 4 ≤ j) : dwordAt (putDwordAt bs k v) j = dwordAt bs j := by
  unfold dwordAt putDwordAt
  simp only [List.getD_eq_getElem?_getD, List.getElem?_set]
  simp [show k ≠ j by omega, show k ≠ j + 1 by omega, show k ≠ j + 2 by omega,
    show k ≠ j + 3 by omega, show k + 1 ≠ j by omega, show k + 2 ≠ j by omega,
    show k + 3 ≠ j by omega, show k + 2 ≠ j + 1 by omega, show k + 3 ≠ j + 1 by omega,
    show k + 3 ≠ j + 2 by omega]

/-! ### Fields of a dword -/

theorem getLsbD_lowOnes (w i : Nat) (hi : i < 32) : (lowOnes w).getLsbD i = decide (i < w) := by
  unfold lowOnes
  rw [BitVec.getLsbD_ofNat, Nat.testBit_two_pow_sub_one]
  simp [hi]

theorem getElem_lowOnes (w i : Nat) (hi : i < 32) : (lowOnes w)[i] = decide (i < w) := by
  rw [← BitVec.getLsbD_eq_getElem, getLsbD_lowOnes w i hi]

/-- A written field reads as the value's low bits. -/
theorem CtxField.read_write_same (f : CtxField) (d v : Dword) (h : f.lo + f.width ≤ 32) :
    f.read (f.write d v) = v &&& lowOnes f.width := by
  apply BitVec.eq_of_getLsbD_eq
  intro i hi
  unfold CtxField.read CtxField.write
  by_cases hw : i < f.width
  · have h2 : f.lo + i < 32 := by omega
    have h3 : f.lo + i - f.lo = i := by omega
    simp [getElem_lowOnes, hw, hi, h2, h3]
  · simp [getElem_lowOnes, hw, hi]

/-- A field beside a written one reads as before. -/
theorem CtxField.read_write_ne (f g : CtxField) (d v : Dword) (hg : g.lo + g.width ≤ 32)
    (h : f.lo + f.width ≤ g.lo ∨ g.lo + g.width ≤ f.lo) :
    g.read (f.write d v) = g.read d := by
  apply BitVec.eq_of_getLsbD_eq
  intro i hi
  unfold CtxField.read CtxField.write
  by_cases hw : i < g.width
  · have h2 : g.lo + i < 32 := by omega
    by_cases h4 : g.lo + i < f.lo
    · simp [getElem_lowOnes, hw, hi, h2, h4]
    · have h5 : ¬ g.lo + i - f.lo < f.width := by omega
      simp [getElem_lowOnes, hw, hi, h2, h4, h5]
  · simp [getElem_lowOnes, hw, hi]

/-! ### Fields of a context -/

/-- A field set in a context reads as the value's low bits. -/
theorem ctxGet_ctxSet_same (bs : List Byte) (f : CtxField) (v : Dword)
    (hf : f.lo + f.width ≤ 32) (h : 4 * f.dword + 4 ≤ bs.length) :
    ctxGet (ctxSet bs f v) f = v &&& lowOnes f.width := by
  unfold ctxGet ctxSet
  rw [dwordAt_putDwordAt_same _ _ h, CtxField.read_write_same _ _ _ hf]

/-- A field of another dword, or of other bits, reads as before. -/
theorem ctxGet_ctxSet_ne (bs : List Byte) (f g : CtxField) (v : Dword)
    (hg : g.lo + g.width ≤ 32) (hl : 4 * f.dword + 4 ≤ bs.length)
    (h : f.dword ≠ g.dword ∨ f.lo + f.width ≤ g.lo ∨ g.lo + g.width ≤ f.lo) :
    ctxGet (ctxSet bs f v) g = ctxGet bs g := by
  unfold ctxGet ctxSet
  by_cases hd : f.dword = g.dword
  · rw [← hd, dwordAt_putDwordAt_same _ _ hl,
      CtxField.read_write_ne _ _ _ _ hg (h.resolve_left (absurd hd))]
  · rw [dwordAt_putDwordAt_ne _ _ (by omega)]

/-- A dword beside a set field is as before. -/
theorem dwordAt_ctxSet_ne (bs : List Byte) (f : CtxField) (v : Dword) {k : Nat}
    (h : k + 4 ≤ 4 * f.dword ∨ 4 * f.dword + 4 ≤ k) :
    dwordAt (ctxSet bs f v) k = dwordAt bs k := dwordAt_putDwordAt_ne _ _ (by omega)

end Sys2Proof.Machine
end

