-- ==== Sys2Proof/Laws/HostOps.lean ====
section
/-! SUPPORT. The host's shared operations with nothing between their accesses: allocation, storing a
TRB, posting a command, staging a TRB, consuming an event. -/

namespace Sys2Proof.Machine

open Config

variable {α : Type}

/-! ### Writable registers -/

theorem writable_ok {s : State} (h1 : s.op.hcrst = false) (h2 : s.op.cnr = false) :
    writable s = .ok ((), s) := by
  unfold writable OpRegs.ready
  rw [Act.get_bind, h1, h2]
  rfl

theorem writable_error {s : State} (h : s.op.cnr = true ∨ s.op.hcrst = true) :
    writable s = .error .notReady := by
  unfold writable OpRegs.ready
  rw [Act.get_bind]
  rcases h with h | h <;> rw [h] <;> simp

/-! ### Memory -/

/-- The stored TRB reads back with its cycle state OR-ed in. -/
theorem Memory.readTrb_storedTrb (m : Memory) (a : Addr) (t : Trb) (c : Bool) :
    (m.storedTrb a t c).readTrb a = ⟨t.parameter, t.status, storedControl t.control c⟩ := by
  have h0 : a + BitVec.ofNat 64 0 = a := by simp
  have off := fun (m : Memory) (i j : Nat) (v : Dword) hi hj h =>
    Memory.read32_write32_off m a i j v hi hj h
  have o0 := fun (m : Memory) (j : Nat) (v : Dword) hj h =>
    (by simpa only [h0] using off m 0 j v (by omega) hj h :
      (m.write32 (a + BitVec.ofNat 64 j) v).read32 a = m.read32 a)
  have e4 : (4 : Addr) = BitVec.ofNat 64 4 := rfl
  have e8 : (8 : Addr) = BitVec.ofNat 64 8 := rfl
  have e12 : (12 : Addr) = BitVec.ofNat 64 12 := rfl
  have r12 : (m.storedTrb a t c).read32 (a + 12) = storedControl t.control c := by
    unfold Memory.storedTrb
    exact Memory.read32_write32_same _ _ _
  have r8 : (m.storedTrb a t c).read32 (a + 8) = t.status := by
    unfold Memory.storedTrb
    rw [e12, e8, off _ 8 12 _ (by omega) (by omega) (by omega),
      off _ 8 12 _ (by omega) (by omega) (by omega)]
    exact Memory.read32_write32_same _ _ _
  have r4 : (m.storedTrb a t c).read32 (a + 4) = hi32 t.parameter := by
    unfold Memory.storedTrb
    rw [e12, e8, e4, off _ 4 12 _ (by omega) (by omega) (by omega),
      off _ 4 12 _ (by omega) (by omega) (by omega), off _ 4 8 _ (by omega) (by omega) (by omega)]
    exact Memory.read32_write32_same _ _ _
  have r0 : (m.storedTrb a t c).read32 a = lo32 t.parameter := by
    unfold Memory.storedTrb
    rw [e12, e8, e4, o0 _ 12 _ (by omega) (by omega), o0 _ 12 _ (by omega) (by omega),
      o0 _ 8 _ (by omega) (by omega), o0 _ 4 _ (by omega) (by omega)]
    exact Memory.read32_write32_same _ _ _
  unfold Memory.readTrb Memory.read64
  rw [r0, r4, r8, r12, hi32_append_lo32]

/-- A stored TRB leaves every byte outside its sixteen alone. -/
theorem Memory.read_storedTrb_ne (m : Memory) (a : Addr) (t : Trb) (c : Bool) (b : Nat)
    (h : ∀ k < 16, b ≠ byteAddr a k) : (m.storedTrb a t c).read b = m.read b := by
  have e4 : (4 : Addr) = BitVec.ofNat 64 4 := rfl
  have e8 : (8 : Addr) = BitVec.ofNat 64 8 := rfl
  have e12 : (12 : Addr) = BitVec.ofNat 64 12 := rfl
  simp only [Memory.storedTrb, e4, e8, e12]
  rw [Memory.read_write32_ne, Memory.read_write32_ne, Memory.read_write32_ne,
    Memory.read_write32_ne, Memory.read_write32_ne]
  · exact fun k hk => h k (by omega)
  · intro k hk; rw [byteAddr_add]; exact h _ (by omega)
  · intro k hk; rw [byteAddr_add]; exact h _ (by omega)
  · intro k hk; rw [byteAddr_add]; exact h _ (by omega)
  · intro k hk; rw [byteAddr_add]; exact h _ (by omega)

/-! ### Procedures -/

/-- What a procedure that succeeds leaves. -/
theorem concluding_ok {f : α → HostResult} {p : Proc α} {s t : State} {a : α}
    (h : ExceptT.run p s = .ok (.ok a, t)) : concluding f p s = .ok ((), t.withResult (f a)) := by
  unfold concluding
  rw [Act.bind_ok h]
  rfl

/-- What a procedure that fails leaves. -/
theorem concluding_fails {f : α → HostResult} {p : Proc α} {s t : State} {r : FailReason}
    (h : ExceptT.run p s = .ok (.error r, t)) :
    concluding f p s = .ok ((), t.withResult (.failure r)) := by
  unfold concluding
  rw [Act.bind_ok h]
  rfl

/-- The rest of a procedure runs where the first part succeeded. -/
theorem Proc.bind_ok {β : Type} {p : Proc α} {f : α → Proc β} {s t : State} {a : α}
    (h : ExceptT.run p s = .ok (.ok a, t)) :
    ExceptT.run (p >>= f) s = ExceptT.run (f a) t := by
  rw [ExceptT.run_bind, Act.bind_ok h]

/-- A part that fails ends the procedure. -/
theorem Proc.bind_fails {β : Type} {p : Proc α} {f : α → Proc β} {s t : State} {r : FailReason}
    (h : ExceptT.run p s = .ok (.error r, t)) :
    ExceptT.run (p >>= f) s = .ok (.error r, t) := by
  rw [ExceptT.run_bind, Act.bind_ok h]
  rfl

/-- A procedure that looks at the state first. -/
theorem Proc.get_bind (f : State → Proc α) (s : State) :
    ExceptT.run ((get : Proc State) >>= f) s = ExceptT.run (f s) s := rfl

/-- An action as a part of a procedure. -/
theorem Proc.lift_ok {m : Act α} {s t : State} {a : α} (h : m s = .ok (a, t)) :
    ExceptT.run (m : Proc α) s = .ok (.ok a, t) := by
  rw [ExceptT.run_monadLift]
  show (Except.ok <$> m) s = _
  rw [← bind_pure_comp, Act.bind_ok h]
  rfl

/-! ### Allocation -/

theorem alloc_gives {s : State} {a : Addr} {r : List (Option Addr)} {size align : Nat}
    {kind : BlockKind} (h : s.plat.allocs = some a :: r) (hg : s.mayGive a size align) :
    alloc size align kind s = .ok (some a, s.given a size kind r) := by
  obtain ⟨h1, h2, h3, h4⟩ := hg
  unfold alloc
  rw [Act.get_bind, h]
  dsimp only
  rw [Act.bind_ok (a := ()) (t := s)]
  · rw [Act.bind_ok (refuseIf_eq_ok.2 ⟨h4, rfl⟩)]
    rfl
  · refine require_eq_ok.2 ⟨?_, rfl⟩
    rw [h1, h3, decide_eq_true h2]
    rfl

theorem alloc_denies {s : State} {r : List (Option Addr)} {size align : Nat}
    {kind : BlockKind} (h : s.plat.allocs = none :: r) :
    alloc size align kind s = .ok (none, s.denied r) := by
  unfold alloc
  rw [Act.get_bind, h]
  rfl

theorem alloc_exhausted {s : State} {size align : Nat} {kind : BlockKind}
    (h : s.plat.allocs = []) : alloc size align kind s = .ok (none, s) := by
  unfold alloc
  rw [Act.get_bind, h]
  rfl

/-! ### Giving blocks back -/

/-- The blocks' bytes become any, and no other byte changes. -/
theorem scrambleBlocks_ok (l : List Block) (s : State) : ∃ m x, s.mem.AgreeOutside m l ∧
    scrambleBlocks l s = .ok ((), (s.withFree x).withMem m) := by
  induction l generalizing s with
  | nil => exact ⟨s.mem, s.free, fun _ _ => rfl, rfl⟩
  | cons b r ih =>
    obtain ⟨bs, t, hl, x, hd, ht⟩ : ∃ bs t, bs.length = b.size ∧ ∃ x,
        drawBytes b.size s = .ok (bs, t) ∧ t = s.withFree x :=
      ⟨_, _, by simp, _, rfl, rfl⟩
    subst ht
    obtain ⟨m, y, hm, hr⟩ := ih ((s.withFree x).withMem (s.mem.writeBytes b.base bs))
    refine ⟨m, y, fun a ha => ?_, ?_⟩
    · refine (hm a fun c hc => ha c (by simp [hc])).trans ?_
      exact Memory.read_writeBytes_ne _ _ _ _ (by rw [hl]; exact ha b (by simp))
    · unfold scrambleBlocks
      rw [Act.bind_ok hd, Act.modify_bind]
      exact hr

/-- Blocks given back: their bytes are any, they are live no more, and freed. -/
theorem releaseWhere_ok (f : Block → Bool) (s : State) : ∃ m x,
    s.mem.AgreeOutside m (s.plat.live.filter f) ∧
    releaseWhere f s = .ok ((), ((s.withFree x).withMem m).withPlat { s.plat with
      live := s.plat.live.filter fun b => !f b
      freed := s.plat.live.filter f ++ s.plat.freed }) := by
  obtain ⟨m, x, hm, h⟩ := scrambleBlocks_ok (s.plat.live.filter f) s
  refine ⟨m, x, hm, ?_⟩
  unfold releaseWhere
  rw [Act.get_bind, Act.bind_ok h]
  rfl

/-! ### Storing and posting TRBs -/

theorem hostPut32_quiet {s : State} (hq : s.Quiet) {a : Addr} (v : Dword)
    (hr : s.hostRefusal a 4 = none) :
    hostPut32 a v s = .ok ((), s.withMem (s.mem.write32 a v)) := by
  rw [hostPut32_calm hq.calm v hr, hq.afterTurns]

theorem hostPut64_quiet {s : State} (hq : s.Quiet) {a : Addr} (v : Qword)
    (h0 : s.hostRefusal a 4 = none) (h4 : s.hostRefusal (a + 4) 4 = none) :
    hostPut64 a v s = .ok ((), s.withMem (s.mem.write64 a v)) := by
  unfold hostPut64
  rw [Act.bind_ok (hostPut32_quiet hq _ h0)]
  exact hostPut32_quiet (s := s.withMem (s.mem.write32 a (lo32 v))) hq _ h4

/-- A store among others: only the memory has changed since. -/
theorem hostPut32_mem {s : State} (hq : s.Quiet) (m : Memory) {a : Addr} (v : Dword)
    (hr : s.hostRefusal a 4 = none) :
    hostPut32 a v (s.withMem m) = .ok ((), s.withMem (m.write32 a v)) :=
  hostPut32_quiet (s := s.withMem m) hq v hr

theorem storeTrb_quiet {s : State} (hq : s.Quiet) {a : Addr} (t : Trb) (c : Bool)
    (hr : s.mayStoreTrb a) :
    storeTrb a t c s = .ok ((), s.withMem (s.mem.storedTrb a t c)) := by
  obtain ⟨h0, h4, h8, h12⟩ := hr
  unfold storeTrb
  rw [Act.bind_ok (hostStore32_eq_ok.2 ⟨h0, rfl⟩)]
  rw [Act.bind_ok (hostPut32_mem hq _ _ h4), Act.bind_ok (hostPut32_mem hq _ _ h8),
    Act.bind_ok (hostPut32_mem hq _ _ h12)]
  exact hostPut32_mem hq _ _ h12

/-- A TRB stored on a ring that has room. -/
theorem enqueueOn_quiet {s : State} (hq : s.Quiet) {r : Ring} {full : State → Bool} (t : Trb)
    (hs : r.size ≠ 0) (hf : full s = false) (hr : s.mayStoreTrb (ringAddr r.base r.enq)) :
    enqueueOn r full t s =
      .ok ((), s.withMem (s.mem.storedTrb (ringAddr r.base r.enq) t r.cycle)) := by
  unfold enqueueOn
  have e1 : require (r.size != 0) .ringNotAllocated s = .ok ((), s) :=
    require_eq_ok.2 ⟨bne_iff_ne.2 hs, rfl⟩
  have e2 : require (!full s) .ringOverrun s = .ok ((), s) :=
    require_eq_ok.2 ⟨by rw [hf]; rfl, rfl⟩
  rw [Act.bind_ok e1, Act.bind_ok (gap_quiet hq), Act.get_bind, Act.bind_ok e2]
  exact storeTrb_quiet hq t r.cycle hr

/-- The command doorbell, on a controller that takes writes. -/
theorem ringCommandDoorbell_quiet {s : State} (hq : s.Quiet) (hb : s.host.basesFixed = true)
    (h1 : s.op.hcrst = false) (h2 : s.op.cnr = false) :
    ringCommandDoorbell s = .ok ((), s.rungCommand) := by
  have hd : decodeAccess s.cfg ⟨.db, 0, some 0⟩ = .ok (.wrDb0 0) := by
    unfold decodeAccess decodeDb doorbellOfOffset
    simp
  unfold ringCommandDoorbell
  rw [regWrite32_apply (gap_quiet hq) (b := .db) hb hd]
  show writeDb0 0 (s.onBus .db 0) = _
  unfold writeDb0 State.rungCommand
  rw [Act.bind_ok (writable_ok (s := s.onBus .db 0) h1 h2), Act.get_bind]
  by_cases h : s.op.hch = true
  · rw [if_pos h, if_pos (by exact h)]
    rfl
  · rw [if_neg h, if_neg (by exact h)]
    have e : require (doorbellTargetOf (s.onBus .db 0).cfg.bitpos 0 == 0) .doorbellTarget
        (s.onBus .db 0) = .ok ((), s.onBus .db 0) := by
      refine require_eq_ok.2 ⟨?_, rfl⟩
      simp [doorbellTargetOf, fieldOf]
    rw [Act.bind_ok e]
    rfl

/-- `post_command` with nothing between its accesses. -/
theorem postCommand_quiet {s : State} (hq : s.Quiet) (h : s.mayPost) (t : Trb) :
    postCommand t s = .ok ((), s.posted t) := by
  obtain ⟨hs, hf, hb, h1, h2, hr⟩ := h
  unfold postCommand State.posted
  rw [Act.get_bind, Act.bind_ok (enqueueOn_quiet hq t hs hf hr)]
  unfold accountFor setHost
  rw [Act.modify_bind, Act.modify_bind]
  exact ringCommandDoorbell_quiet hq hb h1 h2

/-- `ep0_enqueue` with nothing between its accesses. -/
theorem ep0Enqueue_quiet {s : State} (hq : s.Quiet) {k : SlotId} (h : s.mayStage k) (t : Trb) :
    ep0Enqueue k t s = .ok ((), s.staged k t) := by
  obtain ⟨hs, hf, hr⟩ := h
  unfold ep0Enqueue State.staged
  rw [Act.get_bind, Act.bind_ok (enqueueOn_quiet (full := (State.ep0RingFull · k)) hq t hs hf hr)]
  rfl

end Sys2Proof.Machine
end

