-- ==== Sys2Proof/Laws/Enumeration.lean ====
section
/-! SUPPORT. What the host does with nothing between its accesses when it consumes an event, fills
an input context and allocates a device's structures. -/

namespace Sys2Proof.Machine

open Config

/-! ### Consuming an event -/

/-- ERDP written whole on a controller that takes writes. -/
theorem writeErdp_quiet {s : State} (hq : s.Quiet) (hb : s.host.basesFixed = true)
    (h1 : s.op.hcrst = false) (h2 : s.op.cnr = false) (v : Qword) :
    regWrite64 .rt 0x38 v s = .ok ((), (s.onBus .rt 0x3C).withEr
      ((s.er.ackLo (lo32 v)).ackHi (hi32 v))) := by
  have d1 : decodeAccess s.cfg ⟨.rt, 0x38, some (lo32 v)⟩ = .ok (.wrErdpLo (lo32 v)) := by
    unfold decodeAccess decodeRt
    simp
  have d2 : decodeAccess s.cfg ⟨.rt, 0x3C, some (hi32 v)⟩ = .ok (.wrErdpHi (hi32 v)) := by
    unfold decodeAccess decodeRt
    simp
  unfold regWrite64
  rw [Act.bind_ok (show aligned64 0x38 s = .ok ((), s) from rfl)]
  rw [Act.bind_ok (a := ()) (t := (s.onBus .rt 0x38).withEr (s.er.ackLo (lo32 v)))]
  · rw [show (0x38 : Dword) + 4 = 0x3C from rfl]
    rw [regWrite32_apply (s' := (s.onBus .rt 0x38).withEr (s.er.ackLo (lo32 v)))
      (gap_quiet hq) (b := .rt) hb d2]
    show writeErdpHi _ _ = _
    unfold writeErdpHi
    rw [Act.bind_ok (writable_ok (s := ((s.onBus .rt 0x38).withEr
      (s.er.ackLo (lo32 v))).onBus .rt 0x3C) h1 h2)]
    rfl
  · rw [regWrite32_apply (gap_quiet hq) (b := .rt) hb d1]
    show writeErdpLo _ _ = _
    unfold writeErdpLo
    rw [Act.bind_ok (writable_ok (s := s.onBus .rt 0x38) h1 h2)]
    rfl

/-- A pointer stored half by half, its low four bits dropped. -/
theorem withHalves_mask (p q : Qword) :
    withHi (withLo p (lo32 q &&& ~~~0xF#32)) (hi32 q) = q &&& ~~~0xF#64 := by
  have hl : lo32 (q &&& ~~~0xF#64) = lo32 q &&& ~~~0xF#32 := by
    unfold lo32
    rw [BitVec.extractLsb'_and]
    rfl
  have hh : hi32 (q &&& ~~~0xF#64) = hi32 q := by
    unfold hi32
    rw [BitVec.extractLsb'_and, show (~~~0xF#64).extractLsb' 32 32 = BitVec.allOnes 32 from rfl,
      BitVec.and_allOnes]
  rw [← hl, ← hh, withHi_withLo]

/-- The pointer written with EHB set is stored, and EHB is cleared. -/
theorem ack_or_ehb (e : EvtProducer) (a : Addr) :
    (e.ackLo (lo32 (a ||| 8))).ackHi (hi32 (a ||| 8)) =
      { e with deqPtr := a &&& ~~~0xF#64, ehb := false } := by
  have h1 : bitOf (lo32 (a ||| 8)) 3 = true := by
    unfold bitOf lo32
    rw [BitVec.getLsbD_extractLsb', BitVec.getLsbD_or]
    simp
  have h2 : (a ||| 8) &&& ~~~0xF#64 = a &&& ~~~0xF#64 := by
    rw [BitVec.and_comm, BitVec.and_or_distrib_left, BitVec.and_comm,
      show ~~~0xF#64 &&& 8 = 0#64 from rfl, BitVec.or_zero]
  unfold EvtProducer.ackLo EvtProducer.ackHi
  rw [h1, withHalves_mask, h2]
  simp

/-- An event consumed with nothing between the accesses. -/
theorem consumeValid_quiet {s : State} (f : State → State) (hq : (f s).Quiet)
    (hb : (f s).host.basesFixed = true) (h1 : (f s).op.hcrst = false) (h2 : (f s).op.cnr = false) :
    consumeValid f s = .ok ((), (f s).consumed) := by
  unfold consumeValid setHost
  rw [Act.modify_bind, Act.modify_bind, Act.get_bind]
  rw [Act.bind_ok (writeErdp_quiet (s := (f s).withHost
    { (f s).host with evt := (f s).host.evt.deqAdvanced }) hq hb h1 h2 _)]
  rw [answer_apply, ack_or_ehb]
  rfl

/-! ### The input context -/

/-- The packet size is that of the device's speed where it has one. -/
theorem choosePacketSize_ok (speed : BitVec 4) (s : State) : ∃ packet x,
    (∀ v, packetSize s.cfg.mps speed = some v → packet = v) ∧
    choosePacketSize speed s = .ok (packet, s.withFree x) := by
  unfold choosePacketSize
  rw [Act.get_bind]
  cases h : packetSize s.cfg.mps speed with
  | some v => exact ⟨v, s.free, fun w hw => by cases hw; rfl, rfl⟩
  | none =>
    obtain ⟨v, x, hv⟩ := drawDword_ok s
    exact ⟨v, x, fun w hw => by simp at hw, hv⟩

/-- Dwords changed one after the other with nothing between the accesses. -/
theorem updateDwords_quiet {s : State} (hq : s.Quiet) (a : Addr) (l : List (Nat × (Dword → Dword)))
    (h : ∀ u ∈ l, s.loadRefusal (a + BitVec.ofNat 64 u.1) 4 = none ∧
      s.hostRefusal (a + BitVec.ofNat 64 u.1) 4 = none) :
    updateDwords a l s = .ok ((), s.withMem (s.mem.updated a l)) := by
  induction l generalizing s with
  | nil => rfl
  | cons u r ih =>
    obtain ⟨hl, hs⟩ := h u (by simp)
    have e := hostLoad32_calm hq.calm hl
    rw [hq.afterTurns] at e
    unfold updateDwords
    rw [Act.bind_ok e, Act.bind_ok (hostPut32_quiet hq _ hs)]
    exact ih (s := s.withMem _) hq fun v hv => h v (by simp [hv])

/-- The contexts filled in where the host may write. -/
theorem fillContexts_ok {s : State} {ic : Addr} {n : SlotId} (hq : s.Quiet) (h : s.mayFill ic n) :
    ∃ packet x, (∀ v, packetSize s.cfg.mps (s.host.dev.get n).speed = some v → packet = v) ∧
      fillContexts ic n s = .ok ((), (s.filled ic n packet).withFree x) := by
  obtain ⟨hu, hd⟩ := h
  obtain ⟨packet, x, hp, hc⟩ := choosePacketSize_ok (s.host.dev.get n).speed s
  refine ⟨packet, x, hp, ?_⟩
  unfold fillContexts
  rw [Act.get_bind, Act.bind_ok (require_eq_ok.2 ⟨by rw [hu]; rfl, rfl⟩), Act.bind_ok hc]
  exact updateDwords_quiet (s := s.withFree x) hq ic _ (hd packet)

/-- A slot id with a place in the device table is not rejected. -/
theorem rejectSlot_ok {s : State} {n : SlotId} (h : s.inTable n = true) :
    ExceptT.run (rejectSlot n) s = .ok (.ok (), s) := by
  unfold rejectSlot
  rw [Proc.get_bind, if_pos h]
  rfl

/-- A slot id with no place there is. -/
theorem rejectSlot_fails {s : State} {n : SlotId} (h : s.inTable n = false) :
    ExceptT.run (rejectSlot n) s = .ok (.error (.slotIdRejected n), s) := by
  unfold rejectSlot
  rw [Proc.get_bind, if_neg (by rw [h]; simp)]
  rfl

/-! ### Allocation of a device's structures -/

/-- A context the allocator gives. -/
theorem allocContext_gives {s : State} {a : Addr} {r : List (Option Addr)} {size : Nat}
    {kind : BlockKind} (h : s.plat.allocs = some a :: r) (hg : s.mayGive a size 64) :
    ExceptT.run (allocContext size kind) s = .ok (.ok a, s.given a size kind r) := by
  unfold allocContext
  rw [Proc.bind_ok (Proc.lift_ok (alloc_gives h hg))]
  rfl

/-- A ring the allocator gives. -/
theorem allocRing_gives {s : State} {a : Addr} {r : List (Option Addr)} {n : Nat}
    {kind : BlockKind} (h : s.plat.allocs = some a :: r)
    (hg : s.mayGive a (trbSize * n) (trbSize * n)) :
    ExceptT.run (allocRing n kind) s =
      .ok (.ok ⟨a, 0, 0, true, n⟩, s.given a (trbSize * n) kind r) := by
  unfold allocRing
  rw [Proc.bind_ok (Proc.lift_ok (alloc_gives h hg))]
  rfl

/-- A context the allocator does not give. -/
theorem allocContext_denied {s : State} {r : List (Option Addr)} {size : Nat} {kind : BlockKind}
    (h : s.plat.allocs = none :: r) : ExceptT.run (allocContext size kind) s =
      .ok (.error (.allocationFailure .context), s.denied r) := by
  unfold allocContext
  rw [Proc.bind_ok (Proc.lift_ok (alloc_denies h))]
  rfl

/-- A ring the allocator does not give. -/
theorem allocRing_denied {s : State} {r : List (Option Addr)} {n : Nat} {kind : BlockKind}
    (h : s.plat.allocs = none :: r) : ExceptT.run (allocRing n kind) s =
      .ok (.error (.allocationFailure .ring), s.denied r) := by
  unfold allocRing
  rw [Proc.bind_ok (Proc.lift_ok (alloc_denies h))]
  rfl

end Sys2Proof.Machine
end

