-- ==== Sys2Proof/Laws/Fields.lean ====
section
/-! SUPPORT. The fields of an encoded TRB read back, and a decoded TRB keeps the fields an engine
looks at. -/

namespace Sys2Proof

open Config

variable (c : TypeCodes)

/-! ### Commands -/

@[simp] theorem typ_command (p : Qword) (q : Dword) (n : SlotId) (ep : BitVec 5) (ty : BitVec 6)
    (cy : Bool) : Trb.typ ⟨p, q, commandControl n ep ty cy⟩ = ty := by
  apply BitVec.eq_of_getLsbD_eq
  intro i hi
  simp only [Trb.typ, commandControl, bit1, BitVec.getLsbD_extractLsb', BitVec.getLsbD_append]
  interval_cases i <;> simp

@[simp] theorem cycle_command (p : Qword) (q : Dword) (n : SlotId) (ep : BitVec 5) (ty : BitVec 6)
    (cy : Bool) : Trb.cycle ⟨p, q, commandControl n ep ty cy⟩ = cy := by
  simp only [Trb.cycle, commandControl, bit1, BitVec.getLsbD_append]
  simp

@[simp] theorem slot_command (p : Qword) (q : Dword) (n : SlotId) (ep : BitVec 5) (ty : BitVec 6)
    (cy : Bool) : Trb.slot ⟨p, q, commandControl n ep ty cy⟩ = n := by
  apply BitVec.eq_of_getLsbD_eq
  intro i hi
  simp only [Trb.slot, commandControl, bit1, BitVec.getLsbD_extractLsb', BitVec.getLsbD_append]
  interval_cases i <;> simp

@[simp] theorem endpoint_command (p : Qword) (q : Dword) (n : SlotId) (ep : BitVec 5)
    (ty : BitVec 6) (cy : Bool) : Trb.endpoint ⟨p, q, commandControl n ep ty cy⟩ = ep := by
  apply BitVec.eq_of_getLsbD_eq
  intro i hi
  simp only [Trb.endpoint, commandControl, bit1, BitVec.getLsbD_extractLsb',
    BitVec.getLsbD_append]
  interval_cases i <;> simp

/-! ### Transfers -/

@[simp] theorem SetupTrb.typ_toTrb (t : SetupTrb) : (t.toTrb c).typ = c.setup := by
  apply BitVec.eq_of_getLsbD_eq
  intro i hi
  simp only [Trb.typ, SetupTrb.toTrb, bit1, BitVec.getLsbD_extractLsb', BitVec.getLsbD_append]
  interval_cases i <;> simp

@[simp] theorem SetupTrb.cycle_toTrb (t : SetupTrb) : (t.toTrb c).cycle = t.cycle := by
  simp only [Trb.cycle, SetupTrb.toTrb, bit1, BitVec.getLsbD_append]
  simp

@[simp] theorem SetupTrb.trt_toTrb (t : SetupTrb) : (t.toTrb c).trt = t.trt := by
  apply BitVec.eq_of_getLsbD_eq
  intro i hi
  simp only [Trb.trt, SetupTrb.toTrb, bit1, BitVec.getLsbD_extractLsb', BitVec.getLsbD_append]
  interval_cases i <;> simp

@[simp] theorem SetupTrb.idt_toTrb (t : SetupTrb) : (t.toTrb c).control.getLsbD 6 = t.idt := by
  simp only [SetupTrb.toTrb, bit1, BitVec.getLsbD_append]
  simp

@[simp] theorem SetupTrb.length_toTrb (t : SetupTrb) :
    (t.toTrb c).status.extractLsb' 0 17 = t.length := by
  apply BitVec.eq_of_getLsbD_eq
  intro i hi
  simp only [SetupTrb.toTrb, BitVec.getLsbD_extractLsb', BitVec.getLsbD_append]
  simp [hi]

@[simp] theorem SetupTrb.ofTrb_toTrb (t : SetupTrb) : SetupTrb.ofTrb (t.toTrb c) = t := by
  have h1 := SetupTrb.length_toTrb c t
  have h2 := SetupTrb.idt_toTrb c t
  have h3 := SetupTrb.trt_toTrb c t
  have h4 := SetupTrb.cycle_toTrb c t
  unfold Trb.trt at h3
  unfold SetupTrb.ofTrb
  rw [h1, h2, h3, h4]
  rfl

@[simp] theorem DataTrb.typ_toTrb (t : DataTrb) : (t.toTrb c).typ = c.data := by
  apply BitVec.eq_of_getLsbD_eq
  intro i hi
  simp only [Trb.typ, DataTrb.toTrb, bit1, BitVec.getLsbD_extractLsb', BitVec.getLsbD_append]
  interval_cases i <;> simp

@[simp] theorem DataTrb.cycle_toTrb (t : DataTrb) : (t.toTrb c).cycle = t.cycle := by
  simp only [Trb.cycle, DataTrb.toTrb, bit1, BitVec.getLsbD_append]
  simp

@[simp] theorem DataTrb.dir_toTrb (t : DataTrb) : (t.toTrb c).control.getLsbD 16 = t.dir := by
  simp only [DataTrb.toTrb, bit1, BitVec.getLsbD_append]
  simp

@[simp] theorem DataTrb.length_toTrb (t : DataTrb) :
    (t.toTrb c).status.extractLsb' 0 17 = t.length := by
  apply BitVec.eq_of_getLsbD_eq
  intro i hi
  simp only [DataTrb.toTrb, BitVec.getLsbD_extractLsb', BitVec.getLsbD_append]
  simp [hi]

@[simp] theorem DataTrb.ofTrb_toTrb (t : DataTrb) : DataTrb.ofTrb (t.toTrb c) = t := by
  unfold DataTrb.ofTrb
  rw [DataTrb.length_toTrb, DataTrb.dir_toTrb, DataTrb.cycle_toTrb]
  rfl

@[simp] theorem StatusTrb.typ_toTrb (t : StatusTrb) : (t.toTrb c).typ = c.status := by
  apply BitVec.eq_of_getLsbD_eq
  intro i hi
  simp only [Trb.typ, StatusTrb.toTrb, bit1, BitVec.getLsbD_extractLsb', BitVec.getLsbD_append]
  interval_cases i <;> simp

@[simp] theorem StatusTrb.cycle_toTrb (t : StatusTrb) : (t.toTrb c).cycle = t.cycle := by
  simp only [Trb.cycle, StatusTrb.toTrb, bit1, BitVec.getLsbD_append]
  simp

@[simp] theorem StatusTrb.ofTrb_toTrb (t : StatusTrb) : StatusTrb.ofTrb (t.toTrb c) = t := by
  have h1 : (t.toTrb c).control.getLsbD 16 = t.dir := by
    simp only [StatusTrb.toTrb, bit1, BitVec.getLsbD_append]
    simp
  have h2 : (t.toTrb c).control.getLsbD 5 = t.ioc := by
    simp only [StatusTrb.toTrb, bit1, BitVec.getLsbD_append]
    simp
  unfold StatusTrb.ofTrb
  rw [h1, h2, StatusTrb.cycle_toTrb]

/-! ### Events -/

@[simp] theorem TransferEvent.typ_toTrb (e : TransferEvent) :
    (e.toTrb c).typ = c.transferEvent := by
  apply BitVec.eq_of_getLsbD_eq
  intro i hi
  simp only [Trb.typ, TransferEvent.toTrb, bit1, BitVec.getLsbD_extractLsb',
    BitVec.getLsbD_append]
  interval_cases i <;> simp

@[simp] theorem TransferEvent.cycle_toTrb (e : TransferEvent) : (e.toTrb c).cycle = e.cycle := by
  simp only [Trb.cycle, TransferEvent.toTrb, bit1, BitVec.getLsbD_append]
  simp

@[simp] theorem TransferEvent.ofTrb_toTrb (e : TransferEvent) :
    TransferEvent.ofTrb (e.toTrb c) = e := by
  have h1 : (e.toTrb c).code = e.code := by
    apply BitVec.eq_of_getLsbD_eq
    intro i hi
    simp only [Trb.code, TransferEvent.toTrb, BitVec.getLsbD_extractLsb', BitVec.getLsbD_append]
    interval_cases i <;> simp
  have h2 : (e.toTrb c).status.extractLsb' 0 24 = e.residual := by
    apply BitVec.eq_of_getLsbD_eq
    intro i hi
    simp only [TransferEvent.toTrb, BitVec.getLsbD_extractLsb', BitVec.getLsbD_append]
    simp [hi]
  have h3 : (e.toTrb c).slot = e.slot := by
    apply BitVec.eq_of_getLsbD_eq
    intro i hi
    simp only [Trb.slot, TransferEvent.toTrb, bit1, BitVec.getLsbD_extractLsb',
      BitVec.getLsbD_append]
    interval_cases i <;> simp
  have h4 : (e.toTrb c).endpoint = e.ep := by
    apply BitVec.eq_of_getLsbD_eq
    intro i hi
    simp only [Trb.endpoint, TransferEvent.toTrb, bit1, BitVec.getLsbD_extractLsb',
      BitVec.getLsbD_append]
    interval_cases i <;> simp
  unfold TransferEvent.ofTrb
  rw [h1, h2, h3, h4, TransferEvent.cycle_toTrb]
  rfl

@[simp] theorem CompletionEvent.typ_toTrb (e : CompletionEvent) :
    (e.toTrb c).typ = c.cmdCompletion := by
  apply BitVec.eq_of_getLsbD_eq
  intro i hi
  simp only [Trb.typ, CompletionEvent.toTrb, bit1, BitVec.getLsbD_extractLsb',
    BitVec.getLsbD_append]
  interval_cases i <;> simp

@[simp] theorem CompletionEvent.cycle_toTrb (e : CompletionEvent) :
    (e.toTrb c).cycle = e.cycle := by
  simp only [Trb.cycle, CompletionEvent.toTrb, bit1, BitVec.getLsbD_append]
  simp

/-- The event's pointer is kept but for its low four bits. -/
theorem CompletionEvent.ofTrb_toTrb (e : CompletionEvent) :
    CompletionEvent.ofTrb (e.toTrb c) = { e with trbPtr := e.trbPtr &&& ~~~0xF#64 } := by
  have h1 : (e.toTrb c).code = e.code := by
    apply BitVec.eq_of_getLsbD_eq
    intro i hi
    simp only [Trb.code, CompletionEvent.toTrb, BitVec.getLsbD_extractLsb',
      BitVec.getLsbD_append]
    interval_cases i <;> simp
  have h3 : (e.toTrb c).slot = e.slot := by
    apply BitVec.eq_of_getLsbD_eq
    intro i hi
    simp only [Trb.slot, CompletionEvent.toTrb, bit1, BitVec.getLsbD_extractLsb',
      BitVec.getLsbD_append]
    interval_cases i <;> simp
  unfold CompletionEvent.ofTrb
  rw [h1, h3, CompletionEvent.cycle_toTrb]
  have h0 : (e.toTrb c).parameter = e.trbPtr &&& ~~~0xF#64 := rfl
  rw [h0, BitVec.and_assoc, BitVec.and_self]

@[simp] theorem PortEvent.typ_toTrb (e : PortEvent) : (e.toTrb c).typ = c.portStatusChange := by
  apply BitVec.eq_of_getLsbD_eq
  intro i hi
  simp only [Trb.typ, PortEvent.toTrb, bit1, BitVec.getLsbD_extractLsb', BitVec.getLsbD_append]
  interval_cases i <;> simp

@[simp] theorem PortEvent.cycle_toTrb (e : PortEvent) : (e.toTrb c).cycle = e.cycle := by
  simp only [Trb.cycle, PortEvent.toTrb, bit1, BitVec.getLsbD_append]
  simp

@[simp] theorem PortEvent.ofTrb_toTrb (e : PortEvent) : PortEvent.ofTrb (e.toTrb c) = e := by
  have h1 : (e.toTrb c).code = e.code := by
    apply BitVec.eq_of_getLsbD_eq
    intro i hi
    simp only [Trb.code, PortEvent.toTrb, BitVec.getLsbD_extractLsb', BitVec.getLsbD_append]
    interval_cases i <;> simp
  have h2 : (e.toTrb c).parameter.extractLsb' 24 8 = e.portNum := by
    apply BitVec.eq_of_getLsbD_eq
    intro i hi
    simp only [PortEvent.toTrb, BitVec.getLsbD_extractLsb', BitVec.getLsbD_append]
    interval_cases i <;> simp
  unfold PortEvent.ofTrb
  rw [h1, h2, PortEvent.cycle_toTrb]

/-! ### What an engine looks at in a decoded TRB -/

@[simp] theorem Trb.stages_setup (t : Trb) :
    ((SetupTrb.ofTrb t).toTrb c).stages = t.stages := by
  unfold Trb.stages
  rw [SetupTrb.trt_toTrb]
  rfl

@[simp] theorem Trb.setupLength_setup (t : Trb) :
    ((SetupTrb.ofTrb t).toTrb c).setupLength = t.setupLength := rfl

end Sys2Proof
end

