-- ==== Sys2Proof/Laws/Micro.lean ====
section
/-! SUPPORT. What a step can do, said once: `CtlMicro` lists the updates the controller and ENV
make, `HostMicro` those the host and its register accesses make, each with the condition it is made
under. `exec_keeps` and `step_keeps`: a property kept by every one of them is kept by every step. -/

namespace Sys2Proof.Machine

open Config

/-- One update of the state by the controller's engines: draws, stores, events, and the records of
the command and transfer engines. -/
inductive EngineMicro : State → State → Prop
  | free (s : State) (x : FreeSrc) : EngineMicro s (s.withFree x)
  | env (s : State) (x : EnvIn) : EngineMicro s (s.withEnv x)
  | trb (s : State) (a : Addr) (t : Trb) : EngineMicro s (s.withMem (s.mem.writeTrb a t))
  | store (s : State) (a : Addr) (bs : List Byte) : EngineMicro s (s.withMem (s.mem.writeBytes a bs))
  | ledger (s : State) (x : Ledger) : EngineMicro s (s.withLedger x)
  | raised (s : State) :
      EngineMicro s ((s.withEr { s.er.advanced with ehb := true }).withIntr { s.intr with ip := true })
  | cmdStop (s : State) : EngineMicro s (s.withCr { s.cr with running := false })
  | cmdAdvance (s : State) : EngineMicro s (s.withCr s.cr.advanced)
  | slotEnable (s : State) (i : SlotId) (h : i ∈ s.freeSlotIds) :
      EngineMicro s (s.withSlot i { s.slots.get i with state := .enabled })
  | install (s : State) (n : SlotId) (a : BitVec 7) (dc : Addr) (r : XferRing)
      (hn : (s.slots.get n).state = .enabled) (ha : a ∈ s.freeAddresses n)
      (hd : r.deq = 0) (hb : LowZero r.base 12) (hr : r.running = false) :
      EngineMicro s ((s.withSlot n ⟨.addressed, a, dc⟩).withXfer n (some r))
  | xferStop (s : State) (i : SlotId) (r : XferRing) (h : s.tr.get i = some r) :
      EngineMicro s (s.withXfer i (some { r with running := false }))
  | xferAdvance (s : State) (i : SlotId) (r : XferRing) (k : Nat) (h : s.tr.get i = some r) :
      EngineMicro s (s.withXfer i (some (r.advanced k)))

/-- One update of the state by the controller or by ENV. -/
inductive CtlMicro : State → State → Prop
  | engine {s t : State} (h : EngineMicro s t) : CtlMicro s t
  | halt (s : State) (h : s.op.haltOn = true) : CtlMicro s s.halted
  | controllerReset (s : State) (h : s.op.hcrst = true) : CtlMicro s s.controllerReset
  | ready (s : State) (h : s.op.readyOn = true) : CtlMicro s (s.withOp { s.op with cnr := false })
  | start (s : State) (h : s.op.startOn = true) : CtlMicro s (s.withOp { s.op with hch := false })
  | resetBegun (s : State) (hr : s.op.ready = true) (hh : s.op.hch = true) :
      CtlMicro s (s.withOp s.op.resetBegun)
  | attach (s : State) (p : PortIx) (v : BitVec 4) (h : (s.ports.get p).attached = false) :
      CtlMicro s (s.withPort p (noteChange s ((s.ports.get p).attach v)))
  | detach (s : State) (p : PortIx) (h : (s.ports.get p).attached = true) :
      CtlMicro s (s.withPort p (noteChange s (s.ports.get p).detach))
  | portDone (s : State) (p : PortIx) (h : s.portResetOn p = true) :
      CtlMicro s (s.withPort p (noteChange s (s.ports.get p).resetDone))
  | pscClear (s : State) (p : PortIx) :
      CtlMicro s (s.withPort p { s.ports.get p with pscPending := false })

/-- One update of the state by the host: its records, the blocks it holds, its stores, and the
effects of its register accesses. The poll counter is not among them: `Polled` is. Nor are the begin
of a controller reset, which only a write of USBCMD makes, and CONFIG's new value: `ResetClosed` and
`ConfigClosed` are asked where those two registers are written. -/
inductive HostMicro : State → State → Prop
  | free (s : State) (x : FreeSrc) : HostMicro s (s.withFree x)
  | record (s : State) (h : HostRec) (hi : h.initialized = s.host.initialized)
      (hr : h.running = s.host.running) (hl : h.lifecycle = s.host.lifecycle)
      (hp : h.pollCount = s.host.pollCount) : HostMicro s (s.withHost h)
  | life (s : State) (h : HostRec)
      (hi : h.initialized = true ↔ h.lifecycle = .ready ∨ h.lifecycle = .running)
      (hr : h.running = true ↔ h.lifecycle = .running)
      (hp : h.pollCount = s.host.pollCount) : HostMicro s (s.withHost h)
  | plat (s : State) (p : Platform) (hp : p.pci = s.plat.pci) (hf : p.heapFull = s.plat.heapFull)
      (hl : ∀ b ∈ p.live, b ∈ s.plat.live) : HostMicro s (s.withPlat p)
  | alloc (s : State) (p : Platform) (b : Block) (hp : p.pci = s.plat.pci)
      (hf : p.heapFull = s.plat.heapFull) (hl : p.live = b :: s.plat.live)
      (hb : b.base.toNat + b.size ≤ 2 ^ 64) :
      HostMicro s ((s.withPlat p).withMem (s.mem.zeroBytes b.base.toNat b.size))
  | ledger (s : State) (x : Ledger) : HostMicro s (s.withLedger x)
  | scramble (s : State) (b : Block) (bs : List Byte) (hb : b ∈ s.plat.live)
      (hl : bs.length = b.size) : HostMicro s (s.withMem (s.mem.writeBytes b.base bs))
  | store32 (s : State) (a : Addr) (v : Dword) : HostMicro s (s.withMem (s.mem.write32 a v))
  | usbcmd (s : State) (rs inte : Bool) (h : s.op.ready = true) :
      HostMicro s (s.withOp { s.op with rs := rs, inte := inte })
  | latch (s : State) (v : Qword) (h : s.op.ready = true) :
      HostMicro s (s.withOp { s.op with crcrLatch := v })
  | loadCr (s : State) (v : Qword) (h : s.cr.running = false) :
      HostMicro s (s.withCr (loadedCmdEngine s.cfg.bitpos v))
  | dcbaapLo (s : State) (v : Dword) (hr : s.op.ready = true) (h : v &&& 0x3F#32 = 0) :
      HostMicro s (s.withOp { s.op with dcbaap := withLo s.op.dcbaap v })
  | dcbaapHi (s : State) (v : Dword) (hr : s.op.ready = true) :
      HostMicro s (s.withOp { s.op with dcbaap := withHi s.op.dcbaap v })
  | portReset (s : State) (p : PortIx) (hr : s.op.ready = true) :
      HostMicro s (s.withPort p (s.ports.get p).resetBegun)
  | intr (s : State) (x : IntrRegs) (hr : s.op.ready = true) (h : x.erstba = s.intr.erstba)
      (hi : x.ip = true → s.intr.ip = true) : HostMicro s (s.withIntr x)
  | erstbaLo (s : State) (v : Dword) (hr : s.op.ready = true) (h : v &&& 0x3F#32 = 0) :
      HostMicro s (s.withIntr { s.intr with erstba := withLo s.intr.erstba v })
  | erstbaHi (s : State) (v : Dword) (hr : s.op.ready = true) :
      HostMicro s (s.withIntr { s.intr with erstba := withHi s.intr.erstba v })
  | loadEr (s : State) (base : Addr) (n : Nat) (hb : base &&& 0x3F#64 = 0) (h0 : n ≠ 0)
      (hn : n ≤ evtRingSize) (ha : base.toNat % segmentAlign n = 0) :
      HostMicro s (s.withEr { s.er with base := base, size := n, enq := 0, pcs := true })
  | ackLo (s : State) (v : Dword) (hr : s.op.ready = true) : HostMicro s (s.withEr (s.er.ackLo v))
  | ackHi (s : State) (v : Dword) (hr : s.op.ready = true) : HostMicro s (s.withEr (s.er.ackHi v))
  | ringCmd (s : State) (h : s.op.hch = false) :
      HostMicro s (s.withCr { s.cr with running := true })
  | ringEp0 (s : State) (i : SlotId) (h : s.op.hch = false) :
      HostMicro s (s.withXfer i ((s.tr.get i).map fun r => { r with running := true }))

/-- The poll counter set to a value within its bound (60_exceptions R392). -/
inductive Polled : State → State → Prop
  | set (s : State) (n : Nat) (h : n ≤ pollBudget) :
      Polled s (s.withHost { s.host with pollCount := n })

/-- Kept by every update of the controller's engines. -/
abbrev EngineClosed (P : State → Prop) : Prop := ∀ s t, EngineMicro s t → P s → P t

/-- Kept by every update of the controller and of ENV. -/
abbrev CtlClosed (P : State → Prop) : Prop := ∀ s t, CtlMicro s t → P s → P t

/-- Kept by every update of the host but the poll counter's. -/
abbrev HostClosed (P : State → Prop) : Prop := ∀ s t, HostMicro s t → P s → P t

/-- Kept by the poll counter's updates. -/
abbrev PollClosed (P : State → Prop) : Prop := ∀ s t, Polled s t → P s → P t

/-- Kept by the begin of a controller reset. -/
abbrev ResetClosed (P : State → Prop) : Prop :=
  ∀ s : State, s.op.ready = true → s.op.hch = true → P s → P (s.withOp s.op.resetBegun)

/-- Kept by a write of CONFIG. -/
abbrev ConfigClosed (P : State → Prop) : Prop :=
  ∀ (s : State) (v : BitVec 8), s.op.ready = true → v.toNat ≤ s.cfg.maxSlots.toNat → P s →
    P (s.withOp { s.op with maxSlotsEn := v })

variable {P : State → Prop} {α : Type}

theorem CtlClosed.reset (hC : CtlClosed P) : ResetClosed P :=
  fun _ hr hh hs => hC _ _ (.resetBegun _ hr hh) hs

theorem CtlClosed.engine (hC : CtlClosed P) : EngineClosed P := fun s t h => hC s t (.engine h)

/-! ### Draws and stores -/

theorem drawDword_keeps (hF : ∀ s x, P s → P (s.withFree x)) : Act.Keeps P drawDword := by
  intro s v t hs h
  obtain ⟨x, rfl⟩ := drawDword_eq_ok h
  exact hF _ _ hs

theorem drawBytes_keeps (hF : ∀ s x, P s → P (s.withFree x)) (n : Nat) :
    Act.Keeps P (drawBytes n) := by
  intro s v t hs h
  obtain ⟨-, x, rfl⟩ := drawBytes_eq_ok h
  exact hF _ _ hs

theorem drawControl_keeps (hE : EngineClosed P) : Act.Keeps P drawControl := by
  intro s a t hs h
  unfold drawControl at h
  split at h <;> cases h
  · exact hE _ _ (.env _ _) hs
  · exact hE _ _ (.free _ _) hs

theorem openRead_keeps (hF : ∀ s x, P s → P (s.withFree x)) (m f : Dword) :
    Act.Keeps P (openRead m f) :=
  .bind (drawDword_keeps hF) fun _ => .pure _

theorem ctlStore_keeps (hE : EngineClosed P) (a : Addr) (bs : List Byte) :
    Act.Keeps P (ctlStore a bs) := by
  refine .get_bind fun s b u hs hr => ?_
  obtain ⟨_, t, h1, h2⟩ := Act.bind_eq_ok.1 hr
  obtain ⟨-, rfl⟩ := refuseIf_eq_ok.1 h1
  cases h2
  exact hE _ _ (.store _ _ _) hs

theorem raiseEvent_keeps (hE : EngineClosed P) (t : Trb) : Act.Keeps P (raiseEvent t) := by
  intro s a u hs h
  obtain ⟨-, rfl⟩ := raiseEvent_eq_ok.1 h
  exact hE _ _ (.raised _) (hE _ _ (.trb _ _ _) hs)

end Sys2Proof.Machine
end

