-- ==== Sys2Proof/Laws/Keeps.lean ====
section
/-! SUPPORT. Every action, and so every step, keeps a property that every update of `CtlMicro`,
`HostMicro` and `Polled` keeps. The host's actions are stated over what the moves between its
accesses keep (`gap`), so that a schedule without moves needs nothing of the controller. -/

namespace Sys2Proof.Machine

open Config

variable {P : State → Prop} {α : Type}

/-! ### Registers -/

/-- What the write gate answers. -/
theorem writable_eq_ok {s t : State} : writable s = .ok ((), t) ↔ s.op.ready = true ∧ t = s := by
  unfold writable
  rw [Act.get_bind]
  exact require_eq_ok

/-- Behind the write gate the controller is ready and the state is the same. -/
theorem writable_bind_keeps {f : Unit → Act α}
    (h : ∀ s, P s → s.op.ready = true → ∀ a u, f () s = .ok (a, u) → P u) :
    Act.Keeps P (writable >>= f) := by
  intro s a u hs hr
  obtain ⟨_, t, h1, h2⟩ := Act.bind_eq_ok.1 hr
  obtain ⟨hw, rfl⟩ := writable_eq_ok.1 h1
  exact h _ hs hw a u h2

/-- Behind a requirement its condition holds and the state is the same. -/
theorem require_bind_keeps {f : Unit → Act α} {s : State} {c : Bool} {r : Refusal}
    (h : c = true → ∀ a u, f () s = .ok (a, u) → P u) :
    ∀ a u, (require c r >>= f) s = .ok (a, u) → P u := by
  intro a u hr
  obtain ⟨_, t, h1, h2⟩ := Act.bind_eq_ok.1 hr
  obtain ⟨hc, rfl⟩ := require_eq_ok.1 h1
  exact h hc a u h2

theorem readField_keeps (f : State → Dword) : Act.Keeps P (readField f) :=
  .get_bind fun _ _ _ hs h => by cases h; exact hs

theorem readEffect_keeps (hF : ∀ s x, P s → P (s.withFree x)) (i : Instr) :
    Act.Keeps P (readEffect i) := by
  have hr : ∀ m f, Act.Keeps P (openRead m f) := openRead_keeps hF
  have hd : Act.Keeps P drawDword := drawDword_keeps hF
  cases i
  case rdUsbcmd | rdUsbsts | rdConfig | rdIman | rdErstsz | rdErdpLo =>
    exact .bind .get fun _ => hr _ _
  case rdCap0 | rdHcsparams1 | rdDboff | rdRtsoff | rdDcbaapLo | rdDcbaapHi | rdErstbaLo | rdErstbaHi | rdErdpHi =>
    exact readField_keeps _
  case rdCrcrLo | rdCrcrHi => exact hd
  case rdPortsc p => exact .bind .get fun _ => .bind (.require _ _) fun _ => hr _ _
  case rdDb i => exact .bind .get fun _ => .bind (.require _ _) fun _ => hd
  all_goals exact .refuse _

/-- A write that only updates the state, behind the gate. -/
theorem writable_modify_keeps {f : State → State}
    (h : ∀ s, P s → s.op.ready = true → P (f s)) :
    Act.Keeps P (writable >>= fun _ => modify f) :=
  writable_bind_keeps fun s hs hw _ _ hr => by cases hr; exact h s hs hw

theorem writeUsbcmd_keeps (hH : HostClosed P) (hR : ResetClosed P) (v : Dword) :
    Act.Keeps P (writeUsbcmd v) := by
  refine writable_bind_keeps fun s hs hw a u h => ?_
  rw [Act.get_bind] at h
  split at h
  · refine require_bind_keeps (fun hc a u h => ?_) a u h
    cases h
    exact hR _ hw hc hs
  · cases h
    exact hH _ _ (.usbcmd _ _ _ hw) hs

theorem writeCrcrHi_keeps (hH : HostClosed P) (v : Dword) : Act.Keeps P (writeCrcrHi v) := by
  refine writable_bind_keeps fun s hs hw a u h => ?_
  rw [Act.get_bind] at h
  cases h
  have h1 := hH _ _ (.latch s (withHi s.op.crcrLatch v) hw) hs
  split
  · exact h1
  · exact hH _ _ (.loadCr _ _ (by simpa using ‹¬s.cr.running = true›)) h1

theorem writeDcbaapLo_keeps (hH : HostClosed P) (v : Dword) : Act.Keeps P (writeDcbaapLo v) := by
  refine writable_bind_keeps fun s hs hw a u h => ?_
  refine require_bind_keeps (fun hc a u h => ?_) a u h
  cases h
  exact hH _ _ (.dcbaapLo _ _ hw (by simpa using hc)) hs

theorem writeConfig_keeps (hC : ConfigClosed P) (v : Dword) : Act.Keeps P (writeConfig v) := by
  refine writable_bind_keeps fun s hs hw a u h => ?_
  rw [Act.get_bind] at h
  refine require_bind_keeps (fun hc a u h => ?_) a u h
  cases h
  exact hC _ _ hw (by simpa using hc) hs

theorem writePortsc_keeps (hH : HostClosed P) (p : PortIx) (v : Dword) :
    Act.Keeps P (writePortsc p v) := by
  refine .get_bind fun s a u hs h => ?_
  refine require_bind_keeps (fun _ a u h => ?_) a u h
  obtain ⟨_, t, h1, h2⟩ := Act.bind_eq_ok.1 h
  obtain ⟨hw, rfl⟩ := writable_eq_ok.1 h1
  split at h2
  · cases h2
    exact hH _ _ (.portReset _ _ hw) hs
  · cases h2
    exact hs

theorem writeErstbaLo_keeps (hH : HostClosed P) (v : Dword) : Act.Keeps P (writeErstbaLo v) := by
  refine writable_bind_keeps fun s hs hw a u h => ?_
  refine require_bind_keeps (fun hc a u h => ?_) a u h
  cases h
  exact hH _ _ (.erstbaLo _ _ hw (by simpa using hc)) hs

theorem loadEventRing_keeps (hH : HostClosed P) (e : Addr) : Act.Keeps P (loadEventRing e) := by
  refine .get_bind fun s a u hs h => ?_
  refine require_bind_keeps (fun hb a u h => ?_) a u h
  refine require_bind_keeps (fun hn a u h => ?_) a u h
  refine require_bind_keeps (fun ha a u h => ?_) a u h
  cases h
  simp only [Bool.and_eq_true, bne_iff_ne, ne_eq, decide_eq_true_eq] at hn
  refine hH _ _ (.loadEr _ _ _ (by simpa using hb) (fun h0 => hn.1 ?_) hn.2 (by simpa using ha)) hs
  exact BitVec.eq_of_toNat_eq h0

theorem writeErstbaHi_keeps (hH : HostClosed P) (v : Dword) : Act.Keeps P (writeErstbaHi v) := by
  refine writable_bind_keeps fun s hs hw a u h => ?_
  rw [Act.get_bind, Act.set_bind] at h
  have h1 := hH _ _ (.erstbaHi s v hw) hs
  split at h
  · cases h
    exact h1
  · exact require_bind_keeps (fun _ a u h => loadEventRing_keeps hH _ _ a u h1 h) a u h

theorem writeDb0_keeps (hH : HostClosed P) (v : Dword) : Act.Keeps P (writeDb0 v) := by
  refine writable_bind_keeps fun s hs hw a u h => ?_
  rw [Act.get_bind] at h
  split at h
  · cases h
    exact hs
  · refine require_bind_keeps (fun _ a u h => ?_) a u h
    cases h
    exact hH _ _ (.ringCmd _ (by simpa using ‹¬s.op.hch = true›)) hs

theorem writeDbi_keeps (hH : HostClosed P) (i : SlotId) (v : Dword) :
    Act.Keeps P (writeDbi i v) := by
  refine .get_bind fun s a u hs h => ?_
  refine require_bind_keeps (fun _ a u h => ?_) a u h
  obtain ⟨_, t, h1, h2⟩ := Act.bind_eq_ok.1 h
  obtain ⟨-, rfl⟩ := writable_eq_ok.1 h1
  split at h2
  · cases h2
    exact hs
  · rename_i hn
    refine require_bind_keeps (fun _ a u h => ?_) a u h2
    cases h
    refine hH _ _ (.ledger _ _) (hH _ _ (.ringEp0 _ _ ?_) hs)
    revert hn
    cases t.op.hch <;> simp

theorem writeDoorbell_keeps (hH : HostClosed P) (i : SlotId) (v : Dword) :
    Act.Keeps P (writeDoorbell i v) := by
  unfold writeDoorbell
  split
  · exact writeDb0_keeps hH v
  · exact writeDbi_keeps hH i v

/-- Every register write, but those of USBCMD and CONFIG, keeps what the host's updates keep. -/
theorem writeEffect_keeps (hH : HostClosed P) (i : Instr) (hR : i.writesUsbcmd → ResetClosed P)
    (hC : i.writesConfig → ConfigClosed P) : Act.Keeps P (writeEffect i) := by
  cases i
  case wrCap => exact .pure _
  case wrUsbcmd v => exact writeUsbcmd_keeps hH (hR trivial) v
  case wrUsbsts =>
    intro s a u hs h
    obtain ⟨-, rfl⟩ := writable_eq_ok.1 h
    exact hs
  case wrCrcrLo v => exact writable_modify_keeps fun s hs hw => hH _ _ (.latch _ _ hw) hs
  case wrCrcrHi v => exact writeCrcrHi_keeps hH v
  case wrDcbaapLo v => exact writeDcbaapLo_keeps hH v
  case wrDcbaapHi v => exact writable_modify_keeps fun s hs hw => hH _ _ (.dcbaapHi _ _ hw) hs
  case wrConfig v => exact writeConfig_keeps (hC trivial) v
  case wrPortsc p v => exact writePortsc_keeps hH p v
  case wrIman v =>
    exact writable_modify_keeps fun s hs hw =>
      hH _ _ (.intr _ _ hw rfl fun h => (Bool.and_eq_true _ _ ▸ h : _ ∧ _).1) hs
  case wrErstsz v =>
    exact writable_modify_keeps fun s hs hw => hH _ _ (.intr _ _ hw rfl fun h => h) hs
  case wrErstbaLo v => exact writeErstbaLo_keeps hH v
  case wrErstbaHi v => exact writeErstbaHi_keeps hH v
  case wrErdpLo v => exact writable_modify_keeps fun s hs hw => hH _ _ (.ackLo _ _ hw) hs
  case wrErdpHi v => exact writable_modify_keeps fun s hs hw => hH _ _ (.ackHi _ _ hw) hs
  case wrDb0 v => exact writeDb0_keeps hH v
  case wrDbi i v => exact writeDoorbell_keeps hH i v
  all_goals exact .refuse _

/-! ### Commands -/

theorem retireCommand_keeps (hE : EngineClosed P) {m : Act Completion} (hm : Act.Keeps P m) :
    Act.Keeps P (retireCommand m) := by
  refine .get_bind fun s a u hs h => ?_
  rw [Act.set_bind] at h
  exact Act.Keeps.bind hm (fun _ => raiseEvent_keeps hE _) _ a u
    (hE _ _ (.cmdAdvance s.noteRetired) (hE _ _ (.ledger s _) hs)) h

theorem consumeCommand_keeps (hE : EngineClosed P) (c : Bool) {m : Act Completion}
    (hm : Act.Keeps P m) : Act.Keeps P (consumeCommand c m) := by
  refine .get_bind fun s a u hs h => ?_
  beta_reduce at h
  split at h
  · cases h; exact hs
  · split at h
    · cases h; exact hE _ _ (.cmdStop s) hs
    · split at h
      · cases h; exact hs
      · exact retireCommand_keeps hE hm s a u hs h

theorem executeNoop_keeps : Act.Keeps P executeNoop :=
  .get_bind fun _ _ _ hs h => by cases h; exact hs

theorem executeOther_keeps : Act.Keeps P executeOther :=
  .get_bind fun _ _ _ hs h => by cases h; exact hs

theorem executeEnableSlot_keeps (hE : EngineClosed P) : Act.Keeps P executeEnableSlot := by
  refine .of_get fun s hs => ?_
  split
  · exact .stay hs
  · rename_i hne
    refine .bind fun v t h1 => ?_
    obtain ⟨x, rfl⟩ := drawDword_eq_ok h1
    intro a u h
    rw [Act.modify_bind] at h
    cases h
    exact hE _ _ (.slotEnable _ _ (pick_mem (l := s.freeSlotIds) hne)) (hE _ _ (.free s x) hs)

/-- The ring pointer's low 12 bits are cleared where the transfer engine is loaded. -/
theorem loadedXferRing_base (l : CtxLayout) (bs : List Byte) :
    LowZero (loadedXferRing l bs).base 12 := by
  show ((ctxRingPointer l bs) &&& ~~~(BitVec.ofNat 64 4095)).toNat % 2 ^ 12 = 0
  have h : ∀ x : BitVec 64, (x &&& ~~~(BitVec.ofNat 64 4095)).extractLsb' 0 12 = 0 := by
    intro x
    ext i hi
    simp only [BitVec.getElem_extractLsb', BitVec.getLsbD_and, BitVec.getLsbD_not]
    have : (BitVec.ofNat 64 4095).getLsbD (0 + i) = true := by
      interval_cases i <;> rfl
    simp
    intro h1 h2
    simp_all
  have := congrArg BitVec.toNat (h (ctxRingPointer l bs))
  simpa [BitVec.extractLsb'_toNat] using this

/-- Address Device's effect: the device context stored, the slot addressed, its engine loaded. -/
theorem installDevice_keeps (hE : EngineClosed P) {n : SlotId} {dc : Addr} {a : BitVec 7}
    {sctx ectx : List Byte} {s u : State} {x : Unit} (hs : P s)
    (hn : (s.slots.get n).state = .enabled) (ha : a ∈ s.freeAddresses n)
    (h : installDevice n dc a sctx ectx s = .ok (x, u)) : P u := by
  unfold installDevice at h
  rw [Act.get_bind] at h
  refine require_bind_keeps (fun _ a u h => ?_) x u h
  obtain ⟨_, t', h3, h4⟩ := Act.bind_eq_ok.1 h
  obtain ⟨-, rfl⟩ := ctlStore_eq_ok.1 h3
  cases h4
  exact hE _ _ (.install _ _ _ _ _ hn ha rfl (loadedXferRing_base _ _) rfl)
    (hE _ _ (.store _ _ _) hs)

theorem addressDeviceEarlyError_none {s : State} {n : SlotId}
    (h : addressDeviceEarlyError s n = none) :
    n ≠ 0 ∧ n.toNat ≤ s.op.maxSlotsEn.toNat ∧ (s.slots.get n).state = .enabled := by
  unfold addressDeviceEarlyError at h
  split at h
  · cases h
  · rename_i hn
    push Not at hn
    refine ⟨hn.1, hn.2, ?_⟩
    split at h
    · cases h
    · cases h
    · assumption

theorem executeAddressDevice_keeps (hE : EngineClosed P) (n : SlotId) (ic : Addr) :
    Act.Keeps P (executeAddressDevice n ic) := by
  refine .of_get fun s hs => ?_
  split
  · exact .stay hs
  · rename_i herr
    obtain ⟨-, -, hn⟩ := addressDeviceEarlyError_none herr
    refine .require fun _ => .require fun _ => ?_
    dsimp only
    split
    · exact .stay hs
    · refine .bind fun ok t' h3 => ?_
      have key : P t' ∧ t'.slots = s.slots := by
        obtain ⟨x, rfl⟩ | ⟨x, rfl⟩ := drawSetAddress_eq_ok h3
        · exact ⟨hE _ _ (.env _ _) hs, rfl⟩
        · exact ⟨hE _ _ (.free _ _) hs, rfl⟩
      obtain ⟨hp, hsl⟩ := key
      split
      · exact .stay hp
      · split
        · exact .stay hp
        · rename_i hne
          refine .bind fun v t'' h5 => ?_
          obtain ⟨x, rfl⟩ := drawDword_eq_ok h5
          refine .bind fun _ w h7 => .stay ?_
          refine installDevice_keeps hE (hE _ _ (.free _ x) hp) ?_ ?_ h7
          · simpa [hsl] using hn
          · have : State.freeAddresses (t'.withFree x) n = s.freeAddresses n := by
              simp [State.freeAddresses, hsl]
            rw [this]
            exact pick_mem (l := s.freeAddresses n) hne

theorem executeTrb_keeps (hE : EngineClosed P) (t : Trb) : Act.Keeps P (executeTrb t) := by
  refine .bind .get fun s => ?_
  dsimp only
  split
  · exact executeNoop_keeps
  · split
    · exact executeEnableSlot_keeps hE
    · split
      · exact executeAddressDevice_keeps hE _ _
      · repeat' split
        all_goals first
          | exact .refuse _
          | exact executeOther_keeps

theorem commandStep_keeps (hE : EngineClosed P) : Act.Keeps P commandStep :=
  .bind .get fun _ => consumeCommand_keeps hE _ (executeTrb_keeps hE _)

/-! ### Transfers -/

theorem raiseTransfer_keeps (hE : EngineClosed P) (i : SlotId) (a : Addr) (c : BitVec 8) (n : Nat) :
    Act.Keeps P (raiseTransfer i a c n) :=
  .bind .get fun _ => raiseEvent_keeps hE _

theorem applyAnswer_keeps (hE : EngineClosed P) (i : SlotId) (q : Request) (addr : Nat → Addr)
    (buf : Addr) (a : ControlAnswer) : Act.Keeps P (applyAnswer i q addr buf a) := by
  cases a with
  | ok data =>
    refine .bind .get fun s => ?_
    dsimp only
    split
    · exact .bind (ctlStore_keeps hE _ _) fun _ => raiseTransfer_keeps hE _ _ _ _
    · exact raiseTransfer_keeps hE _ _ _ _
  | short m data =>
    unfold applyAnswer
    refine Act.Keeps.bind Act.Keeps.get fun s => ?_
    refine Act.Keeps.bind (m := ctlStore buf data) (ctlStore_keeps hE _ _) fun _ => ?_
    exact Act.Keeps.bind (raiseTransfer_keeps hE _ _ _ _) fun _ => raiseTransfer_keeps hE _ _ _ _
  | error st code =>
    refine .bind .get fun s => ?_
    dsimp only
    split
    · exact .bind (drawBytes_keeps (fun s x h => hE _ _ (.free s x) h) _) fun _ =>
        .bind (ctlStore_keeps hE _ _) fun _ => raiseTransfer_keeps hE _ _ _ _
    · exact raiseTransfer_keeps hE _ _ _ _

theorem drawAnswer_keeps (hE : EngineClosed P) (i : SlotId) (q : Request) :
    Act.Keeps P (drawAnswer i q) := by
  refine .bind .get fun s => .bind (drawControl_keeps hE) fun _ => ?_
  refine .get_bind fun t a u ht h => ?_
  cases h
  exact hE _ _ (.free _ _) ht

/-- The transfer engine's step is enabled only where the slot has an engine. -/
theorem State.transferOn_eq_some {s : State} {i : SlotId} {r : XferRing}
    (h : s.transferOn i = some r) :
    s.tr.get i = some r ∧ s.op.hch = false ∧ s.isAddressed i = true ∧ r.running = true := by
  unfold State.transferOn at h
  split at h
  · rename_i r' hr
    split at h
    · rename_i hc
      cases h
      simp only [Bool.and_eq_true, Bool.not_eq_true'] at hc
      exact ⟨hr, hc.1.1, hc.1.2, hc.2⟩
    · cases h
  · cases h

theorem consumeTransfer_keeps (hE : EngineClosed P) (i : SlotId) (t0 t1 t2 : Trb) :
    Act.Keeps P (consumeTransfer i t0 t1 t2) := by
  refine .of_get fun s hs => ?_
  split
  · exact .stay hs
  · rename_i r hr
    obtain ⟨htr, -⟩ := State.transferOn_eq_some hr
    have stop : Act.Leads P (stopXfer i r) s := by
      intro a u h
      cases h
      exact hE _ _ (.xferStop _ _ _ htr) hs
    split
    · exact stop
    · split
      · exact .refuse
      · split
        · exact stop
        · split
          · exact .refuse
          · split
            · exact .stay hs
            · intro a u h
              unfold serveTransfer at h
              rw [Act.modify_bind] at h
              exact Act.Keeps.bind (drawAnswer_keeps hE _ _)
                (fun _ => applyAnswer_keeps hE _ _ _ _ _) _ a u
                (hE _ _ (.xferAdvance (s.noteConsumed i r _) _ _ _ htr)
                  (hE _ _ (.ledger s _) hs)) h

theorem transferStep_keeps (hE : EngineClosed P) (i : SlotId) : Act.Keeps P (transferStep i) :=
  .bind .get fun _ => consumeTransfer_keeps hE _ _ _ _

/-! ### The controller's other steps -/

theorem portEventStep_keeps (hC : CtlClosed P) (p : PortIx) : Act.Keeps P (portEventStep p) := by
  refine .bind .get fun s => ?_
  split
  · exact .bind (raiseEvent_keeps hC.engine _) fun _ =>
      .modify fun s hs => hC _ _ (.pscClear _ _) hs
  · exact .pure _

theorem raiseStep_keeps (hE : EngineClosed P) (e : Trb) : Act.Keeps P (raiseStep e) := by
  refine .bind .get fun s => ?_
  split
  · exact raiseEvent_keeps hE _
  · exact .pure _

theorem haltStep_keeps (hC : CtlClosed P) : Act.Keeps P haltStep :=
  .modify fun s hs => by
    split
    · exact hC _ _ (.halt _ ‹_›) hs
    · exact hs

theorem resetCompleteStep_keeps (hC : CtlClosed P) : Act.Keeps P resetCompleteStep :=
  .modify fun s hs => by
    split
    · exact hC _ _ (.controllerReset _ ‹_›) hs
    · exact hs

theorem readyStep_keeps (hC : CtlClosed P) : Act.Keeps P readyStep :=
  .modify fun s hs => by
    split
    · exact hC _ _ (.ready _ ‹_›) hs
    · exact hs

theorem startStep_keeps (hC : CtlClosed P) : Act.Keeps P startStep :=
  .modify fun s hs => by
    split
    · exact hC _ _ (.start _ ‹_›) hs
    · exact hs

theorem resetBeginStep_keeps (hC : CtlClosed P) : Act.Keeps P resetBeginStep := by
  refine writable_bind_keeps fun s hs hw a u h => ?_
  rw [Act.get_bind] at h
  refine require_bind_keeps (fun hc a u h => ?_) a u h
  cases h
  exact hC _ _ (.resetBegun _ hw hc) hs

theorem portAttachStep_keeps (hC : CtlClosed P) (p : PortIx) (v : BitVec 4) :
    Act.Keeps P (portAttachStep p v) :=
  .modify fun s hs => by
    split
    · rename_i h
      simp only [Bool.and_eq_true, Bool.not_eq_true'] at h
      exact hC _ _ (.attach _ _ _ h.2) hs
    · exact hs

theorem portDetachStep_keeps (hC : CtlClosed P) (p : PortIx) : Act.Keeps P (portDetachStep p) :=
  .modify fun s hs => by
    split
    · rename_i h
      simp only [Bool.and_eq_true] at h
      exact hC _ _ (.detach _ _ h.2) hs
    · exact hs

theorem portResetCompleteStep_keeps (hC : CtlClosed P) (p : PortIx) :
    Act.Keeps P (portResetCompleteStep p) :=
  .modify fun s hs => by
    split
    · exact hC _ _ (.portDone _ _ ‹_›) hs
    · exact hs

theorem moveStep_keeps (hC : CtlClosed P) (m : CtlMove) : Act.Keeps P (moveStep m) := by
  cases m with
  | halt => exact haltStep_keeps hC
  | resetComplete => exact resetCompleteStep_keeps hC
  | ready => exact readyStep_keeps hC
  | start => exact startStep_keeps hC
  | command => exact commandStep_keeps hC.engine
  | transfer i => exact transferStep_keeps hC.engine i
  | portAttach p v => exact portAttachStep_keeps hC p v
  | portDetach p => exact portDetachStep_keeps hC p
  | portResetComplete p => exact portResetCompleteStep_keeps hC p
  | portEvent p => exact portEventStep_keeps hC p

theorem moveSteps_keeps (hC : CtlClosed P) (l : List CtlMove) : Act.Keeps P (moveSteps l) := by
  induction l with
  | nil => exact .pure _
  | cons m r ih => exact .bind (moveStep_keeps hC m) fun _ => ih

/-- The moves between two host accesses keep what the controller's updates keep. -/
theorem gap_keeps (hC : CtlClosed P)
    (hT : ∀ s x, P s → P (s.withSched { s.sched with turns := x })) : Act.Keeps P gap := by
  refine .of_get fun s hs => ?_
  split
  · exact .stay hs
  · exact .bind fun _ t h1 => by
      cases h1
      exact (moveSteps_keeps hC _).leads (hT s _ hs)

/-! ### Host accesses -/

/-- What the host's actions need of a property: that the host's updates and the moves between its
accesses keep it. -/
structure HostKeeps (P : State → Prop) : Prop where
  host : HostClosed P
  gap : Act.Keeps P gap

section Host

variable (hK : HostKeeps P)

include hK

theorem hostRecord_keeps {f : HostRec → HostRec}
    (h : ∀ x, (f x).initialized = x.initialized ∧ (f x).running = x.running ∧
      (f x).lifecycle = x.lifecycle ∧ (f x).pollCount = x.pollCount) :
    Act.Keeps P (setHost f) :=
  .modify fun s hs =>
    hK.host _ _ (.record s _ (h _).1 (h _).2.1 (h _).2.2.1 (h _).2.2.2) hs

theorem answer_keeps (r : HostResult) : Act.Keeps P (answer r) :=
  .answer r fun s hs => hK.host _ _ (.record s _ rfl rfl rfl rfl) hs

theorem answering_keeps {f : α → HostResult} {m : Act α} (hm : Act.Keeps P m) :
    Act.Keeps P (answering f m) :=
  .bind hm fun _ => answer_keeps hK _

theorem addressAccess_keeps (b : RegBlock) (off : Dword) : Act.Keeps P (addressAccess b off) := by
  refine .get_bind fun s a u hs h => ?_
  refine require_bind_keeps (fun _ a u h => ?_) a u h
  cases h
  exact hK.host _ _ (.record s _ rfl rfl rfl rfl) hs

omit hK in
theorem selectAccess_keeps (a : Access) : Act.Keeps P (selectAccess a) := by
  refine .bind .get fun s => ?_
  split
  · exact .pure _
  · exact .refuse _

theorem regRead32_keeps (b : RegBlock) (off : Dword) : Act.Keeps P (regRead32 b off) :=
  .bind hK.gap fun _ => .bind (addressAccess_keeps hK b off) fun _ =>
    .bind (selectAccess_keeps _) fun i =>
      readEffect_keeps (fun s x hs => hK.host _ _ (.free s x) hs) i

omit hK in
/-- Only an access of the operational block at offset 0 is a write of USBCMD. -/
theorem decodeAccess_usbcmd {c : Params} {b : RegBlock} {off v : Dword} {i : Instr}
    (h : decodeAccess c ⟨b, off, some v⟩ = .ok i) (hi : i.writesUsbcmd) : b = .op ∧ off = 0 := by
  unfold decodeAccess at h
  split at h
  · cases h
  · cases b <;> dsimp only at h <;> cases h
    · unfold decodeCap at hi
      dsimp only at hi
      split_ifs at hi <;> cases hi
    · refine ⟨rfl, ?_⟩
      unfold decodeOp at hi
      dsimp only at hi
      split_ifs at hi with h0
      · exact h0
      all_goals first
        | cases hi
        | (split at hi <;> cases hi)
    · unfold decodeRt at hi
      dsimp only at hi
      split_ifs at hi <;> cases hi
    · unfold decodeDb at hi
      dsimp only at hi
      split at hi
      · split_ifs at hi <;> cases hi
      · cases hi

omit hK in
/-- Only an access of the operational block at offset 0x38 is a write of CONFIG. -/
theorem decodeAccess_config {c : Params} {b : RegBlock} {off v : Dword} {i : Instr}
    (h : decodeAccess c ⟨b, off, some v⟩ = .ok i) (hi : i.writesConfig) : b = .op ∧ off = 0x38 := by
  unfold decodeAccess at h
  split at h
  · cases h
  · cases b <;> dsimp only at h <;> cases h
    · unfold decodeCap at hi
      dsimp only at hi
      split_ifs at hi <;> cases hi
    · refine ⟨rfl, ?_⟩
      unfold decodeOp at hi
      dsimp only at hi
      split_ifs at hi with h1 h2 h3 h4 h5 h6 h7
      all_goals first
        | assumption
        | cases hi
        | (split at hi <;> cases hi)
    · unfold decodeRt at hi
      dsimp only at hi
      split_ifs at hi <;> cases hi
    · unfold decodeDb at hi
      dsimp only at hi
      split at hi
      · split_ifs at hi <;> cases hi
      · cases hi

/-- What a write at a register's offset needs: USBCMD's reset, CONFIG's value. -/
structure WriteKeeps (P : State → Prop) (b : RegBlock) (off : Dword) : Prop where
  usbcmd : b = .op → off = 0 → ResetClosed P
  config : b = .op → off = 0x38 → ConfigClosed P

omit hK in
/-- A write at any other offset needs neither. -/
theorem WriteKeeps.other {b : RegBlock} {off : Dword} (h : ¬(b = .op ∧ (off = 0 ∨ off = 0x38))) :
    WriteKeeps P b off :=
  ⟨fun hb ho => absurd ⟨hb, .inl ho⟩ h, fun hb ho => absurd ⟨hb, .inr ho⟩ h⟩

theorem regWrite32_keeps (b : RegBlock) (off v : Dword) (hW : WriteKeeps P b off) :
    Act.Keeps P (regWrite32 b off v) := by
  refine .bind hK.gap fun _ => .bind (addressAccess_keeps hK b off) fun _ => ?_
  intro s x u hs h
  obtain ⟨i, t, h1, h2⟩ := Act.bind_eq_ok.1 h
  have ht := selectAccess_keeps (P := P) _ s i t hs h1
  have hd : decodeAccess s.cfg ⟨b, off, some v⟩ = .ok i := by
    unfold selectAccess at h1
    rw [Act.get_bind] at h1
    cases hd : decodeAccess s.cfg ⟨b, off, some v⟩ with
    | ok j => simp only [hd] at h1; cases h1; rfl
    | error e => simp only [hd] at h1; cases h1
  refine writeEffect_keeps hK.host i (fun hi => ?_) (fun hi => ?_) t x u ht h2
  · obtain ⟨h3, h4⟩ := decodeAccess_usbcmd hd hi
    exact hW.usbcmd h3 h4
  · obtain ⟨h3, h4⟩ := decodeAccess_config hd hi
    exact hW.config h3 h4

theorem regRead64_keeps (b : RegBlock) (off : Dword) : Act.Keeps P (regRead64 b off) :=
  .bind (.require _ _) fun _ => .bind (regRead32_keeps hK b off) fun _ =>
    .bind (regRead32_keeps hK b _) fun _ => .pure _

theorem regWrite64_keeps (b : RegBlock) (off : Dword) (v : Qword) (hW : WriteKeeps P b off) :
    Act.Keeps P (regWrite64 b off v) := by
  intro s x u hs h
  refine require_bind_keeps (fun ha x u h => ?_) x u h
  have h4 : ¬(b = .op ∧ (off + 4 = 0 ∨ off + 4 = 0x38)) := by
    rintro ⟨-, e | e⟩
    · have e1 : off = -4 := by bv_omega
      subst e1
      exact absurd ha (by decide)
    · have e1 : off = 0x34 := by bv_omega
      subst e1
      exact absurd ha (by decide)
  exact Act.Keeps.bind (regWrite32_keeps hK b off _ hW)
    (fun _ => regWrite32_keeps hK b _ _ (.other h4)) s x u hs h

theorem regUpdate32_keeps (b : RegBlock) (off : Dword) (f : Dword → Dword)
    (hW : WriteKeeps P b off) : Act.Keeps P (regUpdate32 b off f) :=
  .bind (regRead32_keeps hK b off) fun _ => regWrite32_keeps hK b off _ hW

theorem ringCommandDoorbell_keeps : Act.Keeps P ringCommandDoorbell :=
  regWrite32_keeps hK .db 0 0 (.other nofun)

theorem ringEp0Doorbell_keeps (k : SlotId) : Act.Keeps P (ringEp0Doorbell k) :=
  .bind .get fun _ => regWrite32_keeps hK _ _ _ (.other nofun)

theorem hostLoad32_keeps (a : Addr) : Act.Keeps P (hostLoad32 a) :=
  .bind hK.gap fun _ => .bind .get fun _ => .bind (.refuseIf _) fun _ => .pure _

theorem hostStore32_keeps (a : Addr) (v : Dword) : Act.Keeps P (hostStore32 a v) := by
  intro s x u hs h
  obtain ⟨-, rfl⟩ := hostStore32_eq_ok.1 h
  exact hK.host _ _ (.store32 _ _ _) hs

theorem hostPut32_keeps (a : Addr) (v : Dword) : Act.Keeps P (hostPut32 a v) :=
  .bind hK.gap fun _ => hostStore32_keeps hK a v

theorem hostPut64_keeps (a : Addr) (v : Qword) : Act.Keeps P (hostPut64 a v) :=
  .bind (hostPut32_keeps hK a _) fun _ => hostPut32_keeps hK _ _

theorem storeTrb_keeps (a : Addr) (t : Trb) (c : Bool) : Act.Keeps P (storeTrb a t c) :=
  .bind (hostStore32_keeps hK _ _) fun _ => .bind (hostPut32_keeps hK _ _) fun _ =>
    .bind (hostPut32_keeps hK _ _) fun _ => .bind (hostPut32_keeps hK _ _) fun _ =>
      hostPut32_keeps hK _ _

theorem accountFor_keeps (f : Ledger → Ledger) : Act.Keeps P (accountFor f) :=
  .modify fun s hs => hK.host _ _ (.ledger s _) hs

theorem enqueueOn_keeps (r : Ring) (full : State → Bool) (t : Trb) :
    Act.Keeps P (enqueueOn r full t) :=
  .bind (.require _ _) fun _ => .bind hK.gap fun _ => .bind .get fun _ =>
    .bind (.require _ _) fun _ => storeTrb_keeps hK _ _ _

theorem postCommand_keeps (t : Trb) : Act.Keeps P (postCommand t) :=
  .bind .get fun _ => .bind (enqueueOn_keeps hK _ _ _) fun _ =>
    .bind (accountFor_keeps hK _) fun _ =>
      .bind (hostRecord_keeps hK fun _ => ⟨rfl, rfl, rfl, rfl⟩) fun _ =>
        ringCommandDoorbell_keeps hK

theorem ep0Enqueue_keeps (k : SlotId) (t : Trb) : Act.Keeps P (ep0Enqueue k t) :=
  .bind .get fun _ => .bind (enqueueOn_keeps hK _ _ _) fun _ =>
    .bind (accountFor_keeps hK _) fun _ => hostRecord_keeps hK fun _ => ⟨rfl, rfl, rfl, rfl⟩

theorem handBack_keeps (a : Addr) {s : State} (hs : P s) : P (handBack a s) :=
  hK.host _ _ (.ledger s _) hs

theorem recordTransfer_keeps (e : TransferEvent) {s : State} (hs : P s) :
    P (recordTransfer e s) := by
  have h1 := hK.host _ _ (.record s { s.host with
    lastTransfer := ⟨e.code, e.residual, e.slot, e.ep, e.trbPtr, true⟩ } rfl rfl rfl rfl) hs
  unfold recordTransfer
  dsimp only
  split
  · exact h1
  · exact handBack_keeps hK _ h1

theorem recordCompletion_keeps (e : CompletionEvent) {s : State} (hs : P s) :
    P (recordCompletion e s) :=
  handBack_keeps hK _ (hK.host _ _ (.record s _ rfl rfl rfl rfl) hs)

theorem recordPort_keeps (e : PortEvent) {s : State} (hs : P s) : P (recordPort e s) :=
  hK.host _ _ (.record s _ rfl rfl rfl rfl) hs

theorem recordTrb_keeps (c : TypeCodes) (t : Trb) {s : State} (hs : P s) :
    P (recordTrb c t s) := by
  unfold recordTrb
  split
  · exact recordTransfer_keeps hK _ hs
  · split
    · exact recordCompletion_keeps hK _ hs
    · split
      · exact recordPort_keeps hK _ hs
      · exact hs

theorem consumeValid_keeps {f : State → State} (hf : ∀ s, P s → P (f s)) :
    Act.Keeps P (consumeValid f) :=
  .bind (.modify hf) fun _ => .bind (hostRecord_keeps hK fun _ => ⟨rfl, rfl, rfl, rfl⟩) fun _ =>
    .bind .get fun _ => .bind (regWrite64_keeps hK _ _ _ (.other nofun)) fun _ => answer_keeps hK _

theorem consumeEvent_keeps (c : Bool) {f : State → State} (hf : ∀ s, P s → P (f s)) :
    Act.Keeps P (consumeEvent c f) := by
  refine .bind .get fun s => .bind (.require _ _) fun _ => ?_
  split
  · exact answer_keeps hK _
  · exact consumeValid_keeps hK hf

theorem processEvents_keeps : Act.Keeps P processEvents := by
  refine .bind .get fun s => .bind (.require _ _) fun _ => ?_
  refine .bind (hostLoad32_keeps hK _) fun c => ?_
  split
  · exact answer_keeps hK _
  · exact .bind (hostLoad32_keeps hK _) fun _ => .bind (hostLoad32_keeps hK _) fun _ =>
      .bind (hostLoad32_keeps hK _) fun _ =>
        consumeValid_keeps hK fun s hs => recordTrb_keeps hK _ _ hs

/-- An allocation hands out a zeroed block inside the address space, or changes what the allocator
will answer only. -/
theorem alloc_keeps (size align : Nat) (kind : BlockKind) :
    Act.Keeps P (alloc size align kind) := by
  refine .of_get fun s hs => ?_
  split
  · exact .stay hs
  · exact .bind fun _ t h1 => by
      cases h1
      exact .stay (hK.host _ _ (.plat s _ rfl rfl fun _ h => h) hs)
  · refine .require fun hc => .bind fun _ t h0 => .bind fun _ u h1 => ?_
    obtain ⟨-, rfl⟩ := refuseIf_eq_ok.1 h0
    cases h1
    simp only [Bool.and_eq_true, decide_eq_true_eq] at hc
    exact .stay (hK.host _ _ (.alloc _ _ ⟨_, size, kind⟩ rfl rfl rfl hc.1.2) hs)

theorem scrambleBlocks_keeps (l : List Block) (s : State) (a : Unit) (u : State)
    (hl : ∀ b ∈ l, b ∈ s.plat.live) (hs : P s) (h : scrambleBlocks l s = .ok (a, u)) :
    P u ∧ u.plat = s.plat := by
  induction l generalizing s with
  | nil => cases h; exact ⟨hs, rfl⟩
  | cons b r ih =>
    unfold scrambleBlocks at h
    obtain ⟨bs, t, h1, h2⟩ := Act.bind_eq_ok.1 h
    obtain ⟨hn, x, rfl⟩ := drawBytes_eq_ok h1
    rw [Act.modify_bind] at h2
    have hp : P ((s.withFree x).withMem ((s.withFree x).mem.writeBytes b.base bs)) :=
      hK.host _ _ (.scramble _ b bs (hl b (by simp)) hn) (hK.host _ _ (.free s x) hs)
    obtain ⟨h3, h4⟩ := ih ((s.withFree x).withMem ((s.withFree x).mem.writeBytes b.base bs))
      (fun c hc => hl c (by simp [hc])) hp h2
    exact ⟨h3, h4⟩

theorem releaseWhere_keeps (f : Block → Bool) : Act.Keeps P (releaseWhere f) := by
  refine .get_bind fun s a u hs h => ?_
  obtain ⟨_, t, h1, h2⟩ := Act.bind_eq_ok.1 h
  obtain ⟨ht, hp⟩ := scrambleBlocks_keeps hK _ _ _ _ (fun b hb => (List.mem_filter.1 hb).1) hs h1
  cases h2
  exact hK.host _ _ (.plat _ _ rfl rfl fun b hb => (List.mem_filter.1 hb).1) ht

/-! ### Procedures -/

end Host

/-- A procedure keeps `P`: its action does, whatever it answers. -/
abbrev Proc.Keeps (P : State → Prop) (p : Proc α) : Prop := Act.Keeps P (ExceptT.run p)

theorem Proc.Keeps.pure (a : α) : Proc.Keeps P (Pure.pure a : Proc α) := Act.Keeps.pure _

theorem Proc.Keeps.fail (r : FailReason) : Proc.Keeps P (failWith r : Proc α) := Act.Keeps.pure _

theorem Proc.Keeps.lift {m : Act α} (hm : Act.Keeps P m) :
    Proc.Keeps P (liftM m : Proc α) :=
  Act.Keeps.bind hm fun _ => .pure _

theorem Proc.Keeps.bind {β : Type} {p : Proc α} {f : α → Proc β} (hp : Proc.Keeps P p)
    (hf : ∀ a, Proc.Keeps P (f a)) : Proc.Keeps P (p >>= f) := by
  refine Act.Keeps.bind hp fun x => ?_
  cases x with
  | ok a => exact hf a
  | error e => exact .pure _

theorem Proc.Keeps.tryCatch {p : Proc α} {f : FailReason → Proc α} (hp : Proc.Keeps P p)
    (hf : ∀ r, Proc.Keeps P (f r)) : Proc.Keeps P (MonadExcept.tryCatch p f) := by
  unfold Proc.Keeps
  rw [ExceptT.run_tryCatch]
  refine Act.Keeps.bind hp fun x => ?_
  cases x with
  | ok a => exact .pure _
  | error e => exact hf e

theorem Proc.Keeps.get : Proc.Keeps P (MonadState.get : Proc State) :=
  Proc.Keeps.lift Act.Keeps.get

section Procedures

variable (hK : HostKeeps P)

include hK

theorem concluding_keeps {ok : α → HostResult} {p : Proc α} (hp : Proc.Keeps P p) :
    Act.Keeps P (concluding ok p) := by
  refine Act.Keeps.bind hp fun x => ?_
  cases x with
  | ok a => exact answer_keeps hK _
  | error e => exact answer_keeps hK _

theorem allocRing_keeps (n : Nat) (kind : BlockKind) : Proc.Keeps P (allocRing n kind) := by
  refine Proc.Keeps.bind (Proc.Keeps.lift (alloc_keeps hK _ _ _)) fun a => ?_
  cases a with
  | none => exact Proc.Keeps.fail _
  | some b => exact Proc.Keeps.pure _

theorem initCommandRing_keeps : Proc.Keeps P initCommandRing :=
  Proc.Keeps.bind Proc.Keeps.get fun _ => Proc.Keeps.bind (allocRing_keeps hK _ _) fun _ =>
    Proc.Keeps.bind (Proc.Keeps.lift (hostRecord_keeps hK fun _ => ⟨rfl, rfl, rfl, rfl⟩)) fun _ =>
      Proc.Keeps.bind (Proc.Keeps.lift (accountFor_keeps hK _)) fun _ =>
        Proc.Keeps.lift (regWrite64_keeps hK _ _ _ (.other (by decide)))

theorem dropEventRing_keeps (r : Ring) : Act.Keeps P (dropEventRing r) :=
  .bind (releaseWhere_keeps hK _) fun _ => hostRecord_keeps hK fun _ => ⟨rfl, rfl, rfl, rfl⟩

theorem initEventRing_keeps : Proc.Keeps P initEventRing := by
  refine Proc.Keeps.bind Proc.Keeps.get fun _ => ?_
  refine Proc.Keeps.bind (allocRing_keeps hK _ _) fun r => ?_
  refine Proc.Keeps.bind
    (Proc.Keeps.lift (hostRecord_keeps hK fun _ => ⟨rfl, rfl, rfl, rfl⟩)) fun _ => ?_
  refine Proc.Keeps.bind (Proc.Keeps.lift (alloc_keeps hK _ _ _)) fun e => ?_
  cases e with
  | none =>
    exact Proc.Keeps.bind (Proc.Keeps.lift (dropEventRing_keeps hK _)) fun _ => Proc.Keeps.fail _
  | some e =>
    refine Proc.Keeps.bind
      (Proc.Keeps.lift (hostRecord_keeps hK fun _ => ⟨rfl, rfl, rfl, rfl⟩)) fun _ => ?_
    refine Proc.Keeps.bind (Proc.Keeps.lift (hostPut64_keeps hK _ _)) fun _ => ?_
    refine Proc.Keeps.bind (Proc.Keeps.lift (hostPut32_keeps hK _ _)) fun _ => ?_
    refine Proc.Keeps.bind (Proc.Keeps.lift (hostPut32_keeps hK _ _)) fun _ => ?_
    refine Proc.Keeps.bind (Proc.Keeps.lift (regWrite32_keeps hK _ _ _ (.other nofun))) fun _ => ?_
    refine Proc.Keeps.bind (Proc.Keeps.lift (regWrite64_keeps hK _ _ _ (.other nofun))) fun _ => ?_
    exact Proc.Keeps.lift (regWrite64_keeps hK _ _ _ (.other nofun))

/-- A change of the host's lifecycle after which its flags follow it. -/
theorem hostLife_keeps {f : HostRec → HostRec}
    (h : ∀ x, ((f x).initialized = true ↔ (f x).lifecycle = .ready ∨ (f x).lifecycle = .running) ∧
      ((f x).running = true ↔ (f x).lifecycle = .running) ∧ (f x).pollCount = x.pollCount) :
    Act.Keeps P (setHost f) :=
  .modify fun s hs => hK.host _ _ (.life s _ (h _).1 (h _).2.1 (h _).2.2) hs

theorem discoverController_keeps : Act.Keeps P discoverController := by
  refine .bind .get fun s => ?_
  split
  · exact .bind (hostRecord_keeps hK fun _ => ⟨rfl, rfl, rfl, rfl⟩) fun _ => answer_keeps hK _
  · exact answer_keeps hK _

theorem parseCaps_keeps : Act.Keeps P parseCaps :=
  .bind (regRead32_keeps hK _ _) fun _ => .bind (regRead32_keeps hK _ _) fun _ =>
    .bind (regRead32_keeps hK _ _) fun _ => .bind (regRead32_keeps hK _ _) fun _ =>
      hostLife_keeps hK fun _ => by simp

omit hK in
/-- At most `n` reads, from a counter that leaves room for them, keep the counter's bound. -/
theorem pollReads_keeps {Q : State → Prop} (hQ : ∀ n, HostKeeps fun s => Q s ∧
    s.host.pollCount + n ≤ pollBudget) (hP : PollClosed Q) (b : RegBlock)
    (off mask want : Dword) (n : Nat) (last : Dword) (s : State) (x : PollEnd) (u : State)
    (hs : Q s ∧ s.host.pollCount + n ≤ pollBudget)
    (h : pollReads b off mask want n last s = .ok (x, u)) : Q u := by
  induction n generalizing last s with
  | zero =>
    unfold pollReads at h
    obtain ⟨_, t, h1, h2⟩ := Act.bind_eq_ok.1 h
    cases h2
    exact ((hQ 0).gap s _ _ hs h1).1
  | succ n ih =>
    unfold pollReads at h
    obtain ⟨v, t, h1, h2⟩ := Act.bind_eq_ok.1 h
    have ht := regRead32_keeps (hQ (n + 1)) b off s v t hs h1
    unfold countPoll at h2
    rw [Act.modify_bind] at h2
    have hc : Q (t.withHost { t.host with pollCount := t.host.pollCount + 1 }) :=
      hP _ _ (.set t _ (by omega)) ht.1
    split at h2
    · cases h2; exact hc
    · refine ih v _ ⟨hc, ?_⟩ h2
      have := ht.2
      simp only [State.host_withHost]
      omega

end Procedures

/-! ### Polls -/

/-- What every operation of the host needs of a property: what its actions need, with and without a
bound on the poll counter, and that a poll's own updates keep it. -/
structure HostStepKeeps (P : State → Prop) : Prop where
  host : HostKeeps P
  counted : ∀ n, HostKeeps fun s => P s ∧ s.host.pollCount + n ≤ pollBudget
  poll : PollClosed P

/-- What every operation needs of a property: that every update keeps it, and the progress of the
schedule inside a host operation. -/
structure StepKeeps (P : State → Prop) : Prop where
  ctl : CtlClosed P
  host : HostClosed P
  config : ConfigClosed P
  poll : PollClosed P
  turns : ∀ s x, P s → P (s.withSched { s.sched with turns := x })

/-- The controller leaves the host's records alone. -/
theorem CtlMicro.host_eq {s t : State} (h : CtlMicro s t) : t.host = s.host := by
  cases h with
  | engine h => cases h <;> rfl
  | _ => rfl

/-- Every update of the host but a poll's leaves the poll counter alone. -/
theorem HostMicro.pollCount_eq {s t : State} (h : HostMicro s t) :
    t.host.pollCount = s.host.pollCount := by
  cases h <;> first
    | assumption
    | rfl

theorem HostClosed.counted (hH : HostClosed P) (n : Nat) :
    HostClosed fun s => P s ∧ s.host.pollCount + n ≤ pollBudget :=
  fun s t hm hs => ⟨hH s t hm hs.1, by rw [hm.pollCount_eq]; exact hs.2⟩

theorem CtlClosed.counted (hC : CtlClosed P) (n : Nat) :
    CtlClosed fun s => P s ∧ s.host.pollCount + n ≤ pollBudget :=
  fun s t hm hs => ⟨hC s t hm hs.1, by rw [hm.host_eq]; exact hs.2⟩

theorem StepKeeps.hostStep (hS : StepKeeps P) : HostStepKeeps P where
  host := ⟨hS.host, gap_keeps hS.ctl hS.turns⟩
  counted n := ⟨hS.host.counted n,
    gap_keeps (hS.ctl.counted n) fun s x hs => ⟨hS.turns s x hs.1, hs.2⟩⟩
  poll := hS.poll

/-- Where a property says that no move is scheduled, nothing is asked of the controller. -/
theorem HostStepKeeps.of_quiet (hH : HostClosed P) (hP : PollClosed P)
    (hq : ∀ s, P s → s.Quiet) : HostStepKeeps P := by
  have hg : ∀ {Q : State → Prop}, (∀ s, Q s → s.Quiet) → Act.Keeps Q gap := by
    intro Q hQ s a t hs h
    rw [gap_quiet (hQ s hs)] at h
    cases h
    exact hs
  exact ⟨⟨hH, hg hq⟩, fun n => ⟨hH.counted n, hg fun s hs => hq s hs.1⟩, hP⟩

/-! ### Polling procedures, enumeration, and every meaning -/

section Steps

variable (hS : HostStepKeeps P)

include hS

theorem regPoll_keeps (b : RegBlock) (off mask want : Dword) :
    Act.Keeps P (regPoll b off mask want) := by
  intro s x u hs h
  unfold regPoll at h
  rw [Act.modify_bind] at h
  refine pollReads_keeps hS.counted hS.poll b off mask want _ _ _ x u ⟨?_, ?_⟩ h
  · exact hS.poll _ _ (.set s 0 (by simp)) hs
  · simp

theorem pollOrFail_keeps (b : RegBlock) (off mask want : Dword) (st : TimeoutStage) :
    Proc.Keeps P (pollOrFail b off mask want st) := by
  refine Proc.Keeps.bind (Proc.Keeps.lift (regPoll_keeps hS _ _ _ _)) fun x => ?_
  cases x with
  | success v => exact Proc.Keeps.pure _
  | timeout v => exact Proc.Keeps.fail _

theorem resetSequence_keeps (hR : ResetClosed P) : Proc.Keeps P resetSequence := by
  have hW : WriteKeeps P .op 0x00 := ⟨fun _ _ => hR, fun _ e => absurd e (by decide)⟩
  refine Proc.Keeps.bind Proc.Keeps.get fun s => ?_
  refine Proc.Keeps.bind (Proc.Keeps.lift (hostLife_keeps hS.host fun _ => by simp)) fun _ => ?_
  refine Proc.Keeps.bind (Proc.Keeps.lift (regUpdate32_keeps hS.host _ _ _ hW)) fun _ => ?_
  refine Proc.Keeps.bind (pollOrFail_keeps hS _ _ _ _ _) fun _ => ?_
  refine Proc.Keeps.bind (Proc.Keeps.lift (regUpdate32_keeps hS.host _ _ _ hW)) fun _ => ?_
  refine Proc.Keeps.bind (pollOrFail_keeps hS _ _ _ _ _) fun _ => ?_
  refine Proc.Keeps.bind (pollOrFail_keeps hS _ _ _ _ _) fun _ => ?_
  exact Proc.Keeps.lift (hostLife_keeps hS.host fun _ => by simp)

omit hS in
theorem installDcbaa_keeps (hK : HostKeeps P) : Proc.Keeps P installDcbaa := by
  refine Proc.Keeps.bind Proc.Keeps.get fun s => ?_
  refine Proc.Keeps.bind (Proc.Keeps.lift (alloc_keeps hK _ _ _)) fun a => ?_
  cases a with
  | none => exact Proc.Keeps.fail _
  | some a =>
    exact Proc.Keeps.bind
      (Proc.Keeps.lift (hostRecord_keeps hK fun _ => ⟨rfl, rfl, rfl, rfl⟩)) fun _ =>
        Proc.Keeps.lift (regWrite64_keeps hK _ _ _ (.other (by decide)))

/-- The start sequence; its one write of USBCMD sets RS and INTE only. -/
theorem startSequence_keeps (hB : Act.Keeps P (regSet32 .op 0x00 5)) (hC : ConfigClosed P) :
    Proc.Keeps P startSequence := by
  have hK := hS.host
  refine Proc.Keeps.bind Proc.Keeps.get fun s => ?_
  refine Proc.Keeps.bind (installDcbaa_keeps hK) fun _ => ?_
  refine Proc.Keeps.bind (Proc.Keeps.lift
    (regWrite32_keeps hK _ _ _ ⟨fun _ e => absurd e (by decide), fun _ _ => hC⟩)) fun _ => ?_
  refine Proc.Keeps.bind (initCommandRing_keeps hK) fun _ => ?_
  refine Proc.Keeps.bind (initEventRing_keeps hK) fun _ => ?_
  refine Proc.Keeps.bind (Proc.Keeps.lift (regUpdate32_keeps hK _ _ _ (.other nofun))) fun _ => ?_
  refine Proc.Keeps.bind (Proc.Keeps.lift hB) fun _ => ?_
  refine Proc.Keeps.bind (pollOrFail_keeps hS _ _ _ _ _) fun _ => ?_
  exact Proc.Keeps.lift (hostLife_keeps hK fun _ => by simp)

theorem abortBringup_keeps (r : FailReason) : Act.Keeps P (abortBringup r) :=
  .bind .get fun _ => .bind (releaseWhere_keeps hS.host _) fun _ =>
    .bind (accountFor_keeps hS.host _) fun _ => .bind (hostLife_keeps hS.host fun _ => by simp [HostRec.dropped, HostRec.initial])
      fun _ => answer_keeps hS.host _

theorem bringingUp_keeps {p : Proc Unit} (hp : Proc.Keeps P p) : Act.Keeps P (bringingUp p) := by
  refine Act.Keeps.bind hp fun x => ?_
  cases x with
  | ok a => exact answer_keeps hS.host _
  | error e => exact abortBringup_keeps hS _

theorem discoverAndStart_keeps (hR : ResetClosed P) (hC : ConfigClosed P) :
    Act.Keeps P discoverAndStart := by
  refine .bind .get fun s => ?_
  split
  · exact answer_keeps hS.host _
  · split
    · exact .bind (hostLife_keeps hS.host fun _ => by simp [HostRec.dropped, HostRec.initial])
        fun _ => answer_keeps hS.host _
    · refine .bind (hostLife_keeps hS.host fun _ => by
        simp [HostRec.created, HostRec.initial]) fun _ => bringingUp_keeps hS ?_
      exact Proc.Keeps.bind (Proc.Keeps.lift (parseCaps_keeps hS.host)) fun _ =>
        Proc.Keeps.bind (resetSequence_keeps hS hR) fun _ =>
          startSequence_keeps hS (regUpdate32_keeps hS.host _ _ _
            ⟨fun _ _ => hR, fun _ e => absurd e (by decide)⟩) hC

omit hS in
theorem probeFrom_keeps (hK : HostKeeps P) (n : Nat) (p : Nat) :
    Act.Keeps P (probeFrom p n) := by
  induction n generalizing p with
  | zero => exact .pure _
  | succ n ih =>
    exact .bind (regRead32_keeps hK _ _) fun _ => .bind .get fun _ => .bind (ih _) fun _ => .pure _

omit hS in
/-- No port register stands at USBCMD's offset or at CONFIG's. -/
theorem portOffset_ne (p : PortIx) : portOffset p ≠ 0 ∧ portOffset p ≠ 0x38 := by
  unfold portOffset portBase portStride
  have := p.isLt
  constructor <;> bv_omega

theorem resetPort_keeps (p : PortIx) : Proc.Keeps P (resetPort p) := by
  have hK := hS.host
  refine Proc.Keeps.bind Proc.Keeps.get fun s => ?_
  refine Proc.Keeps.bind (Proc.Keeps.lift (regRead32_keeps hK _ _)) fun v => ?_
  refine Proc.Keeps.bind (Proc.Keeps.lift (regWrite32_keeps hK _ _ _ (.other fun e =>
    e.2.elim (portOffset_ne p).1 (portOffset_ne p).2))) fun _ => ?_
  refine Proc.Keeps.bind (Proc.Keeps.lift (regPoll_keeps hS _ _ _ _)) fun x => ?_
  cases x with
  | success v => exact Proc.Keeps.pure _
  | timeout v => exact Proc.Keeps.fail _

omit hS in
theorem onEnableSlotCompletion_keeps (hK : HostKeeps P) (b : Option PortBinding) :
    Act.Keeps P (onEnableSlotCompletion b) := by
  refine .bind .get fun s => ?_
  dsimp only
  split
  · exact answer_keeps hK _
  · refine .bind (hostRecord_keeps hK fun _ => ⟨rfl, rfl, rfl, rfl⟩) fun _ => ?_
    split
    · exact answer_keeps hK _
    · split
      · exact answer_keeps hK _
      · exact .bind (hostRecord_keeps hK fun _ => ⟨rfl, rfl, rfl, rfl⟩) fun _ =>
          answer_keeps hK _

omit hS in
theorem choosePacketSize_keeps (hK : HostKeeps P) (v : BitVec 4) :
    Act.Keeps P (choosePacketSize v) := by
  refine .bind .get fun s => ?_
  split
  · exact .pure _
  · exact drawDword_keeps fun s x hs => hK.host _ _ (.free s x) hs

omit hS in
theorem updateDwords_keeps (hK : HostKeeps P) (a : Addr) (l : List (Nat × (Dword → Dword))) :
    Act.Keeps P (updateDwords a l) := by
  induction l with
  | nil => exact .pure _
  | cons u r ih =>
    exact .bind (hostLoad32_keeps hK _) fun _ => .bind (hostPut32_keeps hK _ _) fun _ => ih

omit hS in
theorem fillContexts_keeps (hK : HostKeeps P) (ic : Addr) (n : SlotId) :
    Act.Keeps P (fillContexts ic n) :=
  .bind .get fun _ => .bind (.require _ _) fun _ => .bind (choosePacketSize_keeps hK _) fun _ =>
    updateDwords_keeps hK _ _

omit hS in
theorem rejectSlot_keeps (n : SlotId) : Proc.Keeps P (rejectSlot n) := by
  refine Proc.Keeps.bind Proc.Keeps.get fun s => ?_
  split
  · exact Proc.Keeps.pure _
  · exact Proc.Keeps.fail _

omit hS in
theorem fillInputContext_keeps (hK : HostKeeps P) (ic : Addr) (n : SlotId) :
    Proc.Keeps P (fillInputContext ic n) :=
  Proc.Keeps.bind (rejectSlot_keeps n) fun _ => Proc.Keeps.lift (fillContexts_keeps hK ic n)

omit hS in
theorem allocContext_keeps (hK : HostKeeps P) (n : Nat) (kind : BlockKind) :
    Proc.Keeps P (allocContext n kind) := by
  refine Proc.Keeps.bind (Proc.Keeps.lift (alloc_keeps hK _ _ _)) fun a => ?_
  cases a with
  | none => exact Proc.Keeps.fail _
  | some b => exact Proc.Keeps.pure _

omit hS in
theorem allocDevice_keeps (hK : HostKeeps P) : Proc.Keeps P allocDevice := by
  have hd : ∀ k a, Proc.Keeps P (liftM (dropBlock k a) : Proc Unit) := fun k a =>
    Proc.Keeps.lift (releaseWhere_keeps hK _)
  refine Proc.Keeps.bind Proc.Keeps.get fun s => ?_
  refine Proc.Keeps.bind (allocContext_keeps hK _ _) fun ic => ?_
  refine Proc.Keeps.bind (Proc.Keeps.tryCatch (allocContext_keeps hK _ _) fun r =>
    Proc.Keeps.bind (hd _ _) fun _ => Proc.Keeps.fail _) fun dc => ?_
  refine Proc.Keeps.bind (Proc.Keeps.tryCatch (allocRing_keeps hK _ _) fun r =>
    Proc.Keeps.bind (hd _ _) fun _ => Proc.Keeps.bind (hd _ _) fun _ => Proc.Keeps.fail _)
    fun ring => ?_
  exact Proc.Keeps.pure _

omit hS in
theorem installEntry_keeps (hK : HostKeeps P) (n : SlotId) (dc : Addr) :
    Act.Keeps P (installEntry n dc) :=
  .bind .get fun _ => .bind (.require _ _) fun _ => .bind (.require _ _) fun _ =>
    .bind (.require _ _) fun _ => .bind (hostPut64_keeps hK _ _) fun _ => accountFor_keeps hK _

omit hS in
theorem addressDevice_keeps (hK : HostKeeps P) (n : SlotId) : Proc.Keeps P (addressDevice n) := by
  refine Proc.Keeps.bind Proc.Keeps.get fun s => ?_
  refine Proc.Keeps.bind (rejectSlot_keeps n) fun _ => ?_
  refine Proc.Keeps.bind (allocDevice_keeps hK) fun x => ?_
  refine Proc.Keeps.bind
    (Proc.Keeps.lift (hostRecord_keeps hK fun _ => ⟨rfl, rfl, rfl, rfl⟩)) fun _ => ?_
  refine Proc.Keeps.bind (Proc.Keeps.lift (accountFor_keeps hK _)) fun _ => ?_
  refine Proc.Keeps.bind (Proc.Keeps.lift (fillContexts_keeps hK _ _)) fun _ => ?_
  refine Proc.Keeps.bind (Proc.Keeps.lift (installEntry_keeps hK _ _)) fun _ => ?_
  exact Proc.Keeps.lift (postCommand_keeps hK _)

omit hS in
theorem onAddressDeviceCompletion_keeps (hK : HostKeeps P) (n : SlotId) :
    Act.Keeps P (onAddressDeviceCompletion n) := by
  refine .bind .get fun s => ?_
  dsimp only
  split
  · exact answer_keeps hK _
  · refine .bind (hostRecord_keeps hK fun _ => ⟨rfl, rfl, rfl, rfl⟩) fun _ => ?_
    split
    · exact answer_keeps hK _
    · split
      · exact .bind (hostLoad32_keeps hK _) fun _ =>
          .bind (hostRecord_keeps hK fun _ => ⟨rfl, rfl, rfl, rfl⟩) fun _ => answer_keeps hK _
      · exact answer_keeps hK _

omit hS in
theorem stageAll_keeps (hK : HostKeeps P) (k : SlotId) (l : List Trb) :
    Act.Keeps P (stageAll k l) := by
  induction l with
  | nil => exact .pure _
  | cons t r ih =>
    exact .bind (ep0Enqueue_keeps hK _ _) fun _ => ih

omit hS in
theorem controlTransfer_keeps (hK : HostKeeps P) (k : SlotId) (p : SetupPacket) (buf : Addr) :
    Act.Keeps P (controlTransfer k p buf) :=
  .bind .get fun _ => .bind (stageAll_keeps hK _ _) fun _ => ringEp0Doorbell_keeps hK k

omit hS in
theorem onTransferCompletion_keeps (hK : HostKeeps P) (len : Dword) :
    Act.Keeps P (onTransferCompletion len) := by
  have hd : Act.Keeps P drawDword := drawDword_keeps fun s x hs => hK.host _ _ (.free s x) hs
  refine .bind .get fun s => ?_
  dsimp only
  split
  · exact answer_keeps hK _
  · refine .bind (hostRecord_keeps hK fun _ => ⟨rfl, rfl, rfl, rfl⟩) fun _ => ?_
    split
    · exact answer_keeps hK _
    · split
      · refine .bind ?_ fun _ => answer_keeps hK _
        unfold shortLength
        split
        · exact .pure _
        · exact hd
      · exact answer_keeps hK _

/-- Every operation of the host keeps what the host's updates and its gaps keep; the begin of a
controller reset, and CONFIG's new value, are asked only of the operations that may write them. -/
theorem hostExec_keeps_of {i : Instr} (hi : i.isController = false)
    (hR : i.writesUsbcmd → ResetClosed P) (hC : i.writesConfig → ConfigClosed P)
    (hB : Act.Keeps P (regSet32 .op 0x00 5)) {s t : State}
    (hs : P s) (h : exec i s = .next t) : P t := by
  have hK := hS.host
  have rd : ∀ {s t : State} (i : Instr), P s → (answering .dword (readEffect i)).run s = .next t →
      P t := fun i hs h => Act.Keeps.run
    (answering_keeps hK (readEffect_keeps (fun s x hs => hK.host _ _ (.free s x) hs) i)) hs h
  have wr : ∀ {s t : State} (i : Instr), (i.writesUsbcmd → ResetClosed P) →
      (i.writesConfig → ConfigClosed P) → P s → (writeEffect i).run s = .next t → P t :=
    fun i hR hC hs h => Act.Keeps.run (writeEffect_keeps hK.host i hR hC) hs h
  cases i
  case rd32 => exact Act.Keeps.run (answering_keeps hK (regRead32_keeps hK _ _)) hs h
  case wr32 =>
    exact Act.Keeps.run (regWrite32_keeps hK _ _ _
      ⟨fun hb ho => hR ⟨hb, ho⟩, fun hb ho => hC ⟨hb, ho⟩⟩) hs h
  case rd64 => exact Act.Keeps.run (answering_keeps hK (regRead64_keeps hK _ _)) hs h
  case wr64 =>
    exact Act.Keeps.run (regWrite64_keeps hK _ _ _
      ⟨fun hb ho => hR ⟨hb, ho⟩, fun hb ho => hC ⟨hb, ho⟩⟩) hs h
  case set32 =>
    exact Act.Keeps.run (regUpdate32_keeps hK _ _ _
      ⟨fun hb ho => hR ⟨hb, ho⟩, fun hb ho => hC ⟨hb, ho⟩⟩) hs h
  case clr32 =>
    exact Act.Keeps.run (regUpdate32_keeps hK _ _ _
      ⟨fun hb ho => hR ⟨hb, ho⟩, fun hb ho => hC ⟨hb, ho⟩⟩) hs h
  case poll => exact Act.Keeps.run (answering_keeps hK (regPoll_keeps hS _ _ _ _)) hs h
  case ringCmd => exact Act.Keeps.run (ringCommandDoorbell_keeps hK) hs h
  case ringEp0 => exact Act.Keeps.run (ringEp0Doorbell_keeps hK _) hs h
  case cfgRead => exact Act.Keeps.run (answer_keeps hK _) hs h
  case rdCap0 => exact rd .rdCap0 hs h
  case rdHcsparams1 => exact rd .rdHcsparams1 hs h
  case rdDboff => exact rd .rdDboff hs h
  case rdRtsoff => exact rd .rdRtsoff hs h
  case wrCap => cases h; exact hs
  case rdUsbcmd => exact rd .rdUsbcmd hs h
  case wrUsbcmd v => exact wr (.wrUsbcmd v) hR hC hs h
  case rdUsbsts => exact rd .rdUsbsts hs h
  case wrUsbsts v => exact wr (.wrUsbsts v) hR hC hs h
  case rdCrcrLo => exact rd .rdCrcrLo hs h
  case rdCrcrHi => exact rd .rdCrcrHi hs h
  case wrCrcrLo v => exact wr (.wrCrcrLo v) hR hC hs h
  case wrCrcrHi v => exact wr (.wrCrcrHi v) hR hC hs h
  case rdDcbaapLo => exact rd .rdDcbaapLo hs h
  case rdDcbaapHi => exact rd .rdDcbaapHi hs h
  case wrDcbaapLo v => exact wr (.wrDcbaapLo v) hR hC hs h
  case wrDcbaapHi v => exact wr (.wrDcbaapHi v) hR hC hs h
  case rdConfig => exact rd .rdConfig hs h
  case wrConfig v => exact wr (.wrConfig v) hR hC hs h
  case rdPortsc p => exact rd (.rdPortsc p) hs h
  case wrPortsc p v => exact wr (.wrPortsc p v) hR hC hs h
  case rdIman => exact rd .rdIman hs h
  case wrIman v => exact wr (.wrIman v) hR hC hs h
  case rdErstsz => exact rd .rdErstsz hs h
  case wrErstsz v => exact wr (.wrErstsz v) hR hC hs h
  case rdErstbaLo => exact rd .rdErstbaLo hs h
  case rdErstbaHi => exact rd .rdErstbaHi hs h
  case wrErstbaLo v => exact wr (.wrErstbaLo v) hR hC hs h
  case wrErstbaHi v => exact wr (.wrErstbaHi v) hR hC hs h
  case rdErdpLo => exact rd .rdErdpLo hs h
  case rdErdpHi => exact rd .rdErdpHi hs h
  case wrErdpLo v => exact wr (.wrErdpLo v) hR hC hs h
  case wrErdpHi v => exact wr (.wrErdpHi v) hR hC hs h
  case wrDb0 v => exact wr (.wrDb0 v) hR hC hs h
  case wrDbi i v => exact wr (.wrDbi i v) hR hC hs h
  case rdDb i => exact rd (.rdDb i) hs h
  case evTransfer =>
    exact Act.Keeps.run (consumeEvent_keeps hK _ fun _ h => recordTransfer_keeps hK _ h) hs h
  case evCmdCompletion =>
    exact Act.Keeps.run (consumeEvent_keeps hK _ fun _ h => recordCompletion_keeps hK _ h) hs h
  case evPortStatusChange =>
    exact Act.Keeps.run (consumeEvent_keeps hK _ fun _ h => recordPort_keeps hK _ h) hs h
  case evOther => exact Act.Keeps.run (consumeEvent_keeps hK _ fun _ h => h) hs h
  case discover => exact Act.Keeps.run (discoverController_keeps hK) hs h
  case parseCapabilities => exact Act.Keeps.run (answering_keeps hK (parseCaps_keeps hK)) hs h
  case resetController =>
    exact Act.Keeps.run (bringingUp_keeps hS (resetSequence_keeps hS (hR trivial))) hs h
  case startController =>
    exact Act.Keeps.run (bringingUp_keeps hS (startSequence_keeps hS hB (hC trivial))) hs h
  case discoverAndStart =>
    exact Act.Keeps.run (discoverAndStart_keeps hS (hR trivial) (hC trivial)) hs h
  case allocate => exact Act.Keeps.run (concluding_keeps hK (allocRing_keeps hK _ _)) hs h
  case initCommandRing =>
    exact Act.Keeps.run (concluding_keeps hK (initCommandRing_keeps hK)) hs h
  case initEventRing => exact Act.Keeps.run (concluding_keeps hK (initEventRing_keeps hK)) hs h
  case postCommand => exact Act.Keeps.run (answering_keeps hK (postCommand_keeps hK _)) hs h
  case processEvents => exact Act.Keeps.run (processEvents_keeps hK) hs h
  case probePorts =>
    exact Act.Keeps.run (answering_keeps hK (.bind .get fun _ => probeFrom_keeps hK _ _)) hs h
  case decodeSpeed => exact Act.Keeps.run (answer_keeps hK _) hs h
  case resetPort => exact Act.Keeps.run (concluding_keeps hK (resetPort_keeps hS _)) hs h
  case enableSlot =>
    exact Act.Keeps.run
      (answering_keeps hK (.bind .get fun _ => postCommand_keeps hK _)) hs h
  case onEnableSlotCompletion => exact Act.Keeps.run (onEnableSlotCompletion_keeps hK _) hs h
  case addressDevice => exact Act.Keeps.run (concluding_keeps hK (addressDevice_keeps hK _)) hs h
  case fillInputContext =>
    exact Act.Keeps.run (concluding_keeps hK (fillInputContext_keeps hK _ _)) hs h
  case onAddressDeviceCompletion =>
    exact Act.Keeps.run (onAddressDeviceCompletion_keeps hK _) hs h
  case controlTransfer =>
    exact Act.Keeps.run (answering_keeps hK (controlTransfer_keeps hK _ _ _)) hs h
  case ep0Enqueue => exact Act.Keeps.run (answering_keeps hK (ep0Enqueue_keeps hK _ _)) hs h
  case onTransferCompletion => exact Act.Keeps.run (onTransferCompletion_keeps hK _) hs h
  all_goals first
    | (cases hi; done)
    | cases h

/-- Every operation of the host keeps what every update keeps. -/
theorem hostExec_keeps (hR : ResetClosed P) (hC : ConfigClosed P) {i : Instr}
    (hi : i.isController = false) {s t : State} (hs : P s) (h : exec i s = .next t) : P t :=
  hostExec_keeps_of hS hi (fun _ => hR) (fun _ => hC) (regUpdate32_keeps hS.host _ _ _
    ⟨fun _ _ => hR, fun _ e => absurd e (by decide)⟩) hs h

omit hS in
/-- Every TRB the engines consume, and their steps, keep what the engines' updates keep. -/
theorem engineExec_keeps (hE : EngineClosed P) {i : Instr} (hi : i.isEngine = true) {s t : State}
    (hs : P s) (h : exec i s = .next t) : P t := by
  have cmd : ∀ {s t : State} {c : Bool} {m : Act Completion}, Act.Keeps P m → P s →
      (consumeCommand c m).run s = .next t → P t :=
    fun hm hs h => Act.Keeps.run (consumeCommand_keeps hE _ hm) hs h
  cases i
  case cmdNoop => exact cmd executeNoop_keeps hs h
  case cmdEnableSlot => exact cmd (executeEnableSlot_keeps hE) hs h
  case cmdAddressDevice => exact cmd (executeAddressDevice_keeps hE _ _) hs h
  case cmdOther => exact cmd executeOther_keeps hs h
  case xferSetup => exact Act.Keeps.run (consumeTransfer_keeps hE _ _ _ _) hs h
  case xferData => exact Act.Keeps.run (consumeTransfer_keeps hE _ _ _ _) hs h
  case xferStatus => exact Act.Keeps.run (consumeTransfer_keeps hE _ _ _ _) hs h
  case xhcCommandStep => exact Act.Keeps.run (commandStep_keeps hE) hs h
  case xhcRaiseEvent => exact Act.Keeps.run (raiseStep_keeps hE _) hs h
  case xhcTransferStep => exact Act.Keeps.run (transferStep_keeps hE _) hs h
  all_goals first
    | (cases hi; done)
    | cases h

omit hS in
/-- Every operation of the controller and of ENV keeps what their updates keep. -/
theorem ctlExec_keeps (hC : CtlClosed P) {i : Instr} (hi : i.isController = true) {s t : State}
    (hs : P s) (h : exec i s = .next t) : P t := by
  cases he : i.isEngine
  · cases i
    case xhcHalt => exact Act.Keeps.run (haltStep_keeps hC) hs h
    case xhcResetBegin => exact Act.Keeps.run (resetBeginStep_keeps hC) hs h
    case xhcResetComplete => exact Act.Keeps.run (resetCompleteStep_keeps hC) hs h
    case xhcReady => exact Act.Keeps.run (readyStep_keeps hC) hs h
    case xhcStart => exact Act.Keeps.run (startStep_keeps hC) hs h
    case xhcPortAttach => exact Act.Keeps.run (portAttachStep_keeps hC _ _) hs h
    case xhcPortDetach => exact Act.Keeps.run (portDetachStep_keeps hC _) hs h
    case xhcPortResetComplete => exact Act.Keeps.run (portResetCompleteStep_keeps hC _) hs h
    case xhcPortEvent => exact Act.Keeps.run (portEventStep_keeps hC _) hs h
    all_goals first
      | (cases hi; done)
      | cases he
  · exact engineExec_keeps hC.engine he hs h

end Steps

/-- Every meaning keeps what every update keeps. -/
theorem exec_keeps (hS : StepKeeps P) (i : Instr) {s t : State} (hs : P s)
    (h : exec i s = .next t) : P t := by
  cases hi : i.isController
  · exact hostExec_keeps hS.hostStep hS.ctl.reset hS.config hi hs h
  · exact ctlExec_keeps hS.ctl hi hs h

/-- Every step keeps what every update keeps, where the schedule's own progress keeps it. -/
theorem step_keeps (hS : StepKeeps P)
    (hA : ∀ s x, P s → P (s.withSched { s.sched with agenda := x })) {s t : State}
    (hs : P s) (h : step s = .next t) : P t := by
  have run : ∀ {s t : State} {f : Fetched}, P s → (∀ w, f = .stay w → P w) →
      runFetched s f = .next t → P t := by
    intro s t f hs hf h
    cases f with
    | run i => exact exec_keeps hS i hs h
    | stay w => cases h; exact hf _ rfl
    | refuse r => cases h
  unfold step at h
  split at h
  · exact exec_keeps hS _ (hA _ _ hs) h
  · refine run hs ?_ h
    intro u hu
    have dec : ∀ d, Fetched.ofDecoded d ≠ .stay u := by
      intro d
      cases d <;> simp [Fetched.ofDecoded]
    unfold fetchNext at hu
    split at hu
    · unfold fetchCommand at hu
      dsimp only at hu
      split at hu
      · cases hu; exact hs
      · split at hu
        · cases hu; exact hS.ctl.engine _ _ (.cmdStop s) hs
        · split at hu
          · cases hu; exact hs
          · exact absurd hu (dec _)
    · unfold fetchTransfer at hu
      split at hu
      · cases hu; exact hs
      · rename_i r hr
        dsimp only at hu
        split at hu
        · cases hu
          exact hS.ctl.engine _ _ (.xferStop _ _ _ (State.transferOn_eq_some hr).1) hs
        · exact absurd hu (dec _)
    · unfold fetchEvent at hu
      dsimp only at hu
      split at hu
      · cases hu
      · split at hu
        · cases hu
        · split at hu
          · cases hu; exact hS.host _ _ (.record s _ rfl rfl rfl rfl) hs
          · split at hu
            · cases hu
            · exact absurd hu (dec _)

end Sys2Proof.Machine
end

