-- ==== Sys2Proof/Laws/Reads.lean ====
section
/-! SUPPORT. Register reads and polls with nothing between them: every register of the map answers,
and a read changes the bus address and the source of free values only. -/

namespace Sys2Proof.Machine

open Config

/-- A register with reserved bits answers some value of its open word. -/
theorem openRead_some (m f : State → Dword) (s : State) :
    ∃ v x, ((get : Act State) >>= fun s => openRead (m s) (f s)) s =
      .ok (openBits (m s) (f s) v, s.withFree x) := by
  obtain ⟨v, x, h⟩ := openRead_ok (m s) (f s) s
  exact ⟨v, x, (Act.get_bind _ _).trans h⟩

theorem openRead_any (m f : State → Dword) (s : State) :
    ∃ v x, ((get : Act State) >>= fun s => openRead (m s) (f s)) s = .ok (v, s.withFree x) := by
  obtain ⟨v, x, h⟩ := openRead_some m f s
  exact ⟨_, x, h⟩

theorem readField_ok (f : State → Dword) (s : State) :
    ∃ v x, readField f s = .ok (v, s.withFree x) := ⟨f s, s.free, rfl⟩

theorem readPortsc_ok {p : PortIx} {s : State} (h : s.hasPort p = true) :
    ∃ v x, readPortsc p s = .ok (v, s.withFree x) := by
  obtain ⟨v, x, hv⟩ := openRead_ok (portscMask s.cfg.bitpos)
    (portscFields s.cfg.bitpos (s.ports.get p)) s
  refine ⟨openBits (portscMask s.cfg.bitpos) (portscFields s.cfg.bitpos (s.ports.get p)) v, x, ?_⟩
  unfold readPortsc
  rw [Act.get_bind, h, Act.bind_ok (require_true _ _), hv]

theorem readDoorbell_ok {k : SlotId} {s : State} (h : k.toNat ≤ s.cfg.maxSlots.toNat) :
    ∃ v x, readDoorbell k s = .ok (v, s.withFree x) := by
  obtain ⟨v, x, hv⟩ := drawDword_ok s
  refine ⟨v, x, ?_⟩
  unfold readDoorbell
  rw [Act.get_bind, decide_eq_true h, Act.bind_ok (require_true _ _), hv]

/-- Every register the map lists answers a read. -/
theorem readEffect_ok {b : RegBlock} {off : Dword} {i : Instr} {s : State}
    (hd : decodeAccess s.cfg ⟨b, off, none⟩ = .ok i) (hi : i ≠ .undefinedOffset b off none) :
    ∃ v x, readEffect i s = .ok (v, s.withFree x) := by
  unfold decodeAccess at hd
  split at hd
  · cases hd
  · cases b <;> dsimp only at hd <;> cases hd
    · unfold decodeCap at hi ⊢
      dsimp only at hi ⊢
      split_ifs at hi ⊢
      · exact readField_ok _ s
      · exact readField_ok _ s
      · exact readField_ok _ s
      · exact readField_ok _ s
      · exact absurd rfl hi
    · unfold decodeOp at hi ⊢
      dsimp only at hi ⊢
      split_ifs at hi ⊢
      · exact openRead_any (fun s => usbcmdMask s.cfg.bitpos)
          (fun s => usbcmdFields s.cfg.bitpos s.op) s
      · exact openRead_any (fun s => usbstsMask s.cfg.bitpos)
          (fun s => usbstsFields s.cfg.bitpos s.op) s
      · exact drawDword_ok s
      · exact drawDword_ok s
      · exact readField_ok _ s
      · exact readField_ok _ s
      · exact openRead_any (fun s => fieldMask s.cfg.bitpos.maxSlotsEnLo 8)
          (fun s => fieldAt s.cfg.bitpos.maxSlotsEnLo s.op.maxSlotsEn) s
      · cases hp : portOfOffset s.cfg off with
        | none => rw [hp] at hi; exact absurd rfl hi
        | some p =>
          refine readPortsc_ok (decide_eq_true ?_)
          unfold portOfOffset at hp
          dsimp only at hp
          split at hp
          · rename_i h
            cases hp
            have := s.cfg.maxPorts.isLt
            rw [BitVec.toNat_ofNat, Nat.mod_eq_of_lt (by omega)]
            exact h.2.2
          · cases hp
    · unfold decodeRt at hi ⊢
      dsimp only at hi ⊢
      split_ifs at hi ⊢
      · exact openRead_any (fun s => imanMask s.cfg.bitpos) (fun s => imanFields s.cfg.bitpos s.intr) s
      · exact openRead_any (fun s => fieldMask s.cfg.bitpos.erstszLo 16)
          (fun s => fieldAt s.cfg.bitpos.erstszLo s.intr.erstsz) s
      · exact readField_ok _ s
      · exact readField_ok _ s
      · exact openRead_any (fun _ => 0xFFFFFFF8#32) (fun s => erdpLoFields s.er) s
      · exact readField_ok _ s
      · exact absurd rfl hi
    · unfold decodeDb at hi ⊢
      dsimp only at hi ⊢
      cases hk : doorbellOfOffset s.cfg off with
      | none => rw [hk] at hi; exact absurd rfl hi
      | some k =>
        refine readDoorbell_ok ?_
        unfold doorbellOfOffset at hk
        split at hk
        · rename_i h
          cases hk
          have := s.cfg.maxSlots.isLt
          rw [BitVec.toNat_ofNat, Nat.mod_eq_of_lt (by omega)]
          exact h
        · cases hk

/-- A register read with nothing before it. -/
theorem regRead32_quiet {b : RegBlock} {off : Dword} {i : Instr} {s : State} (hq : s.Quiet)
    (hk : s.host.baseKnown b = true) (hd : decodeAccess s.cfg ⟨b, off, none⟩ = .ok i)
    (hi : i ≠ .undefinedOffset b off none) :
    ∃ v x, regRead32 b off s = .ok (v, (s.onBus b off).withFree x) := by
  obtain ⟨v, x, hv⟩ := readEffect_ok (s := s.onBus b off) (by exact hd) hi
  exact ⟨v, x, regRead32_ok (gap_quiet hq) hk hd hv⟩

/-! ### Polls -/

@[simp] theorem State.cfg_counted (s : State) (n : Nat) : (s.counted n).cfg = s.cfg := rfl
@[simp] theorem State.op_counted (s : State) (n : Nat) : (s.counted n).op = s.op := rfl
@[simp] theorem State.sched_counted (s : State) (n : Nat) : (s.counted n).sched = s.sched := rfl
@[simp] theorem State.pollCount_counted (s : State) (n : Nat) :
    (s.counted n).host.pollCount = n := rfl
@[simp] theorem State.counted_counted (s : State) (m n : Nat) :
    (s.counted m).counted n = s.counted n := rfl
@[simp] theorem State.withFree_counted (s : State) (n : Nat) (x : FreeSrc) :
    (s.counted n).withFree x = (s.withFree x).counted n := rfl
@[simp] theorem HostRec.baseKnown_counted (s : State) (n : Nat) (b : RegBlock) :
    (s.counted n).host.baseKnown b = s.host.baseKnown b := by
  cases b <;> rfl
@[simp] theorem State.onBus_counted (s : State) (n : Nat) (b : RegBlock) (off : Dword) :
    (s.counted n).onBus b off = (s.onBus b off).counted n := by
  cases b <;> rfl

/-- A value wanted at the first read ends the poll after one. -/
theorem pollReads_hit {b : RegBlock} {off mask want v last : Dword} {n : Nat} {s t : State}
    (h : regRead32 b off s = .ok (v, t)) (hv : v &&& mask = want) :
    pollReads b off mask want (n + 1) last s =
      .ok (.success v, t.counted (t.host.pollCount + 1)) := by
  unfold pollReads
  rw [Act.bind_ok h]
  unfold countPoll
  rw [Act.modify_bind, if_pos hv]
  rfl

/-- Any other value lets the poll go on. -/
theorem pollReads_miss {b : RegBlock} {off mask want v last : Dword} {n : Nat} {s t : State}
    (h : regRead32 b off s = .ok (v, t)) (hv : v &&& mask ≠ want) :
    pollReads b off mask want (n + 1) last s =
      pollReads b off mask want n v (t.counted (t.host.pollCount + 1)) := by
  conv_lhs => unfold pollReads
  rw [Act.bind_ok h]
  unfold countPoll
  rw [Act.modify_bind, if_neg hv]
  rfl

/-- After the last read one wait is left, and the poll has failed. -/
theorem pollReads_last {b : RegBlock} {off mask want last : Dword} {s t : State}
    (h : gap s = .ok ((), t)) : pollReads b off mask want 0 last s = .ok (.timeout last, t) := by
  unfold pollReads
  rw [Act.bind_ok h]
  rfl

/-- A poll with nothing between its reads: it ends at a value wanted, or after all its reads. -/
theorem pollReads_quiet {b : RegBlock} {off mask want : Dword} {i : Instr}
    (hi : i ≠ .undefinedOffset b off none) (n : Nat) (s : State) (last : Dword) (hq : s.Quiet)
    (hk : s.host.baseKnown b = true) (hd : decodeAccess s.cfg ⟨b, off, none⟩ = .ok i) :
    ∃ v x k, 1 ≤ k ∧ k ≤ n + 1 ∧ (v &&& mask ≠ want → k = n + 1) ∧
      pollReads b off mask want (n + 1) last s =
        .ok (if v &&& mask = want then .success v else .timeout v,
          ((s.onBus b off).withFree x).counted (s.host.pollCount + k)) := by
  induction n generalizing s last with
  | zero =>
    obtain ⟨v, x, h⟩ := regRead32_quiet hq hk hd hi
    refine ⟨v, x, 1, le_refl 1, le_refl 1, fun _ => rfl, ?_⟩
    by_cases hv : v &&& mask = want
    · rw [pollReads_hit h hv, if_pos hv]
      rfl
    · rw [pollReads_miss h hv, if_neg hv]
      exact pollReads_last (gap_quiet (s := ((s.onBus b off).withFree x).counted _) hq)
  | succ n ih =>
    obtain ⟨v, x, h⟩ := regRead32_quiet hq hk hd hi
    by_cases hv : v &&& mask = want
    · refine ⟨v, x, 1, le_refl 1, by omega, fun h => absurd hv h, ?_⟩
      rw [pollReads_hit h hv, if_pos hv]
      rfl
    · obtain ⟨w, y, k, h1, h2, h3, h4⟩ := ih
        (((s.onBus b off).withFree x).counted (s.host.pollCount + 1)) v hq
        (by rw [HostRec.baseKnown_counted]; exact (HostRec.baseKnown_onBus s b b off).trans hk) hd
      refine ⟨w, y, k + 1, by omega, by omega, fun h => by rw [h3 h], ?_⟩
      rw [pollReads_miss h hv]
      refine h4.trans ?_
      rw [State.onBus_counted, State.withFree_counted, State.counted_counted,
        State.pollCount_counted, Nat.add_assoc, Nat.add_comm 1 k]
      have e : ((s.onBus b off).withFree x).onBus b off = (s.onBus b off).withFree x := by
        cases b <;> rfl
      rw [e]
      rfl

/-- `POLL` with nothing between its reads. -/
theorem regPoll_quiet {b : RegBlock} {off mask want : Dword} {i : Instr} {s : State}
    (hq : s.Quiet) (hk : s.host.baseKnown b = true)
    (hd : decodeAccess s.cfg ⟨b, off, none⟩ = .ok i) (hi : i ≠ .undefinedOffset b off none) :
    ∃ v x k, 1 ≤ k ∧ k ≤ pollBudget ∧ (v &&& mask ≠ want → k = pollBudget) ∧
      regPoll b off mask want s =
        .ok (if v &&& mask = want then .success v else .timeout v,
          ((s.onBus b off).withFree x).counted k) := by
  obtain ⟨v, x, k, h1, h2, h3, h4⟩ := pollReads_quiet (mask := mask) (want := want) hi 999
    (s.counted 0) 0 hq (by rw [HostRec.baseKnown_counted]; exact hk) hd
  refine ⟨v, x, k, h1, h2, h3, h4.trans ?_⟩
  rw [State.onBus_counted, State.withFree_counted, State.counted_counted,
    State.pollCount_counted, Nat.zero_add]

end Sys2Proof.Machine
end

