-- ==== Sys2Proof/Laws/Transfers.lean ====
section
/-! SUPPORT. The transfer engine: the rows that serve the transfer at its index are one action, and
what that action answers. -/

namespace Sys2Proof.Machine

open Config

/-- The engine's registers, where its step is enabled. -/
theorem State.transferReady.on {s : State} {i : SlotId} {r : XferRing} (h : s.transferReady i r) :
    s.transferOn i = some r := by
  obtain ⟨h1, h2, h3, h4, -⟩ := h
  unfold State.transferOn
  rw [h3]
  dsimp only
  rw [h1, h2, h4]
  rfl

/-- A transfer whose TRBs show the engine what it looks for is served. -/
theorem consumeTransfer_serves {s : State} {i : SlotId} {r : XferRing} {t0 t1 t2 : Trb}
    (hon : s.transferOn i = some r) (hc : t0.cycle = r.ccs) (ht : t0.typ = s.cfg.tt.setup)
    (hl : laterValid r t0 t1 t2 = true) (hw : transferShape s.cfg.tt t0 t1 t2 = true)
    (hf : 2 ≤ s.er.free) : consumeTransfer i t0 t1 t2 s = serveTransfer i r t0 t1 s := by
  unfold consumeTransfer
  rw [Act.get_bind, hon]
  dsimp only
  rw [hc, ht, hl, hw]
  simp only [bne_self_eq_false, Bool.false_eq_true, if_false, Bool.not_true]
  rw [if_neg (by omega)]

/-- Serving with an answer of ENV's at hand: the transfer taken, then the answer applied. -/
theorem serveTransfer_answer {s : State} {i : SlotId} {r : XferRing} {t0 t1 : Trb}
    {a : ControlAnswer} {left : List ControlAnswer} (h : s.env.control = a :: left) :
    serveTransfer i r t0 t1 s =
      applyAnswer i (requestOf t0) r.slotAddr t1.parameter
        (normalAnswer (freeByte s.free.count) (requestOf t0) (slotPortEnabled s i) a)
        (((s.xferPassed i r t0.stages).withEnv { s.env with control := left }).withFree
          { s.free with count := s.free.count + 1 }) := by
  unfold serveTransfer
  rw [Act.modify_bind]
  have e : drawAnswer i (requestOf t0) (s.xferPassed i r t0.stages) =
      .ok (normalAnswer (freeByte s.free.count) (requestOf t0) (slotPortEnabled s i) a,
        ((s.xferPassed i r t0.stages).withEnv { s.env with control := left }).withFree
          { s.free with count := s.free.count + 1 }) := by
    unfold drawAnswer
    rw [Act.get_bind]
    have d : drawControl (s.xferPassed i r t0.stages) =
        .ok (a, (s.xferPassed i r t0.stages).withEnv { s.env with control := left }) := by
      unfold drawControl
      rw [show (s.xferPassed i r t0.stages).env.control = a :: left from h]
      rfl
    rw [Act.bind_ok d, Act.get_bind, Act.set_bind]
    rfl
  dsimp only
  rw [Act.bind_ok e]

/-- Raising one Transfer Event. -/
theorem raiseTransfer_ok {s : State} {i : SlotId} {ptr : Addr} {code : BitVec 8} {n : Nat}
    (h : s.eventAllowed) :
    raiseTransfer i ptr code n s =
      .ok ((), s.raised (transferTrb s.cfg ptr code (BitVec.ofNat 24 n) i)) := by
  unfold raiseTransfer
  rw [Act.get_bind]
  exact raiseEvent_eq_ok.2 ⟨h, rfl⟩

/-- Bytes stored into a buffer that may be stored into. -/
theorem ctlStore_ok {s : State} {buf : Addr} {bs : List Byte}
    (ho : s.ctlRefusal buf bs.length = none) :
    ctlStore buf bs s = .ok ((), s.withMem (s.mem.writeBytes buf bs)) :=
  ctlStore_eq_ok.2 ⟨ho, rfl⟩

@[simp] theorem length_answerBytes (f : Nat → Byte) (data : List Byte) (n : Nat) :
    (answerBytes f data n).length = n := by
  simp [answerBytes]

/-- The bytes an answer lists are the bytes stored. -/
theorem getElem?_answerBytes (f : Nat → Byte) (data : List Byte) {n k : Nat} (hk : k < n)
    (hd : k < data.length) : (answerBytes f data n)[k]? = data[k]? := by
  unfold answerBytes
  rw [List.getElem?_map, List.getElem?_range hk, List.getElem?_eq_getElem hd]
  simp [List.getElem?_eq_getElem hd]

end Sys2Proof.Machine
end

