-- ==== Sys2Proof/Tests/Slice0.lean ====
section
/-! SUPPORT. The model's own tests. Expected values are those of spec/: the encodings of
30_encoding, the vectors of 95_test_vectors (their ids stand with each test), or worked by hand from
the rule named. Last, for every statement with hypotheses, operands and a state that meet them. -/

namespace Sys2Proof.Machine.Slice0

open Config

-- One kernel evaluation after the other: side by side they need a thread each.
set_option Elab.async false

/-! ### Well-formedness: each check refuses an ill-formed term -/

theorem test_wf_access_offsets :
    ([Instr.rd32 .op 2, .wr32 .op 1 0, .rd64 .op 4, .wr64 .rt 0x3C 0, .set32 .rt 0x21 1,
      .clr32 .op 3 1, .poll .op 6 1 1, .cfgRead 0 0 0 2].map (·.wellFormed params)).any id =
      false := by decide +kernel

theorem test_wf_indices :
    ([Instr.ringEp0 0, .ringEp0 33, .rdPortsc 4, .wrPortsc 4 0, .wrDbi 0 1, .wrDbi 33 1, .rdDb 33,
      .resetPort 4, .xhcTransferStep 0, .xhcPortAttach 4 1, .xhcPortDetach 4,
      .xhcPortResetComplete 4, .xhcPortEvent 4].map (·.wellFormed params)).any id = false := by
  decide +kernel

/-- An offset that 20_memory R72 lists is no undefined offset; a misaligned access is none either.
-/
theorem test_wf_undefined_offset :
    ([Instr.undefinedOffset .op 0x38 none, .undefinedOffset .op 2 none].map
      (·.wellFormed params)).any id = false := by decide +kernel

theorem test_wf_trb_types :
    ([Instr.cmdLink ⟨0, 0, 0x5C01⟩, .cmdOther ⟨0, 0, 0x5C01⟩, .xferNormal 1 ⟨0, 0, 0x1801⟩,
      .xferLink 1 ⟨0, 0, 0x0401⟩, .xferEventData 1 ⟨0, 0, 0x2001⟩, .xferNoop 1 ⟨0, 0, 0x1C01⟩,
      .evOther ⟨0, 0, 0x8401⟩].map (·.wellFormed params)).any id = false := by decide +kernel

theorem test_wf_event_pointer :
    (Instr.evCmdCompletion ⟨0x101004, 1, 0, true⟩).wellFormed params = false := by decide +kernel

theorem test_wf_host_operands :
    ([Instr.allocate 0, .postCommand ⟨0, 0, 0x5C01⟩, .addressDevice 0, .addressDevice 33,
      .fillInputContext 0x104020 1, .fillInputContext 0x104000 0, .fillInputContext 0x104000 33,
      .onAddressDeviceCompletion 0, .onAddressDeviceCompletion 33,
      .controlTransfer 0 ⟨0, 0, 0, 0, 0⟩ 0, .controlTransfer 33 ⟨0, 0, 0, 0, 0⟩ 0,
      .ep0Enqueue 0 ⟨0, 0, 0x840⟩, .ep0Enqueue 1 ⟨0, 0, 0x841⟩].map
      (·.wellFormed params)).any id = false := by decide +kernel

/-- XHC.EVT is an event of one of the three types (60_exceptions R377). -/
theorem test_wf_raise_event :
    ([0x5C01, 0x01, 0x8C01].map fun v => (Instr.xhcRaiseEvent ⟨0, 0, v⟩).wellFormed params) =
      [false, false, false] ∧
    ([0x8001, 0x8401, 0x8801].map fun v => (Instr.xhcRaiseEvent ⟨0, 0, v⟩).wellFormed params) =
      [true, true, true] := by decide +kernel

theorem test_wf_accepts :
    ([Instr.rd32 .op 4, .rd64 .op 0x30, .ringEp0 32, .rdPortsc 3, .wrDbi 32 1, .rdDb 0,
      .undefinedOffset .op 8 none, .cmdLink ⟨0, 0, 0x1801⟩, .evCmdCompletion ⟨0x101010, 1, 0, true⟩,
      .allocate 256, .postCommand ⟨0, 0, 0x5C00⟩, .addressDevice 32, .ep0Enqueue 1 ⟨0, 0, 0x840⟩,
      .xhcPortAttach 3 15].map (·.wellFormed params)).all id = true := by decide +kernel

/-! ### Decoding: words written out from 30_encoding -/

/-- Command TRBs: type in control [15:10], slot id in [31:24], endpoint id in [20:16] (30_encoding
R102, R104 to R106; the control words of 95 section 1.4 and CM13). -/
theorem test_decode_commands :
    decodeTrb typeCodes .cmd ⟨0, 0, 0x00005C01⟩ = .ok (.cmdNoop true) ∧
    decodeTrb typeCodes .cmd ⟨0, 0, 0x00002400⟩ = .ok (.cmdEnableSlot false) ∧
    decodeTrb typeCodes .cmd ⟨0x104000, 0, 0x01002C01⟩ = .ok (.cmdAddressDevice 1 0x104000 true) ∧
    decodeTrb typeCodes .cmd ⟨0, 0, 0x01002801⟩ = .ok (.cmdDisableSlot 1 true) ∧
    decodeTrb typeCodes .cmd ⟨0x40, 0, 0x01003001⟩ = .ok (.cmdConfigureEndpoint 1 0x40 true) ∧
    decodeTrb typeCodes .cmd ⟨0x40, 0, 0x01003401⟩ = .ok (.cmdEvaluateContext 1 0x40 true) ∧
    decodeTrb typeCodes .cmd ⟨0, 0, 0x01033801⟩ = .ok (.cmdResetEndpoint 1 3 true) ∧
    decodeTrb typeCodes .cmd ⟨0x81, 0, 0x01024001⟩ = .ok (.cmdSetTrDequeue 1 2 0x81 true) ∧
    decodeTrb typeCodes .cmd ⟨0, 0, 0xFF004401⟩ = .ok (.cmdResetDevice 255 true) ∧
    decodeTrb typeCodes .cmd ⟨8, 9, 0x00001801⟩ = .ok (.cmdLink ⟨8, 9, 0x00001801⟩) ∧
    decodeTrb typeCodes .cmd ⟨8, 9, 0x0000FC01⟩ = .ok (.cmdOther ⟨8, 9, 0x0000FC01⟩) := by
  decide +kernel

/-- Transfer TRBs (30_encoding R126, R127, R129; 95 section 1.4, CT1 to CT3). -/
theorem test_decode_transfers :
    decodeTrb typeCodes (.xfer 1) ⟨0x0012000001000680, 8, 0x00030841⟩ =
      .ok (.xferSetup 1 ⟨0x0012000001000680, 8, true, 3, true⟩) ∧
    decodeTrb typeCodes (.xfer 1) ⟨0x107000, 0x00000012, 0x00010C01⟩ =
      .ok (.xferData 1 ⟨0x107000, 18, true, true⟩) ∧
    decodeTrb typeCodes (.xfer 1) ⟨0, 0, 0x00001020⟩ = .ok (.xferStatus 1 ⟨false, true, false⟩) ∧
    decodeTrb typeCodes (.xfer 2) ⟨1, 2, 0x00000401⟩ = .ok (.xferNormal 2 ⟨1, 2, 0x00000401⟩) ∧
    decodeTrb typeCodes (.xfer 2) ⟨1, 2, 0x00001801⟩ = .ok (.xferLink 2 ⟨1, 2, 0x00001801⟩) ∧
    decodeTrb typeCodes (.xfer 2) ⟨1, 2, 0x00001C01⟩ = .ok (.xferEventData 2 ⟨1, 2, 0x00001C01⟩) ∧
    decodeTrb typeCodes (.xfer 2) ⟨1, 2, 0x00002001⟩ = .ok (.xferNoop 2 ⟨1, 2, 0x00002001⟩) ∧
    decodeTrb typeCodes (.xfer 2) ⟨0, 0, 0x00005C01⟩ = .error (.notOnTransferRing 23) := by
  decide +kernel

/-- Event TRBs (30_encoding R107 to R109; 95 section 1.4, EN1, EN2, EN4, RP5, PT8). -/
theorem test_decode_events :
    decodeTrb typeCodes .evt ⟨0x106010, 0x0D00000A, 0x01018001⟩ =
      .ok (.evTransfer ⟨0x106010, 13, 10, 1, 1, true⟩) ∧
    decodeTrb typeCodes .evt ⟨0x101000, 0x01000000, 0x01008401⟩ =
      .ok (.evCmdCompletion ⟨0x101000, 1, 1, true⟩) ∧
    decodeTrb typeCodes .evt ⟨0x03000000, 0x01000000, 0x00008801⟩ =
      .ok (.evPortStatusChange ⟨3, 1, true⟩) ∧
    decodeTrb typeCodes .evt ⟨0, 0, 0x0000FC01⟩ = .ok (.evOther ⟨0, 0, 0x0000FC01⟩) := by
  decide +kernel

/-- Register reads by block and offset (20_memory R72; 95 section 1.2). -/
theorem test_decode_register_reads :
    (([(.cap, 0), (.cap, 4), (.cap, 0x14), (.cap, 0x18), (.op, 0), (.op, 4), (.op, 0x18),
      (.op, 0x1C), (.op, 0x30), (.op, 0x34), (.op, 0x38), (.op, 0x400), (.op, 0x430), (.rt, 0x20),
      (.rt, 0x28), (.rt, 0x30), (.rt, 0x34), (.rt, 0x38), (.rt, 0x3C), (.db, 0),
      (.db, 128)] : List (RegBlock × Dword)).map fun a => decodeAccess params ⟨a.1, a.2, none⟩) =
    [Instr.rdCap0, .rdHcsparams1, .rdDboff, .rdRtsoff, .rdUsbcmd, .rdUsbsts, .rdCrcrLo, .rdCrcrHi,
      .rdDcbaapLo, .rdDcbaapHi, .rdConfig, .rdPortsc 0, .rdPortsc 3, .rdIman, .rdErstsz,
      .rdErstbaLo, .rdErstbaHi, .rdErdpLo, .rdErdpHi, .rdDb 0, .rdDb 32].map .ok := by
  decide +kernel

/-- Register writes by block and offset. -/
theorem test_decode_register_writes :
    (([(.cap, 0), (.cap, 4), (.cap, 0x14), (.cap, 0x18), (.op, 0), (.op, 4), (.op, 0x18),
      (.op, 0x1C), (.op, 0x30), (.op, 0x34), (.op, 0x38), (.op, 0x410), (.rt, 0x20),
      (.rt, 0x28), (.rt, 0x30), (.rt, 0x34), (.rt, 0x38), (.rt, 0x3C), (.db, 0),
      (.db, 4)] : List (RegBlock × Dword)).map fun a => decodeAccess params ⟨a.1, a.2, some 5⟩) =
    [Instr.wrCap .cap0 5, .wrCap .hcsparams1 5, .wrCap .dboff 5, .wrCap .rtsoff 5, .wrUsbcmd 5,
      .wrUsbsts 5, .wrCrcrLo 5, .wrCrcrHi 5, .wrDcbaapLo 5, .wrDcbaapHi 5, .wrConfig 5,
      .wrPortsc 1 5, .wrIman 5, .wrErstsz 5, .wrErstbaLo 5, .wrErstbaHi 5, .wrErdpLo 5,
      .wrErdpHi 5, .wrDb0 5, .wrDbi 1 5].map .ok := by decide +kernel

/-- Offsets with no register, and a misaligned one (95 RA19, RA21). -/
theorem test_decode_undefined_offsets :
    decodeAccess params ⟨.op, 8, none⟩ = .ok (.undefinedOffset .op 8 none) ∧
    decodeAccess params ⟨.op, 0x440, none⟩ = .ok (.undefinedOffset .op 0x440 none) ∧
    decodeAccess params ⟨.rt, 0x24, none⟩ = .ok (.undefinedOffset .rt 0x24 none) ∧
    decodeAccess params ⟨.op, 0x3C, none⟩ = .ok (.undefinedOffset .op 0x3C none) ∧
    decodeAccess params ⟨.cap, 0x1C, none⟩ = .ok (.undefinedOffset .cap 0x1C none) ∧
    decodeAccess params ⟨.db, 132, some 0⟩ = .ok (.undefinedOffset .db 132 (some 0)) ∧
    decodeAccess params ⟨.cap, 2, none⟩ = .error .misaligned := by decide +kernel

/-- The opcode table numbers the bits of the control dword (log 19). -/
theorem test_decode_table_word :
    decodeTableWord 32 0x00005C01 = some (.cmdNoop true) ∧
    decodeTableWord 32 0x02002C00 = some (.cmdAddressDevice 2 0 false) ∧
    decodeTableWord 32 0x00008801 = some (.evPortStatusChange ⟨0, 0, true⟩) := by decide +kernel

/-! ### States the tests run on -/

/-- The result of an operation, looked at. -/
def after {α : Type} (i : Instr) (s : State) (f : State → α) : Option α :=
  match exec i s with
  | .next t => some (f t)
  | _ => none

/-- Why an operation was refused. -/
def why (i : Instr) (s : State) : Option Refusal :=
  match exec i s with
  | .refused r => some r
  | _ => none

/-- Whether an operation goes on. -/
def goes (i : Instr) (s : State) : Bool := (after i s fun _ => ()).isSome

/-- What goes on has a next state. -/
theorem next_of_goes {i : Instr} {s : State} (h : goes i s = true) : ∃ t, exec i s = .next t := by
  unfold goes after at h
  split at h
  · exact ⟨_, ‹_›⟩
  · cases h

/-- A halted controller whose bases the host knows; reserved bits will read as 0 (95 section 1.1).
-/
def halted : State :=
  let s := State.reset.withOp { OpRegs.reset with cnr := false }
  ((s.withHost { s.host with found := true, capBase := 0xFEB00000 }).parsed).withFree
    ⟨List.replicate 12 0, 0⟩

/-- The instance after its start (95 P1): port 0 with a High-Speed device, enabled. -/
def started : State :=
  let s := halted.withPort 0 ⟨true, true, false, 3, true, 3, false, false⟩
  { s with
    op := ⟨true, true, false, false, false, 0x101001, 0x100000, 32⟩
    intr := ⟨true, false, 1, 0x103000⟩
    cr := ⟨0x101000, 0, true, true, true⟩
    er := ⟨0x102000, 256, 0, true, 0x102000, false⟩
    host := { s.host with
      cmd := ⟨0x101000, 0, 0, true, 256⟩
      evt := ⟨0x102000, 0, 0, true, 256⟩
      dcbaa := 0x100000, erst := 0x103000
      lifecycle := .running, initialized := true, running := true } }

/-- The three TRBs of the worked transfer (95 CT1) at 0x106000. -/
def stagedMem : Memory :=
  let m : Memory := []
  ((m.writeTrb 0x106000 ⟨0x0012000001000680, 8, 0x00030841⟩).writeTrb
    0x106010 ⟨0x107000, 0x12, 0x00010C01⟩).writeTrb 0x106020 ⟨0, 0, 0x00001021⟩

/-- Slot 1 addressed on port 0, its device context at 0x105000 naming root port 1, the worked
transfer staged and its doorbell rung. -/
def serving : State :=
  let s := started.withSlot 1 ⟨.addressed, 1, 0x105000⟩
  let s := s.withXfer 1 (some ⟨0x106000, 0, true, true⟩)
  let s := s.withMem (stagedMem.write32 0x105004 0x00010000)
  s.withHost { s.host with
    ep0 := s.host.ep0.put 1 ⟨0x106000, 3, 0, true, 256⟩
    dev := s.host.dev.put 1 ⟨1, 1, 3, 1, 0x105000, 0x104000, true⟩ }

/-- The worked transfer as an OUT transfer, and with no Data stage (95 CT2, CT3). -/
def servingOut : State := serving.withMem (Memory.write32 (Memory.writeTrb (Memory.writeTrb
  (Memory.writeTrb [] 0x106000 ⟨0x0008000002000921, 8, 0x00020841⟩) 0x106010
  ⟨0x107000, 8, 0x00000C01⟩) 0x106020 ⟨0, 0, 0x00011021⟩) 0x105004 0x00010000)

/-- The same with no Data stage. -/
def servingNone : State := serving.withMem (Memory.write32 (Memory.writeTrb (Memory.writeTrb []
  0x106000 ⟨0x10900, 8, 0x00000841⟩) 0x106010 ⟨0, 0, 0x00011021⟩) 0x105004 0x00010000)

/-- ENV with one answer to a control transfer. -/
def answers (a : ControlAnswer) (s : State) : State := s.withEnv { s.env with control := [a] }

/-- Slot 1 enabled, its input context at 0x104000 with both add marks, port 1 and the ring at
0x106000; the device context installed (95 P5). -/
def addressing : State :=
  let s := started.withSlot 1 ⟨.enabled, 0, 0⟩
  let m : Memory := []
  let m := ((((m.write32 0x104004 3).write32 0x104020 0x08300000).write32
    0x104024 0x00010000).write32 0x104044 0x00400020).write64 0x104048 0x106001
  (s.withMem (m.write64 0x100008 0x105000)).withEnv { s.env with setAddress := [true, false] }

/-! ### Registers and the access layer -/

/-- RA1, RA24, EN12: the instance's words with reserved bits drawn as 0. -/
theorem test_reads :
    after (.rd32 .cap 4) started (fun t => (t.host.result, t.host.busAddr)) =
      some (.dword 0x04000120, 0xFEB00004) ∧
    after .rdCap0 started (·.host.result) = some (.dword 0x01000020) ∧
    after .rdUsbcmd started (·.host.result) = some (.dword 5) ∧
    after .rdUsbsts started (·.host.result) = some (.dword 0) ∧
    after (.rd32 .op 0x400) started (fun t => (t.host.result, t.host.busAddr)) =
      some (.dword 0x00000C03, 0xFEB00420) ∧
    after .rdConfig started (·.host.result) = some (.dword 32) ∧
    after .rdIman started (·.host.result) = some (.dword 2) := by decide +kernel

/-- RA6, RA23 and reserved bits: what is drawn is read, beside the fields; a capability register is
constant. -/
theorem test_open_reads :
    let s := started.withFree ⟨[0xFFFFFFFF], 0⟩
    after .rdCrcrLo s (·.host.result) = some (.dword 0xFFFFFFFF) ∧
    after (.rdDb 1) s (·.host.result) = some (.dword 0xFFFFFFFF) ∧
    after .rdHcsparams1 s (·.host.result) = some (.dword 0x04000120) ∧
    after .rdErstsz s (·.host.result) = some (.dword 0xFFFF0001) ∧
    after .rdErdpLo s (·.host.result) = some (.dword 0x00102007) := by decide +kernel

/-- RA2: a capability write is ignored, in every state. -/
theorem test_wr_cap : (exec (.wrCap .hcsparams1 0xFFFFFFFF) State.reset = .next State.reset) := rfl

/-- RA3, RA4: CRCR latches, and the high dword loads the engine. -/
theorem test_crcr :
    after (.wrCrcrLo 0x00101001) halted (fun t => (t.op.crcrLatch, t.cr)) =
      some (0x00101001, ⟨0, 0, false, false, false⟩) ∧
    after (.wr64 .op 0x18 0x00101001) halted (·.cr) = some ⟨0x101000, 0, true, false, true⟩ ∧
    after (.wr64 .op 0x18 0x00200001) started (·.cr.base) = some 0x101000 := by decide +kernel

/-- 40_register_access R163: the base is the latch without its low 6 bits; 20_memory R79: the address
used is the one without the low 12. -/
theorem test_crcr_base :
    after (.wr64 .op 0x18 0x00101F41) halted (fun t => (t.cr, t.cr.fetchAddr)) =
      some (⟨0x101F40, 0, true, false, true⟩, 0x101000) := by decide +kernel

/-- 20_memory R85, 41_ring_protocol R201: DB[0] rung before CRCR is written wakes the engine, and
nothing is fetched; the zeros at address 0 would be a TRB of its cycle state. -/
theorem test_no_fetch_before_crcr :
    let s := started.withCr .reset
    after (.wrDb0 0) s (·.cr.running) = some true ∧
    after .xhcCommandStep (s.withCr ⟨0, 0, false, true, false⟩) (fun t => (t.cr, t.er.enq)) =
      some (⟨0, 0, false, true, false⟩, 0) ∧
    after .xhcCommandStep (s.withCr ⟨0, 0, false, true, true⟩) (fun t => (t.cr.deq, t.er.enq)) =
      some (1, 1) := by decide +kernel

/-- RA7, RA9, RA10: HCRST on a running controller, and on a halted one. -/
theorem test_usbcmd :
    why (.wrUsbcmd 2) started = some .resetWhileRunning ∧
    after (.wrUsbcmd 7) halted (fun t => (t.op.rs, t.op.inte, t.op.hcrst, t.op.cnr)) =
      some (false, false, true, true) ∧
    after (.wrUsbcmd 4) halted (fun t => (t.op.rs, t.op.inte)) = some (false, true) := by
  decide +kernel

/-- RA8, RA12, RA13, RA22: not ready, CONFIG's field and bound, below a slot in use too
(40_register_access R165), a misaligned pointer. -/
theorem test_write_refusals :
    why (.wrErstsz 1) State.reset = some .notReady ∧
    after (.wrConfig 0x120) halted (·.op.maxSlotsEn) = some 32 ∧
    why (.wrConfig 0x21) halted = some .maxSlotsEnTooLarge ∧
    after (.wrConfig 1) (halted.withSlot 2 ⟨.enabled, 0, 0⟩) (·.op.maxSlotsEn) = some 1 ∧
    why (.wr64 .op 0x30 0x00100020) halted = some .misalignedPointer ∧
    after (.wrDcbaapHi 7) halted (·.op.dcbaap) = some 0x700000000 := by decide +kernel

/-- RA14: ERDP keeps EHB on a write without bit 3. -/
theorem test_erdp :
    let s := started.withEr { started.er with ehb := true }
    after .rdErdpLo s (·.host.result) = some (.dword 0x00102008) ∧
    after (.wrErdpLo 0x00102010) s (fun t => (t.er.deqPtr, t.er.ehb)) = some (0x102010, true) ∧
    after (.wrErdpLo 0x0010201F) s (fun t => (t.er.deqPtr, t.er.ehb)) = some (0x102010, false) ∧
    after (.wrErdpHi 1) s (·.er.deqPtr) = some 0x100102000 := by decide +kernel

/-- RA15, RA16, PT9: only PR 0 to 1 has an effect. -/
theorem test_portsc :
    after (.wrPortsc 0 0x00000C03) started (·.ports.get 0) = some (started.ports.get 0) ∧
    after (.wrPortsc 0 0x00000C13) started (·.ports.get 0) =
      some ⟨true, false, true, 3, true, 3, true, false⟩ ∧
    why (.wrPortsc 4 0x10) started = some .undefinedOffset := by decide +kernel

/-- RA17, RA18: no segment, no ring; a read-modify-write clears IP. -/
theorem test_interrupter :
    after (.wrErstbaHi 0) (halted.withIntr ⟨false, false, 0, 0x103000⟩) (·.er.size) = some 0 ∧
    after (.set32 .rt 0x20 2) (halted.withIntr ⟨false, true, 0, 0⟩)
      (fun t => (t.intr.ie, t.intr.ip)) = some (true, false) ∧
    after (.wrErstbaLo 0x40) halted (·.intr.erstba) = some 0x40 := by decide +kernel

/-- EN9: the segment table entry loads the producer (40_register_access R168). -/
theorem test_erst_load :
    let m : Memory := [(0x103001, 0x20), (0x103002, 0x10), (0x103009, 1)]
    after (.wrErstbaHi 0) ((halted.withIntr ⟨false, false, 1, 0x103000⟩).withMem m) (·.er) =
      some ⟨0x102000, 256, 0, true, 0, false⟩ ∧
    why (.wrErstbaHi 0) ((halted.withIntr ⟨false, false, 2, 0x103000⟩).withMem m) =
      some .moreThanOneSegment ∧
    why (.wrErstbaHi 0) (halted.withIntr ⟨false, false, 1, 0x103000⟩) = some .segmentSize ∧
    why (.wrErstbaHi 0) ((halted.withIntr ⟨false, false, 1, 0x103000⟩).withMem
      [(0x103000, 0x40), (0x103001, 0x20), (0x103002, 0x10), (0x103009, 1)]) =
        some .misalignedPointer ∧
    after (.wrErstbaHi 0) ((halted.withIntr ⟨false, false, 1, 0x103000⟩).withMem
      [(0x103001, 0x20), (0x103002, 0x10), (0x103008, 100)]) (fun t => (t.er.base, t.er.size)) =
        some (0x102000, 100) := by
  decide +kernel

/-- RA19, RA20, RA21: accesses with no register, and a 64-bit read. -/
theorem test_access :
    why (.rd32 .op 8) started = some .undefinedOffset ∧
    why (.wr32 .db 132 0) started = some .undefinedOffset ∧
    why (.rd32 .cap 2) started = some .misalignedAccess ∧
    why (.rd32 .op 0) State.reset = some .baseNotFixed ∧
    after (.rd64 .op 0x30) started (fun t => (t.host.result, t.host.busAddr)) =
      some (.qword 0x100000, 0xFEB00054) ∧
    why (.undefinedOffset .op 8 none) started = some .undefinedOffset := by decide +kernel

/-- LC12: CLR32 writes INTE back as read; LC6: a poll that succeeds at its first read. -/
theorem test_clr32_poll :
    after (.clr32 .op 0 1) started (fun t => (t.op.rs, t.op.inte)) = some (false, true) ∧
    after (.poll .op 4 1 0) started (fun t => (t.host.result, t.host.pollCount)) =
      some (.pollSuccess 0, 1) := by decide +kernel

/-- RP6, RP7, RP13, RP14: doorbells. -/
theorem test_doorbells :
    after (.wrDb0 0) halted (·.cr.running) = some false ∧
    after .ringCmd (started.withCr ⟨0x101000, 0, true, false, true⟩) (·.cr.running) = some true ∧
    why (.wrDb0 1) started = some .doorbellTarget ∧
    after (.ringEp0 1) started (fun t => t.tr.get 1) = some none ∧
    after (.ringEp0 1) (serving.withXfer 1 (some ⟨0x106000, 0, true, false⟩)) (fun t => t.tr.get 1) =
      some (some ⟨0x106000, 0, true, true⟩) ∧
    why (.wrDbi 1 2) serving = some .doorbellTarget := by decide +kernel

/-- 95 section 1.1: the PCI words, and a function that does not answer. -/
theorem test_cfg_read :
    after (.cfgRead 0 4 0 0x08) started (·.host.result) = some (.dword 0x0C033001) ∧
    after (.cfgRead 0 3 0 0) started (·.host.result) = some (.dword 0xFFFFFFFF) := by decide +kernel

/-! ### Commands -/

/-- CM1: the completion of a No-Op, in memory as 41_ring_protocol R210 writes it. -/
theorem test_noop :
    after (.cmdNoop true) started (fun t => (t.mem.readTrb 0x102000, t.er.enq, t.cr.deq, t.er.ehb,
      t.intr.ip)) = some (⟨0x101000, 0x01000000, 0x00008401⟩, 1, 1, true, true) := by decide +kernel

/-- RP7: a cycle mismatch stops the engine where it stands. -/
theorem test_cycle_mismatch :
    after .xhcCommandStep started (fun t => (t.cr, t.er.enq)) =
      some (⟨0x101000, 0, true, false, true⟩, 0) ∧
    after (.cmdNoop false) started (·.cr) = some ⟨0x101000, 0, true, false, true⟩ := by decide +kernel

/-- CM3, CM4: no slot to hand out; the draw 0 takes the lowest id. -/
theorem test_enable_slot :
    after (.cmdEnableSlot true) (started.withOp { started.op with maxSlotsEn := 0 })
      (·.mem.readTrb 0x102000) = some ⟨0x101000, 0x09000000, 0x00008401⟩ ∧
    after (.cmdEnableSlot true) ((started.withSlot 1 ⟨.enabled, 0, 0⟩).withSlot 2 ⟨.enabled, 0, 0⟩)
      (fun t => (t.mem.readTrb 0x102000, (t.slots.get 3).state)) =
        some (⟨0x101000, 0x01000000, 0x03008401⟩, .enabled) := by decide +kernel

/-- CM5 to CM8: Address Device fails before it reads a context. -/
theorem test_address_device_fails :
    after (.cmdAddressDevice 0 0x104000 true) addressing (·.mem.readTrb 0x102000) =
      some ⟨0x101000, 0x05000000, 0x00008401⟩ ∧
    after (.cmdAddressDevice 33 0x104000 true) addressing (·.mem.readTrb 0x102000) =
      some ⟨0x101000, 0x05000000, 0x21008401⟩ ∧
    after (.cmdAddressDevice 2 0x104000 true) addressing (·.mem.readTrb 0x102000) =
      some ⟨0x101000, 0x0B000000, 0x02008401⟩ ∧
    after (.cmdAddressDevice 1 0x104000 true) serving (·.mem.readTrb 0x102000) =
      some ⟨0x101000, 0x13000000, 0x01008401⟩ := by decide +kernel

/-- CM9 to CM11, and the address 44_commands R310 assigns on the draw 0: the engine loaded from the
context, the device context written. -/
theorem test_address_device :
    after (.cmdAddressDevice 1 0x104000 true) (addressing.withMem (addressing.mem.write32 0x104004 1))
      (·.mem.readTrb 0x102000) = some ⟨0x101000, 0x11000000, 0x01008401⟩ ∧
    after (.cmdAddressDevice 1 0x104000 true) (addressing.withPort 0 .empty)
      (fun t => (t.mem.readTrb 0x102000, t.mem.read32 0x105000)) =
        some (⟨0x101000, 0x04000000, 0x01008401⟩, 0) ∧
    why (.cmdAddressDevice 1 0x104000 true) (addressing.withMem []) = some .badDeviceContext ∧
    why (.cmdAddressDevice 1 0x104000 true) (addressing.withMem
      (addressing.mem.write64 0x104048 0x106041)) = some .misalignedPointer ∧
    after (.cmdAddressDevice 1 0x104000 true) addressing (fun t => (t.mem.readTrb 0x102000,
        t.slots.get 1, t.tr.get 1, t.mem.read32 0x105004, t.mem.read32 0x10500C,
        t.mem.read32 0x105020)) =
      some (⟨0x101000, 0x01000000, 0x01008401⟩, ⟨.addressed, 1, 0x105000⟩,
        some ⟨0x106000, 0, true, false⟩, 0x00010000, 0x10000001, 1) := by decide +kernel

/-- Slots 2 to 128 addressed, with every address there is, and slot 1 to be addressed. -/
def crowded : State := addressing.withSlots (Vector.ofFn fun k => if k.val = 1 then
  ⟨.enabled, 0, 0⟩ else if 2 ≤ k.val ∧ k.val ≤ 128 then ⟨.addressed, BitVec.ofNat 7 (k.val - 1), 0⟩
  else .disabled)

/-- 44_commands R310: with no address to give, a transaction error. -/
theorem test_no_address :
    after (.cmdAddressDevice 1 0x104000 true) crowded (fun t => (t.mem.readTrb 0x102000,
      t.slots.get 1)) = some (⟨0x101000, 0x04000000, 0x01008401⟩, ⟨.enabled, 0, 0⟩) := by
  decide +kernel

/-- CM12, CM13, RP12: types that are no command, and the commands only named. -/
theorem test_other_commands :
    after (.cmdOther ⟨0, 0, 0x0000FC01⟩) started (fun t => (t.mem.readTrb 0x102000, t.cr.deq)) =
      some (⟨0x101000, 0x05000000, 0x00008401⟩, 1) ∧
    why (.cmdDisableSlot 1 true) started = some .disableSlotUnspecified ∧
    why (.cmdConfigureEndpoint 1 0 true) started = some .configureEndpointUnspecified ∧
    why (.cmdEvaluateContext 1 0 true) started = some .evaluateContextUnspecified ∧
    why (.cmdResetEndpoint 1 1 true) started = some .resetEndpointUnspecified ∧
    why (.cmdSetTrDequeue 1 1 0 true) started = some .setTrDequeueUnspecified ∧
    why (.cmdResetDevice 1 true) started = some .resetDeviceUnspecified ∧
    why (.cmdLink ⟨0, 0, 0x1801⟩) started = some .linkOnCommandRing := by decide +kernel

/-! ### Control transfers -/

/-- The answer of a device that sends `n` bytes 1, 2, ... -/
def bytesUpTo (n : Nat) : List Byte := (List.range n).map fun k => BitVec.ofNat 8 (k + 1)

/-- CT5: eighteen bytes stored, one event for the Status TRB. -/
theorem test_transfer_answered :
    after (.xhcTransferStep 1) (answers (.ok (bytesUpTo 18)) serving) (fun t =>
      (t.mem.readBytes 0x107000 19, t.mem.readTrb 0x102000, t.er.enq, (t.tr.get 1).map (·.deq))) =
    some (bytesUpTo 18 ++ [0], ⟨0x106020, 0x01000000, 0x01018001⟩, 1, some 3) := by decide +kernel

/-- CT6: a short packet stores what came and raises two events. -/
theorem test_transfer_short :
    after (.xhcTransferStep 1) (answers (.short 8 (bytesUpTo 8)) serving) (fun t =>
      (t.mem.readBytes 0x107000 9, t.mem.readTrb 0x102000, t.mem.readTrb 0x102010)) =
    some (bytesUpTo 8 ++ [0], ⟨0x106010, 0x0D00000A, 0x01018001⟩,
      ⟨0x106020, 0x01000000, 0x01018001⟩) := by decide +kernel

/-- CT8, CT9, CT10: one event for the failing stage, the ring past the transfer. -/
theorem test_transfer_fails :
    after (.xhcTransferStep 1) (answers (.error .data .stall) serving) (fun t =>
      (t.er.enq, (t.tr.get 1).map (·.deq))) = some (1, some 3) ∧
    after (.xhcTransferStep 1) (answers (.error .status .stall) servingNone)
      (·.mem.readTrb 0x102000) = some ⟨0x106010, 0x06000000, 0x01018001⟩ ∧
    after (.xhcTransferStep 1) (answers (.error .status .stall) serving) (fun t =>
      (t.er.enq, (t.tr.get 1).map (·.deq), t.free.count)) = some (1, some 3, 2) ∧
    after (.xhcTransferStep 1) (answers (.error .setup .transaction) serving) (fun t =>
      (t.mem.readTrb 0x102000, t.mem.read 0x107000)) =
        some (⟨0x106000, 0x04000000, 0x01018001⟩, 0) ∧
    after (.xhcTransferStep 1) (answers (.ok (bytesUpTo 18)) (serving.withPort 0 .empty))
      (·.mem.readTrb 0x102000) = some ⟨0x106000, 0x04000000, 0x01018001⟩ := by decide +kernel

/-- CT12, CT13, CT15: incomplete, another shape, no room. -/
theorem test_transfer_waits :
    after (.xhcTransferStep 1) (serving.withMem (serving.mem.write32 0x10601C 0x00010C00))
      (fun t => (t.tr.get 1, t.er.enq)) = some (some ⟨0x106000, 0, true, false⟩, 0) ∧
    why (.xhcTransferStep 1) (serving.withMem (serving.mem.write32 0x106018 0x11)) =
      some .transferShape ∧
    why (.xhcTransferStep 1) (serving.withMem (serving.mem.write32 0x106000 0x00000600)) =
      some .transferShape ∧
    why (.xhcTransferStep 1) (serving.withMem (serving.mem.write32 0x10600C 0x00000401)) =
      some .normalOnEp0 ∧
    after (.xhcTransferStep 1) (serving.withEr { serving.er with enq := 254 })
      (fun t => t.tr.get 1) = some (some ⟨0x106000, 0, true, true⟩) := by decide +kernel

/-- The transfer rows serve the transfer their TRB stands in (CT5, CT11 by log 18). -/
theorem test_transfer_rows :
    let s := answers (.ok (bytesUpTo 18)) serving
    ([Instr.xferSetup 1 ⟨0x0012000001000680, 8, true, 3, true⟩,
      .xferData 1 ⟨0x107000, 18, true, true⟩, .xferStatus 1 ⟨false, true, true⟩].map fun i =>
        after i s fun t => (t.mem.read 0x107011, t.mem.readTrb 0x102000)) =
      List.replicate 3 (some (18, ⟨0x106020, 0x01000000, 0x01018001⟩)) ∧
    why (.xferNormal 1 ⟨0, 0, 0x401⟩) s = some .normalOnEp0 ∧
    why (.xferLink 1 ⟨0, 0, 0x1801⟩) s = some .linkOnTransferRing ∧
    why (.xferEventData 1 ⟨0, 0, 0x1C01⟩) s = some .eventDataOnEp0 ∧
    why (.xferNoop 1 ⟨0, 0, 0x2001⟩) s = some .noopOnEp0 := by decide +kernel

/-! ### Events, host side -/

/-- RP5, RP17: an unknown event is skipped and consumed; the index wraps. -/
theorem test_event_other :
    after (.evOther ⟨0, 0, 0xFC01⟩) (started.withHost
      { started.host with evt := ⟨0x102000, 0, 5, true, 256⟩ }) (fun t =>
        (t.host.evt.deq, t.er.deqPtr, t.host.result, t.host.lastPortChange.valid)) =
      some (6, 0x102060, .bool true, false) ∧
    after (.evOther ⟨0, 0, 0xFC01⟩) (started.withHost
      { started.host with evt := ⟨0x102000, 0, 255, true, 256⟩ }) (fun t =>
        (t.host.evt.deq, t.host.evt.cycle, t.er.deqPtr)) = some (0, false, 0x102000) := by
  decide +kernel

/-- 41_ring_protocol R218: what each handler records. -/
theorem test_event_records :
    after (.evTransfer ⟨0x106010, 13, 10, 1, 1, true⟩) started (·.host.lastTransfer) =
      some ⟨13, 10, 1, 1, 0x106010, true⟩ ∧
    after (.evCmdCompletion ⟨0x101000, 1, 1, true⟩) started (·.host.lastCompletion) =
      some ⟨1, 1, 0x101000, true⟩ ∧
    after (.evPortStatusChange ⟨3, 1, true⟩) started (·.host.lastPortChange) = some ⟨3, true⟩ := by
  decide +kernel

/-- W2: nothing pending; the completion of CM1 dispatched. -/
theorem test_process_events :
    after .processEvents started (fun t => (t.host.result, t.host.evt.deq)) =
      some (.bool false, 0) ∧
    after .processEvents (started.withMem (started.mem.writeTrb 0x102000
      ⟨0x101000, 0x01000000, 0x00008401⟩)) (fun t => (t.host.result, t.host.lastCompletion)) =
      some (.bool true, ⟨1, 0, 0x101000, true⟩) := by decide +kernel

/-! ### Bring-up -/

/-- LC2 to LC4: interface and order decide, the revision does not. -/
theorem test_discover :
    after .discover ((State.reset.withPlat { State.reset.plat with pci :=
      [⟨0, 2, 0, 0, 0x11112222⟩, ⟨0, 2, 0, 8, 0x0C032001⟩] ++ pciInstance }))
      (·.host.result) = some (.found 0xFEB00000) := by decide +kernel

/-- P1: the parsed capabilities and bases. -/
theorem test_parse :
    after .parseCapabilities (halted.withHost { HostRec.initial with
      found := true, capBase := 0xFEB00000 }) (fun t => (t.host.maxSlots, t.host.maxIntrs,
        t.host.maxPorts, t.host.opBase, t.host.rtBase, t.host.dbBase)) =
      some (32, 1, 4, 0xFEB00020, 0xFEB01000, 0xFEB02000) := by decide +kernel

/-- P1 steps 1 to 5: a running controller halts, resets and becomes ready between the accesses. -/
theorem test_reset_controller :
    let s := halted.withOp { halted.op with rs := true, hch := false }
    after .resetController (s.withSched { s.sched with turns :=
      [[], [], [], [.halt], [], [], [], [.resetComplete, .ready]] }) (fun t =>
        (t.host.result, t.host.lifecycle, t.op)) =
      some (.success, .ready, { OpRegs.reset with cnr := false }) := by decide +kernel

/-- LC13: no memory for the DCBAA. -/
theorem test_start_denied :
    after .startController halted (fun t => (t.host.result, t.host.lifecycle, t.op)) =
      some (.failure (.allocationFailure .dcbaa), .failed, halted.op) := by decide +kernel

/-- P1: the start sequence with the allocator's answers of 95 section 1.3. -/
theorem test_start_controller :
    let s := halted.withPlat { halted.plat with
      allocs := [some 0x100000, some 0x101000, some 0x102000, some 0x103000] }
    after .startController (s.withSched { s.sched with
      turns := List.replicate 18 [] ++ [[.start]] }) (fun t =>
        (t.host.result, t.op, t.er.base, t.er.size, t.cr.base, t.mem.read64 0x103000)) =
      some (.success, ⟨true, true, false, false, false, 0x101001, 0x100000, 32⟩, 0x102000, 256,
        0x101000, 0x102000) := by decide +kernel

/-- With no memory for the Controller record the bring-up fails, and the host with it (42_lifecycle
R256). -/
theorem test_discover_and_start :
    after .discoverAndStart (halted.withPlat { halted.plat with heapFull := true }) (fun t =>
      (t.host.result, t.host.lifecycle, t.host.found)) =
      some (.failure (.allocationFailure .controller), .failed, false) := by decide +kernel

/-! ### Host rings, ports and enumeration -/

/-- RP1: the record of a new ring. -/
theorem test_allocate :
    after (.allocate 256) (halted.withPlat { halted.plat with allocs := [some 0x101000] })
      (·.host.result) = some (.ring ⟨0x101000, 0, 0, true, 256⟩) := by decide +kernel

/-- 41_ring_protocol R194, R225. -/
theorem test_init_rings :
    after .initCommandRing (halted.withPlat { halted.plat with allocs := [some 0x101000] })
      (·.cr) = some ⟨0x101000, 0, true, false, true⟩ ∧
    after .initEventRing (halted.withPlat { halted.plat with
      allocs := [some 0x102000, some 0x103000] }) (fun t => (t.er, t.intr.erstba)) =
      some (⟨0x102000, 256, 0, true, 0x102000, false⟩, 0x103000) := by decide +kernel

/-- W1, W7, RP3: the 256th command wraps the index and inverts the cycle state; the next is stored
with cycle bit 0. -/
theorem test_post_command :
    after (.postCommand ⟨0, 0, 0x5C00⟩) (started.withHost
      { started.host with cmd := ⟨0x101000, 255, 0, true, 256⟩ }) (fun t =>
        (t.mem.read32 0x101FFC, t.host.cmd.enq, t.host.cmd.cycle)) = some (0x5C01, 0, false) ∧
    after (.postCommand ⟨0, 0, 0x5C00⟩) (((started.withHost
      { started.host with cmd := ⟨0x101000, 0, 0, false, 256⟩ }).withCr
      ⟨0x101000, 1, true, true, true⟩).account fun l => { l with cmdPos := ⟨1, true⟩ }) (fun t =>
        (t.mem.read32 0x10100C, t.host.cmd.enq)) = some (0x5C00, 1) := by decide +kernel

/-- The instance with 256 commands posted and none retired: the enqueue index is at 0 again. -/
def postedFull : State :=
  started.withHost { started.host with cmd := ⟨0x101000, 0, 0, false, 256⟩ }

/-- RP15: posting to a ring with 256 commands outstanding is refused; a retired command makes room.
-/
theorem test_post_command_full :
    why (.postCommand ⟨0, 0, 0x5C00⟩) postedFull = some .ringOverrun ∧
    after (.cmdNoop true) postedFull (·.cmdOutstanding) = some 255 ∧
    after (.postCommand ⟨0, 0, 0x5C00⟩) started (·.cmdOutstanding) = some 1 := by decide +kernel

/-- On a pass with cycle state 0 a TRB is live from the first store of its control dword (70_reset
R423): retired before the second one, it is outstanding no more (41_ring_protocol R199). -/
theorem test_retired_in_post :
    let s := (postedFull.withCr ⟨0x101000, 0, false, true, true⟩).account fun l =>
      { l with cmdPos := ⟨0, false⟩ }
    s.cmdOutstanding = 0 ∧
    after (.postCommand ⟨0, 0, 0x5C00⟩) (s.withSched { s.sched with
      turns := [[], [], [], [], [.command]] }) (fun t =>
        (t.cr.deq, t.er.enq, t.host.cmd.enq, t.cmdOutstanding)) = some (1, 1, 1, 0) := by
  decide +kernel

/-- PT2, PT3: the reports of the instance's four ports. -/
theorem test_probe_ports :
    after .probePorts started (fun t => (t.host.result, t.host.busAddr)) =
      some (.ports ([⟨true, true, .high⟩] ++ List.replicate 3 ⟨false, false, .unknown⟩),
        0xFEB00450) := by decide +kernel

/-- W4, PT1. -/
theorem test_decode_speed :
    ([0, 1, 2, 3, 4, 5, 15].map fun c => after (.decodeSpeed c) started (·.host.result)) =
      ([.unknown, .full, .low, .high, .super, .unknown, .unknown].map fun v =>
        some (.speed v)) := by decide +kernel

/-- PT5: a port with no device is reset. -/
theorem test_reset_port :
    after (.resetPort 1) (started.withSched { started.sched with
      turns := [[], [], [.portResetComplete 1]] }) (fun t => (t.host.result, t.ports.get 1)) =
      some (.success, ⟨false, false, false, 0, false, 0, false, true⟩) := by decide +kernel

/-- P4: the Enable Slot TRB stored. -/
theorem test_host_enable_slot :
    after .enableSlot started (fun t => (t.mem.read32 0x10100C, t.host.cmd.enq)) =
      some (0x00002401, 1) := by decide +kernel

/-- A host record with a completion waiting to be looked at. -/
def completed (code : BitVec 8) (k : SlotId) (s : State) : State :=
  s.withHost { s.host with lastCompletion := ⟨code, k, 0x101000, true⟩ }

/-- CM14, CM15, 44_commands R306. -/
theorem test_on_enable_slot :
    after (.onEnableSlotCompletion none) (completed 9 0 started) (fun t =>
      (t.host.result, t.host.lastCompletion.valid)) =
        some (.failure (.commandFailed 9), false) ∧
    after (.onEnableSlotCompletion none) (completed 1 0 started) (·.host.result) =
      some (.failure (.slotIdRejected 0)) ∧
    after (.onEnableSlotCompletion (some ⟨0, 3⟩)) (completed 1 32 started) (fun t =>
      (t.host.result, t.host.dev.get 32)) = some (.slot 32, ⟨32, 1, 3, 0, 0, 0, true⟩) := by
  decide +kernel

/-- 44_commands R309, R311: the contexts filled, the entry installed, the command stored. -/
theorem test_host_address_device :
    let s := started.withHost { started.host with
      dev := started.host.dev.put 1 ⟨1, 1, 3, 0, 0, 0, true⟩ }
    after (.addressDevice 1) (s.withPlat { s.plat with
      allocs := [some 0x104000, some 0x105000, some 0x106000] }) (fun t =>
        (t.mem.read64 0x100008, t.mem.readTrb 0x101000, t.mem.read32 0x104004,
          t.mem.read32 0x104020, t.mem.read32 0x104044, t.mem.read64 0x104048)) =
      some (0x105000, ⟨0x104000, 0, 0x01002C01⟩, 3, 0x08300000, 0x00400020, 0x106001) := by
  decide +kernel

/-- 44_commands R311, into a block of the caller's; memory the host has freed is its own no more, and
an event slot and a device context the controller holds never were (60_exceptions R390). -/
theorem test_fill_input_context :
    why (.fillInputContext 0x102000 1) serving = some .hostWritesControllerMemory ∧
    why (.fillInputContext 0x105000 1) serving = some .hostWritesControllerMemory ∧
    why (.fillInputContext 0x106000 1) serving = some .handedOver ∧
    why (.fillInputContext 0x200000 1) (serving.withPlat { serving.plat with
      freed := [⟨0x200000, 4096, .evtRing⟩] }) = some .freedMemory ∧
    after (.fillInputContext 0x200000 1) serving (fun t =>
      (t.mem.read32 0x200000, t.mem.read32 0x200004, t.mem.read32 0x200024)) =
      some (0, 3, 0x00010000) := by decide +kernel

/-- 44_commands R316: the address is copied from the device context. -/
theorem test_on_address_device :
    after (.onAddressDeviceCompletion 1) (completed 1 1 (serving.withMem
      (serving.mem.write32 0x10500C 0x10000005))) (fun t => (t.host.dev.get 1).address) = some 5 ∧
    after (.onAddressDeviceCompletion 33) (completed 1 33 serving) (·.host.result) =
      some (.failure (.slotIdRejected 33)) := by decide +kernel

/-- CT1, CT2: the TRBs of a descriptor fetch and of a request with no data. -/
theorem test_control_transfer :
    let s := (serving.withMem []).withHost { serving.host with
      ep0 := serving.host.ep0.put 1 ⟨0x106000, 0, 0, true, 256⟩ }
    after (.controlTransfer 1 ⟨0x80, 6, 0x0100, 0, 18⟩ 0x107000) s (fun t =>
      (t.mem.readTrb 0x106000, t.mem.readTrb 0x106010, t.mem.readTrb 0x106020)) =
      some (⟨0x0012000001000680, 8, 0x00030841⟩, ⟨0x107000, 0x12, 0x00010C01⟩,
        ⟨0, 0, 0x00001021⟩) ∧
    after (.controlTransfer 1 ⟨0, 9, 1, 0, 0⟩ 0) s (fun t =>
      (t.mem.readTrb 0x106000, t.mem.readTrb 0x106010, (t.host.ep0.get 1).enq)) =
      some (⟨0x10900, 8, 0x00000841⟩, ⟨0, 0, 0x00011021⟩, 2) := by decide +kernel

/-- CT14: the ring wraps after slot 255. -/
theorem test_ep0_enqueue :
    after (.ep0Enqueue 1 ⟨0x107000, 0x12, 0x00010C00⟩) (serving.withHost { serving.host with
      ep0 := serving.host.ep0.put 1 ⟨0x106000, 255, 0, true, 256⟩ }) (fun t =>
        (t.mem.read32 0x106FFC, (t.host.ep0.get 1).enq, (t.host.ep0.get 1).cycle)) =
      some (0x00010C01, 0, false) := by decide +kernel

/-- The same of the last TRB of a transfer (45_control_transfer R344). -/
theorem test_consumed_in_enqueue :
    let s := (answers (.ok (bytesUpTo 18)) serving).withXfer 1 (some ⟨0x106000, 0, false, true⟩)
    let s := (s.withMem ((serving.mem.write32 0x10600C 0x00030840).write32 0x10601C
      0x00010C00)).withHost { s.host with
        ep0 := s.host.ep0.put 1 ⟨0x106000, 2, 0, false, 256⟩ }
    let s := s.account fun l => { l with ep0Pos := l.ep0Pos.put 1 ⟨0, false⟩ }
    s.ep0Outstanding 1 = 2 ∧
    after (.ep0Enqueue 1 ⟨0, 0, 0x00001020⟩) (s.withSched { s.sched with
      turns := [[], [], [], [], [.transfer 1]] }) (fun t =>
        ((t.tr.get 1).map (·.deq), t.er.enq, (t.host.ep0.get 1).enq, t.ep0Outstanding 1)) =
      some (some 3, 1, 3, 0) := by decide +kernel

/-- CT16. -/
theorem test_on_transfer :
    let s := fun code => started.withHost { started.host with
      lastTransfer := ⟨code, 10, 1, 1, 0x106020, true⟩ }
    after (.onTransferCompletion 1 18) (s 1) (·.host.result) = some (.bytes 18) ∧
    after (.onTransferCompletion 1 18) (s 13) (·.host.result) = some (.bytes 8) ∧
    after (.onTransferCompletion 1 18) (s 6) (·.host.result) =
      some (.failure (.transferFailed 6)) := by decide +kernel

/-! ### The controller's own steps -/

/-- LC15, LC16: the lifecycle steps, each with its neighbour's state. -/
theorem test_lifecycle :
    after .xhcHalt (started.withOp { started.op with rs := false }) (fun t =>
      (t.op.hch, t.cr.running)) = some (true, false) ∧
    after .xhcHalt started (·.op.hch) = some false ∧
    after .xhcResetBegin halted (·.op.lifecycle) = some (some .resetting) ∧
    after .xhcResetComplete (halted.withOp halted.op.resetBegun) (·.op.lifecycle) =
      some (some .notReady) ∧
    after .xhcReady State.reset (·.op.lifecycle) = some (some .halted) ∧
    after .xhcStart (halted.withOp { halted.op with rs := true }) (·.op.lifecycle) =
      some (some .running) := by decide +kernel

/-- EX3, PT10: what a controller reset leaves of a port, a slot and the event ring. -/
theorem test_reset_complete :
    let s := (serving.withPort 0 ⟨true, false, true, 3, true, 3, true, true⟩).withOp
      { serving.op with hcrst := true, cnr := true, hch := true }
    after .xhcResetComplete s (fun t => (t.ports.get 0, t.slots.get 1)) =
      some (⟨true, false, false, 3, true, 3, false, false⟩, ⟨.disabled, 0, 0⟩) ∧
    after .xhcResetComplete s (fun t => (t.tr.get 1, t.op.dcbaap, t.er.pcs)) =
      some (none, 0, true) ∧
    after .xhcResetComplete s (·.mem.read 0x106000) = some 0x80 := by decide +kernel

/-- 41_ring_protocol R210's example, on the second pass; RP9: no room, no event. -/
theorem test_raise_event :
    after (.xhcRaiseEvent ⟨0x101000, 0x01000000, 0x00008401⟩) (started.withEr
      ⟨0x102000, 256, 255, false, 0x102010, false⟩) (fun t =>
        (t.mem.readTrb 0x102FF0, t.er.enq, t.er.pcs)) =
      some (⟨0x101000, 0x01000000, 0x00008400⟩, 0, true) ∧
    after (.xhcRaiseEvent ⟨0x101000, 0x01000000, 0x00008401⟩) (started.withEr
      ⟨0x102000, 256, 255, true, 0x102000, false⟩) (·.er.enq) = some 255 := by decide +kernel

/-- 20_memory R96: an event goes into a ring of the Allocate row, and not into the command ring CRCR
names (60_exceptions R390). -/
theorem test_event_ownership :
    after (.cmdNoop true) (started.withPlat { started.plat with
      live := [⟨0x102000, 4096, .ring⟩] }) (·.er.enq) = some 1 ∧
    why (.cmdNoop true) (started.withEr ⟨0x101000, 256, 0, true, 0x101000, false⟩) =
      some .controllerWritesHostMemory := by decide +kernel

/-- PT6 to PT8: attach and detach, and the event of a change. -/
theorem test_ports :
    after (.xhcPortAttach 2 4) halted (·.ports.get 2) =
      some ⟨true, false, false, 4, true, 4, false, false⟩ ∧
    after (.xhcPortAttach 2 1) started (·.ports.get 2) =
      some ⟨true, false, false, 1, true, 1, false, true⟩ ∧
    after (.xhcPortDetach 0) started (·.ports.get 0) =
      some ⟨false, false, false, 0, false, 3, false, true⟩ ∧
    after (.xhcPortEvent 2) (started.withPort 2 ⟨true, false, false, 1, true, 1, false, true⟩)
      (fun t => (t.mem.readTrb 0x102000, (t.ports.get 2).pscPending)) =
        some (⟨0x03000000, 0x01000000, 0x00008801⟩, false) := by decide +kernel

/-- PT9: a reset that completes on an attached device enables the port, but none completes between a
write of HCRST and the end of that reset (43_ports R284, 42_lifecycle R255). -/
theorem test_port_reset_complete :
    after (.xhcPortResetComplete 0) (started.withPort 0 ⟨true, false, true, 3, true, 3, true, false⟩)
      (·.ports.get 0) = some ⟨true, true, false, 3, true, 3, false, true⟩ ∧
    after (.xhcPortResetComplete 0) ((halted.withOp halted.op.resetBegun).withPort 0
      ⟨true, false, true, 3, true, 3, true, false⟩) (·.ports.get 0) =
        some ⟨true, false, true, 3, true, 3, true, false⟩ := by decide +kernel

/-- Placing a table word where the next step fetches it runs it (log 19). -/
theorem test_fetch_word :
    (match step (State.reset.withFetchWord 32 0x00005C01) with
      | .next t => (t.er.enq, t.cr.deq)
      | _ => (0, 0)) = (1, 1) := by decide +kernel

/-- RP2: the advance with wrap. -/
theorem test_advance :
    advance 254 true 256 = (255, true) ∧ advance 255 true 256 = (0, false) ∧
    advance 255 false 256 = (0, true) ∧ advance 0 true 1 = (0, false) := by decide +kernel

/-- RP10, RP11: the free slots of the event ring; the distance of ERDP is unsigned (00_scope R11).
-/
theorem test_event_ring_free :
    EvtProducer.free ⟨0x102000, 256, 3, true, 0x102030, false⟩ = 255 ∧
    EvtProducer.free ⟨0x102000, 256, 254, true, 0x102000, false⟩ = 1 ∧
    EvtProducer.free ⟨0x102000, 100, 0, true, 0x102000 - 16 * 99, false⟩ = 76 := by decide +kernel

/-- EX1, EX2: the interrupt output. -/
theorem test_irq :
    after (.cmdNoop true) started (·.irq) = some true ∧
    after (.cmdNoop true) (started.withOp { started.op with inte := false }) (·.irq) =
      some false := by decide +kernel

/-! ### Witnesses: every statement's hypotheses are met together -/

theorem params_ok : params.Ok := by decide +kernel

/-- DecodeEncode, DecodeEncodedBytes: a register access at a boundary, and a TRB. -/
theorem witness_encode :
    params.Ok ∧ (Instr.wrPortsc 3 0x10).wellFormed params = true ∧
    encode params (.wrPortsc 3 0x10) = some (.access ⟨.op, 0x430, some 0x10⟩) ∧
    (Instr.cmdAddressDevice 255 0x40 true).wellFormed params = true ∧
    encodeTrb params.tt (.cmdAddressDevice 255 0x40 true) = some (.cmd, ⟨0x40, 0, 0xFF002C01⟩) ∧
    (List.replicate 15 (0 : Byte)).length < 16 := by decide +kernel

/-- StepRunsDecoded: an agenda, and a valid TRB for each of the three consumers. -/
theorem witness_step_runs :
    (started.withSched { started.sched with agenda := [.xhcHalt] }).sched.agenda = .xhcHalt :: [] ∧
    (let s := started.withMem (Memory.writeTrb [] 0x101000 ⟨0, 0, 0x5C01⟩)
     let t := s.mem.readTrb (ringAddr (s.cr.base &&& ~~~0xFFF#64) s.cr.deq)
     s.sched.agenda = [] ∧ s.sched.fetch = .cmd ∧ s.op.hch = false ∧ s.cr.running = true ∧
      s.cr.loaded = true ∧ s.er.hasRoom = true ∧ t.cycle = s.cr.ccs ∧
      decodeTrb s.cfg.tt .cmd t = .ok (.cmdNoop true)) ∧
    (let s := serving.withSched { serving.sched with fetch := .xfer 1 }
     s.sched.agenda = [] ∧ s.sched.fetch = .xfer 1 ∧ s.op.hch = false ∧
      (s.slots.get 1).state = .addressed ∧ s.tr.get 1 = some ⟨0x106000, 0, true, true⟩ ∧
      (s.mem.readTrb (ringAddr 0x106000 0)).cycle = true ∧
      decodeTrb s.cfg.tt (.xfer 1) (s.mem.readTrb (ringAddr 0x106000 0)) =
        .ok (.xferSetup 1 ⟨0x0012000001000680, 8, true, 3, true⟩)) ∧
    (let s := (started.withMem (Memory.writeTrb [] 0x102000 ⟨0x101000, 0x01000000, 0x8401⟩)).withSched
      { started.sched with fetch := .evt }
     s.sched.agenda = [] ∧ s.sched.fetch = .evt ∧ s.host.evt.size ≠ 0 ∧
      (s.mem.readTrb (ringAddr s.host.evt.base s.host.evt.deq)).cycle = s.host.evt.cycle ∧
      s.mayLoadTrb (ringAddr s.host.evt.base s.host.evt.deq) ∧
      decodeTrb s.cfg.tt .evt (s.mem.readTrb (ringAddr s.host.evt.base s.host.evt.deq)) =
        .ok (.evCmdCompletion ⟨0x101000, 1, 0, true⟩)) := by decide +kernel

/-- A valid event with the buffer of an IN transfer over its first or its last byte. -/
def eventLent (r : Region) : State :=
  let s := started.withMem (Memory.writeTrb [] 0x102000 ⟨0x101000, 0x01000000, 0x8401⟩)
  (s.withSched { s.sched with fetch := .evt }).withLedger
    { s.ledger with handed := [⟨1, 3, [], [], [r]⟩] }

/-- StepRunsDecoded, EventsConsumed: a valid event the controller may fill. -/
theorem witness_event_lent : ∀ r ∈ [(⟨0x101FFF, 2, true⟩ : Region), ⟨0x10200F, 1, true⟩],
    (eventLent r).Quiet ∧ (eventLent r).sched.agenda = [] ∧ (eventLent r).sched.fetch = .evt ∧
    (eventLent r).host.evt.size ≠ 0 ∧
    ((eventLent r).mem.readTrb (eventLent r).host.eventAddr).cycle =
      (eventLent r).host.evt.cycle ∧
    ∃ h ∈ (eventLent r).ledger.handed, ∃ q ∈ h.held, q.isIn = true ∧
      rangesMeet q.base q.size (eventLent r).host.eventAddr 16 = true := by decide +kernel

/-- A fetch and `process_events` refuse such an event alike (45_control_transfer R347), and an event
whose control dword alone may be loaded is not pending at a mismatch. -/
theorem test_event_lent :
    (∀ r ∈ [(⟨0x101FFF, 2, true⟩ : Region), ⟨0x102008, 1, true⟩, ⟨0x10200F, 1, true⟩],
      (match step (eventLent r) with
        | .refused x => some x
        | _ => none) = some .handedOver ∧
      why .processEvents (eventLent r) = some .handedOver) ∧
    (match step ((eventLent ⟨0x102008, 1, true⟩).withMem []) with
      | .next t => t.host.result
      | _ => .none) = .bool false := by decide +kernel

/-- The instance right after a start with port 0 empty, an event waiting to be raised. -/
def raising : State :=
  let s := (started.withPort 0 .empty).withSlot 1 ⟨.addressed, 1, 0x105000⟩
  let s := s.withXfer 1 (some ⟨0x106000, 0, true, true⟩)
  s.withSched { s.sched with agenda := [.xhcRaiseEvent ⟨0x101000, 0x01000000, 0x8401⟩] }

/-- The six StepKeeps statements: a running machine with an addressed slot has every invariant. -/
theorem witness_invariants :
    raising.MemoryInv ∧ raising.LifecycleInv ∧ raising.PortInv ∧ raising.SlotInv ∧
    raising.PointerInv ∧ raising.HostInv := by
  have tr : ∀ i r, raising.tr.get i = some r → r = ⟨0x106000, 0, true, true⟩ := by
    intro i r h
    have e : raising.tr = Tab.put (Vector.replicate 256 none) 1 (some ⟨0x106000, 0, true, true⟩) :=
      rfl
    rw [e, Tab.get_put] at h
    split at h
    · cases h; rfl
    · rw [Tab.get_replicate] at h; cases h
  have sl : ∀ i, raising.slots.get i = if i = 1 then ⟨.addressed, 1, 0x105000⟩ else .disabled := by
    intro i
    have e : raising.slots = Tab.put (Vector.replicate 256 .disabled) 1
      ⟨.addressed, 1, 0x105000⟩ := rfl
    rw [e, Tab.get_put, Tab.get_replicate]
  refine ⟨⟨by decide +kernel, by decide +kernel⟩, ⟨by decide +kernel, by decide +kernel, ?_⟩, ?_,
    ⟨?_, ?_, ?_, ?_, by decide +kernel⟩, ⟨by decide +kernel, by decide +kernel, by decide +kernel,
    by decide +kernel, by decide +kernel, by decide +kernel, by decide +kernel, ?_⟩,
    by decide +kernel, by decide +kernel, by decide +kernel⟩
  · exact fun i r _ _ => by decide +kernel
  · intro p
    have e : raising.ports = Tab.put (Tab.put (Vector.replicate 256 .empty) 0
      ⟨true, true, false, 3, true, 3, false, false⟩) 0 .empty := rfl
    unfold Port.Inv
    rw [e, Tab.get_put, Tab.get_put, Tab.get_replicate]
    split <;> decide
  · intro i
    have e : raising.tr = Tab.put (Vector.replicate 256 none) 1 (some ⟨0x106000, 0, true, true⟩) :=
      rfl
    unfold State.isAddressed
    rw [sl, e, Tab.get_put, Tab.get_replicate]
    split <;> rfl
  · intro i j hi hj _
    unfold State.isAddressed at hi hj
    rw [sl] at hi hj
    split at hi
    · split at hj
      · simp_all
      · cases hj
    · cases hi
  · intro i hi
    unfold State.isAddressed at hi
    rw [sl] at hi ⊢
    split at hi
    · rw [if_pos ‹_›]; decide
    · cases hi
  · intro i hi
    rw [sl] at hi
    split at hi
    · subst i; decide +kernel
    · exact absurd rfl hi
  · intro i r h
    rw [tr i r h]
    decide +kernel

/-- StepKeepsMemory to StepKeepsConstants: that machine takes its step. -/
theorem witness_step_keeps : ∃ t, step raising = .next t := by
  have h : (match step raising with | .next _ => true | _ => false) = true := by decide +kernel
  split at h
  · exact ⟨_, ‹_›⟩
  · cases h

/-- StepKeepsSlots: its slots lie in CONFIG's range, and an operation that writes no CONFIG completes;
so does a write of CONFIG at the highest id in use, or above. -/
theorem witness_enabled_range :
    raising.EnabledInRange ∧
    (∀ i, (raising.slots.get i).state ≠ .disabled → i.toNat ≤ (1 : BitVec 8).toNat) ∧
    goes (.cmdNoop true) raising = true ∧ ¬ (Instr.cmdNoop true).writesConfig ∧
    goes (.wrConfig 1) raising = true ∧ goes (.wrConfig 32) raising = true := by
  suffices h : ∀ i, (raising.slots.get i).state ≠ .disabled → i = 1 from
    ⟨fun i hi => by rw [h i hi]; decide +kernel, fun i hi => by rw [h i hi], by decide +kernel, id,
      by decide +kernel, by decide +kernel⟩
  intro i hi
  have e : raising.slots = Tab.put (Vector.replicate 256 .disabled) 1 ⟨.addressed, 1, 0x105000⟩ := rfl
  rw [e, Tab.get_put, Tab.get_replicate] at hi
  split at hi
  · assumption
  · exact absurd rfl hi

/-- LifecycleBitsChangeOnlyIn: each clause has a step that changes its bit. -/
theorem witness_lifecycle_bits :
    (halted.withOp { halted.op with rs := true }).Quiet ∧ halted.Quiet ∧
    halted.cfg.bitpos.Distinct ∧
    ([.xhcResetBegin, .wrUsbcmd 2, .wr32 .op 0 2, .set32 .op 0 2].map fun i =>
      after i halted fun t => (t.op.hcrst, t.op.cnr)) = List.replicate 4 (some (true, true)) ∧
    after .xhcResetComplete (halted.withOp { halted.op with hcrst := true }) (·.op.cnr) =
      some true ∧
    after .xhcStart (halted.withOp { halted.op with rs := true }) (·.op.hch) = some false ∧
    after .xhcHalt (started.withOp { started.op with rs := false }) (·.op.hch) = some true ∧
    after .xhcReady State.reset (·.op.cnr) = some false ∧
    after .xhcResetComplete (halted.withOp halted.op.resetBegun) (·.op.hcrst) = some false := by
  decide +kernel

/-- ControllerLeavesHostAlone, HostLeavesControllerAlone. -/
theorem witness_sides :
    (Instr.cmdNoop true).isController = true ∧ goes (.cmdNoop true) started = true ∧
    (Instr.postCommand ⟨0, 0, 0x5C00⟩).isController = false ∧ started.Quiet ∧
    goes (.postCommand ⟨0, 0, 0x5C00⟩) started = true := by decide +kernel

/-- RegisterFieldsRead, OpenBitsReadAnything, WritesRefusedInReset and the register writes: the
ports and doorbells at the ends of their ranges, a controller that takes writes and one that does
not. -/
theorem witness_registers :
    started.cfg.bitpos.Distinct ∧ (3 : PortIx).toNat < started.cfg.maxPorts.toNat ∧
    started.cfg.maxPorts.toNat ≤ (4 : PortIx).toNat ∧
    (32 : SlotId).toNat ≤ started.cfg.maxSlots.toNat ∧
    started.cfg.maxSlots.toNat < (33 : SlotId).toNat ∧ started.hasPort 3 = true ∧
    State.reset.op.cnr = true ∧ (halted.withOp halted.op.resetBegun).op.hcrst = true ∧
    started.op.hcrst = false ∧ started.op.cnr = false ∧ started.Quiet ∧
    started.host.basesFixed = true ∧ (1 : SlotId) ≠ 0 := by decide +kernel

/-- The access-layer statements: a listed register, an offset with none, a misaligned one. -/
theorem witness_access :
    started.Quiet ∧ started.host.baseKnown .op = true ∧ started.host.baseKnown .cap = true ∧
    (2 : Dword).toNat % 4 ≠ 0 ∧ (4 : Dword).toNat % 8 ≠ 0 ∧
    decodeAccess started.cfg ⟨.op, 8, none⟩ = .ok (.undefinedOffset .op 8 none) ∧
    decodeAccess started.cfg ⟨.op, 0x430, none⟩ = .ok (.rdPortsc 3) ∧
    Instr.rdPortsc 3 ≠ .undefinedOffset .op 0x430 none ∧
    decodeAccess started.cfg ⟨.op, 0x38, some 32⟩ = .ok (.wrConfig 32) ∧
    (0x00100000 : Qword).extractLsb' 0 6 = 0 ∧
    (5 : Dword).getLsbD started.cfg.bitpos.usbcmdHcrst = false := by decide +kernel

/-- Wr32IsTheWrite: what the register accepts, and what it does not. -/
theorem witness_accepts :
    started.accepts (.wrConfig 32) ∧ ¬ started.accepts (.wrConfig 33) ∧
    raising.accepts (.wrConfig 0) := by
  unfold State.accepts
  decide +kernel

/-- PointerAndConfigWrites, Wr64Writes: an engine that runs and one that does not. -/
theorem witness_crcr : started.cr.running = true ∧ halted.cr.running = false := by
  decide +kernel

/-- CfgReadAndSpeed: a word behind another, and a function that does not answer. -/
theorem witness_pci :
    started.plat.pci = [⟨0, 4, 0, 0x00, 0x12345678⟩] ++ ⟨0, 4, 0, 0x08, 0x0C033001⟩ ::
      [⟨0, 4, 0, 0x10, 0xFEB00004⟩] ∧
    (∀ u ∈ [(⟨0, 4, 0, 0x00, 0x12345678⟩ : PciWord)],
      (u.bus, u.device, u.function, u.offset) ≠ ((0 : BitVec 8), 4, 0, 0x08)) ∧
    ∀ u ∈ started.plat.pci, (u.bus, u.device, u.function, u.offset) ≠ ((255 : BitVec 8), 31, 7, 0) := by
  decide +kernel

/-- The platform with a structure of the host's where the next event goes, and with freed memory
there. -/
def blocked : State := started.withPlat { started.plat with live := [⟨0x102000, 4096, .cmdRing⟩] }

/-- The same with memory freed there. -/
def freedThere : State := started.withPlat { started.plat with freed := [⟨0x102000, 4096, .ring⟩] }

/-- EventProduction, PortEventStep: an event allowed at the last slot with room, and none; its slot
in a structure of the host's, and in freed memory; a type that is no event. -/
theorem witness_events :
    started.op.hch = false ∧ started.er.size ≠ 0 ∧ started.er.hasRoom = true ∧
    started.eventAllowed ∧ (0 : PortIx).toNat < started.cfg.maxPorts.toNat ∧
    ((started.withPort 0 ⟨true, false, false, 1, true, 1, false, true⟩).ports.get 0).pscPending =
      true ∧
    (started.withEr ⟨0x102000, 256, 255, true, 0x102000, false⟩).er.hasRoom = false ∧
    halted.op.hch = true ∧ halted.er.size = 0 ∧ (started.ports.get 1).pscPending = false ∧
    started.cfg.maxPorts.toNat ≤ (4 : PortIx).toNat ∧
    (⟨0x101000, 0x01000000, 0x8401⟩ : Trb).typ = started.cfg.tt.cmdCompletion ∧
    (⟨0, 0, 0x5C01⟩ : Trb).typ ∉ [started.cfg.tt.transferEvent, started.cfg.tt.cmdCompletion,
      started.cfg.tt.portStatusChange] ∧
    ¬ blocked.eventAllowed ∧ blocked.plat.freed = [] ∧ blocked.op.hch = false ∧
    blocked.er.hasRoom = true ∧ freedThere.op.hch = false ∧ freedThere.er.hasRoom = true := by
  decide +kernel

theorem witness_event_freed :
    ∃ b ∈ freedThere.plat.freed, b.Overlaps freedThere.eventAddr 16 :=
  ⟨⟨0x102000, 4096, .ring⟩, by decide +kernel, 15, by decide, 15, by decide, by decide +kernel⟩

/-- NoopAndOtherCommands, EnableSlotCommand, CommandEngineStep: commands the engine consumes; the
range of ids at both ends; engines that are off, mismatched or without room. -/
theorem witness_commands :
    started.commandReady true ∧ (⟨0, 0, 0xFC01⟩ : Trb).cycle = true ∧
    (started.withOp { started.op with maxSlotsEn := 0 }).commandReady true ∧
    (started.slots.get 32).state = .disabled ∧ (32 : SlotId).toNat ≤ started.op.maxSlotsEn.toNat ∧
    (started.slots.get 1).state = .disabled ∧
    halted.op.hch = true ∧ (⟨0, 0, 0x5C00⟩ : Trb).cycle ≠ started.cr.ccs ∧
    (started.withEr ⟨0x102000, 256, 255, true, 0x102000, false⟩).er.hasRoom = false ∧
    (let s := started.withMem (Memory.writeTrb [] 0x101000 ⟨0, 0, 0x5C01⟩)
     let head := s.mem.readTrb ((s.cr.base &&& ~~~0xFFF#64) + BitVec.ofNat 64 (16 * s.cr.deq))
     s.commandReady head.cycle ∧ head.typ = s.cfg.tt.noopCmd) ∧ halted.cr.loaded = false := by
  decide +kernel

/-- EnableSlotCommand's first clause: no id of an empty range is free. -/
theorem witness_no_slots (i : SlotId) (h : 1 ≤ i.toNat)
    (h' : i.toNat ≤ (started.withOp { started.op with maxSlotsEn := 0 }).op.maxSlotsEn.toNat) :
    (started.slots.get i).state ≠ .disabled := by
  have : i.toNat ≤ 0 := h'
  omega

/-- AddressDeviceFailures: a state and operands for each clause. -/
theorem witness_address_device_fails :
    addressing.commandReady true ∧ serving.commandReady true ∧
    addressing.op.maxSlotsEn.toNat < (33 : SlotId).toNat ∧
    (addressing.slots.get 32).state = .disabled ∧ (serving.slots.get 1).state = .addressed ∧
    (addressing.slots.get 1).state = .enabled ∧ (0x104020 : Addr).extractLsb' 0 6 ≠ 0 ∧
    (0x104000 : Addr).extractLsb' 0 6 = 0 ∧
    (addressing.withMem []).mem.read64 (addressing.op.dcbaap + BitVec.ofNat 64 (8 * 1)) = 0 ∧
    (let dc := addressing.mem.read64 (addressing.op.dcbaap + BitVec.ofNat 64 (8 * 1))
     dc ≠ 0 ∧ dc.extractLsb' 0 6 = 0) ∧
    addsBoth addressing.cfg.ctx (((addressing.mem.write32 0x104004 1).readBytes 0x104000 96).take
      32) = false ∧
    addsBoth addressing.cfg.ctx ((addressing.mem.readBytes 0x104000 96).take 32) = true ∧
    addressing.env.setAddress = true :: [false] ∧
    namedPortEnabled (addressing.withPort 0 .empty)
      (((addressing.mem.readBytes 0x104000 96).drop 32).take 32) = false := by decide +kernel

/-- AddressDeviceFailures, its last clauses: every address held by another slot, and a ring pointer
off its alignment. -/
theorem witness_address_device_none :
    crowded.commandReady true ∧ (crowded.slots.get 1).state = .enabled ∧
    crowded.env.setAddress = true :: [false] ∧
    addsBoth crowded.cfg.ctx ((crowded.mem.readBytes 0x104000 96).take 32) = true ∧
    namedPortEnabled crowded (((crowded.mem.readBytes 0x104000 96).drop 32).take 32) = true ∧
    ¬ (∃ a : BitVec 7, a ≠ 0 ∧
      ∀ j, j ≠ 1 → crowded.isAddressed j = true → (crowded.slots.get j).addr ≠ a) ∧
    (ctxRingPointer addressing.cfg.ctx (((addressing.mem.write64 0x104048 0x106041).readBytes
      0x104000 96).drop 64)).extractLsb' 0 12 ≠ 0 := by
  refine ⟨by decide +kernel, by decide +kernel, by decide +kernel, by decide +kernel,
    by decide +kernel, ?_, by decide +kernel⟩
  have held : ∀ a : BitVec 7, a ≠ 0 → a.setWidth 8 + 1 ≠ 1#8 ∧
      crowded.slots.get (a.setWidth 8 + 1) = ⟨.addressed, a, 0⟩ := by decide +kernel
  rintro ⟨a, ha, h⟩
  obtain ⟨h1, h2⟩ := held a ha
  refine h _ h1 ?_ ?_
  · unfold State.isAddressed
    rw [h2]
    rfl
  · rw [h2]

/-- AddressDeviceSucceeds. -/
theorem witness_address_device :
    addressing.commandReady true ∧ (1 : SlotId) ≠ 0 ∧
    (1 : SlotId).toNat ≤ addressing.op.maxSlotsEn.toNat ∧
    (addressing.slots.get 1).state = .enabled ∧ (0x104000 : Addr).extractLsb' 0 6 = 0 ∧
    addressing.mem.read64 (addressing.op.dcbaap + BitVec.ofNat 64 (8 * 1)) = 0x105000 ∧
    addressing.ctlRefusal 0x105000 (2 * addressing.cfg.ctxSize) = none ∧
    (addressing.withXfer 1 (some ⟨0x106000, 0, true, false⟩)).eventAllowed ∧
    (let ctx := addressing.mem.readBytes 0x104000 96
     let l := addressing.cfg.ctx
     ctxGet (ctx.take 32) l.addSlot = 1 ∧ ctxGet (ctx.take 32) l.addEp0 = 1 ∧
      namedPortEnabled addressing ((ctx.drop 32).take 32) = true ∧
      (ctxRingPointer l (ctx.drop 64)).extractLsb' 0 12 = 0) ∧
    addressing.env.setAddress = true :: [false] := by decide +kernel

theorem witness_free_address : ∃ a : BitVec 7, a ≠ 0 ∧
    ∀ j, j ≠ 1 → addressing.isAddressed j = true → (addressing.slots.get j).addr ≠ a := by
  refine ⟨1, by decide, fun j hj h => ?_⟩
  have e : addressing.slots = Tab.put (Vector.replicate 256 .disabled) 1 ⟨.enabled, 0, 0⟩ := rfl
  unfold State.isAddressed at h
  rw [e, Tab.get_put_ne _ _ hj, Tab.get_replicate] at h
  cases h

/-- TransferAnswered, TransferShortOrFailed: a whole transfer of each shape, its port enabled and
not, every kind of answer, room for the events. -/
theorem witness_transfers :
    serving.transferReady 1 ⟨0x106000, 0, true, true⟩ ∧
    servingOut.transferReady 1 ⟨0x106000, 0, true, true⟩ ∧
    servingNone.transferReady 1 ⟨0x106000, 0, true, true⟩ ∧
    (serving.xferTrb 1 0).trt = 3 ∧ (servingOut.xferTrb 1 0).trt = 2 ∧
    (servingNone.xferTrb 1 0).trt = 0 ∧
    slotPortEnabled serving 1 = true ∧ slotPortEnabled servingOut 1 = true ∧
    slotPortEnabled servingNone 1 = true ∧
    slotPortEnabled (serving.withPort 0 .empty) 1 = false ∧
    (serving.withPort 0 .empty).transferReady 1 ⟨0x106000, 0, true, true⟩ ∧
    serving.eventAllowed ∧
    (answers (.short 8 []) serving).env.control = .short 8 [] :: [] ∧
    serving.ctlRefusal 0x107000 18 = none ∧ serving.ctlRefusal 0x107000 8 = none ∧
    serving.ctlRefusal (ringAddr serving.er.base serving.er.advanced.enq) 16 = none := by
  unfold State.transferReady
  decide +kernel

/-- TransferEngineWaits: engines off, stopped and missing; a TRB of another pass, a later TRB
missing, no Setup first, another shape, no room for two events. -/
theorem witness_transfer_waits :
    halted.op.hch = true ∧ started.isAddressed 1 = false ∧ started.tr.get 1 = none ∧
    (serving.op.hch = false ∧ serving.isAddressed 1 = true ∧
      serving.tr.get 1 = some ⟨0x106000, 0, true, true⟩) ∧
    ((serving.withMem []).xferTrb 1 0).cycle ≠ true ∧
    ((serving.withMem (serving.mem.write32 0x10600C 0x401)).xferTrb 1 0).typ ≠ serving.cfg.tt.setup ∧
    ((serving.withMem (serving.mem.write32 0x10601C 0x00010C00)).xferTrb 1 1).cycle ≠
      (⟨0x106000, 0, true, true⟩ : XferRing).slotCycle 1 ∧
    ((serving.withMem (serving.mem.write32 0x10602C 0x00001020)).xferTrb 1 2).cycle ≠
      (⟨0x106000, 0, true, true⟩ : XferRing).slotCycle 2 ∧
    transferShape serving.cfg.tt (serving.xferTrb 1 0) ((serving.withMem (serving.mem.write32 0x106018
      0x11)).xferTrb 1 1) (serving.xferTrb 1 2) = false ∧
    (serving.withEr { serving.er with enq := 254 }).er.free < 2 ∧
    0 < serving.er.size ∧ 255 < serving.er.size ∧ serving.er.size ≤ 256 ∧
    serving.er.enq < serving.er.size ∧
    serving.er.deqPtr = serving.er.base + BitVec.ofNat 64 (16 * 0) := by decide +kernel

/-- LifecycleSteps: a reset in progress, and none. -/
theorem witness_reset_step :
    (halted.withOp halted.op.resetBegun).op.hcrst = true ∧ halted.op.hcrst = false := by
  decide +kernel

/-- The allocator's answers of 95 section 1.3. -/
def giving (s : State) (l : List (Option Addr)) : State := s.withPlat { s.plat with allocs := l }

/-- RingAllocation, EventRingInstalled. -/
theorem witness_allocation :
    (giving halted [some 0x101000]).mayGive 0x101000 4096 4096 ∧
    (giving halted [some 0x101000]).plat.allocs = some 0x101000 :: [] ∧ halted.plat.allocs = [] ∧
    (giving halted [none]).plat.allocs = none :: [] ∧ halted.Quiet ∧
    halted.host.basesFixed = true ∧ halted.op.hcrst = false ∧ halted.op.cnr = false ∧
    halted.cfg.bitpos.Distinct ∧
    (let s := giving halted [some 0x102000, some 0x103000]
     s.mayGive 0x102000 4096 4096 ∧
      (s.given 0x102000 4096 .evtRing [some 0x103000]).mayGive 0x103000 16 64 ∧
      ((s.given 0x102000 4096 .evtRing [some 0x103000]).given 0x103000 16 .erst
        []).mayStoreTrb 0x103000) ∧
    (let s := giving halted [some 0x102000, none]
     s.mayGive 0x102000 4096 4096 ∧ ∀ b ∈ s.plat.live, b.base ≠ 0x102000) := by
  decide +kernel

/-- RingAllocation: a block whose last byte is a buffer's first, and one whose last byte is the
event segment's. -/
theorem witness_allocation_refused :
    (let s := giving (started.account fun l =>
        { l with handed := [⟨1, 1, [], [], [⟨0x108FFF, 4, false⟩]⟩] }) [some 0x108000]
     s.plat.live = [] ∧ (0x108000 : Addr).toNat % 4096 = 0 ∧
     s.Lent 0x108000 4096) ∧
    (let s := giving (started.withEr { started.er with base := 0x108FC0 }) [some 0x108000]
     s.plat.live = [] ∧ s.plat.freed = [] ∧ ¬ s.Lent 0x108000 4096 ∧
     ∃ b ∈ s.ctlBlocks, b.Overlaps 0x108000 4096) :=
  ⟨⟨rfl, by decide, .inl ⟨⟨1, 1, [], [], [⟨0x108FFF, 4, false⟩]⟩, by decide +kernel,
      ⟨0x108FFF, 4, false⟩, by decide, 0, by decide, 0xFFF, by decide, by decide +kernel⟩⟩,
    ⟨rfl, rfl, State.not_lent.1 (by decide +kernel), ⟨0x108FC0, 4096, .evtRing⟩, by decide +kernel, 0, by decide, 0xFC0, by decide,
      by decide +kernel⟩⟩

/-- An allocation over a held OUT buffer is refused, one over an event segment in freed memory runs
(70_reset R424, 60_exceptions R374). -/
theorem test_allocation_over_held :
    why (.allocate 256) (giving (started.account fun l =>
      { l with handed := [⟨1, 1, [], [], [⟨0x108FFF, 4, false⟩]⟩] }) [some 0x108000]) =
        some .handedOver ∧
    why (.allocate 256) (giving started [some 0x102000]) = some .hostWritesControllerMemory ∧
    after (.allocate 256) (giving (started.withPlat
      { started.plat with freed := [⟨0x102000, 4096, .evtRing⟩] }) [some 0x102000])
      (·.host.result) = some (.ring ⟨0x102000, 0, 0, true, 256⟩) := by decide +kernel

/-- A structure of the controller's where the next command goes, and memory handed over there. -/
def ownedThere : State := started.withPlat { started.plat with live := [⟨0x101000, 4096, .evtRing⟩] }

/-- The same with memory handed over there. -/
def lentThere : State := started.account fun l =>
  { l with handed := [⟨1, 1, [], [], [⟨0x100FF1, 16, true⟩]⟩] }

/-- The same with memory freed there. -/
def releasedThere : State :=
  started.withPlat { started.plat with freed := [⟨0x100FF1, 16, .evtRing⟩] }

/-- PostCommand: a ring with room, at both ends of it, a full one, one never allocated, and a slot
the host may not store to. -/
theorem witness_post_command :
    started.Quiet ∧ started.mayPost ∧ started.host.cmd.size = 256 ∧
    started.host.cmd.enq < started.host.cmd.size ∧
    started.ledger.cmdPos.idx < started.host.cmd.size ∧ started.cmdOutstanding = 0 ∧
    postedFull.host.cmd.size ≤ postedFull.cmdOutstanding ∧ halted.host.cmd.size = 0 ∧
    (let s := started.withHost { started.host with cmd := ⟨0x101000, 255, 0, true, 256⟩ }
     s.mayPost ∧ s.cmdOutstanding = 255 ∧ s.host.cmd.enq < s.host.cmd.size) ∧
    postedFull.cr.base &&& ~~~0xFFF#64 = postedFull.host.cmd.base ∧
    postedFull.ledger.cmdPos = ⟨postedFull.cr.deq, postedFull.cr.ccs⟩ ∧ postedFull.cr.deq < 256 ∧
    postedFull.cmdOutstanding ≠ 0 ∧ lentThere.plat.freed = [] ∧
    lentThere.ctlBlocks.any (·.meets 0x101000 16) = false ∧
    ownedThere.plat.freed = [] ∧ releasedThere.ctlBlocks.any (·.meets 0x101000 16) = false := by
  unfold State.mayPost
  decide +kernel

theorem witness_post_released : ∃ b ∈ releasedThere.plat.freed, b.Overlaps 0x101000 16 :=
  ⟨⟨0x100FF1, 16, .evtRing⟩, by decide +kernel, 15, by decide, 0, by decide, by decide +kernel⟩

theorem witness_post_owned : ∃ b ∈ ownedThere.ctlBlocks, b.Overlaps 0x101000 16 :=
  ⟨⟨0x101000, 4096, .evtRing⟩, by decide +kernel, 15, by decide, 15, by decide, by decide +kernel⟩

theorem witness_post_lent : lentThere.Lent 0x101000 16 :=
  .inl ⟨⟨1, 1, [], [], [⟨0x100FF1, 16, true⟩]⟩, by decide +kernel, ⟨0x100FF1, 16, true⟩, by simp,
    15, by decide, 0, by decide, by decide +kernel⟩

theorem witness_post_entry : (serving.account (·.entrySet 1 0x10100F 0x105000)).Lent 0x101000 16 :=
  .inr ⟨⟨1, 0x10100F⟩, by decide +kernel, by decide +kernel, 0, by decide, 15, by decide,
    by decide +kernel⟩

theorem witness_post_not_lent :
    ¬ ownedThere.Lent 0x101000 16 ∧ ¬ releasedThere.Lent 0x101000 16 := by
  rw [← State.not_lent, ← State.not_lent]
  decide +kernel

/-- A slot whose ring has room for a transfer. -/
def staging : State := (serving.withMem []).withHost { serving.host with
  ep0 := serving.host.ep0.put 1 ⟨0x106000, 0, 0, true, 256⟩ }

/-- ControlTransfer: room for two and three stages, and a full ring. -/
theorem witness_control_transfer :
    staging.Quiet ∧ staging.op.hch = false ∧ (staging.slots.get 1).state = .addressed ∧
    staging.cfg.bitpos.Distinct ∧ (1 : SlotId) ≠ 0 ∧
    (1 : SlotId).toNat ≤ staging.cfg.maxSlots.toNat ∧ staging.host.basesFixed = true ∧
    staging.op.hcrst = false ∧ staging.op.cnr = false ∧ staging.mayStage 1 ∧
    (staging.host.ep0.get 1).size = 256 ∧
    (staging.host.ep0.get 1).enq < (staging.host.ep0.get 1).size ∧
    (staging.ledger.ep0Pos.get 1).idx < (staging.host.ep0.get 1).size ∧
    (let s := staging.withHost { staging.host with
       ep0 := staging.host.ep0.put 1 ⟨0x106000, 0, 0, false, 256⟩ }
     (s.host.ep0.get 1).size ≤ s.ep0Outstanding 1) ∧
    ((⟨0x106000, 0, true, true⟩ : XferRing).base = (serving.host.ep0.get 1).base ∧
      (serving.host.ep0.get 1).size = 256 ∧ serving.ledger.ep0Pos.get 1 = ⟨0, true⟩ ∧
      serving.ep0Outstanding 1 = 3) ∧
    staging.mayStageAll 1 (controlStages typeCodes ⟨0x80, 6, 0x0100, 0, 18⟩ 0x107000) ∧
    staging.mayStageAll 1 (controlStages typeCodes ⟨0x21, 9, 0x0200, 0, 8⟩ 0x107000) ∧
    staging.mayStageAll 1 (controlStages typeCodes ⟨0, 9, 1, 0, 0⟩ 0) := by
  rw [show controlStages typeCodes ⟨0x80, 6, 0x0100, 0, 18⟩ 0x107000 = [_, _, _] from rfl,
    show controlStages typeCodes ⟨0x21, 9, 0x0200, 0, 8⟩ 0x107000 = [_, _, _] from rfl,
    show controlStages typeCodes ⟨0, 9, 1, 0, 0⟩ 0 = [_, _] from rfl]
  simp only [State.mayStageAll, State.mayStage]
  and_intros <;> trivial

/-- The last byte of the third TRB and of the buffer. -/
theorem witness_handed_regions :
    (⟨ringAddr 0x106000 2, 16, false⟩ : Region).Overlaps 0x10602F 1 ∧
    (⟨0x107000, 18, false⟩ : Region).Overlaps 0x107011 4 :=
  ⟨⟨15, by decide, 0, by decide, by decide +kernel⟩, ⟨17, by decide, 0, by decide, by decide +kernel⟩⟩

/-- EventsConsumed: an event of this pass and one of the other. -/
theorem witness_events_consumed :
    started.host.evt.size ≠ 0 ∧ started.Quiet ∧ started.host.basesFixed = true ∧
    started.op.hcrst = false ∧ started.op.cnr = false ∧ true = started.host.evt.cycle ∧
    started.mayLoadTrb started.host.eventAddr ∧ false ≠ started.host.evt.cycle := by decide +kernel

/-- DiscoverAndParse, DiscoverAndStart: the instance's function is a hit, and the first; without
words there is none. -/
theorem witness_discover : PciHit pciInstance 0 4 0 ∧ halted.Quiet ∧ halted.host.found = true := by
  unfold PciHit
  decide +kernel

theorem witness_discover_first : PciFirst pciInstance 0 4 0 := by
  refine ⟨witness_discover.1, fun b d f h => ?_⟩
  by_cases e : b = 0 ∧ d = 4 ∧ f = 0
  · obtain ⟨rfl, rfl, rfl⟩ := e; exact le_refl _
  · refine absurd ?_ h.1
    have : cfgWord pciInstance b d f 0 = 0xFFFFFFFF := by
      unfold cfgWord pciInstance
      rw [List.find?_eq_none.2]
      intro w hw
      simp only [List.mem_cons, List.mem_nil_iff, or_false] at hw
      rcases hw with rfl | rfl | rfl <;>
        (simp only [Bool.and_eq_true, beq_iff_eq, not_and]; rintro ⟨⟨rfl, rfl⟩, rfl⟩)
      · exact absurd ⟨rfl, rfl, rfl⟩ e
      · decide
      · decide
    rw [this]; rfl

theorem witness_discover_none (b : BitVec 8) (d : BitVec 5) (f : BitVec 3) : ¬ PciHit [] b d f :=
  fun h => absurd (by simp [cfgWord]) h.1

/-- The moves of a reset that ends in time, of a controller that is halted or halts in time. -/
def resetTurns (s : State) : List (List CtlMove) :=
  [[], [], if s.op.hch = true then [] else [.halt], [], []] ++ [[.resetComplete], [.ready]]

/-- ResetController: a halted and a running controller, and a schedule in which every poll ends at
once. -/
theorem witness_reset_controller :
    (∀ s ∈ [halted, started], s.cfg.bitpos.Distinct ∧ s.host.basesFixed = true ∧
      s.op.hcrst = false ∧ s.op.cnr = false ∧ s.Quiet ∧
      after .resetController (s.withTurns (resetTurns s)) (·.host.result) = some .success) ∧
    halted.op.hch = true ∧ started.op.hch = false := by decide +kernel

/-- The answers of 95 section 1.3 to the start sequence. -/
def startable (s : State) : State :=
  giving s [some 0x100000, some 0x101000, some 0x102000, some 0x103000]

/-- StartController: the allocator gives the four structures, and the controller starts in time. -/
theorem witness_start :
    halted.cr.running = false ∧ halted.host.maxSlots.toNat ≤ halted.cfg.maxSlots.toNat ∧
    (startable halted).mayStart 0x100000 0x101000 0x102000 0x103000 [] ∧
    after .startController ((startable halted).withTurns (List.replicate 18 [] ++ [[.start]]))
      (·.host.result) = some .success := by
  unfold State.mayStart
  decide +kernel

/-- StartController: each of the four allocations denied. -/
theorem witness_start_denied :
    let D : Block := ⟨0x100000, 264, .dcbaa⟩
    let C : Block := ⟨0x101000, 4096, .cmdRing⟩
    let V : Block := ⟨0x102000, 4096, .evtRing⟩
    8 * (halted.host.maxSlots.toNat + 1) = 264 ∧ (giving halted [none]).plat.allocs = none :: [] ∧
    (giving halted [some 0x100000, none]).mayGiveAll [none] [D] ∧
    (giving halted [some 0x100000, some 0x101000, none]).mayGiveAll [none] [D, C] ∧
    (giving halted [some 0x100000, some 0x101000, some 0x102000, none]).mayGiveAll [none] [D, C, V] ∧
    ∀ b ∈ C :: D :: halted.plat.live, b.base ≠ 0x102000 := by
  simp only [State.mayGiveAll]
  decide +kernel

/-- DiscoverAndStart: a halted and a running controller; no memory for the Controller record. -/
theorem witness_discover_and_start :
    (∀ s ∈ [startable halted, startable started], s.plat.pci = pciInstance ∧ s.plat.heapFull = false ∧
      ((s.withHost { HostRec.initial with
        found := true
        capBase := pciBar0 s.plat.pci 0 4 0 }).parsed.resetDone).mayStart
          0x100000 0x101000 0x102000 0x103000 []) ∧
    (halted.withPlat { halted.plat with heapFull := true }).plat.heapFull = true := by
  unfold State.mayStart
  decide +kernel

/-- PortProcedures: the last port, in reset and not. -/
theorem witness_ports :
    started.host.basesFixed = true ∧ started.cfg.bitpos.Distinct ∧ started.Quiet ∧
    started.host.maxPorts.toNat ≤ started.cfg.maxPorts.toNat ∧
    (3 : PortIx).toNat < started.cfg.maxPorts.toNat ∧ started.op.hcrst = false ∧
    started.op.cnr = false ∧ (started.ports.get 3).pr = false := by decide +kernel

/-- A buffer handed over over slot 1's device context. -/
def coveredContext : State := (completed 1 1 serving).account fun l =>
  { l with handed := [⟨1, 3, [], [], [⟨0x10500F, 1, true⟩]⟩] }

/-- Completions: waiting and not, success and failure, ids at both ends, residuals at both ends, a
device context that may be loaded and one that may not. -/
theorem witness_completions :
    started.host.lastCompletion.valid = false ∧ started.host.lastTransfer.valid = false ∧
    (completed 1 32 serving).host.lastCompletion.valid = true ∧
    (completed 1 32 serving).host.lastCompletion.code = serving.cfg.cc.success ∧
    (32 : SlotId).toNat < serving.cfg.devTableSize ∧ serving.cfg.devTableSize ≤ (33 : SlotId).toNat ∧
    (9 : BitVec 8) ≠ serving.cfg.cc.success ∧ serving.Quiet ∧
    serving.cfg.cc.shortPacket ≠ serving.cfg.cc.success ∧
    (18 : BitVec 24).toNat ≤ (18 : Dword).toNat ∧ (18 : Dword).toNat < (19 : BitVec 24).toNat ∧
    (serving.slots.get 1).state ≠ .disabled ∧
    4 * serving.cfg.ctx.usbAddress.dword = 12 ∧ (serving.host.dev.get 1).devCtx = 0x105000 ∧
    serving.loadRefusal 0x10500C 4 = none ∧ coveredContext.loadRefusal 0x10500C 4 ≠ none ∧
    coveredContext.host.lastCompletion.valid = true := by decide +kernel

theorem witness_covered :
    ∃ x ∈ coveredContext.ledger.handed, ∃ r ∈ x.held, r.isIn = true ∧ r.Overlaps 0x10500C 4 :=
  ⟨⟨1, 3, [], [], [⟨0x10500F, 1, true⟩]⟩, by decide +kernel, ⟨0x10500F, 1, true⟩, by simp, rfl,
    0, by decide, 3, by decide, by decide +kernel⟩

/-- Completions: every record marked is of a slot that is not Disabled. -/
theorem witness_in_use (j : SlotId) (h : (serving.host.dev.get j).inUse = true) :
    (serving.slots.get j).state ≠ .disabled := by
  have e : serving.host.dev = Tab.put (Vector.replicate 256 .unused) 1
    ⟨1, 1, 3, 1, 0x105000, 0x104000, true⟩ := rfl
  rw [e, Tab.get_put, Tab.get_replicate] at h
  split at h
  · subst j; decide +kernel
  · cases h

/-- Where the dwords of the contexts stand. -/
def places (l : CtxLayout) (c : Nat) : List Nat :=
  (inputUpdates l c .unused .unallocated 0).map Prod.fst

/-- The places are all that decides where a filled context is loaded and stored. -/
theorem forall_places {l : CtxLayout} {c : Nat} {p : Nat → Prop} (h : ∀ k ∈ places l c, p k)
    (d : Dev) (r : Ring) (packet : Dword) : ∀ u ∈ inputUpdates l c d r packet, p u.1 := fun u hu =>
  h u.1 (show u.1 ∈ (inputUpdates l c d r packet).map Prod.fst from List.mem_map_of_mem hu)

theorem mayFill_of_places {s : State} {ic : Addr} {n : SlotId}
    (hu : s.isInUse .inCtx ic (3 * s.cfg.ctxSize) = false)
    (h : ∀ k ∈ places s.cfg.ctx s.cfg.ctxSize, s.loadRefusal (ic + BitVec.ofNat 64 k) 4 = none ∧
      s.hostRefusal (ic + BitVec.ofNat 64 k) 4 = none) : s.mayFill ic n :=
  ⟨hu, fun packet => forall_places h _ _ packet⟩

theorem read_filled_of_places {s : State} {ic : Addr} {n : SlotId} {b : Nat}
    (h : ∀ j ∈ places s.cfg.ctx s.cfg.ctxSize, ∀ k < 4, b ≠ byteAddr ic (j + k)) (packet : Dword) :
    (s.filled ic n packet).mem.read b = s.mem.read b :=
  Memory.read_updated_ne _ _ _ _ (forall_places h _ _ packet)

/-- InputContext: a caller's block. -/
theorem witness_may_fill : serving.mayFill 0x200000 1 :=
  mayFill_of_places (by decide +kernel) (by decide +kernel)

/-- InputContext: the table's last slot id and the next, the layout, and a structure the controller
may be reading under the last byte of the contexts. -/
theorem witness_input_context :
    (32 : SlotId).toNat < serving.cfg.devTableSize ∧ serving.cfg.devTableSize ≤ (33 : SlotId).toNat ∧
    serving.Quiet ∧ serving.cfg.ctx.Fits serving.cfg.ctxSize ∧ 32 ≤ serving.cfg.ctxSize ∧
    3 * serving.cfg.ctxSize = 96 ∧ serving.cfg.ctx = ctxLayout ∧
    (serving.host.ep0.get 1).base.getLsbD 0 = false := by
  decide +kernel

/-- A ring of the host's from the last byte of the contexts on, by a block and by a register. -/
theorem witness_fill_refused :
    (∃ b ∈ (serving.withPlat { serving.plat with live := [⟨0x20005F, 1, .cmdRing⟩] }).hostBlocks,
      b.kind ≠ .inCtx ∧ b.Overlaps 0x200000 96) ∧
    ∃ b ∈ serving.hostBlocks, b.kind ≠ .inCtx ∧ b.Overlaps 0x105FC0 96 :=
  ⟨⟨⟨0x20005F, 1, .cmdRing⟩, by decide +kernel, by decide, 0, by decide, 95, by decide,
      by decide +kernel⟩,
    ⟨⟨0x106000, 4096, .ep0Ring⟩, by decide +kernel, by decide, 0, by decide, 64, by decide,
      by decide +kernel⟩⟩

/-- InputContext: contexts over the event segment, where every dword is the controller's. -/
theorem witness_fill_owned :
    let why := fun u : Nat × (Dword → Dword) =>
      serving.hostRefusal (0x102000 + BitVec.ofNat 64 u.1) 4
    let l := inputUpdates serving.cfg.ctx serving.cfg.ctxSize (serving.host.dev.get 1)
      (serving.host.ep0.get 1) 0
    serving.isInUse .inCtx 0x102000 (3 * serving.cfg.ctxSize) = false ∧
    (∀ u ∈ l, serving.loadRefusal (0x102000 + BitVec.ofNat 64 u.1) 4 = none ∧
      (why u = none ∨ why u = some .hostWritesControllerMemory)) ∧
    ∃ u ∈ l, why u = some .hostWritesControllerMemory := by
  refine ⟨by decide +kernel, ?_, ?_⟩
  · exact forall_places (p := fun k => serving.loadRefusal (0x102000 + BitVec.ofNat 64 k) 4 = none ∧
      (serving.hostRefusal (0x102000 + BitVec.ofNat 64 k) 4 = none ∨
        serving.hostRefusal (0x102000 + BitVec.ofNat 64 k) 4 = some .hostWritesControllerMemory))
      (by decide +kernel) _ _ _
  · exact ⟨_, List.mem_cons_self, by decide +kernel⟩

/-- The instance with slot 1 in use and three blocks to hand out. -/
def enumerating : State := giving ((started.withSlot 1 ⟨.enabled, 0, 0⟩).withHost { started.host with
  dev := started.host.dev.put 1 ⟨1, 1, 3, 0, 0, 0, true⟩ })
  [some 0x104000, some 0x105000, some 0x106000]

/-- AddressDeviceHost: three blocks, and each allocation denied. -/
theorem witness_address_device_host :
    let I : Block := ⟨0x104000, enumerating.cfg.inCtxBytes, .inCtx⟩
    let D : Block := ⟨0x105000, enumerating.cfg.devCtxBytes, .devCtx⟩
    enumerating.Quiet ∧ (32 : SlotId).toNat < enumerating.cfg.devTableSize ∧
    enumerating.cfg.devTableSize ≤ (33 : SlotId).toNat ∧
    (giving enumerating [none]).plat.allocs = none :: [] ∧
    (giving enumerating [some 0x104000, none]).mayGiveAll [none] [I] ∧
    (giving enumerating [some 0x104000, some 0x105000, none]).mayGiveAll [none] [I, D] ∧
    enumerating.plat.live = [] ∧ enumerating.mayGiveDevice 0x104000 0x105000 0x106000 [] := by
  unfold State.mayGiveDevice
  simp only [State.mayGiveAll]
  decide +kernel

/-- AddressDeviceHost: the entry may be installed and the command posted. -/
theorem witness_install_and_post :
    let g := enumerating.deviceGiven 1 0x104000 0x105000 0x106000 []
    g.mayInstall 1 ∧ (g.deviceInstalled 1 0x105000).mayPost := by
  unfold State.mayInstall State.mayPost
  decide +kernel

/-- AddressDeviceHost: the input context just handed out may be filled, entry 0 being asked for or
not. -/
theorem witness_fill_given :
    (enumerating.deviceGiven 0 0x104000 0x105000 0x106000 []).mayFill 0x104000 0 ∧
    (enumerating.deviceGiven 1 0x104000 0x105000 0x106000 []).mayFill 0x104000 1 :=
  ⟨mayFill_of_places (by decide +kernel) (by decide +kernel),
    mayFill_of_places (by decide +kernel) (by decide +kernel)⟩

/-- AddressDeviceHost: the entry in a command ring, because the DCBAA is not where the host thinks,
and a ring that begins under the entry's last byte. -/
theorem witness_entry_in_ring :
    (let s := enumerating.withHost { enumerating.host with dcbaa := 0x101000 }
     let g := s.deviceGiven 1 0x104000 0x105000 0x106000 []
     s.mayGiveDevice 0x104000 0x105000 0x106000 [] ∧ g.mayFill 0x104000 1 ∧
     ∃ b ∈ g.hostBlocks, b.kind ≠ .inCtx ∧ b.kind ≠ .dcbaa ∧
       b.Overlaps (dcbaaEntry s.host.dcbaa 1) 8) ∧
    (let s := enumerating.withPlat { enumerating.plat with live := [⟨0x10000F, 1, .cmdRing⟩] }
     let g := s.deviceGiven 1 0x104000 0x105000 0x106000 []
     s.mayGiveDevice 0x104000 0x105000 0x106000 [] ∧ g.mayFill 0x104000 1 ∧
     ∃ b ∈ g.hostBlocks, b.kind ≠ .inCtx ∧ b.kind ≠ .dcbaa ∧
       b.Overlaps (dcbaaEntry s.host.dcbaa 1) 8) := by
  unfold State.mayGiveDevice
  exact ⟨⟨by decide +kernel, mayFill_of_places (by decide +kernel) (by decide +kernel),
      ⟨0x101000, 4096, .cmdRing⟩, by decide +kernel, by decide, by decide, 8, by decide, 0,
      by decide, by decide +kernel⟩,
    ⟨by decide +kernel, mayFill_of_places (by decide +kernel) (by decide +kernel),
      ⟨0x10000F, 1, .cmdRing⟩, by decide +kernel, by decide, by decide, 0, by decide, 7,
      by decide, by decide +kernel⟩⟩

/-- The controller stores nothing over the buffer of an OUT transfer or an input context it holds,
nor over any of the DCBAA's MAX_SLOTS + 1 entries (10_state R56, 20_memory R96). -/
theorem test_controller_store_refused :
    let holding := fun r => serving.withLedger
      { serving.ledger with handed := [⟨2, 3, [], [], [r]⟩] }
    (holding ⟨0x107011, 4, false⟩).ctlRefusal 0x107000 18 = some .controllerWritesHostMemory ∧
    (holding ⟨0x107012, 4, false⟩).ctlRefusal 0x107000 18 = none ∧
    (holding ⟨0x107011, 4, true⟩).ctlRefusal 0x107000 18 = none ∧
    let s := serving.withOp { serving.op with dcbaap := 0x120000, maxSlotsEn := 1 }
    s.ctlRefusal 0x120107 1 = some .controllerWritesHostMemory ∧
    s.ctlRefusal 0x120108 1 = none := by decide +kernel

/-- An address below the middle of the address space counts on plainly. -/
theorem byteAddr_low {a : Addr} {k : Nat} (ha : a.toNat < 2 ^ 32) (hk : k < 2 ^ 32) :
    byteAddr a k = a.toNat + k := by
  unfold byteAddr
  rw [BitVec.toNat_add, BitVec.toNat_ofNat]
  omega

/-- The instance with the entry of slot 2, whose device record is in use, installed too. -/
def enumeratingTwo : State :=
  (enumerating.withMem (enumerating.mem.write64 0x100010 0x108000)).withHost { enumerating.host with
    dev := enumerating.host.dev.put 2 ⟨2, 1, 3, 0, 0, 0, true⟩ }

/-- AddressDeviceHost, its last clause: an entry in use, and none of the DCBAA overlaps what is
allocated or posted. -/
theorem witness_entries_in_use :
    (enumeratingTwo.host.dev.get 1).inUse = true ∧ enumeratingTwo.EntriesInUse ∧
    enumeratingTwo.mem.read64 (dcbaaEntry enumeratingTwo.host.dcbaa 2) ≠ 0 := by
  refine ⟨by decide +kernel, ?_, by decide +kernel⟩
  unfold State.EntriesInUse
  decide +kernel

theorem witness_entries_apart (k : SlotId) (hk : k.toNat ≤ enumeratingTwo.host.maxSlots.toNat)
    (j : Nat) (hj : j < 8) (a : Addr) (ha : 0x101000 ≤ a.toNat) (ha' : a.toNat < 2 ^ 32) (m : Nat)
    (hm : m < 4096) : byteAddr (dcbaaEntry enumeratingTwo.host.dcbaa k) j ≠ byteAddr a m := by
  have e : (dcbaaEntry enumeratingTwo.host.dcbaa k).toNat = 0x100000 + 8 * k.toNat := by
    have d : enumeratingTwo.host.dcbaa = 0x100000 := rfl
    have := k.isLt
    unfold dcbaaEntry
    rw [d, BitVec.toNat_add, BitVec.toNat_ofNat]
    show (0x100000 + _) % _ = _
    omega
  have h : k.toNat ≤ 32 := hk
  rw [byteAddr_low (by omega) (by omega), byteAddr_low ha' (by omega), e]
  omega

/-- The instance with slot 1's entry installed. -/
def installedBefore : State := enumerating.account (·.entrySet 1 0x100008 0x105000)

/-- The instance with an entry of slot 1's that begins under the last byte of the new one. -/
def installedAfter : State := enumerating.account (·.entrySet 1 0x10000F 0x105000)

/-- AddressDeviceHost: the entry of a slot that lives. -/
theorem witness_entry : ∀ s ∈ [installedBefore, installedAfter],
    s.mayGiveDevice 0x104000 0x105000 0x106000 [] ∧
    ((s.deviceGiven 1 0x104000 0x105000 0x106000 []).isInUse .inCtx 0x104000 96 = false ∧
    ∀ k ∈ places s.cfg.ctx s.cfg.ctxSize, let g := s.deviceGiven 1 0x104000 0x105000 0x106000 []
      g.loadRefusal (0x104000 + BitVec.ofNat 64 k) 4 = none ∧
      g.hostRefusal (0x104000 + BitVec.ofNat 64 k) 4 = none) ∧
    s.entryHeld (dcbaaEntry s.host.dcbaa 1) 8 = true := by
  unfold State.mayGiveDevice
  decide +kernel

/-- A living slot's DCBAA entry is neither zeroed nor written over, be it in a block, under
`DCBAAP` or in neither, and a slot that does not live keeps none (70_reset R424). -/
theorem test_entry_kept :
    let s := (started.withOp { started.op with dcbaap := 0 }).account
      (·.entrySet 1 0x200008 0x105000)
    let t := s.withSlot 1 ⟨.addressed, 1, 0x105000⟩
    why (.allocate 1) (giving t [some 0x200000]) = some .handedOver ∧
    why (.allocate 1) (giving s [some 0x200000]) = none ∧
    t.hostRefusal 0x20000C 4 = some .handedOver ∧ t.hostRefusal 0x200010 4 = none ∧
    t.ctlRefusal 0x20000F 1 = some .controllerWritesHostMemory ∧
    (t.account (·.entriesFreed [⟨0x20000F, 1, .dcbaa⟩])).ledger.installed = [] ∧
    (t.account (·.entrySet 1 0x200008 0)).ledger.installed = [] ∧
    let u := t.account (·.entrySet 1 0x300008 0x108000)
    u.hostRefusal 0x200008 4 = some .handedOver ∧ u.hostRefusal 0x300008 4 = some .handedOver :=
  by decide +kernel

end Sys2Proof.Machine.Slice0
end

section
/-! Proofs of the state family (10_state): the reset state has every invariant, and every step keeps
the host's flags and its poll bound. -/

namespace Sys2Proof.Machine

/-! ### What the reset state holds -/

@[simp] theorem State.ports_reset (p : PortIx) : State.reset.ports.get p = .empty :=
  Tab.get_replicate _ _

@[simp] theorem State.slots_reset (i : SlotId) : State.reset.slots.get i = .disabled :=
  Tab.get_replicate _ _

@[simp] theorem State.tr_reset (i : SlotId) : State.reset.tr.get i = none :=
  Tab.get_replicate _ _

@[simp] theorem State.isAddressed_reset (i : SlotId) : State.reset.isAddressed i = false := by
  rw [State.isAddressed, State.slots_reset]
  rfl

theorem memoryInv_reset : State.reset.MemoryInv :=
  ⟨by decide, fun _ hb => nomatch hb⟩

theorem lifecycleInv_reset : State.reset.LifecycleInv := by
  refine ⟨by decide, nofun, fun i r hr => ?_⟩
  rw [State.tr_reset] at hr
  cases hr

theorem portInv_reset : State.reset.PortInv := by
  intro p
  rw [State.ports_reset]
  unfold Port.Inv
  decide

/-- Every slot is Disabled, so what is asked of the other slots is asked of none. -/
theorem slotInv_reset : State.reset.SlotInv := by
  refine ⟨fun i => by simp, fun i j hi => ?_, fun i hi => ?_, fun i hi => ?_, by decide⟩
  · simp at hi
  · simp at hi
  · rw [State.slots_reset] at hi
    exact absurd rfl hi

theorem pointerInv_reset : State.reset.PointerInv := by
  refine ⟨by decide, by decide, .inl rfl, by decide, by decide, by decide, by decide,
    fun i r hr => ?_⟩
  rw [State.tr_reset] at hr
  cases hr

theorem hostInv_reset : State.reset.HostInv := by
  unfold State.HostInv
  decide

/-- Settles O6: one lemma per invariant. -/
theorem resetInvariants : Obligations.ResetInvariants :=
  ⟨memoryInv_reset, lifecycleInv_reset, portInv_reset, slotInv_reset, pointerInv_reset,
    hostInv_reset⟩

/-! ### The host's flags and poll bound -/

/-- The invariant speaks of the host's records only. -/
theorem State.HostInv.of_host_eq {s t : State} (hs : s.HostInv) (h : t.host = s.host) :
    t.HostInv := by
  unfold State.HostInv
  rwa [h]

theorem hostInv_ctlClosed : CtlClosed State.HostInv :=
  fun _ _ h hs => hs.of_host_eq h.host_eq

/-- Of the host's updates, one of its records carries the flags over, a change of its lifecycle sets
them afresh, and every other leaves its records alone. -/
theorem hostInv_hostClosed : HostClosed State.HostInv := by
  intro s t h hs
  obtain ⟨hinit, hrun, hpoll⟩ := hs
  cases h with
  | record x hi hr hl hp =>
    refine ⟨?_, ?_, ?_⟩
    · rwa [State.host_withHost, hi, hl]
    · rwa [State.host_withHost, hr, hl]
    · rwa [State.host_withHost, hp]
  | life x hi hr hp => exact ⟨hi, hr, hp.trans_le hpoll⟩
  | _ => exact State.HostInv.of_host_eq ⟨hinit, hrun, hpoll⟩ rfl

theorem hostInv_pollClosed : PollClosed State.HostInv := by
  rintro _ _ ⟨n, hn⟩ ⟨hinit, hrun, -⟩
  exact ⟨hinit, hrun, hn⟩

theorem hostInv_stepKeeps : StepKeeps State.HostInv where
  ctl := hostInv_ctlClosed
  host := hostInv_hostClosed
  config _ _ _ _ hs := hs.of_host_eq rfl
  poll := hostInv_pollClosed
  turns _ _ hs := hs.of_host_eq rfl

/-- Settles O12: every update of the state keeps the invariant, so every step does. -/
theorem stepKeepsHost : Obligations.StepKeepsHost :=
  fun _ _ hs h => step_keeps hostInv_stepKeeps (fun _ _ hs => hs.of_host_eq rfl) hs h

end Sys2Proof.Machine
end

section
/-! Proofs of the memory family (20_memory), the invariants: every step keeps memory canonical and
the ring pointers aligned and in range. -/

namespace Sys2Proof.Machine

open Config

/-! ### Memory's canonical form -/

/-- The invariant speaks of the memory and of the blocks handed out only. -/
theorem State.MemoryInv.of_eq {s t : State} (hs : s.MemoryInv) (hm : t.mem = s.mem)
    (hl : t.plat.live = s.plat.live) : t.MemoryInv := by
  unfold State.MemoryInv
  rwa [hm, hl]

/-- A canonical memory in place of another, whoever stored it. -/
theorem State.MemoryInv.withMem {s : State} (hs : s.MemoryInv) {m : Memory} (hm : m.wf) :
    (s.withMem m).MemoryInv := ⟨hm, hs.2⟩

/-- Of the controller's updates only its stores reach the memory. -/
theorem memoryInv_ctlClosed : CtlClosed State.MemoryInv := by
  intro s t h hs
  have hwf := hs.1
  cases h with
  | engine h =>
    cases h with
    | trb a t => exact hs.withMem (Memory.wf_writeTrb hwf a t)
    | store a bs => exact hs.withMem (Memory.wf_writeBytes hwf bs a)
    | _ => exact hs.of_eq rfl rfl
  | _ => exact hs.of_eq rfl rfl

/-- The host's stores keep the form, a block given back leaves the others as they are, and a new
block was asked to lie in the address space. -/
theorem memoryInv_hostClosed : HostClosed State.MemoryInv := by
  intro s t h hs
  obtain ⟨hwf, hlive⟩ := id hs
  cases h with
  | plat p hp hf hl => exact ⟨hwf, fun b hb => hlive b (hl b hb)⟩
  | alloc p b hp hf hl hb =>
    refine ⟨Memory.wf_zeroBytes hwf _ _, fun c hc => ?_⟩
    rw [State.plat_withMem, State.plat_withPlat, hl] at hc
    rcases List.mem_cons.1 hc with rfl | hc
    · exact hb
    · exact hlive c hc
  | scramble b bs hb hl => exact hs.withMem (Memory.wf_writeBytes hwf bs b.base)
  | store32 a v => exact hs.withMem (Memory.wf_write32 hwf a v)
  | _ => exact hs.of_eq rfl rfl

theorem memoryInv_stepKeeps : StepKeeps State.MemoryInv where
  ctl := memoryInv_ctlClosed
  host := memoryInv_hostClosed
  config _ _ _ _ hs := hs.of_eq rfl rfl
  poll := by
    rintro _ _ ⟨n, -⟩ hs
    exact hs.of_eq rfl rfl
  turns _ _ hs := hs.of_eq rfl rfl

/-- Settles O7: every update of the state keeps the invariant, so every step does. -/
theorem stepKeepsMemory : Obligations.StepKeepsMemory :=
  fun _ _ hs h => step_keeps memoryInv_stepKeeps (fun _ _ hs => hs.of_eq rfl rfl) hs h

/-! ### Ring pointers -/

/-- The command engine's part of the pointer invariant (10_state R41). -/
def CmdEngine.Aligned (c : CmdEngine) : Prop := c.deq < cmdRingSize ∧ LowZero c.base 6

/-- The event producer's part (10_state R44, R45, R47). -/
def EvtProducer.Aligned (e : EvtProducer) : Prop :=
  (e.size = 0 ∨ e.enq < e.size ∧ e.size ≤ evtRingSize ∧
    e.base.toNat % Nat.gcd (trbSize * e.size) 4096 = 0) ∧
  LowZero e.base 6 ∧ LowZero e.deqPtr 4

/-- One transfer engine's part (10_state R51). -/
def XferRing.Aligned (r : XferRing) : Prop := r.deq < ep0RingSize ∧ LowZero r.base 12

/-- The pointer invariant is one fact about each engine and each pointer register. -/
theorem State.pointerInv_iff {s : State} : s.PointerInv ↔
    s.cr.Aligned ∧ s.er.Aligned ∧ LowZero s.op.dcbaap 6 ∧ LowZero s.intr.erstba 6 ∧
      ∀ i r, s.tr.get i = some r → r.Aligned := by
  unfold State.PointerInv CmdEngine.Aligned EvtProducer.Aligned XferRing.Aligned
  tauto

theorem CmdEngine.Aligned.advanced {c : CmdEngine} (h : c.Aligned) : c.advanced.Aligned :=
  ⟨advance_lt h.1, h.2⟩

theorem loadedCmdEngine_aligned (b : BitPos) (v : Qword) : (loadedCmdEngine b v).Aligned :=
  ⟨Nat.zero_lt_succ 255, lowZero_mask v (k := 6) (by norm_num)⟩

theorem EvtProducer.Aligned.advanced {e : EvtProducer} (h : e.Aligned) : e.advanced.Aligned := by
  obtain ⟨hsize, hbase, hdeq⟩ := h
  exact ⟨hsize.imp_right fun ⟨henq, hrest⟩ => ⟨advance_lt henq, hrest⟩, hbase, hdeq⟩

theorem EvtProducer.Aligned.loaded {e : EvtProducer} (h : e.Aligned) {base : Addr} {n : Nat}
    (hb : base &&& 0x3F#64 = 0) (h0 : n ≠ 0) (hn : n ≤ evtRingSize)
    (ha : base.toNat % segmentAlign n = 0) :
    EvtProducer.Aligned { e with base := base, size := n, enq := 0, pcs := true } := by
  obtain ⟨-, -, hdeq⟩ := h
  exact ⟨.inr ⟨Nat.pos_of_ne_zero h0, hn, ha⟩, LowZero.of_and (k := 6) (by norm_num) hb, hdeq⟩

theorem EvtProducer.Aligned.ackLo {e : EvtProducer} (h : e.Aligned) (v : Dword) :
    (e.ackLo v).Aligned := by
  obtain ⟨hsize, hbase, -⟩ := h
  refine ⟨hsize, hbase, lowZero_withLo _ _ (by norm_num) (Dword.low_of_and (by norm_num) ?_)⟩
  rw [BitVec.and_assoc, show ~~~0xF#32 &&& BitVec.ofNat 32 (2 ^ 4 - 1) = 0#32 from rfl,
    BitVec.and_zero]

theorem EvtProducer.Aligned.ackHi {e : EvtProducer} (h : e.Aligned) (v : Dword) :
    (e.ackHi v).Aligned := by
  obtain ⟨hsize, hbase, hdeq⟩ := h
  exact ⟨hsize, hbase, lowZero_withHi v (by norm_num) hdeq⟩

theorem XferRing.Aligned.advanced {r : XferRing} (h : r.Aligned) (n : Nat) :
    (r.advanced n).Aligned := ⟨ep0After_lt n (p := (r.deq, r.ccs)) h.1, h.2⟩

/-- A table whose engines are aligned, with one of them replaced by an aligned one or by none. -/
theorem aligned_put {t : Tab (Option XferRing)} (h : ∀ i r, t.get i = some r → r.Aligned)
    {k : SlotId} {x : Option XferRing} (hx : ∀ r, x = some r → r.Aligned) :
    ∀ i r, (t.put k x).get i = some r → r.Aligned := by
  intro i r hr
  rw [Tab.get_put] at hr
  split at hr
  · exact hx r hr
  · exact h i r hr

/-- An engine whose pointers are those of an engine of the table. -/
theorem aligned_map {x : Option XferRing} {f : XferRing → XferRing}
    (h : ∀ r, x = some r → r.Aligned) (hf : ∀ r, r.Aligned → (f r).Aligned) :
    ∀ r, x.map f = some r → r.Aligned := by
  intro r hr
  obtain ⟨q, hq, rfl⟩ := Option.map_eq_some_iff.1 hr
  exact hf q (h q hq)

theorem pointerInv_engineClosed : EngineClosed State.PointerInv := by
  intro s t h hs
  rw [State.pointerInv_iff] at hs ⊢
  obtain ⟨hcr, her, hdcbaap, herstba, htr⟩ := hs
  cases h with
  | raised => exact ⟨hcr, her.advanced, hdcbaap, herstba, htr⟩
  | cmdAdvance => exact ⟨hcr.advanced, her, hdcbaap, herstba, htr⟩
  | install n a dc r hn ha hd hb hr =>
    refine ⟨hcr, her, hdcbaap, herstba, aligned_put htr ?_⟩
    rintro _ ⟨⟩
    exact ⟨by rw [hd]; decide, hb⟩
  | xferStop i r h =>
    refine ⟨hcr, her, hdcbaap, herstba, aligned_put htr ?_⟩
    rintro _ ⟨⟩
    exact htr i r h
  | xferAdvance i r k h =>
    refine ⟨hcr, her, hdcbaap, herstba, aligned_put htr ?_⟩
    rintro _ ⟨⟩
    exact (htr i r h).advanced k
  | _ => exact ⟨hcr, her, hdcbaap, herstba, htr⟩

/-- A controller reset leaves the pointers of power-on (10_state R67). -/
theorem pointerInv_controllerReset (s : State) : s.controllerReset.PointerInv := pointerInv_reset

/-- A halt stops the engines where they stand; a reset loads the aligned reset values. -/
theorem pointerInv_ctlClosed : CtlClosed State.PointerInv := by
  intro s t h hs
  cases h with
  | engine h => exact pointerInv_engineClosed _ _ h hs
  | halt =>
    rw [State.pointerInv_iff] at hs ⊢
    obtain ⟨hcr, her, hdcbaap, herstba, htr⟩ := hs
    refine ⟨hcr, her, hdcbaap, herstba, fun i => ?_⟩
    have hget : s.halted.tr.get i = (s.tr.get i).map XferRing.stopped := Tab.get_each _ _ _
    rw [hget]
    exact aligned_map (htr i) fun _ h => h
  | controllerReset => exact pointerInv_controllerReset s
  | _ => exact hs

theorem pointerInv_hostClosed : HostClosed State.PointerInv := by
  intro s t h hs
  rw [State.pointerInv_iff] at hs ⊢
  obtain ⟨hcr, her, hdcbaap, herstba, htr⟩ := hs
  cases h with
  | loadCr v => exact ⟨loadedCmdEngine_aligned _ v, her, hdcbaap, herstba, htr⟩
  | dcbaapLo v hr h =>
    exact ⟨hcr, her, lowZero_withLo _ v (by norm_num) (Dword.low_of_and (k := 6) (by norm_num) h),
      herstba, htr⟩
  | dcbaapHi v => exact ⟨hcr, her, lowZero_withHi v (by norm_num) hdcbaap, herstba, htr⟩
  | intr x hr h =>
    refine ⟨hcr, her, hdcbaap, ?_, htr⟩
    rwa [State.intr_withIntr, h]
  | erstbaLo v hr h =>
    exact ⟨hcr, her, hdcbaap,
      lowZero_withLo _ v (by norm_num) (Dword.low_of_and (k := 6) (by norm_num) h), htr⟩
  | erstbaHi v => exact ⟨hcr, her, hdcbaap, lowZero_withHi v (by norm_num) herstba, htr⟩
  | loadEr base n hb h0 hn ha => exact ⟨hcr, her.loaded hb h0 hn ha, hdcbaap, herstba, htr⟩
  | ackLo v => exact ⟨hcr, her.ackLo v, hdcbaap, herstba, htr⟩
  | ackHi v => exact ⟨hcr, her.ackHi v, hdcbaap, herstba, htr⟩
  | ringEp0 i =>
    exact ⟨hcr, her, hdcbaap, herstba, aligned_put htr (aligned_map (htr i) fun _ h => h)⟩
  | _ => exact ⟨hcr, her, hdcbaap, herstba, htr⟩

theorem pointerInv_stepKeeps : StepKeeps State.PointerInv where
  ctl := pointerInv_ctlClosed
  host := pointerInv_hostClosed
  config _ _ _ _ hs := hs
  poll := by
    rintro _ _ ⟨n, -⟩ hs
    exact hs
  turns _ _ hs := hs

/-- Settles O11: every update of the state keeps the invariant, so every step does. -/
theorem stepKeepsPointers : Obligations.StepKeepsPointers :=
  fun _ _ hs h => step_keeps pointerInv_stepKeeps (fun _ _ hs => hs) hs h

end Sys2Proof.Machine
end

section
/-! Proofs of the memory family (20_memory), what selects and runs an operation: the decoder's cover,
the step that fetches, and the writes of CRCR, DCBAAP and CONFIG. -/

namespace Sys2Proof

open Config

/-! ### The decoder's cover -/

/-- A dword is one of some dwords exactly where its value is one of their values. -/
theorem Dword.mem_map_toNat {v : Dword} {l : List Dword} : v.toNat ∈ l.map BitVec.toNat ↔ v ∈ l :=
  List.mem_map_of_injective fun _ _ => BitVec.eq_of_toNat_eq

/-- An offset names a port register exactly where it is one's offset (43_ports R270). -/
theorem portOfOffset_eq_none {c : Params} {off : Dword} :
    portOfOffset c off = none ↔ ¬ ∃ p, p < c.maxPorts.toNat ∧ off.toNat = 0x400 + 16 * p := by
  unfold portOfOffset portBase portStride
  dsimp only
  rw [ite_eq_right_iff]
  constructor
  · rintro h ⟨p, hp, ho⟩
    exact absurd (h ⟨by omega, by omega, by omega⟩) (by simp)
  · rintro h ⟨h1, h2, h3⟩
    exact absurd ⟨(off.toNat - 0x400) / 16, h3, by omega⟩ h

/-- An aligned offset names a doorbell exactly where it is one's offset (10_state R39). -/
theorem doorbellOfOffset_eq_none {c : Params} {off : Dword} (h4 : off.toNat % 4 = 0) :
    doorbellOfOffset c off = none ↔ ¬ ∃ k, k ≤ c.maxSlots.toNat ∧ off.toNat = 4 * k := by
  unfold doorbellOfOffset
  rw [ite_eq_right_iff]
  constructor
  · rintro h ⟨k, hk, ho⟩
    exact absurd (h (by omega)) (by simp)
  · intro h hle
    exact absurd ⟨off.toNat / 4, hle, by omega⟩ h

theorem decodeCap_eq_undefined {off : Dword} {w : Option Dword} :
    decodeCap off w = .undefinedOffset .cap off w ↔ off.toNat ∉ [0x00, 0x04, 0x14, 0x18] := by
  rw [show [0x00, 0x04, 0x14, 0x18] = ([0x00, 0x04, 0x14, 0x18] : List Dword).map BitVec.toNat
    from rfl, Dword.mem_map_toNat]
  simp only [List.mem_cons, List.not_mem_nil, or_false]
  constructor
  · rintro h (rfl | rfl | rfl | rfl) <;> cases w <;> cases h
  · intro h
    obtain ⟨h0, h4, h14, h18⟩ : off ≠ 0x00 ∧ off ≠ 0x04 ∧ off ≠ 0x14 ∧ off ≠ 0x18 := by tauto
    cases w <;> simp only [decodeCap, h0, h4, h14, h18, if_false]

theorem decodeRt_eq_undefined {off : Dword} {w : Option Dword} :
    decodeRt off w = .undefinedOffset .rt off w ↔
      off.toNat ∉ [0x20, 0x28, 0x30, 0x34, 0x38, 0x3C] := by
  rw [show [0x20, 0x28, 0x30, 0x34, 0x38, 0x3C] =
    ([0x20, 0x28, 0x30, 0x34, 0x38, 0x3C] : List Dword).map BitVec.toNat from rfl,
    Dword.mem_map_toNat]
  simp only [List.mem_cons, List.not_mem_nil, or_false]
  constructor
  · rintro h (rfl | rfl | rfl | rfl | rfl | rfl) <;> cases w <;> cases h
  · intro h
    obtain ⟨h20, h28, h30, h34, h38, h3C⟩ : off ≠ 0x20 ∧ off ≠ 0x28 ∧ off ≠ 0x30 ∧ off ≠ 0x34 ∧
      off ≠ 0x38 ∧ off ≠ 0x3C := by tauto
    cases w <;> simp only [decodeRt, h20, h28, h30, h34, h38, h3C, if_false]

theorem decodeOp_eq_undefined {c : Params} {off : Dword} {w : Option Dword} :
    decodeOp c off w = .undefinedOffset .op off w ↔
      ¬ (off.toNat ∈ [0x00, 0x04, 0x18, 0x1C, 0x30, 0x34, 0x38] ∨
        ∃ p, p < c.maxPorts.toNat ∧ off.toNat = 0x400 + 16 * p) := by
  rw [show [0x00, 0x04, 0x18, 0x1C, 0x30, 0x34, 0x38] =
    ([0x00, 0x04, 0x18, 0x1C, 0x30, 0x34, 0x38] : List Dword).map BitVec.toNat from rfl,
    Dword.mem_map_toNat, not_or, ← portOfOffset_eq_none]
  simp only [List.mem_cons, List.not_mem_nil, or_false]
  constructor
  · intro h
    refine ⟨?_, ?_⟩
    · rintro (rfl | rfl | rfl | rfl | rfl | rfl | rfl) <;> cases w <;> cases h
    · cases hp : portOfOffset c off with
      | none => rfl
      | some p =>
        cases w <;> unfold decodeOp at h <;> rw [hp] at h <;> split_ifs at h
  · rintro ⟨h, hp⟩
    obtain ⟨h0, h4, h18, h1C, h30, h34, h38⟩ : off ≠ 0x00 ∧ off ≠ 0x04 ∧ off ≠ 0x18 ∧
      off ≠ 0x1C ∧ off ≠ 0x30 ∧ off ≠ 0x34 ∧ off ≠ 0x38 := by tauto
    cases w <;> simp only [decodeOp, hp, h0, h4, h18, h1C, h30, h34, h38, if_false]

theorem decodeDb_eq_undefined {c : Params} {off : Dword} {w : Option Dword}
    (h4 : off.toNat % 4 = 0) :
    decodeDb c off w = .undefinedOffset .db off w ↔
      ¬ ∃ k, k ≤ c.maxSlots.toNat ∧ off.toNat = 4 * k := by
  rw [← doorbellOfOffset_eq_none h4]
  cases hd : doorbellOfOffset c off with
  | none => cases w <;> simp [decodeDb, hd]
  | some k =>
    cases w with
    | none => simp [decodeDb, hd]
    | some v => simp only [decodeDb, hd]; split <;> simp

/-- A decoder's arm that always answers. -/
theorem ite_ok_isOk {p : Prop} [Decidable p] {i : Instr} {x : Except DecodeError Instr} :
    (∃ o, (if p then .ok i else x) = .ok o) ↔ p ∨ ∃ o, x = .ok o := by
  by_cases h : p <;> simp [h]

/-- A type has a place on an endpoint-0 ring exactly where it has a row there (30_encoding R135). -/
theorem decodeXfer_isOk {c : TypeCodes} {i : SlotId} {t : Trb} :
    (∃ o, decodeXfer c i t = .ok o) ↔
      t.typ ∈ [c.setup, c.data, c.status, c.normal, c.link, c.eventData, c.noopXfer] := by
  have hnone : ¬ ∃ o, (.error (.notOnTransferRing t.typ) : Except DecodeError Instr) = .ok o := by
    simp
  simp only [decodeXfer, ite_ok_isOk, hnone, List.mem_cons, List.not_mem_nil]

theorem decodeAccess_misaligned {c : Params} {a : Access} :
    decodeAccess c a = .error .misaligned ↔ a.off.toNat % 4 ≠ 0 := by
  unfold decodeAccess
  split_ifs with h
  · simpa using h
  · cases a.block <;> simp [h]

theorem decodeAccess_isOk {c : Params} {a : Access} :
    (∃ o, decodeAccess c a = .ok o) ↔ a.off.toNat % 4 = 0 := by
  unfold decodeAccess
  split_ifs with h
  · simpa using h
  · cases a.block <;> simpa using h

/-- Settles O3: ring by ring and block by block. -/
theorem decodeCovers : Obligations.DecodeCovers := by
  intro c i t a
  refine ⟨⟨_, rfl⟩, ⟨_, rfl⟩, decodeXfer_isOk, decodeAccess_misaligned, decodeAccess_isOk,
    fun h4 => ?_⟩
  obtain ⟨b, off, w⟩ := a
  show decodeAccess c ⟨b, off, w⟩ = _ ↔ _
  unfold decodeAccess
  rw [if_neg (not_not.2 h4)]
  cases b <;> dsimp only <;> rw [Except.ok.injEq]
  case cap => exact decodeCap_eq_undefined
  case op => exact decodeOp_eq_undefined
  case rt => exact decodeRt_eq_undefined
  case db => exact decodeDb_eq_undefined h4

end Sys2Proof

namespace Sys2Proof.Machine

open Config

/-! ### One step runs the decoded operation -/

/-- Why a load is refused, where it is: the controller holds the buffer (45_control_transfer R347). -/
theorem State.loadRefusal_eq_some {s : State} {a : Addr} {n : Nat} {r : Refusal}
    (h : s.loadRefusal a n = some r) : r = .handedOver := by
  unfold State.loadRefusal at h
  split at h <;> cases h
  rfl

/-- A load from the buffer of an IN transfer the controller holds is refused. -/
theorem State.loadRefusal_of_overlaps {s : State} {a : Addr} {n : Nat} {h : HandOver} {r : Region}
    (hh : h ∈ s.ledger.handed) (hr : r ∈ h.held) (hi : r.isIn = true) (ho : r.Overlaps a n) :
    s.loadRefusal a n = some .handedOver := by
  refine if_pos (List.any_eq_true.2 ⟨h, hh, List.any_eq_true.2 ⟨r, hr, ?_⟩⟩)
  rw [hi, Region.meets_iff.2 ho]
  rfl

theorem State.loadsRefusal_eq_some {s : State} {l : List Addr} {r : Refusal}
    (h : s.loadsRefusal l = some r) : r = .handedOver := by
  obtain ⟨a, -, ha⟩ := List.exists_of_findSome?_eq_some h
  exact State.loadRefusal_eq_some ha

/-- With nothing on the agenda the step is what the scheduled consumer's fetch leads to. -/
theorem step_of_fetch {s : State} (h : s.sched.agenda = []) :
    step s = runFetched s (fetchNext s) := by
  unfold step
  rw [h]

theorem fetchCommand_valid {s : State} (hh : s.op.hch = false) (hr : s.cr.running = true)
    (hl : s.cr.loaded = true) (hroom : s.er.hasRoom = true)
    (hc : (s.mem.readTrb s.cr.fetchAddr).cycle = s.cr.ccs) :
    fetchCommand s = .ofDecoded (decodeTrb s.cfg.tt .cmd (s.mem.readTrb s.cr.fetchAddr)) := by
  unfold fetchCommand State.commandOn
  simp [hh, hr, hl, hroom, hc]

theorem fetchTransfer_valid {s : State} {k : SlotId} {r : XferRing} (hh : s.op.hch = false)
    (ha : s.isAddressed k = true) (ht : s.tr.get k = some r) (hr : r.running = true)
    (hc : (s.mem.readTrb (ringAddr r.base r.deq)).cycle = r.ccs) :
    fetchTransfer s k =
      .ofDecoded (decodeTrb s.cfg.tt (.xfer k) (s.mem.readTrb (ringAddr r.base r.deq))) := by
  have hon : s.transferOn k = some r := by
    unfold State.transferOn
    simp [ht, hh, ha, hr]
  have ht0 : s.xferTrb k 0 = s.mem.readTrb (ringAddr r.base r.deq) := by
    unfold State.xferTrb
    rw [ht]
    rfl
  unfold fetchTransfer
  rw [hon, ht0]
  simp [hc]

/-- The look at a valid event: what the host may load is decoded. -/
theorem fetchEvent_valid {s : State} (hs : s.host.evt.size ≠ 0) (hl : s.mayLoadTrb s.host.eventAddr)
    (hc : (s.mem.readTrb s.host.eventAddr).cycle = s.host.evt.cycle) :
    fetchEvent s = .ofDecoded (decodeTrb s.cfg.tt .evt (s.mem.readTrb s.host.eventAddr)) := by
  obtain ⟨h0, h4, h8, h12⟩ := hl
  have hrest : s.loadsRefusal [s.host.eventAddr, s.host.eventAddr + 4, s.host.eventAddr + 8] =
      none := State.loadsRefusal_eq_none.2 fun b hb => by
    rcases List.mem_cons.1 hb with rfl | hb
    · exact h0
    · rcases List.mem_pair.1 hb with rfl | rfl
      · exact h4
      · exact h8
  unfold fetchEvent
  dsimp only
  rw [if_neg hs, h12, hc, hrest]
  simp

/-- A valid event in a buffer the controller holds is refused, whichever of its dwords lies there. -/
theorem fetchEvent_lent {s : State} (hs : s.host.evt.size ≠ 0) {h : HandOver} {r : Region}
    (hh : h ∈ s.ledger.handed) (hr : r ∈ h.held) (hi : r.isIn = true)
    (ho : r.Overlaps s.host.eventAddr 16)
    (hc : (s.mem.readTrb s.host.eventAddr).cycle = s.host.evt.cycle) :
    fetchEvent s = .refuse .handedOver := by
  have lent : ∀ b, r.Overlaps b 4 → s.loadRefusal b 4 ≠ none := fun b hb => by
    rw [State.loadRefusal_of_overlaps hh hr hi hb]
    simp
  unfold fetchEvent
  dsimp only
  rw [if_neg hs]
  cases h12 : s.loadRefusal (s.host.eventAddr + 12) 4 with
  | some x => rw [State.loadRefusal_eq_some h12]
  | none =>
    have hrest : s.loadsRefusal [s.host.eventAddr, s.host.eventAddr + 4, s.host.eventAddr + 8] ≠
        none := by
      intro hn
      rw [State.loadsRefusal_eq_none] at hn
      rcases Region.overlaps_dword ho with h0 | h4 | h8 | hlast
      · exact lent _ h0 (hn _ (by simp))
      · exact lent _ h4 (hn _ (by simp))
      · exact lent _ h8 (hn _ (by simp))
      · exact lent _ hlast h12
    obtain ⟨x, hx⟩ := Option.ne_none_iff_exists'.1 hrest
    rw [hx, State.loadsRefusal_eq_some hx]
    simp [hc]

/-- A decoded TRB is executed. -/
theorem runFetched_decoded {s : State} {d : Except DecodeError Instr} {i : Instr} (h : d = .ok i) :
    runFetched s (.ofDecoded d) = exec i s := by
  rw [h]
  rfl

/-- Settles O5: the agenda's head, or the fetch of each consumer. -/
theorem stepRunsDecoded : Obligations.StepRunsDecoded := by
  intro s
  refine ⟨fun i r h => ?_, fun hagenda => ?_⟩
  · unfold step
    rw [h]
    rfl
  rw [step_of_fetch hagenda]
  unfold fetchNext
  refine ⟨?_, ?_, ?_⟩
  · intro hf hh hr hl hroom t i hc hd
    rw [hf]
    exact (congrArg _ (fetchCommand_valid hh hr hl hroom hc)).trans (runFetched_decoded hd)
  · intro k r hf hh ha ht hr i hc hd
    rw [hf]
    exact (congrArg _ (fetchTransfer_valid hh (beq_iff_eq.2 ha) ht hr hc)).trans
      (runFetched_decoded hd)
  · intro hf hs a t hc
    rw [hf]
    refine ⟨fun i hl hd => ?_, ?_⟩
    · exact (congrArg _ (fetchEvent_valid hs hl hc)).trans (runFetched_decoded hd)
    · rintro ⟨h, hh, r, hr, hi, ho⟩
      exact congrArg _ (fetchEvent_lent hs hh hr hi ho hc)

/-! ### Writes of CRCR, DCBAAP and CONFIG -/

theorem run_get_bind (f : State → Act Unit) (s : State) :
    Act.run ((get : Act State) >>= f) s = Act.run (f s) s := rfl

/-- A requirement as a branch of the meaning. -/
theorem run_require_bind (c : Bool) (r : Refusal) (f : Unit → Act Unit) (s : State) :
    Act.run (require c r >>= f) s = if c = true then Act.run (f ()) s else .refused r := by
  cases c <;> rfl

theorem run_writable_bind {s : State} (h1 : s.op.hcrst = false) (h2 : s.op.cnr = false)
    (f : Unit → Act Unit) : Act.run (writable >>= f) s = Act.run (f ()) s := by
  unfold Act.run
  rw [Act.bind_ok (writable_ok h1 h2)]

/-- Settles O22: each write behind its gate and its requirement. -/
theorem pointerAndConfigWrites : Obligations.PointerAndConfigWrites := by
  intro s v h1 h2
  refine ⟨?_, ?_, ?_, ?_, ?_⟩
  · exact run_writable_bind h1 h2 _
  · exact run_writable_bind h1 h2 _
  · refine (run_writable_bind h1 h2 _).trans ((run_require_bind _ _ _ s).trans ?_)
    rw [show (v &&& 0x3F#32 == 0) = decide (v.extractLsb' 0 6 = 0) from
      and_low_beq 6 v (by norm_num)]
    by_cases h : v.extractLsb' 0 6 = 0
    · rw [if_pos h, if_pos (decide_eq_true h)]
      rfl
    · rw [if_neg h, if_neg (by simpa using h)]
  · exact run_writable_bind h1 h2 _
  · have hcond : decide ((maxSlotsEnOf s.cfg.bitpos v).toNat ≤ s.cfg.maxSlots.toNat) = true ↔
        ¬ s.cfg.maxSlots.toNat < (v.extractLsb' s.cfg.bitpos.maxSlotsEnLo 8).toNat := by
      rw [decide_eq_true_eq, Nat.not_lt]
      rfl
    refine ((run_writable_bind h1 h2 _).trans (run_get_bind _ s)).trans
      ((run_require_bind _ _ _ s).trans ?_)
    by_cases h : s.cfg.maxSlots.toNat < (v.extractLsb' s.cfg.bitpos.maxSlotsEnLo 8).toNat
    · rw [if_pos h, if_neg fun hle => hcond.1 hle h]
    · rw [if_neg h, if_pos (hcond.2 h)]
      rfl

end Sys2Proof.Machine
end

section
/-! Proofs of the memory family (20_memory), the controller's producer and consumer: producing an
event and the ownership of its store, and the step of the command engine. -/

namespace Sys2Proof.Machine

open Config

/-! ### Producing an event -/

theorem EvtProducer.hasRoom_iff {e : EvtProducer} : e.hasRoom = true ↔
    e.size ≠ 0 ∧ e.base + BitVec.ofNat 64 (16 * ((e.enq + 1) % e.size)) ≠ e.deqPtr := by
  unfold EvtProducer.hasRoom ringAddr
  rw [Bool.and_eq_true, bne_iff_ne, bne_iff_ne]

theorem BlockKind.isHost_iff {k : BlockKind} :
    k.isHost = true ↔ k ∈ [.dcbaa, .cmdRing, .erst, .inCtx, .ep0Ring] := by
  cases k <;> decide

theorem isEventTrb_iff {c : TypeCodes} {t : Trb} : isEventTrb c t = true ↔
    t.typ = c.transferEvent ∨ t.typ = c.cmdCompletion ∨ t.typ = c.portStatusChange := by
  simp only [isEventTrb, Bool.or_eq_true, beq_iff_eq, or_assoc]

/-- A ring with room is a ring. -/
theorem State.canRaise_iff {s : State} :
    s.canRaise = true ↔ s.op.hch = false ∧ s.er.size ≠ 0 ∧ s.er.hasRoom = true := by
  simp only [State.canRaise, State.eventsOn, Bool.and_eq_true, Bool.not_eq_true', bne_iff_ne,
    and_assoc]

/-- The step of an event that is enabled, and of one that is not (log 11). -/
theorem raiseStep_apply (e : Trb) (s : State) : raiseStep e s =
    if isEventTrb s.cfg.tt e = true ∧ s.canRaise = true then raiseEvent e s else .ok ((), s) := by
  unfold raiseStep
  rw [Act.get_bind]
  cases isEventTrb s.cfg.tt e <;> cases s.canRaise <;> rfl

/-- Where the event's store is refused, so is the event. -/
theorem raiseEvent_refused {t : Trb} {s : State} {r : Refusal}
    (h : s.ctlRefusal s.eventAddr 16 = some r) : raiseEvent t s = .error r := by
  have hstore : ctlStoreTrb s.eventAddr (t.withCycle s.er.pcs) s = .error r := by
    unfold ctlStoreTrb
    rw [Act.get_bind, h]
    rfl
  unfold raiseEvent
  rw [Act.get_bind]
  exact Act.bind_error hstore

theorem raiseEvent_raised {t : Trb} {s : State} (h : s.eventAllowed) :
    raiseEvent t s = .ok ((), s.raised t) := raiseEvent_eq_ok.2 ⟨h, rfl⟩

/-- The controller stores nothing over freed memory (70_reset R432). -/
theorem State.ctlRefusal_of_freed {s : State} {a : Addr} {n : Nat}
    (h : ∃ b ∈ s.plat.freed, b.Overlaps a n) : s.ctlRefusal a n = some .freedMemory := by
  obtain ⟨b, hb, ho⟩ := h
  exact if_pos (List.any_eq_true.2 ⟨b, hb, Block.meets_iff.2 ho⟩)

/-- Any other refusal of a store of the controller's is for what the host owns (20_memory R96). -/
theorem State.ctlRefusal_of_not_freed {s : State} {a : Addr} {n : Nat}
    (hf : ∀ b ∈ s.plat.freed, ¬ b.Overlaps a n) (h : s.ctlRefusal a n ≠ none) :
    s.ctlRefusal a n = some .controllerWritesHostMemory := by
  unfold State.ctlRefusal at h ⊢
  rw [any_meets_eq_false.2 hf, if_neg Bool.false_ne_true] at h ⊢
  split
  · rfl
  · rename_i hc
    exact absurd (if_neg hc) h

theorem advance_eq (i : Nat) (c : Bool) (n : Nat) : advance i c n =
    (if i + 1 = n then 0 else i + 1, if i + 1 = n then !c else c) := by
  unfold advance
  split <;> rfl

theorem EvtProducer.advanced_eq (e : EvtProducer) : e.advanced = { e with
    enq := if e.enq + 1 = e.size then 0 else e.enq + 1
    pcs := if e.enq + 1 = e.size then !e.pcs else e.pcs } := by
  unfold EvtProducer.advanced
  rw [advance_eq]

theorem Trb.withCycle_eq (t : Trb) (c : Bool) : t.withCycle c = ⟨t.parameter, t.status,
    (t.control &&& ~~~1#32) ||| (if c = true then 1 else 0)⟩ := by
  cases c <;> rfl

/-- Settles O35: the step by what enables it, its store by who owns the slot. -/
theorem eventProduction : Obligations.EventProduction := by
  intro s e isEvent
  refine ⟨EvtProducer.hasRoom_iff, fun b => ?_, fun hoff => ?_, fun hev hh hs hroom => ?_⟩
  · rw [State.mem_hostBlocks, BlockKind.isHost_iff]
    rfl
  · refine Act.run_of_ok ((raiseStep_apply e s).trans (if_neg ?_))
    rw [isEventTrb_iff, State.canRaise_iff]
    rintro ⟨hev, hh, hs, hroom⟩
    rcases hoff with h | h | h | h
    · exact h hev
    · exact Bool.false_ne_true (hh.symm.trans h)
    · exact hs h
    · exact Bool.false_ne_true (h.symm.trans hroom)
  have hon : raiseStep e s = raiseEvent e s := (raiseStep_apply e s).trans
    (if_pos ⟨isEventTrb_iff.2 hev, State.canRaise_iff.2 ⟨hh, hs, hroom⟩⟩)
  have refused : ∀ r, s.ctlRefusal s.eventAddr 16 = some r →
      exec (.xhcRaiseEvent e) s = .refused r := fun r hr => by
    show (raiseStep e).run s = _
    unfold Act.run
    rw [hon, raiseEvent_refused hr]
  refine ⟨fun hallow => ?_, State.ctlRefusal_eq_none,
    fun hf => refused _ (State.ctlRefusal_of_freed hf),
    fun hf hn => refused _ (State.ctlRefusal_of_not_freed hf hn)⟩
  refine ⟨s.mem.writeTrb s.eventAddr (e.withCycle s.er.pcs), ?_, ?_,
    fun a ha => Memory.read_writeTrb_ne _ _ _ _ ha⟩
  · refine Act.run_of_ok (hon.trans ((raiseEvent_raised hallow).trans ?_))
    unfold State.raised
    rw [EvtProducer.advanced_eq]
  · rw [Memory.readTrb_writeTrb_same, Trb.withCycle_eq]

/-! ### The step of the command engine -/

/-- A command counts as retired by what it does to the engine past its TRB. -/
theorem consumeCommand_congr {s : State} {c : Bool} {m n : Act Completion}
    (h : m s.cmdPassed = n s.cmdPassed) : consumeCommand c m s = consumeCommand c n s := by
  have hretire : retireCommand m s = retireCommand n s := by
    unfold retireCommand
    rw [Act.get_bind, Act.get_bind, Act.set_bind, Act.set_bind, Act.bind_apply, Act.bind_apply, h]
  unfold consumeCommand
  rw [Act.get_bind, Act.get_bind]
  split_ifs
  · rfl
  · rfl
  · rfl
  · exact hretire

/-- What the engine does with a TRB, by what enables it (41_ring_protocol R204, R207, R213). -/
theorem consumeCommand_off {s : State} {c : Bool} {m : Act Completion}
    (h : s.op.hch = true ∨ s.cr.running = false ∨ s.cr.loaded = false) :
    consumeCommand c m s = .ok ((), s) := by
  have hoff : s.commandOn = false := by
    unfold State.commandOn
    rcases h with h | h | h <;> simp [h]
  unfold consumeCommand
  rw [Act.get_bind, hoff]
  rfl

section enabled

variable {s : State} {c : Bool} {m : Act Completion}

theorem State.commandOn_of (hh : s.op.hch = false) (hr : s.cr.running = true)
    (hl : s.cr.loaded = true) : s.commandOn = true := by
  unfold State.commandOn
  rw [hh, hr, hl]
  rfl

theorem consumeCommand_mismatch (hon : s.commandOn = true) (hc : c ≠ s.cr.ccs) :
    consumeCommand c m s = .ok ((), s.withCr { s.cr with running := false }) := by
  unfold consumeCommand
  rw [Act.get_bind, hon, if_neg (by simp), if_pos (bne_iff_ne.2 hc)]
  rfl

theorem consumeCommand_noRoom (hon : s.commandOn = true) (hc : c = s.cr.ccs)
    (hroom : s.er.hasRoom = false) : consumeCommand c m s = .ok ((), s) := by
  unfold consumeCommand
  rw [Act.get_bind, hon, if_neg (by simp), if_neg (by simp [hc]), hroom]
  rfl

end enabled

/-- What the engine executes for a command's row: its command, or the refusal of a type the spec does
not define (44_commands R320 to R327). -/
def commandOf : Instr → Act Completion
  | .cmdNoop _ => executeNoop
  | .cmdEnableSlot _ => executeEnableSlot
  | .cmdAddressDevice n ic _ => executeAddressDevice n ic
  | .cmdDisableSlot _ _ => refuse .disableSlotUnspecified
  | .cmdConfigureEndpoint _ _ _ => refuse .configureEndpointUnspecified
  | .cmdEvaluateContext _ _ _ => refuse .evaluateContextUnspecified
  | .cmdResetEndpoint _ _ _ => refuse .resetEndpointUnspecified
  | .cmdSetTrDequeue _ _ _ _ => refuse .setTrDequeueUnspecified
  | .cmdResetDevice _ _ => refuse .resetDeviceUnspecified
  | .cmdLink _ => refuse .linkOnCommandRing
  | _ => executeOther

theorem execute_ite {p : Prop} [Decidable p] {m n : Act Completion} {i j : Instr} {s : State}
    (hp : m s = commandOf i s) (hn : n s = commandOf j s) :
    (if p then m else n) s = commandOf (if p then i else j) s := by
  split
  · exact hp
  · exact hn

/-- The engine executes what the decoder reads, type by type. -/
theorem executeTrb_eq_commandOf (t : Trb) (s : State) :
    executeTrb t s = commandOf (decodeCmd s.cfg.tt t) s := by
  unfold executeTrb decodeCmd
  rw [Act.get_bind]
  exact execute_ite rfl <| execute_ite rfl <| execute_ite rfl <| execute_ite rfl <|
    execute_ite rfl <| execute_ite rfl <| execute_ite rfl <| execute_ite rfl <|
    execute_ite rfl <| execute_ite rfl rfl

/-- A row does what the engine does with a TRB that selects it. -/
def Instr.IsRow (s : State) (cycle : Bool) (i : Instr) : Prop :=
  exec i s = (consumeCommand cycle (commandOf i)).run s

theorem Instr.IsRow.ite {s : State} {c : Bool} {p : Prop} [Decidable p] {i j : Instr}
    (hi : IsRow s c i) (hj : IsRow s c j) : IsRow s c (if p then i else j) := by
  split
  · exact hi
  · exact hj

/-- A row that is refused is refused by the engine too. -/
theorem Instr.IsRow.refused {s : State} {c : Bool} (h : s.commandReady c) {i : Instr}
    {r : Refusal} (hc : commandOf i = refuse r) (he : exec i s = .refused r) : IsRow s c i := by
  unfold IsRow Act.run
  rw [he, hc, consumeCommand_error h (refuse_apply r s.cmdPassed)]

/-- The decoded row of a command does what the engine does with the TRB (30_encoding R135). -/
theorem exec_decodeCmd {s : State} {t : Trb} (h : s.commandReady t.cycle) :
    exec (decodeCmd s.cfg.tt t) s = (consumeCommand t.cycle (executeTrb t)).run s := by
  have hrow : Instr.IsRow s t.cycle (decodeCmd s.cfg.tt t) := by
    unfold decodeCmd
    exact .ite rfl <| .ite rfl <| .ite rfl <| .ite (.refused h rfl rfl) <|
      .ite (.refused h rfl rfl) <| .ite (.refused h rfl rfl) <| .ite (.refused h rfl rfl) <|
      .ite (.refused h rfl rfl) <| .ite (.refused h rfl rfl) <| .ite (.refused h rfl rfl) rfl
  have hsame : consumeCommand t.cycle (executeTrb t) s =
      consumeCommand t.cycle (commandOf (decodeCmd s.cfg.tt t)) s :=
    consumeCommand_congr (executeTrb_eq_commandOf t s.cmdPassed)
  refine Eq.trans hrow ?_
  unfold Act.run
  rw [hsame]

/-- Passing a command leaves what the controller may store as it was. -/
theorem State.ctlRefusal_cmdPassed (s : State) (a : Addr) (n : Nat) :
    s.cmdPassed.ctlRefusal a n = s.ctlRefusal a n := by
  obtain ⟨hhanded, hinstalled⟩ : s.cmdPassed.ledger.handed = s.ledger.handed ∧
      s.cmdPassed.ledger.installed = s.ledger.installed := by
    rw [State.ledger_cmdPassed]
    split <;> exact ⟨rfl, rfl⟩
  exact State.ctlRefusal_congr (s := s) (t := s.cmdPassed) rfl s.hostBlocks_cmdPassed
    hhanded hinstalled a n

/-- A No-Op is retired with success (44_commands R305). -/
theorem exec_cmdNoop_ready {s : State} {c : Bool} (h : s.commandReady c) :
    exec (.cmdNoop c) s = .next (s.completed s.cfg.cc.success 0) := by
  obtain ⟨-, -, -, -, -, hallow⟩ := id h
  exact Act.run_of_ok (consumeCommand_ok h (t := s.cmdPassed) rfl rfl
    ((s.ctlRefusal_cmdPassed _ _).trans hallow))

/-- The engine's step is the engine meeting the TRB at its index. -/
theorem exec_xhcCommandStep (s : State) : exec .xhcCommandStep s =
    (consumeCommand (s.mem.readTrb s.cr.fetchAddr).cycle
      (executeTrb (s.mem.readTrb s.cr.fetchAddr))).run s := by
  show commandStep.run s = _
  unfold commandStep Act.run
  rw [Act.get_bind]

/-- The command rows, and the step where the TRB stands at the index, are the engine meeting a TRB of
that cycle bit. -/
theorem exec_commandRow {s : State} {n : SlotId} {ic : Addr} {t : Trb} {i : Instr}
    (hi : i ∈ [Instr.cmdNoop t.cycle, .cmdEnableSlot t.cycle, .cmdAddressDevice n ic t.cycle,
      .cmdOther t] ++ (if t = s.mem.readTrb s.cr.fetchAddr then [.xhcCommandStep] else [])) :
    ∃ m, exec i s = (consumeCommand t.cycle m).run s := by
  rcases List.mem_append.1 hi with hi | hi
  · simp only [List.mem_cons, List.not_mem_nil, or_false] at hi
    rcases hi with rfl | rfl | rfl | rfl
    · exact ⟨executeNoop, rfl⟩
    · exact ⟨executeEnableSlot, rfl⟩
    · exact ⟨executeAddressDevice n ic, rfl⟩
    · exact ⟨executeOther, rfl⟩
  · split at hi
    · rename_i ht
      rw [List.mem_singleton.1 hi, ht]
      exact ⟨_, exec_xhcCommandStep s⟩
    · cases hi

/-- Settles O40: the step through the decoder, and every row by what enables the engine. -/
theorem commandEngineStep : Obligations.CommandEngineStep := by
  intro s n ic t head
  refine ⟨fun hready => ?_, fun i hi => ?_⟩
  · have hstep : exec .xhcCommandStep s = exec (decodeCmd s.cfg.tt head) s :=
      (exec_xhcCommandStep s).trans (exec_decodeCmd hready).symm
    refine ⟨hstep, fun hnoop => ?_⟩
    rw [hstep, decodeCmd, if_pos hnoop]
    exact exec_cmdNoop_ready hready
  · obtain ⟨m, hm⟩ := exec_commandRow hi
    rw [hm]
    refine ⟨fun hoff => Act.run_of_ok (consumeCommand_off hoff), fun hh hr hl => ?_⟩
    have hon := State.commandOn_of hh hr hl
    exact ⟨fun hc => Act.run_of_ok (consumeCommand_mismatch hon hc),
      fun hc hroom => Act.run_of_ok (consumeCommand_noRoom hon hc hroom)⟩

end Sys2Proof.Machine
end

section
/-! Proofs of the memory family (20_memory), the host's producer: posting a command, what it leaves
outstanding, and why its stores are refused. -/

namespace Sys2Proof.Machine

open Config

/-! ### Why the host may not store -/

theorem BlockKind.isController_iff {k : BlockKind} :
    k.isController = true ↔ k = .evtRing ∨ k = .devCtx := by
  cases k <;> decide

/-- The host stores nothing over memory it has freed (70_reset R432). -/
theorem State.hostRefusal_of_freed {s : State} {a : Addr} {n : Nat}
    (h : ∃ b ∈ s.plat.freed, b.Overlaps a n) : s.hostRefusal a n = some .freedMemory := by
  obtain ⟨b, hb, ho⟩ := h
  exact if_pos (List.any_eq_true.2 ⟨b, hb, Block.meets_iff.2 ho⟩)

/-- Nor over a structure the controller writes (60_exceptions R390). -/
theorem State.hostRefusal_of_owned {s : State} {a : Addr} {n : Nat}
    (hf : ¬ ∃ b ∈ s.plat.freed, b.Overlaps a n) (h : ∃ b ∈ s.ctlBlocks, b.Overlaps a n) :
    s.hostRefusal a n = some .hostWritesControllerMemory := by
  obtain ⟨b, hb, ho⟩ := h
  have hfree : s.plat.freed.any (·.meets a n) = false :=
    any_meets_eq_false.2 fun c hc hm => hf ⟨c, hc, hm⟩
  unfold State.hostRefusal
  rw [hfree, if_neg Bool.false_ne_true]
  exact if_pos (List.any_eq_true.2 ⟨b, hb, Block.meets_iff.2 ho⟩)

/-- Nor over what it has lent (70_reset R424). -/
theorem State.hostRefusal_of_lent {s : State} {a : Addr} {n : Nat}
    (hf : ¬ ∃ b ∈ s.plat.freed, b.Overlaps a n) (hc : ¬ ∃ b ∈ s.ctlBlocks, b.Overlaps a n)
    (h : s.Lent a n) : s.hostRefusal a n = some .handedOver := by
  have hfree : s.plat.freed.any (·.meets a n) = false :=
    any_meets_eq_false.2 fun c hc hm => hf ⟨c, hc, hm⟩
  have hctl : s.ctlBlocks.any (·.meets a n) = false :=
    any_meets_eq_false.2 fun c hc' hm => hc ⟨c, hc', hm⟩
  have hlent : (s.ledger.holds a n || s.entryHeld a n) = true := by
    rw [← Bool.not_eq_false, State.not_lent, not_not]
    exact h
  unfold State.hostRefusal
  rw [hfree, hctl, if_neg Bool.false_ne_true, if_neg Bool.false_ne_true, if_pos hlent]

/-- It may store anywhere else. -/
theorem State.hostRefusal_of_clear {s : State} {a : Addr} {n : Nat}
    (hf : ¬ ∃ b ∈ s.plat.freed, b.Overlaps a n) (hc : ¬ ∃ b ∈ s.ctlBlocks, b.Overlaps a n)
    (hl : ¬ s.Lent a n) : s.hostRefusal a n = none :=
  State.hostRefusal_eq_none.2
    ⟨fun b hb ho => hf ⟨b, hb, ho⟩, fun b hb ho => hc ⟨b, hb, ho⟩, hl⟩

/-! ### A TRB by its dwords -/

/-- The four dwords of a TRB at `a`. -/
def trbDwords (a : Addr) : List Addr := [a, a + 4, a + 8, a + 12]

/-- A dword of a TRB is part of it. -/
theorem byteAddr_of_mem_trbDwords {a d : Addr} (hd : d ∈ trbDwords a) {k : Nat} (hk : k < 4) :
    ∃ j < 16, byteAddr d k = byteAddr a j := by
  simp only [trbDwords, List.mem_cons, List.not_mem_nil, or_false] at hd
  rcases hd with rfl | rfl | rfl | rfl
  · exact ⟨k, by omega, rfl⟩
  · exact ⟨4 + k, by omega, byteAddr_add a 4 k⟩
  · exact ⟨8 + k, by omega, byteAddr_add a 8 k⟩
  · exact ⟨12 + k, by omega, byteAddr_add a 12 k⟩

/-- A region overlaps a TRB exactly where it overlaps one of its dwords. -/
theorem Region.overlaps_trb {r : Region} {a : Addr} :
    r.Overlaps a 16 ↔ ∃ d ∈ trbDwords a, r.Overlaps d 4 := by
  constructor
  · intro h
    rcases Region.overlaps_dword h with h | h | h | h
    · exact ⟨_, by simp [trbDwords], h⟩
    · exact ⟨_, by simp [trbDwords], h⟩
    · exact ⟨_, by simp [trbDwords], h⟩
    · exact ⟨_, by simp [trbDwords], h⟩
  · rintro ⟨d, hd, j, hj, k, hk, h⟩
    obtain ⟨i, hi, hdi⟩ := byteAddr_of_mem_trbDwords hd hk
    exact ⟨j, hj, i, hi, h.trans hdi⟩

theorem exists_overlaps_trb {l : List Block} {a : Addr} : (∃ b ∈ l, b.Overlaps a 16) ↔
    ∃ d ∈ trbDwords a, ∃ b ∈ l, b.Overlaps d 4 := by
  have hb : ∀ b : Block, b.Overlaps a 16 ↔ ∃ d ∈ trbDwords a, b.Overlaps d 4 := fun b =>
    Region.overlaps_trb (r := ⟨b.base, b.size, false⟩)
  simp only [hb]
  tauto

theorem State.lent_trb {s : State} {a : Addr} :
    s.Lent a 16 ↔ ∃ d ∈ trbDwords a, s.Lent d 4 := by
  simp only [State.Lent, Region.overlaps_trb (a := a)]
  constructor
  · rintro (⟨h, hh, r, hr, d, hd, ho⟩ | ⟨e, he, hs, d, hd, ho⟩)
    · exact ⟨d, hd, .inl ⟨h, hh, r, hr, ho⟩⟩
    · exact ⟨d, hd, .inr ⟨e, he, hs, ho⟩⟩
  · rintro ⟨d, hd, ⟨h, hh, r, hr, ho⟩ | ⟨e, he, hs, ho⟩⟩
    · exact .inl ⟨h, hh, r, hr, d, hd, ho⟩
    · exact .inr ⟨e, he, hs, d, hd, ho⟩

/-! ### A store that is refused -/

theorem hostStore32_refused {s : State} {a : Addr} {v : Dword} {r : Refusal}
    (h : s.hostRefusal a 4 = some r) : hostStore32 a v s = .error r := by
  unfold hostStore32
  rw [Act.get_bind, h]
  rfl

theorem hostPut32_refused {s : State} (hq : s.Quiet) (m : Memory) {a : Addr} {v : Dword}
    {r : Refusal} (h : s.hostRefusal a 4 = some r) :
    hostPut32 a v (s.withMem m) = .error r := by
  unfold hostPut32
  rw [Act.bind_ok (gap_quiet (s := s.withMem m) hq)]
  exact hostStore32_refused (s := s.withMem m) h

/-- The stores of a TRB end at the first dword that is refused: those before it change the memory
only, and so no later answer. -/
theorem storeTrb_refused {s : State} (hq : s.Quiet) {a : Addr} (t : Trb) (c : Bool) {r : Refusal}
    (hall : ∀ d ∈ trbDwords a, s.hostRefusal d 4 = none ∨ s.hostRefusal d 4 = some r)
    (hone : ∃ d ∈ trbDwords a, s.hostRefusal d 4 = some r) : storeTrb a t c s = .error r := by
  unfold storeTrb
  rcases hall a (by simp [trbDwords]) with h0 | h0
  swap
  · exact Act.bind_error (hostStore32_refused h0)
  rw [Act.bind_ok (hostStore32_eq_ok.2 ⟨h0, rfl⟩)]
  rcases hall (a + 4) (by simp [trbDwords]) with h4 | h4
  swap
  · exact Act.bind_error (hostPut32_refused hq _ h4)
  rw [Act.bind_ok (hostPut32_mem hq _ _ h4)]
  rcases hall (a + 8) (by simp [trbDwords]) with h8 | h8
  swap
  · exact Act.bind_error (hostPut32_refused hq _ h8)
  rw [Act.bind_ok (hostPut32_mem hq _ _ h8)]
  rcases hall (a + 12) (by simp [trbDwords]) with h12 | h12
  swap
  · exact Act.bind_error (hostPut32_refused hq _ h12)
  obtain ⟨d, hd, hr⟩ := hone
  simp only [trbDwords, List.mem_cons, List.not_mem_nil, or_false] at hd
  have clear : ∀ d, s.hostRefusal d 4 = none → s.hostRefusal d 4 ≠ some r := fun d h => by simp [h]
  rcases hd with rfl | rfl | rfl | rfl
  · exact absurd hr (clear _ h0)
  · exact absurd hr (clear _ h4)
  · exact absurd hr (clear _ h8)
  · exact absurd hr (clear _ h12)

/-! ### What is outstanding -/

/-- The place after `x` over a ring's two passes of `n` slots each (41_ring_protocol R191). -/
def nextPlace (x n : Nat) : Nat := if x + 1 = 2 * n then 0 else x + 1

theorem ringPlace_advance {i : Nat} {c : Bool} {n : Nat} (h : i < n) :
    ringPlace (advance i c n).1 (advance i c n).2 n = nextPlace (ringPlace i c n) n := by
  rw [advance_eq]
  unfold ringPlace nextPlace
  by_cases hw : i + 1 = n
  · cases c <;> simp only [hw, if_true, Bool.not_true, Bool.not_false, Bool.false_eq_true,
      if_false] <;> split_ifs <;> omega
  · cases c <;> simp only [hw, if_true, Bool.false_eq_true, if_false] <;> split_ifs <;> omega

theorem ringPlace_lt {i : Nat} {c : Bool} {n : Nat} (h : i < n) : ringPlace i c n < 2 * n := by
  unfold ringPlace
  split <;> omega

/-- A remainder of less than two periods. -/
theorem mod_eq_ite_sub {x m : Nat} (h : x < 2 * m) : x % m = if x < m then x else x - m := by
  split
  · exact Nat.mod_eq_of_lt ‹_›
  · rw [Nat.mod_eq_sub_mod (by omega), Nat.mod_eq_of_lt (by omega)]

/-- A remainder that is not 0 is one more than its predecessor's. -/
theorem mod_eq_succ_mod_sub {z m : Nat} (hm : 0 < m) (h : (z + 1) % m ≠ 0) :
    z % m = (z + 1) % m - 1 := by
  have hlt := Nat.mod_lt (z + 1) hm
  have hz : z = m * ((z + 1) / m) + ((z + 1) % m - 1) := by
    have := Nat.div_add_mod (z + 1) m
    omega
  calc z % m = (m * ((z + 1) / m) + ((z + 1) % m - 1)) % m := congrArg (· % m) hz
    _ = (z + 1) % m - 1 := by
      rw [Nat.mul_add_mod, Nat.mod_eq_of_lt (by omega)]

/-- The distance from `y` to `x` grows by one with `x`, where less than a pass lies between. -/
theorem distance_nextPlace {x y n : Nat} (hx : x < 2 * n) (hy : y < 2 * n)
    (h : (x + 2 * n - y) % (2 * n) < n) :
    (nextPlace x n + 2 * n - y) % (2 * n) = (x + 2 * n - y) % (2 * n) + 1 := by
  have hnext : nextPlace x n < 2 * n := by
    unfold nextPlace
    split <;> omega
  rw [mod_eq_ite_sub (by omega)] at h ⊢
  rw [mod_eq_ite_sub (by omega)]
  unfold nextPlace
  split_ifs at h ⊢ <;> omega

/-- It shrinks by one with `y`, where it is not 0. -/
theorem distance_of_nextPlace {x y n : Nat} (hy : y < 2 * n) (h : (x + 2 * n - y) % (2 * n) ≠ 0) :
    (x + 2 * n - nextPlace y n) % (2 * n) = (x + 2 * n - y) % (2 * n) - 1 := by
  unfold nextPlace
  split
  · rw [show x + 2 * n - y = x + 1 by omega] at h ⊢
    rw [Nat.sub_zero, Nat.add_mod_right]
    exact mod_eq_succ_mod_sub (by omega) h
  · rw [show x + 2 * n - y = x + 2 * n - (y + 1) + 1 by omega] at h ⊢
    exact mod_eq_succ_mod_sub (by omega) h

/-- A TRB posted is one more outstanding, on a ring that is not full (41_ring_protocol R199). -/
theorem Ring.outstanding_enqAdvanced {r : Ring} {p : RingPos} (he : r.enq < r.size)
    (hp : p.idx < r.size) (hroom : r.outstanding p < r.size) :
    r.enqAdvanced.outstanding p = r.outstanding p + 1 := by
  unfold Ring.outstanding Ring.enqAdvanced at *
  dsimp only
  rw [ringPlace_advance he]
  exact distance_nextPlace (ringPlace_lt he) (ringPlace_lt hp) hroom

/-- A TRB taken is one less (41_ring_protocol R206). -/
theorem Ring.outstanding_advance {r : Ring} {i : Nat} {c : Bool} (hi : i < r.size)
    (h : r.outstanding ⟨i, c⟩ ≠ 0) :
    r.outstanding ⟨(advance i c r.size).1, (advance i c r.size).2⟩ = r.outstanding ⟨i, c⟩ - 1 := by
  unfold Ring.outstanding at *
  dsimp only at *
  rw [ringPlace_advance hi]
  exact distance_of_nextPlace (ringPlace_lt hi) h

/-! ### Posting a command -/

@[simp] theorem State.mem_rungCommand (s : State) : s.rungCommand.mem = s.mem := by
  unfold State.rungCommand
  dsimp only
  split <;> rfl

@[simp] theorem State.ledger_rungCommand (s : State) : s.rungCommand.ledger = s.ledger := by
  unfold State.rungCommand
  dsimp only
  split <;> rfl

@[simp] theorem State.cmd_rungCommand (s : State) : s.rungCommand.host.cmd = s.host.cmd := by
  unfold State.rungCommand
  dsimp only
  split <;> rfl

/-- The doorbell wakes the engine of a running controller (41_ring_protocol R201). -/
theorem State.running_rungCommand (s : State) :
    s.rungCommand.cr.running = (s.cr.running || !s.op.hch) := by
  unfold State.rungCommand
  dsimp only
  split
  · rename_i h
    rw [h]
    simp [State.onBus]
  · rename_i h
    simp [h]

theorem State.mem_posted (s : State) (t : Trb) : (s.posted t).mem =
    s.mem.storedTrb (ringAddr s.host.cmd.base s.host.cmd.enq) t s.host.cmd.cycle :=
  State.mem_rungCommand _

theorem State.cmd_posted (s : State) (t : Trb) :
    (s.posted t).host.cmd = s.host.cmd.enqAdvanced := State.cmd_rungCommand _

theorem State.cmdPos_posted (s : State) (t : Trb) :
    (s.posted t).ledger.cmdPos = s.ledger.cmdPos := by
  unfold State.posted
  rw [State.ledger_rungCommand]
  rfl

theorem State.running_posted (s : State) (t : Trb) :
    (s.posted t).cr.running = (s.cr.running || !s.op.hch) := State.running_rungCommand _

theorem State.cmdRingFull_iff {s : State} :
    s.cmdRingFull = true ↔ s.host.cmd.size ≤ s.cmdOutstanding := decide_eq_true_iff

theorem storedControl_eq (v : Dword) (c : Bool) :
    storedControl v c = v ||| (if c = true then 1 else 0) := by
  cases c <;> rfl

theorem Ring.enqAdvanced_eq (r : Ring) : r.enqAdvanced = { r with
    enq := if r.enq + 1 = r.size then 0 else r.enq + 1
    cycle := if r.enq + 1 = r.size then !r.cycle else r.cycle } := by
  unfold Ring.enqAdvanced advance
  split <;> rfl

/-- The Enable Slot TRB is its type and nothing else (30_encoding R105). -/
theorem enableSlotTrb_eq (c : TypeCodes) :
    enableSlotTrb c = ⟨0, 0, c.enableSlot.setWidth 32 <<< 10⟩ := by
  unfold enableSlotTrb commandControl bit1
  congr 1
  apply BitVec.eq_of_getLsbD_eq
  intro i hi
  simp only [BitVec.getLsbD_append, BitVec.getLsbD_shiftLeft, BitVec.getLsbD_setWidth]
  interval_cases i <;> simp

/-- What the engine retires is one command less outstanding, where it runs on the host's ring
(41_ring_protocol R206; log 17). -/
theorem State.cmdOutstanding_cmdPassed {s : State} (hsize : s.host.cmd.size = cmdRingSize)
    (hbase : s.cr.ringBase = s.host.cmd.base) (hpos : s.ledger.cmdPos = s.cr.pos)
    (hdeq : s.cr.deq < cmdRingSize) (h0 : s.cmdOutstanding ≠ 0) :
    s.cmdPassed.cmdOutstanding = s.cmdOutstanding - 1 := by
  have hmoved : s.cmdPassed.ledger.cmdPos = s.cr.advanced.pos := by
    rw [State.ledger_cmdPassed, if_pos hbase]
    exact if_pos hpos
  unfold State.cmdOutstanding at h0 ⊢
  rw [hpos] at h0 ⊢
  rw [hmoved, State.host_cmdPassed]
  have e := Ring.outstanding_advance (r := s.host.cmd) (c := s.cr.ccs) (hsize ▸ hdeq) h0
  rw [hsize] at e
  exact e

/-! ### A post that is refused -/

theorem postCommand_notAllocated {s : State} {t : Trb} (h : s.host.cmd.size = 0) :
    postCommand t s = .error .ringNotAllocated := by
  have hreq : require (s.host.cmd.size != 0) .ringNotAllocated s = .error .ringNotAllocated := by
    rw [h]
    rfl
  unfold postCommand enqueueOn
  rw [Act.get_bind]
  exact Act.bind_error (Act.bind_error hreq)

theorem enqueueOn_allocated {s : State} (hq : s.Quiet) {r : Ring} (full : State → Bool) (t : Trb)
    (hs : r.size ≠ 0) : enqueueOn r full t s =
      (require (!full s) .ringOverrun >>= fun _ =>
        storeTrb (ringAddr r.base r.enq) t r.cycle) s := by
  unfold enqueueOn
  rw [Act.bind_ok (require_eq_ok.2 ⟨bne_iff_ne.2 hs, rfl⟩), Act.bind_ok (gap_quiet hq),
    Act.get_bind]

theorem postCommand_overrun {s : State} (hq : s.Quiet) {t : Trb} (hs : s.host.cmd.size ≠ 0)
    (hf : s.cmdRingFull = true) : postCommand t s = .error .ringOverrun := by
  have he : enqueueOn s.host.cmd State.cmdRingFull t s = .error .ringOverrun := by
    rw [enqueueOn_allocated hq _ _ hs, hf]
    rfl
  unfold postCommand
  rw [Act.get_bind]
  exact Act.bind_error he

/-- A post whose stores are all refused for one reason, or allowed. -/
theorem postCommand_refused {s : State} (hq : s.Quiet) {t : Trb} (hs : s.host.cmd.size ≠ 0)
    (hf : s.cmdRingFull = false) {r : Refusal}
    (hall : ∀ d ∈ trbDwords (ringAddr s.host.cmd.base s.host.cmd.enq),
      s.hostRefusal d 4 = none ∨ s.hostRefusal d 4 = some r)
    (hone : ∃ d ∈ trbDwords (ringAddr s.host.cmd.base s.host.cmd.enq),
      s.hostRefusal d 4 = some r) : postCommand t s = .error r := by
  have he : enqueueOn s.host.cmd State.cmdRingFull t s = .error r := by
    rw [enqueueOn_allocated hq _ _ hs, hf]
    exact storeTrb_refused hq t _ hall hone
  unfold postCommand
  rw [Act.get_bind]
  exact Act.bind_error he

theorem exec_postCommand_error {s : State} {t : Trb} {r : Refusal}
    (h : postCommand t s = .error r) : exec (.postCommand t) s = .refused r := by
  show (answering _ (postCommand t)).run s = _
  unfold Act.run answering
  rw [Act.bind_error h]

theorem exec_postCommand_quiet {s : State} (hq : s.Quiet) (h : s.mayPost) (t : Trb) :
    exec (.postCommand t) s = .next ((s.posted t).withResult .success) :=
  Act.run_of_ok (answering_ok (postCommand_quiet hq h t))

/-- Enable Slot is a post of its TRB (44_commands R306). -/
theorem exec_enableSlot_eq (s : State) :
    exec .enableSlot s = exec (.postCommand (enableSlotTrb s.cfg.tt)) s := by
  have hpost : enableSlot s = postCommand (enableSlotTrb s.cfg.tt) s := Act.get_bind _ s
  show (answering _ enableSlot).run s = (answering _ (postCommand _)).run s
  unfold Act.run answering
  rw [Act.bind_apply, hpost, ← Act.bind_apply]

/-- A post is refused for `r` where some of its dwords meet what `r` guards against, and the others
meet nothing. -/
theorem exec_postCommand_refused {s : State} (hq : s.Quiet) {t : Trb} (hs : s.host.cmd.size ≠ 0)
    (hf : s.cmdRingFull = false) {r : Refusal} {p : Addr → Prop}
    (hmet : ∀ d ∈ trbDwords (ringAddr s.host.cmd.base s.host.cmd.enq),
      p d → s.hostRefusal d 4 = some r)
    (hclear : ∀ d ∈ trbDwords (ringAddr s.host.cmd.base s.host.cmd.enq),
      ¬ p d → s.hostRefusal d 4 = none)
    (hone : ∃ d ∈ trbDwords (ringAddr s.host.cmd.base s.host.cmd.enq), p d) :
    exec (.postCommand t) s = .refused r := by
  obtain ⟨d, hd, hp⟩ := hone
  refine exec_postCommand_error (postCommand_refused hq hs hf (fun d hd => ?_)
    ⟨d, hd, hmet d hd hp⟩)
  by_cases hp : p d
  · exact .inr (hmet d hd hp)
  · exact .inl (hclear d hd hp)

/-- Settles O50: a post that is made, a command retired, and each reason a post is refused for. -/
theorem postCommand_spec : Obligations.PostCommand := by
  intro s t a owned lent freed
  have hmem : ∀ k, (∀ j < 16, k ≠ byteAddr a j) → (s.posted t).mem.read k = s.mem.read k := by
    intro k hk
    rw [State.mem_posted]
    exact Memory.read_storedTrb_ne _ _ _ _ _ hk
  refine ⟨fun b => ?_, fun hq hpost => ?_, fun hsize hbase hpos hdeq h0 => ?_,
    fun h => exec_postCommand_error (postCommand_notAllocated h), fun hq hs => ?_⟩
  · rw [State.mem_ctlBlocks, BlockKind.isController_iff]
    simp only [State.isAddressed, beq_iff_eq]
  · refine ⟨exec_postCommand_quiet hq hpost t, ?_, ?_, hmem, ?_, fun he hp => ?_,
      s.running_posted t⟩
    · rw [exec_enableSlot_eq, enableSlotTrb_eq]
      exact exec_postCommand_quiet hq hpost _
    · rw [State.mem_posted, ← storedControl_eq]
      exact Memory.readTrb_storedTrb _ _ _ _
    · rw [State.cmd_posted, Ring.enqAdvanced_eq]
    · obtain ⟨-, hfull, -⟩ := hpost
      unfold State.cmdOutstanding
      rw [State.cmd_posted, State.cmdPos_posted]
      refine Ring.outstanding_enqAdvanced he hp (Nat.lt_of_not_le fun hle => ?_)
      exact Bool.false_ne_true (hfull.symm.trans (State.cmdRingFull_iff.2 hle))
  · exact State.cmdOutstanding_cmdPassed hsize hbase hpos hdeq h0
  · refine ⟨fun hfull => exec_postCommand_error (postCommand_overrun hq hs
      (State.cmdRingFull_iff.2 hfull)), fun hroom => ?_⟩
    have hnot : s.cmdRingFull = false := by
      rw [← Bool.not_eq_true, State.cmdRingFull_iff]
      exact Nat.not_le.2 hroom
    have hfreed : freed 16 ↔ ∃ d ∈ trbDwords a, ∃ b ∈ s.plat.freed, b.Overlaps d 4 :=
      exists_overlaps_trb
    have howned : owned 16 ↔ ∃ d ∈ trbDwords a, ∃ b ∈ s.ctlBlocks, b.Overlaps d 4 :=
      exists_overlaps_trb
    have hlent : lent 16 ↔ ∃ d ∈ trbDwords a, s.Lent d 4 := State.lent_trb
    rw [hfreed, howned, hlent]
    push Not
    refine ⟨fun hf ho hl => ?_, fun ho hl hf => ?_, fun hl ho hf => ?_⟩
    · exact exec_postCommand_refused hq hs hnot (fun d _ => State.hostRefusal_of_freed)
        (fun d hd hd' => State.hostRefusal_of_clear hd' (by simpa using ho d hd) (hl d hd)) hf
    · exact exec_postCommand_refused hq hs hnot
        (fun d hd => State.hostRefusal_of_owned (by simpa using hf d hd))
        (fun d hd hd' => State.hostRefusal_of_clear (by simpa using hf d hd) hd' (hl d hd)) ho
    · exact exec_postCommand_refused hq hs hnot
        (fun d hd => State.hostRefusal_of_lent (by simpa using hf d hd) (by simpa using ho d hd))
        (fun d hd => State.hostRefusal_of_clear (by simpa using hf d hd)
          (by simpa using ho d hd)) hl

end Sys2Proof.Machine
end

section
/-! Proofs of the memory family (20_memory), the input context: which bytes the host changes, what
the three contexts then hold, and why the stores are refused. -/

namespace Sys2Proof.Machine

open Config

/-! ### Dwords of a block of memory -/

theorem getD_readBytes (m : Memory) (a : Addr) {n k : Nat} (h : k < n) :
    (m.readBytes a n).getD k 0 = m.read (byteAddr a k) := by
  rw [List.getD_eq_getElem?_getD, Memory.getElem?_readBytes m a h]
  rfl

/-- A dword of a block is the dword of memory there. -/
theorem dwordAt_readBytes (m : Memory) (a : Addr) {n k : Nat} (h : k + 4 ≤ n) :
    dwordAt (m.readBytes a n) k = m.read32 (a + BitVec.ofNat 64 k) := by
  unfold dwordAt Memory.read32
  simp only [byteAddr_add]
  rw [getD_readBytes m a (by omega), getD_readBytes m a (by omega), getD_readBytes m a (by omega),
    getD_readBytes m a (by omega)]
  rfl

theorem dwordAt_drop (bs : List Byte) (i j : Nat) :
    dwordAt (bs.drop i) j = dwordAt bs (i + j) := by
  unfold dwordAt
  simp only [List.getD_eq_getElem?_getD, List.getElem?_drop, Nat.add_assoc]

theorem dwordAt_take (bs : List Byte) {w j : Nat} (h : j + 4 ≤ w) :
    dwordAt (bs.take w) j = dwordAt bs j := by
  unfold dwordAt
  simp only [List.getD_eq_getElem?_getD]
  rw [List.getElem?_take_of_lt (by omega), List.getElem?_take_of_lt (by omega),
    List.getElem?_take_of_lt (by omega), List.getElem?_take_of_lt (by omega)]

/-! ### Dwords changed in order -/

/-- What some changes, made in order, leave in the dword at offset `o`. -/
def dwordAfter (o : Nat) : List (Nat × (Dword → Dword)) → Dword → Dword
  | [], d => d
  | u :: r, d => dwordAfter o r (if u.1 = o then u.2 d else d)

theorem dwordAfter_append (o : Nat) (l r : List (Nat × (Dword → Dword))) (d : Dword) :
    dwordAfter o (l ++ r) d = dwordAfter o r (dwordAfter o l d) := by
  induction l generalizing d with
  | nil => rfl
  | cons u l ih => exact ih _

/-- Changes elsewhere leave the dword alone. -/
theorem dwordAfter_of_ne {o : Nat} {l : List (Nat × (Dword → Dword))} (d : Dword)
    (h : ∀ u ∈ l, u.1 ≠ o) : dwordAfter o l d = d := by
  induction l generalizing d with
  | nil => rfl
  | cons u r ih =>
    rw [dwordAfter, if_neg (h u (by simp))]
    exact ih d fun v hv => h v (by simp [hv])

/-- The dwords of a block of `N` bytes after changes, each of which is of the same dword or of none
of its bytes. -/
theorem Memory.read32_updated (l : List (Nat × (Dword → Dword))) (m : Memory) (a : Addr)
    {o N : Nat} (hN : N ≤ 2 ^ 64) (ho : o + 4 ≤ N)
    (h : ∀ u ∈ l, u.1 + 4 ≤ N ∧ (u.1 = o ∨ u.1 + 4 ≤ o ∨ o + 4 ≤ u.1)) :
    (m.updated a l).read32 (a + BitVec.ofNat 64 o) =
      dwordAfter o l (m.read32 (a + BitVec.ofNat 64 o)) := by
  induction l generalizing m with
  | nil => rfl
  | cons u r ih =>
    obtain ⟨hu, hsame | hapart⟩ := h u (by simp)
    all_goals rw [Memory.updated, ih _ fun v hv => h v (by simp [hv]), dwordAfter]
    · rw [if_pos hsame, hsame, Memory.read32_write32_same]
    · rw [if_neg (by omega), Memory.read32_write32_ne]
      intro j hj k hk e
      rw [byteAddr_add, byteAddr_add] at e
      have := byteAddr_inj a (by omega) (by omega) e
      omega

/-! ### The changes, context by context -/

/-- A field set, by the dword it stands in. -/
def setField (f : CtxField) (v : Dword) : Nat × (Dword → Dword) := (f.dword, fun d => f.write d v)

/-- The changes the host makes in context `k` of an input context, by dword (44_commands R311). -/
def contextUpdates (l : CtxLayout) (d : Dev) (r : Ring) (packet : Dword) :
    Nat → List (Nat × (Dword → Dword))
  | 0 => [setField l.drop 0, setField l.addSlot 1, setField l.addEp0 1]
  | 1 => [setField l.route 0, setField l.speed (d.speed.setWidth 32), setField l.endpointCount 1,
      setField l.rootPort (d.port.setWidth 32)]
  | _ =>
    let p : Qword := r.base ||| (if r.cycle then 1#64 <<< l.dcsBit else 0)
    [(l.trDequeue, fun _ => lo32 p), (l.trDequeue + 1, fun _ => hi32 p),
      setField l.epType l.control, setField l.maxPacket packet]

/-- Changes by dword, placed in context `k` of contexts of `c` bytes each. -/
def placed (c k : Nat) (l : List (Nat × (Dword → Dword))) : List (Nat × (Dword → Dword)) :=
  l.map fun u => (k * c + 4 * u.1, u.2)

theorem inputUpdates_eq (l : CtxLayout) (c : Nat) (d : Dev) (r : Ring) (packet : Dword) :
    inputUpdates l c d r packet = placed c 0 (contextUpdates l d r packet 0) ++
      placed c 1 (contextUpdates l d r packet 1) ++
      placed c 2 (contextUpdates l d r packet 2) := rfl

/-- Every change lies in its context. -/
theorem contextUpdates_fit {l : CtxLayout} {c : Nat} (hf : l.Fits c) (d : Dev) (r : Ring)
    (packet : Dword) (k : Nat) : ∀ u ∈ contextUpdates l d r packet k, 4 * u.1 + 4 ≤ c := by
  obtain ⟨hfields, hdeq⟩ := hf
  unfold InContext at hfields hdeq
  simp only [List.forall_mem_cons] at hfields
  obtain ⟨hdrop, haddSlot, haddEp0, hroute, hspeed, hcount, hport, -, -, -, htype, hpacket, -⟩ :=
    hfields
  match k with
  | 0 =>
    simp only [contextUpdates, setField, List.forall_mem_cons]
    exact ⟨hdrop, haddSlot, haddEp0, by simp⟩
  | 1 =>
    simp only [contextUpdates, setField, List.forall_mem_cons]
    exact ⟨hroute, hspeed, hcount, hport, by simp⟩
  | k + 2 =>
    simp only [contextUpdates, setField, List.forall_mem_cons]
    exact ⟨by omega, hdeq, htype, hpacket, by simp⟩

/-- A change of the contexts is a change of one of them. -/
theorem mem_inputUpdates {l : CtxLayout} {c : Nat} {d : Dev} {r : Ring} {packet : Dword}
    {u : Nat × (Dword → Dword)} (h : u ∈ inputUpdates l c d r packet) :
    ∃ k < 3, ∃ v ∈ contextUpdates l d r packet k, u.1 = k * c + 4 * v.1 := by
  rw [inputUpdates_eq, List.mem_append, List.mem_append] at h
  have inside : ∀ k < 3, u ∈ placed c k (contextUpdates l d r packet k) →
      ∃ k < 3, ∃ v ∈ contextUpdates l d r packet k, u.1 = k * c + 4 * v.1 := by
    intro k hk hu
    obtain ⟨v, hv, rfl⟩ := List.mem_map.1 hu
    exact ⟨k, hk, v, hv, rfl⟩
  rcases h with (h | h) | h
  · exact inside 0 (by omega) h
  · exact inside 1 (by omega) h
  · exact inside 2 (by omega) h

/-- Dwords of contexts of `c` bytes: in one context they are the same or apart, in two apart. -/
theorem context_dwords_apart {c k i q j : Nat} (hi : 4 * i + 4 ≤ c) (hj : 4 * j + 4 ≤ c)
    (hk : k < 3) (hq : q < 3) : k = q ∧ i = j ∨
      k * c + 4 * i + 4 ≤ q * c + 4 * j ∨ q * c + 4 * j + 4 ≤ k * c + 4 * i := by
  interval_cases k <;> interval_cases q <;> omega

/-- The changes of a context, at its own dwords. -/
theorem dwordAfter_placed_same (c k j : Nat) (l : List (Nat × (Dword → Dword))) (d : Dword) :
    dwordAfter (k * c + 4 * j) (placed c k l) d = dwordAfter j l d := by
  induction l generalizing d with
  | nil => rfl
  | cons u r ih =>
    have hiff : k * c + 4 * u.1 = k * c + 4 * j ↔ u.1 = j := by omega
    show dwordAfter _ (placed c k r) (if k * c + 4 * u.1 = k * c + 4 * j then u.2 d else d) =
      dwordAfter j r (if u.1 = j then u.2 d else d)
    rw [ih]
    simp only [hiff]

/-- The changes of another context leave a dword alone. -/
theorem dwordAfter_placed_ne {c k q j : Nat} {l : List (Nat × (Dword → Dword))} (d : Dword)
    (hl : ∀ u ∈ l, 4 * u.1 + 4 ≤ c) (hj : 4 * j + 4 ≤ c) (hk : k < 3) (hq : q < 3) (hkq : q ≠ k) :
    dwordAfter (k * c + 4 * j) (placed c q l) d = d := by
  refine dwordAfter_of_ne d fun u hu => ?_
  obtain ⟨v, hv, rfl⟩ := List.mem_map.1 hu
  have := context_dwords_apart (hl v hv) hj hq hk
  show q * c + 4 * v.1 ≠ k * c + 4 * j
  omega

/-- What filling leaves in a dword of context `k`: the changes of that context, in order. -/
theorem dwordAfter_inputUpdates {l : CtxLayout} {c : Nat} (hf : l.Fits c) (d : Dev) (r : Ring)
    (packet : Dword) {k j : Nat} (hk : k < 3) (hj : 4 * j + 4 ≤ c) (x : Dword) :
    dwordAfter (k * c + 4 * j) (inputUpdates l c d r packet) x =
      dwordAfter j (contextUpdates l d r packet k) x := by
  have other : ∀ q < 3, q ≠ k → ∀ y, dwordAfter (k * c + 4 * j)
      (placed c q (contextUpdates l d r packet q)) y = y := fun q hq hkq y =>
    dwordAfter_placed_ne y (contextUpdates_fit hf d r packet q) hj hk hq hkq
  rw [inputUpdates_eq, dwordAfter_append, dwordAfter_append]
  match k, hk with
  | 0, _ => rw [other 2 (by omega) (by omega), other 1 (by omega) (by omega),
      dwordAfter_placed_same]
  | 1, _ => rw [other 2 (by omega) (by omega), other 0 (by omega) (by omega),
      dwordAfter_placed_same]
  | 2, _ => rw [other 0 (by omega) (by omega), other 1 (by omega) (by omega),
      dwordAfter_placed_same]

/-- A dword of context `k` in the filled block. -/
theorem dwordAt_filled (m : Memory) (ic : Addr) {l : CtxLayout} {c : Nat} (hf : l.Fits c)
    (hc : 3 * c ≤ 2 ^ 64) (d : Dev) (r : Ring) (packet : Dword) {k j : Nat} (hk : k < 3)
    (hj : 4 * j + 4 ≤ c) :
    dwordAt ((m.updated ic (inputUpdates l c d r packet)).readBytes ic (3 * c)) (k * c + 4 * j) =
      dwordAfter j (contextUpdates l d r packet k)
        (m.read32 (ic + BitVec.ofNat 64 (k * c + 4 * j))) := by
  have inside : ∀ {q i : Nat}, q < 3 → 4 * i + 4 ≤ c → q * c + 4 * i + 4 ≤ 3 * c := by
    intro q i hq hi
    interval_cases q <;> omega
  rw [dwordAt_readBytes _ _ (inside hk hj),
    Memory.read32_updated _ m ic hc (inside hk hj), dwordAfter_inputUpdates hf d r packet hk hj]
  intro u hu
  obtain ⟨q, hq, v, hv, he⟩ := mem_inputUpdates hu
  have hvc := contextUpdates_fit hf d r packet q v hv
  have hin := inside hq hvc
  refine ⟨by omega, ?_⟩
  rcases context_dwords_apart hvc hj hq hk with ⟨rfl, h⟩ | h | h
  · exact .inl (by rw [he, h])
  · exact .inr (.inl (by omega))
  · exact .inr (.inr (by omega))

/-- Filling changes no byte outside the three contexts. -/
theorem read_filled_ne (m : Memory) (ic : Addr) {l : CtxLayout} {c : Nat} (hf : l.Fits c) (d : Dev)
    (r : Ring) (packet : Dword) {b : Nat} (hb : ∀ k < 3 * c, b ≠ byteAddr ic k) :
    (m.updated ic (inputUpdates l c d r packet)).read b = m.read b := by
  refine Memory.read_updated_ne _ _ _ _ fun u hu j hj => hb _ ?_
  obtain ⟨q, hq, v, hv, he⟩ := mem_inputUpdates hu
  have hvc := contextUpdates_fit hf d r packet q v hv
  rw [he]
  interval_cases q <;> omega

/-! ### The filled fields -/

/-- A value of a field's width is the field's value. -/
theorem setWidth_and_lowOnes {w : Nat} (x : BitVec w) :
    x.setWidth 32 &&& lowOnes w = x.setWidth 32 := by
  apply BitVec.eq_of_getLsbD_eq
  intro i hi
  rw [BitVec.getLsbD_and, getLsbD_lowOnes w i hi, BitVec.getLsbD_setWidth]
  by_cases h : i < w
  · simp [h]
  · simp [BitVec.getLsbD_of_ge x i (by omega)]

/-- A written value that fits its field reads back. -/
theorem CtxField.read_write_value (f : CtxField) {d : Dword} (v : Dword)
    (hf : f.lo + f.width ≤ 32) (hv : v &&& lowOnes f.width = v) : f.read (f.write d v) = v :=
  (CtxField.read_write_same f d v hf).trans hv

/-- A ring pointer with its cycle state in bit 0, taken apart again. -/
theorem ring_pointer_parts {b : Addr} (c : Bool) (h : b.getLsbD 0 = false) :
    (b ||| (if c then 1#64 <<< 0 else 0)) &&& ~~~(1#64 <<< 0) = b ∧
      (b ||| (if c then 1#64 <<< 0 else 0)).getLsbD 0 = c := by
  have hlow : b.extractLsb' 0 1 = 0#1 := by
    apply BitVec.eq_of_getLsbD_eq
    intro i hi
    obtain rfl : i = 0 := by omega
    rw [BitVec.getLsbD_extractLsb', Nat.zero_add, h]
    rfl
  have hclear : (if c then 1#64 <<< 0 else 0) &&& ~~~(1#64 <<< 0) = 0#64 := by
    cases c <;> rfl
  constructor
  · rw [BitVec.and_comm, BitVec.and_or_distrib_left, BitVec.and_comm (~~~ _) (ite _ _ _), hclear,
      BitVec.or_zero, BitVec.and_comm]
    exact and_not_low 1 b (by norm_num) hlow
  · rw [BitVec.getLsbD_or, h]
    cases c <;> rfl

theorem ctxLayout_fits {c : Nat} (hc : 32 ≤ c) : ctxLayout.Fits c := by
  refine ⟨?_, ?_⟩
  · simp only [ctxLayout, InContext, List.forall_mem_cons]
    simp
    omega
  · simp only [ctxLayout, InContext]
    omega

/-- The fields of the three contexts once they are filled in at the layout of 93 G9 (44_commands
R311). -/
theorem fields_filled (m : Memory) (ic : Addr) {c : Nat} (hc : 32 ≤ c) (hc3 : 3 * c ≤ 2 ^ 64)
    (d : Dev) (r : Ring) (packet : Dword) (hr : r.base.getLsbD 0 = false) :
    let l := ctxLayout
    let bs := (m.updated ic (inputUpdates l c d r packet)).readBytes ic (3 * c)
    let slot := (bs.drop c).take c
    let ep := bs.drop (2 * c)
    ctxGet bs l.drop = 0 ∧ ctxGet bs l.addSlot = 1 ∧ ctxGet bs l.addEp0 = 1 ∧
    ctxGet slot l.route = 0 ∧ ctxGet slot l.speed = d.speed.setWidth 32 ∧
    ctxGet slot l.endpointCount = 1 ∧ ctxGet slot l.rootPort = d.port.setWidth 32 ∧
    ctxRingPointer l ep = r.base ∧ (ctxDequeue l ep).getLsbD l.dcsBit = r.cycle ∧
    ctxGet ep l.epType = l.control ∧ ctxGet ep l.maxPacket = packet &&& 0xFFFF := by
  intro l bs slot ep
  have filled := fun {k j : Nat} => dwordAt_filled m ic (ctxLayout_fits hc) hc3 d r packet
    (k := k) (j := j)
  have control : ∀ {j : Nat}, j < 8 → ∃ x, dwordAt bs (4 * j) =
      dwordAfter j (contextUpdates l d r packet 0) x := fun {j} hj => by
    have h := filled (k := 0) (j := j) (by omega) (by omega)
    rw [Nat.zero_mul, Nat.zero_add] at h
    exact ⟨_, h⟩
  have slotAt : ∀ {j : Nat}, j < 8 → ∃ x, dwordAt slot (4 * j) =
      dwordAfter j (contextUpdates l d r packet 1) x := fun {j} hj => by
    have h := filled (k := 1) (j := j) (by omega) (by omega)
    rw [Nat.one_mul] at h
    exact ⟨_, (dwordAt_take _ (by omega)).trans ((dwordAt_drop bs c _).trans h)⟩
  have epAt : ∀ {j : Nat}, j < 8 → ∃ x, dwordAt ep (4 * j) =
      dwordAfter j (contextUpdates l d r packet 2) x := fun {j} hj =>
    ⟨_, (dwordAt_drop bs (2 * c) _).trans (filled (k := 2) (j := j) (by omega) (by omega))⟩
  obtain ⟨c0, hc0⟩ : ∃ x, dwordAt bs (4 * 0) = l.drop.write x 0 := control (by omega)
  obtain ⟨c1, hc1⟩ : ∃ x, dwordAt bs (4 * 1) = l.addEp0.write (l.addSlot.write x 1) 1 :=
    control (by omega)
  obtain ⟨s0, hs0⟩ : ∃ x, dwordAt slot (4 * 0) = l.endpointCount.write
      (l.speed.write (l.route.write x 0) (d.speed.setWidth 32)) 1 := slotAt (by omega)
  obtain ⟨s1, hs1⟩ : ∃ x, dwordAt slot (4 * 1) = l.rootPort.write x (d.port.setWidth 32) :=
    slotAt (by omega)
  obtain ⟨e1, he1⟩ : ∃ x, dwordAt ep (4 * 1) =
      l.maxPacket.write (l.epType.write x l.control) packet := epAt (by omega)
  obtain ⟨_, he2⟩ := epAt (j := 2) (by omega)
  obtain ⟨_, he3⟩ := epAt (j := 3) (by omega)
  have hdeq : ctxDequeue l ep = r.base ||| (if r.cycle then 1#64 <<< l.dcsBit else 0) :=
    (congrArg₂ (fun hi lo : Dword => hi ++ lo) he3 he2).trans (hi32_append_lo32 _)
  obtain ⟨hpointer, hcycle⟩ := ring_pointer_parts r.cycle hr
  refine ⟨?_, ?_, ?_, ?_, ?_, ?_, ?_, ?_, ?_, ?_, ?_⟩
  · exact (congrArg l.drop.read hc0).trans
      (CtxField.read_write_value l.drop _ (by decide) (by decide))
  · refine (congrArg l.addSlot.read hc1).trans ?_
    refine (CtxField.read_write_ne l.addEp0 l.addSlot _ _ (by decide) (by decide)).trans ?_
    exact CtxField.read_write_value l.addSlot _ (by decide) (by decide)
  · exact (congrArg l.addEp0.read hc1).trans
      (CtxField.read_write_value l.addEp0 _ (by decide) (by decide))
  · refine (congrArg l.route.read hs0).trans ?_
    refine (CtxField.read_write_ne l.endpointCount l.route _ _ (by decide) (by decide)).trans ?_
    refine (CtxField.read_write_ne l.speed l.route _ _ (by decide) (by decide)).trans ?_
    exact CtxField.read_write_value l.route _ (by decide) (by decide)
  · refine (congrArg l.speed.read hs0).trans ?_
    refine (CtxField.read_write_ne l.endpointCount l.speed _ _ (by decide) (by decide)).trans ?_
    exact CtxField.read_write_value l.speed _ (by decide) (setWidth_and_lowOnes d.speed)
  · exact (congrArg l.endpointCount.read hs0).trans
      (CtxField.read_write_value l.endpointCount _ (by decide) (by decide))
  · exact (congrArg l.rootPort.read hs1).trans
      (CtxField.read_write_value l.rootPort _ (by decide) (setWidth_and_lowOnes d.port))
  · exact (congrArg (· &&& ~~~(1#64 <<< l.dcsBit)) hdeq).trans hpointer
  · exact (congrArg (·.getLsbD l.dcsBit) hdeq).trans hcycle
  · refine (congrArg l.epType.read he1).trans ?_
    refine (CtxField.read_write_ne l.maxPacket l.epType _ _ (by decide) (by decide)).trans ?_
    exact CtxField.read_write_value l.epType _ (by decide) (by decide)
  · exact (congrArg l.maxPacket.read he1).trans
      (CtxField.read_write_same l.maxPacket _ _ (by decide))

/-! ### Filling that is refused, and filling that is made -/

theorem hostLoad32_quiet {s : State} (hq : s.Quiet) {a : Addr} (h : s.loadRefusal a 4 = none) :
    hostLoad32 a s = .ok (s.mem.read32 a, s) := by
  have e := hostLoad32_calm hq.calm h
  rwa [hq.afterTurns] at e

/-- The changes end at the first store that is refused: those before it change the memory only, and
so no later answer. -/
theorem updateDwords_refused {s : State} (hq : s.Quiet) (a : Addr)
    (l : List (Nat × (Dword → Dword))) {r : Refusal}
    (hall : ∀ u ∈ l, s.loadRefusal (a + BitVec.ofNat 64 u.1) 4 = none ∧
      (s.hostRefusal (a + BitVec.ofNat 64 u.1) 4 = none ∨
        s.hostRefusal (a + BitVec.ofNat 64 u.1) 4 = some r))
    (hone : ∃ u ∈ l, s.hostRefusal (a + BitVec.ofNat 64 u.1) 4 = some r) :
    updateDwords a l s = .error r := by
  induction l generalizing s with
  | nil =>
    obtain ⟨u, hu, -⟩ := hone
    cases hu
  | cons u l ih =>
    obtain ⟨hload, hstore⟩ := hall u (by simp)
    unfold updateDwords
    rw [Act.bind_ok (hostLoad32_quiet hq hload)]
    rcases hstore with hstore | hstore
    · rw [Act.bind_ok (hostPut32_quiet hq _ hstore)]
      refine ih (s := s.withMem _) hq (fun v hv => hall v (by simp [hv])) ?_
      obtain ⟨v, hv, hr⟩ := hone
      rcases List.mem_cons.1 hv with rfl | hv
      · rw [hstore] at hr
        cases hr
      · exact ⟨v, hv, hr⟩
    · exact Act.bind_error (hostPut32_refused hq s.mem hstore)

/-- Which dwords are changed does not depend on the packet size. -/
theorem exists_mem_inputUpdates {l : CtxLayout} {c : Nat} {d : Dev} {r : Ring} (p q : Dword)
    {u : Nat × (Dword → Dword)} (h : u ∈ inputUpdates l c d r p) :
    ∃ v ∈ inputUpdates l c d r q, v.1 = u.1 := by
  have hsame : (inputUpdates l c d r p).map Prod.fst = (inputUpdates l c d r q).map Prod.fst := rfl
  have hu := List.mem_map_of_mem (f := Prod.fst) h
  rw [hsame] at hu
  exact List.mem_map.1 hu

/-- The contexts are not filled over a structure the controller may be reading (70_reset R422). -/
theorem fillContexts_inUse {s : State} {ic : Addr} {n : SlotId}
    (h : s.isInUse .inCtx ic (3 * s.cfg.ctxSize) = true) :
    fillContexts ic n s = .error .handedOver := by
  unfold fillContexts
  rw [Act.get_bind, h]
  rfl

/-- Nor over one it writes (60_exceptions R390). -/
theorem fillContexts_owned {s : State} (hq : s.Quiet) {ic : Addr} {n : SlotId} {r : Refusal}
    (hu : s.isInUse .inCtx ic (3 * s.cfg.ctxSize) = false)
    (hall : ∀ u ∈ inputUpdates s.cfg.ctx s.cfg.ctxSize (s.host.dev.get n) (s.host.ep0.get n) 0,
      s.loadRefusal (ic + BitVec.ofNat 64 u.1) 4 = none ∧
      (s.hostRefusal (ic + BitVec.ofNat 64 u.1) 4 = none ∨
        s.hostRefusal (ic + BitVec.ofNat 64 u.1) 4 = some r))
    (hone : ∃ u ∈ inputUpdates s.cfg.ctx s.cfg.ctxSize (s.host.dev.get n) (s.host.ep0.get n) 0,
      s.hostRefusal (ic + BitVec.ofNat 64 u.1) 4 = some r) :
    fillContexts ic n s = .error r := by
  obtain ⟨packet, x, -, hc⟩ := choosePacketSize_ok (s.host.dev.get n).speed s
  unfold fillContexts
  rw [Act.get_bind, Act.bind_ok (require_eq_ok.2 ⟨by rw [hu]; rfl, rfl⟩), Act.bind_ok hc]
  refine updateDwords_refused (s := s.withFree x) hq ic _ (fun u hu => ?_) ?_
  · obtain ⟨v, hv, he⟩ := exists_mem_inputUpdates packet 0 hu
    rw [← he]
    exact hall v hv
  · obtain ⟨u, hu, hr⟩ := hone
    obtain ⟨v, hv, he⟩ := exists_mem_inputUpdates 0 packet hu
    exact ⟨v, hv, by rw [he]; exact hr⟩

/-- A part of a procedure that is refused. -/
theorem Proc.lift_error {α : Type} {m : Act α} {s : State} {r : Refusal} (h : m s = .error r) :
    ExceptT.run (m : Proc α) s = .error r := by
  rw [ExceptT.run_monadLift]
  show (Except.ok <$> m) s = _
  rw [← bind_pure_comp, Act.bind_error h]

theorem exec_fillInputContext_error {s : State} {ic : Addr} {n : SlotId} {r : Refusal}
    (hn : s.inTable n = true) (h : fillContexts ic n s = .error r) :
    exec (.fillInputContext ic n) s = .refused r := by
  have hp : ExceptT.run (fillInputContext ic n) s = .error r := by
    unfold fillInputContext
    rw [Proc.bind_ok (rejectSlot_ok hn)]
    exact Proc.lift_error h
  show (concluding _ (fillInputContext ic n)).run s = _
  unfold Act.run concluding
  rw [Act.bind_error hp]

theorem exec_fillInputContext_ok {s t : State} {ic : Addr} {n : SlotId}
    (hn : s.inTable n = true) (h : fillContexts ic n s = .ok ((), t)) :
    exec (.fillInputContext ic n) s = .next (t.withResult .success) := by
  have hp : ExceptT.run (fillInputContext ic n) s = .ok (.ok (), t) := by
    unfold fillInputContext
    rw [Proc.bind_ok (rejectSlot_ok hn)]
    exact Proc.lift_ok h
  exact Act.run_of_ok (concluding_ok hp)

theorem exec_fillInputContext_rejected {s : State} {ic : Addr} {n : SlotId}
    (hn : s.inTable n = false) : exec (.fillInputContext ic n) s =
      .next (s.withResult (.failure (.slotIdRejected n))) :=
  Act.run_of_ok (concluding_fails (Proc.bind_fails (rejectSlot_fails hn)))

/-- Settles O59: a slot id that is rejected, each reason the filling is refused for, and what it
leaves. -/
theorem inputContext : Obligations.InputContext := by
  intro s ic n
  refine ⟨fun hn => exec_fillInputContext_rejected (decide_eq_false (Nat.not_lt.2 hn)),
    fun hn => ?_⟩
  have hin : s.inTable n = true := decide_eq_true hn
  refine ⟨fun hover => ?_, ?_, fun hq hfill => ?_⟩
  · obtain ⟨b, hb, hkind, ho⟩ := hover
    refine exec_fillInputContext_error hin (fillContexts_inUse ?_)
    rw [← Bool.not_eq_false, State.isInUse_eq_false]
    exact fun hnone => hnone b hb hkind hkind ho
  · intro why l hq hu hall hone
    exact exec_fillInputContext_error hin (fillContexts_owned hq hu hall hone)
  · obtain ⟨packet, x, hpacket, hrun⟩ := fillContexts_ok hq hfill
    refine ⟨packet, x, hpacket, exec_fillInputContext_ok hin hrun,
      fun hfits a ha => read_filled_ne s.mem ic hfits _ _ packet ha, ?_⟩
    intro hc hc3 hlayout hbase
    unfold State.filled
    rw [hlayout]
    exact fields_filled s.mem ic hc hc3 _ _ packet hbase

end Sys2Proof.Machine
end

section
/-! Proofs of the encoding family (30_encoding): the decoder takes back what the encoder writes, on
every ring, in every register block and through memory, and the read-modify-write operations. -/

namespace Sys2Proof

open Config

/-! ### Type codes of one ring -/

/-- The command ring's type codes, last row first, are distinct. -/
theorem Config.TypeCodes.Distinct.onCommandRing {c : TypeCodes} (h : c.Distinct) :
    [c.link, c.resetDevice, c.setTrDequeue, c.resetEndpoint, c.evaluateContext,
      c.configureEndpoint, c.disableSlot, c.addressDevice, c.enableSlot, c.noopCmd].Nodup :=
  List.Nodup.map (f := c.all.get) (List.nodup_iff_injective_get.1 h)
    (by decide : ([4, 14, 13, 12, 11, 10, 8, 9, 7, 15] : List (Fin 19)).Nodup)

/-- The endpoint-0 rings' type codes, last row first, are distinct. -/
theorem Config.TypeCodes.Distinct.onTransferRing {c : TypeCodes} (h : c.Distinct) :
    [c.noopXfer, c.eventData, c.link, c.normal, c.status, c.data, c.setup].Nodup :=
  List.Nodup.map (f := c.all.get) (List.nodup_iff_injective_get.1 h)
    (by decide : ([6, 5, 4, 0, 3, 2, 1] : List (Fin 19)).Nodup)

/-- The event ring's type codes, last row first, are distinct. -/
theorem Config.TypeCodes.Distinct.onEventRing {c : TypeCodes} (h : c.Distinct) :
    [c.portStatusChange, c.cmdCompletion, c.transferEvent].Nodup :=
  List.Nodup.map (f := c.all.get) (List.nodup_iff_injective_get.1 h)
    (by decide : ([18, 17, 16] : List (Fin 19)).Nodup)

/-! ### TRBs -/

/-- A row of the command ring is reached past the rows before it: its type is none of theirs. -/
theorem decodeCmd_encodeTrb {c : Params} (hd : c.tt.Distinct) {i : Instr} {t : Trb}
    (hwf : i.wellFormed c = true) (h : encodeTrb c.tt i = some (.cmd, t)) :
    decodeCmd c.tt t = i := by
  have hne := hd.onCommandRing
  simp only [List.nodup_cons, List.mem_cons, not_or, List.not_mem_nil] at hne
  cases i <;> cases h
  case cmdNoop => simp [decodeCmd]
  case cmdEnableSlot | cmdAddressDevice | cmdDisableSlot | cmdConfigureEndpoint |
      cmdEvaluateContext | cmdResetEndpoint | cmdSetTrDequeue | cmdResetDevice =>
    simp [decodeCmd, hne]
  case cmdLink =>
    have htyp : t.typ = c.tt.link := of_decide_eq_true hwf
    simp [decodeCmd, htyp, hne]
  case cmdOther =>
    have htyp := of_decide_eq_true hwf
    simp only [List.mem_cons, not_or, List.not_mem_nil] at htyp
    simp [decodeCmd, htyp]

/-- On an endpoint-0 ring the types that are kept whole carry their row's type in the TRB. -/
theorem decodeXfer_encodeTrb {c : Params} (hd : c.tt.Distinct) {i : Instr} {k : SlotId} {t : Trb}
    (hwf : i.wellFormed c = true) (h : encodeTrb c.tt i = some (.xfer k, t)) :
    decodeXfer c.tt k t = .ok i := by
  have hne := hd.onTransferRing
  simp only [List.nodup_cons, List.mem_cons, not_or, List.not_mem_nil] at hne
  cases i <;> cases h
  case xferSetup => simp [decodeXfer]
  case xferData | xferStatus => simp [decodeXfer, hne]
  case xferNormal | xferLink | xferEventData | xferNoop =>
    have htyp := of_decide_eq_true hwf
    simp [decodeXfer, htyp, hne]

/-- Masking off bits that are 0 changes nothing. -/
theorem and_not_eq_self {w : Nat} {q m : BitVec w} (h : q &&& m = 0) : q &&& ~~~m = q := by
  apply BitVec.eq_of_getLsbD_eq
  intro i hi
  have hbit := congrArg (BitVec.getLsbD · i) h
  rw [BitVec.getLsbD_and] at hbit
  rw [BitVec.getLsbD_and, BitVec.getLsbD_not, decide_eq_true hi, Bool.true_and]
  cases hq : q.getLsbD i with
  | false => rfl
  | true =>
    have hm : m.getLsbD i = false := by simpa [hq] using hbit
    rw [hm]
    rfl

/-- The pointer of a completion event is a multiple of 16, as `wellFormed` asks: decoding masks
nothing off. -/
theorem CompletionEvent.ofTrb_toTrb_of_aligned (c : TypeCodes) {e : CompletionEvent}
    (h : e.trbPtr &&& 0xF#64 = 0) : CompletionEvent.ofTrb (e.toTrb c) = e := by
  rw [CompletionEvent.ofTrb_toTrb, and_not_eq_self h]

/-- On the event ring a TRB of no event type is kept whole (30_encoding R135 (a)). -/
theorem decodeEvt_encodeTrb {c : Params} (hd : c.tt.Distinct) {i : Instr} {t : Trb}
    (hwf : i.wellFormed c = true) (h : encodeTrb c.tt i = some (.evt, t)) :
    decodeEvt c.tt t = i := by
  have hne := hd.onEventRing
  simp only [List.nodup_cons, List.mem_cons, not_or, List.not_mem_nil] at hne
  cases i <;> cases h
  case evTransfer => simp [decodeEvt]
  case evCmdCompletion =>
    have hptr := CompletionEvent.ofTrb_toTrb_of_aligned c.tt (of_decide_eq_true hwf)
    simp [decodeEvt, hne, hptr]
  case evPortStatusChange => simp [decodeEvt, hne]
  case evOther =>
    have htyp := of_decide_eq_true hwf
    simp only [List.mem_cons, not_or, List.not_mem_nil] at htyp
    simp [decodeEvt, htyp]

/-- Decoding a TRB on the ring it was encoded for (30_encoding R134, R135). -/
theorem decodeTrb_encodeTrb {c : Params} (hd : c.tt.Distinct) {i : Instr} {r : RingSel} {t : Trb}
    (hwf : i.wellFormed c = true) (h : encodeTrb c.tt i = some (r, t)) :
    decodeTrb c.tt r t = .ok i := by
  cases r with
  | cmd => exact congrArg _ (decodeCmd_encodeTrb hd hwf h)
  | xfer k => exact decodeXfer_encodeTrb hd hwf h
  | evt => exact congrArg _ (decodeEvt_encodeTrb hd hwf h)

/-! ### Register accesses -/

theorem toNat_portOffset (p : PortIx) : (portOffset p).toNat = 0x400 + 16 * p.toNat := by
  unfold portOffset portBase portStride
  have := p.isLt
  rw [BitVec.toNat_ofNat, Nat.mod_eq_of_lt (by omega)]

theorem toNat_doorbellOffset (k : SlotId) : (doorbellOffset k).toNat = 4 * k.toNat := by
  unfold doorbellOffset
  have := k.isLt
  rw [BitVec.toNat_ofNat, Nat.mod_eq_of_lt (by omega)]

/-- A port register's offset names its port (43_ports R270). -/
theorem portOfOffset_portOffset {c : Params} {p : PortIx} (h : p.toNat < c.maxPorts.toNat) :
    portOfOffset c (portOffset p) = some p := by
  unfold portOfOffset portBase portStride
  have hdiv : (0x400 + 16 * p.toNat - 0x400) / 16 = p.toNat := by omega
  dsimp only
  rw [toNat_portOffset, hdiv, if_pos ⟨by omega, by omega, h⟩, BitVec.ofNat_toNat,
    BitVec.setWidth_eq]

/-- A doorbell's offset names the doorbell (10_state R39). -/
theorem doorbellOfOffset_doorbellOffset {c : Params} {k : SlotId}
    (h : k.toNat ≤ c.maxSlots.toNat) : doorbellOfOffset c (doorbellOffset k) = some k := by
  unfold doorbellOfOffset
  have hdiv : 4 * k.toNat / 4 = k.toNat := by omega
  rw [toNat_doorbellOffset, hdiv, if_pos h, BitVec.ofNat_toNat, BitVec.setWidth_eq]

/-- The port registers stand past the other operational registers. -/
theorem portOffset_ne_of_lt (p : PortIx) {off : Dword} (h : off.toNat < 0x400) :
    portOffset p ≠ off := by
  rintro rfl
  rw [toNat_portOffset] at h
  omega

/-- An access to a port register selects it, by its direction. -/
theorem decodeOp_portOffset {c : Params} {p : PortIx} (h : p.toNat < c.maxPorts.toNat)
    (w : Option Dword) : decodeOp c (portOffset p) w = w.elim (.rdPortsc p) (.wrPortsc p) := by
  cases w <;> simp [decodeOp, portOffset_ne_of_lt, portOfOffset_portOffset h]

theorem decodeDb_read {c : Params} {k : SlotId} (h : k.toNat ≤ c.maxSlots.toNat) :
    decodeDb c (doorbellOffset k) none = .rdDb k := by
  simp [decodeDb, doorbellOfOffset_doorbellOffset h]

theorem decodeDb_write {c : Params} {k : SlotId} (h : k.toNat ≤ c.maxSlots.toNat) (v : Dword) :
    decodeDb c (doorbellOffset k) (some v) = if k = 0 then .wrDb0 v else .wrDbi k v := by
  simp only [decodeDb, doorbellOfOffset_doorbellOffset h]

theorem decodeAccess_op {c : Params} {off : Dword} (h : off.toNat % 4 = 0) (w : Option Dword) :
    decodeAccess c ⟨.op, off, w⟩ = .ok (decodeOp c off w) := if_neg (not_not.2 h)

theorem decodeAccess_db {c : Params} {off : Dword} (h : off.toNat % 4 = 0) (w : Option Dword) :
    decodeAccess c ⟨.db, off, w⟩ = .ok (decodeDb c off w) := if_neg (not_not.2 h)

/-- Decoding the access a register operation stands for (30_encoding R134, 20_memory R72). -/
theorem decodeAccess_encodeAccess {c : Params} {i : Instr} {a : Access}
    (hwf : i.wellFormed c = true) (h : encodeAccess i = some a) : decodeAccess c a = .ok i := by
  have hport (p : PortIx) : (portOffset p).toNat % 4 = 0 := by
    rw [toNat_portOffset]
    omega
  have hdb (k : SlotId) : (doorbellOffset k).toNat % 4 = 0 := by
    rw [toNat_doorbellOffset]
    omega
  cases i <;> cases h
  case wrCap r v => cases r <;> simp [decodeAccess, decodeCap, CapReg.offset]
  case rdPortsc p =>
    rw [decodeAccess_op (hport p), decodeOp_portOffset (of_decide_eq_true hwf), Option.elim_none]
  case wrPortsc p v =>
    rw [decodeAccess_op (hport p), decodeOp_portOffset (of_decide_eq_true hwf), Option.elim_some]
  case wrDb0 v =>
    exact (decodeAccess_db (hdb 0) _).trans
      (congrArg _ (decodeDb_write (k := 0) (Nat.zero_le _) v))
  case wrDbi k v =>
    obtain ⟨h1, hmax⟩ : 1 ≤ k.toNat ∧ k.toNat ≤ c.maxSlots.toNat := of_decide_eq_true hwf
    have hk : k ≠ 0 := by
      rintro rfl
      simp at h1
    rw [decodeAccess_db (hdb k), decodeDb_write hmax, if_neg hk]
  case rdDb k => rw [decodeAccess_db (hdb k), decodeDb_read (of_decide_eq_true hwf)]
  case undefinedOffset b off w => exact of_decide_eq_true hwf
  -- The other registers stand at fixed offsets.
  all_goals simp [decodeAccess, decodeCap, decodeOp, decodeRt]

/-- Settles O1: a TRB on its ring, or an access in its block. -/
theorem decodeEncode : Obligations.DecodeEncode := by
  rintro c i e ⟨hd, -⟩ hwf he
  unfold encode at he
  cases htrb : encodeTrb c.tt i with
  | some rt =>
    rw [htrb] at he
    cases he
    exact decodeTrb_encodeTrb hd hwf htrb
  | none =>
    rw [htrb] at he
    obtain ⟨a, ha, rfl⟩ := Option.map_eq_some_iff.1 he
    exact decodeAccess_encodeAccess hwf ha

/-! ### TRBs as bytes -/

/-- A quadword is its eight bytes. -/
theorem append_bytes_qword (q : Qword) :
    q.extractLsb' 56 8 ++ q.extractLsb' 48 8 ++ q.extractLsb' 40 8 ++ q.extractLsb' 32 8 ++
      q.extractLsb' 24 8 ++ q.extractLsb' 16 8 ++ q.extractLsb' 8 8 ++ q.extractLsb' 0 8 = q := by
  repeat rw [BitVec.extractLsb'_append_extractLsb'_eq_extractLsb' (by norm_num)]
  exact BitVec.extractLsb'_eq_self

theorem Trb.length_bytes (t : Trb) : t.bytes.length = 16 := by simp [Trb.bytes]

/-- The first sixteen bytes give the TRB, and the rest is left (30_encoding R100). -/
theorem Trb.ofBytes_bytes (t : Trb) (rest : List Byte) :
    Trb.ofBytes (t.bytes ++ rest) = .ok (t, rest) := by
  have hp := append_bytes_qword t.parameter
  have hs := Machine.append_bytes t.status
  have hc := Machine.append_bytes t.control
  refine Eq.trans (b := .ok (⟨_, _, _⟩, rest)) rfl ?_
  rw [hp, hs, hc]

/-- Fewer than sixteen bytes are no TRB (30_encoding R136). -/
theorem Trb.ofBytes_tooShort {bs : List Byte} (h : bs.length < 16) :
    Trb.ofBytes bs = .error .tooShort := by
  unfold Trb.ofBytes
  split
  · simp only [List.length_cons] at h
    omega
  · rfl

/-- Settles O2: the bytes give the TRB back, and the TRB its operation. -/
theorem decodeEncodedBytes : Obligations.DecodeEncodedBytes := by
  refine ⟨?_, fun c r bs h => ?_⟩
  · rintro c i r t rest ⟨hd, -⟩ hwf h
    refine ⟨t.length_bytes, ?_⟩
    unfold decodeBytes
    rw [Trb.ofBytes_bytes]
    dsimp only
    rw [decodeTrb_encodeTrb hd hwf h]
  · unfold decodeBytes
    rw [Trb.ofBytes_tooShort h]

end Sys2Proof

namespace Sys2Proof.Machine

open Config

/-! ### Read-modify-write -/

theorem Dword.getLsbD_and_not (v m : Dword) {i : Nat} (hi : i < 32) :
    (v &&& ~~~m).getLsbD i = (v.getLsbD i && !m.getLsbD i) := by
  rw [BitVec.getLsbD_and, BitVec.getLsbD_not, decide_eq_true hi, Bool.true_and]

theorem exec_rd32 (b : RegBlock) (off : Dword) (s : State) :
    exec (.rd32 b off) s = (answering .dword (regRead32 b off)).run s := rfl

theorem exec_wr32 (b : RegBlock) (off v : Dword) (s : State) :
    exec (.wr32 b off v) s = (regWrite32 b off v).run s := rfl

theorem exec_set32 (b : RegBlock) (off m : Dword) (s : State) :
    exec (.set32 b off m) s = (regUpdate32 b off (· ||| m)).run s := rfl

theorem exec_clr32 (b : RegBlock) (off m : Dword) (s : State) :
    exec (.clr32 b off m) s = (regUpdate32 b off (· &&& ~~~m)).run s := rfl

/-- After its read a read-modify-write is the write of the changed value (30_encoding R138). -/
theorem regUpdate32_of_read {b : RegBlock} {off v : Dword} {s t : State}
    (h : regRead32 b off s = .ok (v, t)) (f : Dword → Dword) :
    regUpdate32 b off f s = regWrite32 b off (f v) t := by
  unfold regUpdate32
  exact Act.bind_ok h

theorem run_regUpdate32_of_read {b : RegBlock} {off v : Dword} {s t : State}
    (h : regRead32 b off s = .ok (v, t)) (f : Dword → Dword) :
    (regUpdate32 b off f).run s = exec (.wr32 b off (f v)) t := by
  rw [exec_wr32]
  unfold Act.run
  rw [regUpdate32_of_read h]

/-! ### USBCMD -/

theorem getLsbD_usbcmdMask (b : BitPos) (i : Nat) : (usbcmdMask b).getLsbD i =
    ((decide (i = 0) || decide (i = b.usbcmdHcrst) || decide (i = 2)) && decide (i < 32)) := by
  unfold usbcmdMask
  simp only [BitVec.getLsbD_or, getLsbD_mask1, Bool.and_or_distrib_right]

theorem getLsbD_usbcmdFields (b : BitPos) (o : OpRegs) (i : Nat) : (usbcmdFields b o).getLsbD i =
    ((o.rs && (decide (i = 0) && decide (i < 32))) ||
      (o.hcrst && (decide (i = b.usbcmdHcrst) && decide (i < 32))) ||
      (o.inte && (decide (i = 2) && decide (i < 32)))) := by
  unfold usbcmdFields
  simp only [BitVec.getLsbD_or, getLsbD_flagAt]

/-- A value that shows USBCMD's fields, whatever its reserved bits hold. -/
structure ShowsUsbcmd (b : BitPos) (o : OpRegs) (v : Dword) : Prop where
  rs : v.getLsbD 0 = o.rs
  inte : v.getLsbD 2 = o.inte
  hcrst : v.getLsbD b.usbcmdHcrst = o.hcrst

/-- Every value USBCMD may read as shows its fields (40_register_access R158). -/
theorem showsUsbcmd_openBits {b : BitPos} (hd : b.Distinct) (o : OpRegs) (w : Dword) :
    ShowsUsbcmd b o (openBits (usbcmdMask b) (usbcmdFields b o) w) := by
  obtain ⟨⟨hlt, hne0, hne2⟩, -⟩ := hd
  have hdefined (i : Nat) (hi : i < 32) (hmask : (usbcmdMask b).getLsbD i = true) :
      (openBits (usbcmdMask b) (usbcmdFields b o) w).getLsbD i =
        (usbcmdFields b o).getLsbD i := by rw [getLsbD_openBits _ _ _ i hi, if_pos hmask]
  refine ⟨?_, ?_, ?_⟩
  · rw [hdefined 0 (by norm_num) (by simp [getLsbD_usbcmdMask]), getLsbD_usbcmdFields]
    simp [hne0.symm]
  · rw [hdefined 2 (by norm_num) (by simp [getLsbD_usbcmdMask]), getLsbD_usbcmdFields]
    simp [hne2.symm]
  · rw [hdefined _ hlt (by simp [getLsbD_usbcmdMask, hlt]), getLsbD_usbcmdFields]
    simp [hne0, hne2, hlt]

/-- USBCMD read with nothing before it. -/
theorem regRead32_usbcmd {s : State} (hq : s.Quiet) (hb : s.host.basesFixed = true)
    (hd : s.cfg.bitpos.Distinct) : ∃ v x, ShowsUsbcmd s.cfg.bitpos s.op v ∧
      regRead32 .op 0 s = .ok (v, (s.onBus .op 0).withFree x) := by
  obtain ⟨w, x, h⟩ := openRead_some (fun s => usbcmdMask s.cfg.bitpos)
    (fun s => usbcmdFields s.cfg.bitpos s.op) (s.onBus .op 0)
  exact ⟨_, x, showsUsbcmd_openBits hd s.op w,
    regRead32_ok (i := .rdUsbcmd) (gap_quiet hq) hb rfl h⟩

/-- USBCMD written without HCRST, on a controller that takes writes (40_register_access R159). -/
theorem regWrite32_usbcmd {s : State} (hq : s.Quiet) (hb : s.host.basesFixed = true)
    (h1 : s.op.hcrst = false) (h2 : s.op.cnr = false) {v : Dword}
    (hv : v.getLsbD s.cfg.bitpos.usbcmdHcrst = false) :
    regWrite32 .op 0 v s = .ok ((), (s.onBus .op 0).withOp
      { s.op with rs := v.getLsbD 0, inte := v.getLsbD 2 }) := by
  have hv' : bitOf v (s.onBus .op 0).cfg.bitpos.usbcmdHcrst = false := hv
  rw [regWrite32_apply (b := .op) (i := .wrUsbcmd v) (gap_quiet hq) hb rfl]
  show writeUsbcmd v (s.onBus .op 0) = _
  unfold writeUsbcmd
  rw [Act.bind_ok (writable_ok (s := s.onBus .op 0) h1 h2), Act.get_bind, hv']
  rfl

/-- A read-modify-write of USBCMD that sets no HCRST: RS and INTE become those of the changed
value, and the rest stays (42_lifecycle R239, R247). -/
theorem regUpdate32_usbcmd {s : State} (hq : s.Quiet) (hb : s.host.basesFixed = true)
    (h1 : s.op.hcrst = false) (h2 : s.op.cnr = false) (hd : s.cfg.bitpos.Distinct)
    {f : Dword → Dword} (hf : ∀ v : Dword, v.getLsbD s.cfg.bitpos.usbcmdHcrst = false →
      (f v).getLsbD s.cfg.bitpos.usbcmdHcrst = false) :
    ∃ v x, ShowsUsbcmd s.cfg.bitpos s.op v ∧
      (regUpdate32 .op 0 f).run s = .next (((s.onBus .op 0).withFree x).withOp
        { s.op with rs := (f v).getLsbD 0, inte := (f v).getLsbD 2 }) := by
  obtain ⟨v, x, hv, hread⟩ := regRead32_usbcmd hq hb hd
  refine ⟨v, x, hv, Act.run_of_ok ((regUpdate32_of_read hread f).trans ?_)⟩
  exact regWrite32_usbcmd (s := (s.onBus .op 0).withFree x) hq hb h1 h2
    (hf v (hv.hcrst.trans h1))

/-- Settles O32: after the read the rest is a write; on USBCMD the value read shows RS and INTE. -/
theorem readModifyWrite : Obligations.ReadModifyWrite := by
  intro s m hq
  refine ⟨fun b off i hk hd hi => ?_, fun hpos hb h1 h2 hm => ⟨?_, ?_⟩⟩
  · obtain ⟨v, x, hread⟩ := regRead32_quiet hq hk hd hi
    exact ⟨v, x, Act.run_of_ok (answering_ok hread), run_regUpdate32_of_read hread _,
      run_regUpdate32_of_read hread _⟩
  · obtain ⟨v, x, hv, hrun⟩ := regUpdate32_usbcmd (f := (· ||| m)) hq hb h1 h2 hpos
      fun v hv => by rw [BitVec.getLsbD_or, hv, hm, Bool.or_false]
    refine ⟨x, ?_⟩
    rw [exec_set32, hrun, BitVec.getLsbD_or, BitVec.getLsbD_or, hv.rs, hv.inte]
  · obtain ⟨v, x, hv, hrun⟩ := regUpdate32_usbcmd (f := (· &&& ~~~m)) hq hb h1 h2 hpos
      fun v hv => by rw [BitVec.getLsbD_and, hv, Bool.false_and]
    refine ⟨x, ?_⟩
    rw [exec_clr32, hrun, Dword.getLsbD_and_not v m (by norm_num),
      Dword.getLsbD_and_not v m (by norm_num), hv.rs, hv.inte]

end Sys2Proof.Machine
end

section
/-! Proofs of the register access family (40_register_access), register reads: a word with open bits
shows its fields, and any value may be drawn for the others. -/

namespace Sys2Proof.Machine

open Config

/-! ### Words with open bits -/

/-- The open bits of a read value are the drawn ones. -/
theorem openBits_and_not_mask (m f w : Dword) : openBits m f w &&& ~~~m = w &&& ~~~m := by
  apply BitVec.eq_of_getLsbD_eq
  intro i hi
  rw [BitVec.getLsbD_and, BitVec.getLsbD_and, getLsbD_openBits _ _ _ i hi, BitVec.getLsbD_not]
  cases m.getLsbD i <;> simp

/-- A defined bit of a read value is the field's. -/
theorem getLsbD_openBits_of_mask {m f w : Dword} {i : Nat} (hi : i < 32)
    (hm : m.getLsbD i = true) : (openBits m f w).getLsbD i = f.getLsbD i := by
  rw [getLsbD_openBits _ _ _ i hi, if_pos hm]

/-- A field all of whose bits are defined reads as it is. -/
theorem extractLsb'_openBits {m f w : Dword} {lo n : Nat} (h : lo + n ≤ 32)
    (hm : ∀ i, lo ≤ i → i < lo + n → m.getLsbD i = true) :
    (openBits m f w).extractLsb' lo n = f.extractLsb' lo n := by
  apply BitVec.eq_of_getLsbD_eq
  intro i hi
  rw [BitVec.getLsbD_extractLsb', BitVec.getLsbD_extractLsb',
    getLsbD_openBits_of_mask (by omega) (hm _ (by omega) (by omega))]

theorem getLsbD_fieldAt {n : Nat} (lo : Nat) (x : BitVec n) {i : Nat} (hi : i < 32) :
    (fieldAt lo x).getLsbD i = (decide (lo ≤ i) && x.getLsbD (i - lo)) := by
  unfold fieldAt
  rw [BitVec.getLsbD_shiftLeft, BitVec.getLsbD_setWidth, decide_eq_true hi,
    decide_eq_true (show i - lo < 32 by omega), Bool.true_and, Bool.true_and, ← decide_not]
  simp only [Nat.not_lt]

theorem getLsbD_fieldMask (lo n : Nat) {i : Nat} (hi : i < 32) :
    (fieldMask lo n).getLsbD i = (decide (lo ≤ i) && decide (i < lo + n)) := by
  unfold fieldMask
  rw [BitVec.getLsbD_shiftLeft, decide_eq_true hi, Bool.true_and, getLsbD_lowOnes _ _ (by omega),
    ← decide_not]
  by_cases h : lo ≤ i
  · simp [h, Nat.sub_lt_iff_lt_add h, Nat.add_comm]
  · simp [h]

/-- A field placed in a dword reads as its value there. -/
theorem extractLsb'_fieldAt {n lo : Nat} (x : BitVec n) (h : lo + n ≤ 32) :
    (fieldAt lo x).extractLsb' lo n = x := by
  apply BitVec.eq_of_getLsbD_eq
  intro i hi
  rw [BitVec.getLsbD_extractLsb', decide_eq_true hi, getLsbD_fieldAt lo x (by omega),
    decide_eq_true (Nat.le_add_right lo i), Nat.add_sub_cancel_left, Bool.true_and, Bool.true_and]

/-- A register of one field shows it. -/
theorem extractLsb'_openField {n lo : Nat} (x : BitVec n) (w : Dword) (h : lo + n ≤ 32) :
    (openBits (fieldMask lo n) (fieldAt lo x) w).extractLsb' lo n = x := by
  refine (extractLsb'_openBits h fun i h1 h2 => ?_).trans (extractLsb'_fieldAt x h)
  rw [getLsbD_fieldMask lo n (by omega), decide_eq_true h1, decide_eq_true h2, Bool.true_and]

/-- A register of two flags shows both. -/
theorem getLsbD_openFlags {a b : Nat} (ha : a < 32) (hb : b < 32) (hne : a ≠ b) (x y : Bool)
    (w : Dword) :
    let v := openBits (mask1 a ||| mask1 b) (flagAt x a ||| flagAt y b) w
    v.getLsbD a = x ∧ v.getLsbD b = y := by
  refine ⟨?_, ?_⟩
  · rw [getLsbD_openBits_of_mask ha (by simp [getLsbD_mask1, ha]), BitVec.getLsbD_or,
      getLsbD_flagAt, getLsbD_flagAt]
    simp [ha, hne]
  · rw [getLsbD_openBits_of_mask hb (by simp [getLsbD_mask1, hb]), BitVec.getLsbD_or,
      getLsbD_flagAt, getLsbD_flagAt]
    simp [hb, hne.symm]

/-! ### Port registers and ERDP -/

theorem getLsbD_portscMask (b : BitPos) {i : Nat} (hi : i < 32) : (portscMask b).getLsbD i =
    (decide (i = b.portscCcs) || decide (i = b.portscPed) || decide (i = b.portscPr) ||
      (decide (10 ≤ i) && decide (i < 14))) := by
  unfold portscMask
  rw [show 0x3C00#32 = fieldMask 10 4 from rfl]
  simp only [BitVec.getLsbD_or, getLsbD_mask1, getLsbD_fieldMask _ _ hi, hi, decide_true,
    Bool.and_true]

theorem getLsbD_portscFields (b : BitPos) (p : Port) {i : Nat} (hi : i < 32) :
    (portscFields b p).getLsbD i =
      (p.ccs && decide (i = b.portscCcs) || p.ped && decide (i = b.portscPed) ||
        p.pr && decide (i = b.portscPr) || (decide (10 ≤ i) && p.speed.getLsbD (i - 10))) := by
  unfold portscFields
  rw [show p.speed.setWidth 32 <<< 10 = fieldAt 10 p.speed from rfl]
  simp only [BitVec.getLsbD_or, getLsbD_flagAt, getLsbD_fieldAt _ _ hi, hi, decide_true,
    Bool.and_true]

/-- A value that shows PORTSC's fields, whatever its reserved bits hold. -/
structure ShowsPortsc (b : BitPos) (p : Port) (v : Dword) : Prop where
  ccs : v.getLsbD b.portscCcs = p.ccs
  ped : v.getLsbD b.portscPed = p.ped
  pr : v.getLsbD b.portscPr = p.pr
  speed : v.extractLsb' 10 4 = p.speed

/-- Every value PORTSC may read as shows its fields (40_register_access R166). -/
theorem showsPortsc_openBits {b : BitPos} (hd : b.Distinct) (p : Port) (w : Dword) :
    ShowsPortsc b p (openBits (portscMask b) (portscFields b p) w) := by
  obtain ⟨-, -, -, -, -, -, ⟨hccs, hped, hpr, hnodup⟩, -⟩ := hd
  simp only [List.nodup_cons, List.mem_cons, List.not_mem_nil, or_false, not_or] at hnodup
  obtain ⟨⟨ccs_ped, ccs_pr, ccs10, ccs11, ccs12, ccs13⟩, ⟨ped_pr, ped10, ped11, ped12, ped13⟩,
    ⟨pr10, pr11, pr12, pr13⟩, -⟩ := hnodup
  have beside {k : Nat} (h10 : k ≠ 10) (h11 : k ≠ 11) (h12 : k ≠ 12) (h13 : k ≠ 13) :
      (decide (10 ≤ k) && p.speed.getLsbD (k - 10)) = false := by
    by_cases h : 10 ≤ k
    · rw [BitVec.getLsbD_of_ge _ _ (by omega), Bool.and_false]
    · rw [decide_eq_false h, Bool.false_and]
  refine ⟨?_, ?_, ?_, ?_⟩
  · rw [getLsbD_openBits_of_mask hccs (by simp [getLsbD_portscMask b hccs]),
      getLsbD_portscFields b p hccs, beside ccs10 ccs11 ccs12 ccs13]
    simp [ccs_ped, ccs_pr]
  · rw [getLsbD_openBits_of_mask hped (by simp [getLsbD_portscMask b hped]),
      getLsbD_portscFields b p hped, beside ped10 ped11 ped12 ped13]
    simp [Ne.symm ccs_ped, ped_pr]
  · rw [getLsbD_openBits_of_mask hpr (by simp [getLsbD_portscMask b hpr]),
      getLsbD_portscFields b p hpr, beside pr10 pr11 pr12 pr13]
    simp [Ne.symm ccs_pr, Ne.symm ped_pr]
  · rw [extractLsb'_openBits (by norm_num) fun i h1 h2 => by
      simp [getLsbD_portscMask b (show i < 32 by omega), h1, h2]]
    apply BitVec.eq_of_getLsbD_eq
    intro i hi
    rw [BitVec.getLsbD_extractLsb', decide_eq_true hi, getLsbD_portscFields b p (by omega),
      decide_eq_false (show ¬ 10 + i = b.portscCcs by omega),
      decide_eq_false (show ¬ 10 + i = b.portscPed by omega),
      decide_eq_false (show ¬ 10 + i = b.portscPr by omega)]
    simp

/-- Every value ERDP's low dword may read as shows the pointer and EHB (40_register_access R170). -/
theorem shows_erdpLo (e : EvtProducer) (w : Dword) :
    let v := openBits 0xFFFFFFF8#32 (erdpLoFields e) w
    v.extractLsb' 4 28 = e.deqPtr.extractLsb' 4 28 ∧ v.getLsbD 3 = e.ehb := by
  have hmask {i : Nat} (hi : i < 32) : (0xFFFFFFF8#32).getLsbD i = decide (3 ≤ i) := by
    rw [show 0xFFFFFFF8#32 = ~~~(lowOnes 3) from rfl, BitVec.getLsbD_not, decide_eq_true hi,
      getLsbD_lowOnes 3 i hi, Bool.true_and, ← decide_not]
    simp only [Nat.not_lt]
  have hfields {i : Nat} (hi : i < 32) : (erdpLoFields e).getLsbD i =
      (e.deqPtr.getLsbD i && decide (4 ≤ i) || e.ehb && decide (i = 3)) := by
    unfold erdpLoFields lo32
    rw [show 0xF#32 = lowOnes 4 from rfl, BitVec.getLsbD_or, BitVec.getLsbD_and,
      BitVec.getLsbD_extractLsb', BitVec.getLsbD_not, getLsbD_lowOnes 4 i hi, getLsbD_flagAt,
      decide_eq_true hi, Nat.zero_add, Bool.true_and, Bool.true_and, Bool.and_true, ← decide_not]
    simp only [Nat.not_lt]
  refine ⟨?_, ?_⟩
  · rw [extractLsb'_openBits (by norm_num) fun i h1 h2 => by
      rw [hmask (by omega), decide_eq_true (by omega)]]
    apply BitVec.eq_of_getLsbD_eq
    intro i hi
    rw [BitVec.getLsbD_extractLsb', BitVec.getLsbD_extractLsb', hfields (by omega),
      decide_eq_true (Nat.le_add_right 4 i), decide_eq_false (show ¬ 4 + i = 3 by omega),
      Bool.and_true, Bool.and_false, Bool.or_false]
  · rw [getLsbD_openBits_of_mask (by norm_num) (hmask (by norm_num)), hfields (by norm_num)]
    simp

/-! ### What an operation that answers a value does -/

theorem Act.run_congr {m m' : Act Unit} {s t : State} (h : m s = m' t) : m.run s = m'.run t := by
  unfold Act.run
  rw [h]

theorem Act.run_of_error {m : Act Unit} {s : State} {r : Refusal} (h : m s = .error r) :
    m.run s = .refused r := by
  unfold Act.run
  rw [h]

section

variable {α : Type} {f : α → HostResult} {m m' : Act α} {s t : State}

theorem run_answering_congr (h : m s = m' t) : (answering f m).run s = (answering f m').run t := by
  refine Act.run_congr ?_
  unfold answering
  rw [Act.bind_apply, Act.bind_apply, h]

theorem run_answering_ok {a : α} (h : m s = .ok (a, t)) :
    (answering f m).run s = .next (t.withResult (f a)) :=
  Act.run_of_ok (answering_ok h)

theorem run_answering_error {r : Refusal} (h : m s = .error r) :
    (answering f m).run s = .refused r :=
  Act.run_of_error (Act.bind_error h)

end

/-! ### The meanings of the read rows -/

section

variable (s : State)

theorem exec_rdUsbcmd : exec .rdUsbcmd s = (answering .dword
    (openRead (usbcmdMask s.cfg.bitpos) (usbcmdFields s.cfg.bitpos s.op))).run s :=
  run_answering_congr (m := readUsbcmd) (Act.get_bind _ s)

theorem exec_rdUsbsts : exec .rdUsbsts s = (answering .dword
    (openRead (usbstsMask s.cfg.bitpos) (usbstsFields s.cfg.bitpos s.op))).run s :=
  run_answering_congr (m := readUsbsts) (Act.get_bind _ s)

theorem exec_rdConfig : exec .rdConfig s = (answering .dword
    (openRead (fieldMask s.cfg.bitpos.maxSlotsEnLo 8)
      (fieldAt s.cfg.bitpos.maxSlotsEnLo s.op.maxSlotsEn))).run s :=
  run_answering_congr (m := readConfig) (Act.get_bind _ s)

theorem exec_rdIman : exec .rdIman s = (answering .dword
    (openRead (imanMask s.cfg.bitpos) (imanFields s.cfg.bitpos s.intr))).run s :=
  run_answering_congr (m := readIman) (Act.get_bind _ s)

theorem exec_rdErstsz : exec .rdErstsz s = (answering .dword
    (openRead (fieldMask s.cfg.bitpos.erstszLo 16)
      (fieldAt s.cfg.bitpos.erstszLo s.intr.erstsz))).run s :=
  run_answering_congr (m := readErstsz) (Act.get_bind _ s)

theorem exec_rdErdpLo : exec .rdErdpLo s = (answering .dword
    (openRead 0xFFFFFFF8#32 (erdpLoFields s.er))).run s :=
  run_answering_congr (m := readErdpLo) (Act.get_bind _ s)

theorem readPortsc_apply (p : PortIx) : readPortsc p s =
    if s.hasPort p = true then
      openRead (portscMask s.cfg.bitpos) (portscFields s.cfg.bitpos (s.ports.get p)) s
    else .error .undefinedOffset := by
  unfold readPortsc
  rw [Act.get_bind]
  cases s.hasPort p <;> rfl

theorem exec_rdPortsc (p : PortIx) : exec (.rdPortsc p) s =
    if s.hasPort p = true then (answering .dword
      (openRead (portscMask s.cfg.bitpos) (portscFields s.cfg.bitpos (s.ports.get p)))).run s
    else .refused .undefinedOffset := by
  show (answering .dword (readPortsc p)).run s = _
  split
  · next h => exact run_answering_congr ((readPortsc_apply s p).trans (if_pos h))
  · next h => exact run_answering_error ((readPortsc_apply s p).trans (if_neg h))

theorem readDoorbell_apply (k : SlotId) : readDoorbell k s =
    if k.toNat ≤ s.cfg.maxSlots.toNat then drawDword s else .error .undefinedOffset := by
  unfold readDoorbell
  rw [Act.get_bind]
  split
  · next h => rw [decide_eq_true h, Act.bind_ok (require_true _ _)]
  · next h => rw [decide_eq_false h, Act.bind_error (require_false _ _)]

theorem exec_rdDb (k : SlotId) : exec (.rdDb k) s =
    if k.toNat ≤ s.cfg.maxSlots.toNat then (answering .dword drawDword).run s
    else .refused .undefinedOffset := by
  show (answering .dword (readDoorbell k)).run s = _
  split
  · next h => exact run_answering_congr ((readDoorbell_apply s k).trans (if_pos h))
  · next h => exact run_answering_error ((readDoorbell_apply s k).trans (if_neg h))

theorem State.hasPort_iff {p : PortIx} : s.hasPort p = true ↔ p.toNat < s.cfg.maxPorts.toNat :=
  decide_eq_true_iff

/-- A register with open bits reads as its fields and some value for the others. -/
theorem run_openRead (m f : Dword) : ∃ w x, (answering .dword (openRead m f)).run s =
    .next ((s.withFree x).withResult (.dword (openBits m f w))) := by
  obtain ⟨w, x, h⟩ := openRead_ok m f s
  exact ⟨w, x, run_answering_ok h⟩

end

/-- A register with open bits answers a value with every property that its open words share. -/
theorem reads_of_open {i : Instr} {m f : Dword} {Q : Dword → Prop} {s : State}
    (he : exec i s = (answering .dword (openRead m f)).run s) (hQ : ∀ w, Q (openBits m f w)) :
    ∃ v, (∃ x, exec i s = .next ((s.withFree x).withResult (.dword v))) ∧ Q v := by
  obtain ⟨w, x, h⟩ := run_openRead s m f
  exact ⟨_, ⟨x, he.trans h⟩, hQ w⟩

/-- Settles O18: a register without open bits by its meaning, one with open bits by what every open
word shows. -/
theorem registerFieldsRead : Obligations.RegisterFieldsRead := by
  intro s
  refine ⟨rfl, rfl, rfl, rfl, rfl, rfl, rfl, rfl, rfl, fun hd => ?_⟩
  obtain ⟨-, ⟨hhch, hcnr, hsts⟩, -, hslots, herst, -, -, ⟨hip, hie, himan⟩⟩ := id hd
  refine ⟨?_, ?_, ?_, ?_, ?_, ?_, fun p => ⟨fun hp => ?_, fun hp => ?_⟩⟩
  · refine reads_of_open (exec_rdUsbcmd s) fun w => ?_
    obtain ⟨hrs, hinte, hhcrst⟩ := showsUsbcmd_openBits hd s.op w
    exact ⟨hrs, hhcrst, hinte⟩
  · exact reads_of_open (exec_rdUsbsts s) (getLsbD_openFlags hhch hcnr hsts _ _)
  · exact reads_of_open (exec_rdConfig s) fun w => extractLsb'_openField _ w (by omega)
  · exact reads_of_open (exec_rdIman s) (getLsbD_openFlags hip hie himan _ _)
  · exact reads_of_open (exec_rdErstsz s) fun w => extractLsb'_openField _ w (by omega)
  · exact reads_of_open (exec_rdErdpLo s) (shows_erdpLo s.er)
  · refine reads_of_open ((exec_rdPortsc s p).trans (if_pos ((s.hasPort_iff).2 hp))) fun w => ?_
    obtain ⟨hccs, hped, hpr, hspeed⟩ := showsPortsc_openBits hd (s.ports.get p) w
    exact ⟨hccs, hped, hpr, hspeed⟩
  · rw [exec_rdPortsc, if_neg fun h => Nat.not_lt.2 hp ((s.hasPort_iff).1 h)]

/-! ### Any value may be drawn -/

/-- Some value is read, and the first of the tape is where there is one. -/
theorem run_drawDword (s : State) : (∃ v x, (answering .dword drawDword).run s =
      .next ((s.withFree x).withResult (.dword v))) ∧
    ∀ w r, (answering .dword drawDword).run (s.withFree ⟨w :: r, s.free.count⟩) =
      .next ((s.withFree ⟨r, s.free.count⟩).withResult (.dword w)) := by
  obtain ⟨v, x, h⟩ := drawDword_ok s
  exact ⟨⟨v, x, run_answering_ok h⟩, fun _ _ => rfl⟩

/-- The open bits of a register are those of the first value of the tape. -/
theorem open_bits_drawn {i : Instr} {m f : Dword} {s : State} {w : Dword} {r : List Dword}
    (he : exec i (s.withFree ⟨w :: r, s.free.count⟩) =
      (answering .dword (openRead m f)).run (s.withFree ⟨w :: r, s.free.count⟩)) :
    ∃ v, exec i (s.withFree ⟨w :: r, s.free.count⟩) =
      .next ((s.withFree ⟨r, s.free.count⟩).withResult (.dword v)) ∧ v &&& ~~~m = w &&& ~~~m :=
  ⟨openBits m f w, he, openBits_and_not_mask m f w⟩

/-- Settles O19: CRCR and the doorbells by the draw, the others by their open bits. -/
theorem openBitsReadAnything : Obligations.OpenBitsReadAnything := by
  intro s k
  refine ⟨?_, fun hk => ?_, ?_⟩
  · rw [List.forall_mem_append]
    refine ⟨?_, fun i hi => ?_⟩
    · simp only [List.forall_mem_cons]
      exact ⟨run_drawDword s, run_drawDword s, List.forall_mem_nil _⟩
    · split at hi
      · next hk =>
        obtain rfl := List.mem_singleton.1 hi
        have he (x : FreeSrc) : exec (.rdDb k) (s.withFree x) =
            (answering .dword drawDword).run (s.withFree x) :=
          (exec_rdDb (s.withFree x) k).trans (if_pos hk)
        obtain ⟨⟨v, x, hsome⟩, hall⟩ := run_drawDword s
        exact ⟨⟨v, x, (he s.free).trans hsome⟩, fun w r => (he _).trans (hall w r)⟩
      · cases hi
  · rw [exec_rdDb, if_neg (Nat.not_le.2 hk)]
  · rw [List.forall_mem_append]
    refine ⟨?_, fun x hx => ?_⟩
    · simp only [List.forall_mem_cons]
      exact ⟨fun _ _ => open_bits_drawn (exec_rdUsbcmd _),
        fun _ _ => open_bits_drawn (exec_rdUsbsts _), fun _ _ => open_bits_drawn (exec_rdConfig _),
        fun _ _ => open_bits_drawn (exec_rdIman _), fun _ _ => open_bits_drawn (exec_rdErstsz _),
        fun _ _ => open_bits_drawn (s := s) (exec_rdErdpLo _), List.forall_mem_nil _⟩
    · split at hx
      · next hp =>
        obtain rfl := List.mem_singleton.1 hx
        exact fun _ _ => open_bits_drawn ((exec_rdPortsc _ k).trans (if_pos hp))
      · cases hx

end Sys2Proof.Machine
end

section
/-! Proofs of the register access family (40_register_access), register writes: each write behind
its gate and its requirements. -/

namespace Sys2Proof.Machine

open Config

/-! ### The gate and the requirements -/

/-- A requirement as a branch on what it decides. -/
theorem run_require_iff {c : Bool} {p : Prop} [Decidable p] (h : c = true ↔ p) (r : Refusal)
    (f : Unit → Act Unit) (s : State) :
    Act.run (require c r >>= f) s = if p then Act.run (f ()) s else .refused r :=
  (run_require_bind c r f s).trans (if_congr h rfl rfl)

/-- The same with the branch on what is refused. -/
theorem run_require_not {c : Bool} {p : Prop} [Decidable p] (h : c = true ↔ ¬p) (r : Refusal)
    (f : Unit → Act Unit) (s : State) :
    Act.run (require c r >>= f) s = if p then .refused r else Act.run (f ()) s :=
  (run_require_iff h r f s).trans (ite_not _ _ _)

/-- What an alignment requirement on a pointer's six low bits decides (20_memory R79). -/
theorem low6_iff {w : Nat} (hw : 6 < w) (q : BitVec w) :
    (q &&& BitVec.ofNat w (2 ^ 6 - 1) == 0#w) = true ↔ q.extractLsb' 0 6 = 0 := by
  rw [and_low_beq 6 q hw, decide_eq_true_eq]
  rfl

/-- While the controller resets the gate refuses what comes behind it (40_register_access R175). -/
theorem run_writable_bind_refused {s : State} (h : s.op.cnr = true ∨ s.op.hcrst = true)
    (f : Unit → Act Unit) : Act.run (writable >>= f) s = .refused .notReady := by
  unfold Act.run
  rw [Act.bind_error (writable_error h)]

/-- Settles O20: every write stands behind the gate; a port's and a doorbell's behind a bound too,
which holds. -/
theorem writesRefusedInReset : Obligations.WritesRefusedInReset := by
  intro s v p k h hp hk
  have gate (f : Unit → Act Unit) : Act.run (writable >>= f) s = .refused .notReady :=
    run_writable_bind_refused h f
  have bounded {c : Bool} (hc : c = true) (r : Refusal) (f : Unit → Act Unit) :
      Act.run (require c r >>= fun _ => writable >>= f) s = .refused .notReady := by
    rw [run_require_bind, if_pos hc]
    exact gate f
  have hdb0 : exec (.wrDb0 v) s = .refused .notReady := gate _
  have hdbi : exec (.wrDbi k v) s = .refused .notReady := by
    show (writeDoorbell k v).run s = _
    unfold writeDoorbell
    split
    · exact hdb0
    · exact (run_get_bind _ s).trans (bounded (decide_eq_true hk) _ _)
  have hportsc : exec (.wrPortsc p v) s = .refused .notReady :=
    (run_get_bind _ s).trans (bounded (decide_eq_true hp) _ _)
  have hsts : exec (.wrUsbsts v) s = .refused .notReady := by
    show writable.run s = _
    unfold Act.run
    rw [writable_error h]
  simp only [List.forall_mem_cons]
  exact ⟨gate _, hsts, gate _, gate _, gate _, gate _, gate _, hportsc, gate _, gate _, gate _,
    gate _, gate _, gate _, hdb0, hdbi, List.forall_mem_nil _⟩

/-! ### USBCMD and PORTSC -/

/-- Settles O21: a reset begins behind the gate and HCH; what is ignored answers the same state. -/
theorem usbcmdWrite : Obligations.UsbcmdWrite := by
  intro s v
  refine ⟨fun r => rfl, fun h1 h2 => ⟨Act.run_of_ok (writable_ok h1 h2), ?_⟩⟩
  refine ((run_writable_bind h1 h2 _).trans (run_get_bind _ s)).trans ?_
  show Act.run (if v.getLsbD s.cfg.bitpos.usbcmdHcrst = true then _ else _) s = _
  split
  · exact run_require_bind _ _ _ s
  · rfl

/-- Settles O23: the bound, the gate, then the one bit that is written. -/
theorem portscWrite : Obligations.PortscWrite := by
  intro s p v h1 h2
  have hbound : s.hasPort p = true ↔ ¬ s.cfg.maxPorts.toNat ≤ p.toNat := by
    rw [s.hasPort_iff, Nat.not_le]
  have hbegins : (bitOf v s.cfg.bitpos.portscPr && !(s.ports.get p).pr) = true ↔
      v.getLsbD s.cfg.bitpos.portscPr = true ∧ (s.ports.get p).pr = false := by
    rw [Bool.and_eq_true, Bool.not_eq_true']
    rfl
  refine ((run_get_bind _ s).trans (run_require_not hbound _ _ s)).trans ?_
  refine ite_congr rfl (fun _ => rfl) fun _ => (run_writable_bind h1 h2 _).trans ?_
  rw [if_congr hbegins rfl rfl]
  split <;> rfl

/-! ### The segment table -/

/-- The load of the event producer, one branch for each bound on the table's entry 0
(40_register_access R168). -/
theorem run_loadEventRing (a : Addr) (s : State) :
    Act.run (loadEventRing a) s =
      let base := s.mem.read64 a
      let size := (s.mem.read32 (a + 8)).extractLsb' 0 16
      if base.extractLsb' 0 6 ≠ 0 then .refused .misalignedPointer
      else if size = 0 ∨ 256 < size.toNat then .refused .segmentSize
      else if base.toNat % Nat.gcd (16 * size.toNat) 4096 ≠ 0 then .refused .misalignedPointer
      else .next (s.withEr
        { s.er with base := base, size := size.toNat, enq := 0, pcs := true }) := by
  extract_lets base size
  have hlow : (base &&& 0x3F#64 == 0) = true ↔ ¬ base.extractLsb' 0 6 ≠ 0 :=
    (low6_iff (by norm_num) base).trans not_ne_iff.symm
  have hsize : (size != 0 && decide (size.toNat ≤ evtRingSize)) = true ↔
      ¬(size = 0 ∨ 256 < size.toNat) := by
    rw [Bool.and_eq_true, bne_iff_ne, decide_eq_true_eq, not_or, Nat.not_lt]
    rfl
  have halign : (base.toNat % segmentAlign size.toNat == 0) = true ↔
      ¬ base.toNat % Nat.gcd (16 * size.toNat) 4096 ≠ 0 :=
    beq_iff_eq.trans not_ne_iff.symm
  refine (run_get_bind _ s).trans ((run_require_not hlow _ _ s).trans ?_)
  refine ite_congr rfl (fun _ => rfl) fun _ => (run_require_not hsize _ _ s).trans ?_
  exact ite_congr rfl (fun _ => rfl) fun _ => run_require_not halign _ _ s

/-- Settles O24: the two stores, then the load where ERSTSZ is 1. -/
theorem erstWrite : Obligations.ErstWrite := by
  intro s v h1 h2
  refine ⟨run_writable_bind h1 h2 _, ?_, ?_⟩
  · exact (run_writable_bind h1 h2 _).trans (run_require_iff (low6_iff (by norm_num) v) _ _ s)
  · extract_lets q base size intr t
    have hone : (s.intr.erstsz == 1) = true ↔ ¬ s.intr.erstsz ≠ 1 :=
      beq_iff_eq.trans not_ne_iff.symm
    refine ((run_writable_bind h1 h2 _).trans (run_get_bind _ s)).trans ?_
    show Act.run (if s.intr.erstsz = 0 then pure () else
      require (s.intr.erstsz == 1) .moreThanOneSegment >>= fun _ =>
        loadEventRing (q &&& ~~~0x3F#64)) t = _
    split
    · rfl
    · refine (run_require_not hone _ _ t).trans ?_
      exact ite_congr rfl (fun _ => rfl) fun _ => run_loadEventRing _ t

/-! ### The interrupter -/

/-- A flag that a written 1 clears. -/
theorem and_not_eq_ite (a b : Bool) : (a && !b) = if b = true then false else a := by
  cases a <;> cases b <;> rfl

/-- ERDP's pointer part: the low dword without its four low bits, under the old high dword. -/
theorem withLo_and_not_low (q : Qword) (v : Dword) : withLo q (v &&& ~~~0xF#32) =
    q.extractLsb' 32 32 ++ v.extractLsb' 4 28 ++ 0#4 := by
  apply BitVec.eq_of_getLsbD_eq
  intro i hi
  unfold withLo hi32
  rw [show 0xF#32 = lowOnes 4 from rfl, BitVec.getLsbD_append, BitVec.getLsbD_append,
    BitVec.getLsbD_append]
  by_cases h4 : i < 4
  · simp [h4, show i < 32 by omega, getElem_lowOnes]
  · by_cases h32 : i < 32
    · simp [h4, h32, getElem_lowOnes, show i - 4 < 28 by omega, show 4 + (i - 4) = i by omega]
    · simp [h4, h32, show ¬ i - 4 < 28 by omega, show i - 4 - 28 = i - 32 by omega]

/-- Settles O25: the three writes behind the gate. -/
theorem interrupterWrite : Obligations.InterrupterWrite := by
  intro s v
  refine ⟨?_, fun h1 h2 => ⟨?_, ?_, run_writable_bind h1 h2 _⟩⟩
  · unfold State.irq
    rw [Bool.and_eq_true, Bool.and_eq_true, and_assoc]
  · rw [← and_not_eq_ite]
    exact run_writable_bind h1 h2 _
  · rw [← and_not_eq_ite, ← withLo_and_not_low]
    exact run_writable_bind h1 h2 _

end Sys2Proof.Machine
end

section
/-! Proofs of the register access family (40_register_access), the access layer: an access is the
read or the write of the register that its offset selects, and a 64-bit access is two of them. -/

namespace Sys2Proof.Machine

open Config

/-! ### The address and the register -/

section

variable {b : RegBlock} {off : Dword} {s : State}

theorem addressAccess_ok (h : s.host.baseKnown b = true) :
    addressAccess b off s = .ok ((), s.onBus b off) := by
  unfold addressAccess
  rw [Act.get_bind, h, Act.bind_ok (require_true _ _)]
  rfl

theorem selectAccess_misaligned (h : off.toNat % 4 ≠ 0) (w : Option Dword) :
    selectAccess ⟨b, off, w⟩ s = .error .misalignedAccess := by
  unfold selectAccess
  rw [Act.get_bind, decodeAccess_misaligned.2 h]
  rfl

theorem regRead32_misaligned (hq : s.Quiet) (hk : s.host.baseKnown b = true)
    (h : off.toNat % 4 ≠ 0) : regRead32 b off s = .error .misalignedAccess := by
  unfold regRead32
  rw [Act.bind_ok (gap_quiet hq), Act.bind_ok (addressAccess_ok hk)]
  exact Act.bind_error (selectAccess_misaligned h none)

theorem regWrite32_misaligned (hq : s.Quiet) (hk : s.host.baseKnown b = true)
    (h : off.toNat % 4 ≠ 0) (v : Dword) : regWrite32 b off v s = .error .misalignedAccess := by
  unfold regWrite32
  rw [Act.bind_ok (gap_quiet hq), Act.bind_ok (addressAccess_ok hk)]
  exact Act.bind_error (selectAccess_misaligned h (some v))

end

/-- An offset with no register has none in either direction (20_memory R72). -/
theorem decodeAccess_undefined_write {c : Params} {b : RegBlock} {off : Dword}
    (h : decodeAccess c ⟨b, off, none⟩ = .ok (.undefinedOffset b off none)) (v : Dword) :
    decodeAccess c ⟨b, off, some v⟩ = .ok (.undefinedOffset b off (some v)) := by
  have h4 : off.toNat % 4 = 0 := decodeAccess_isOk.1 ⟨_, h⟩
  unfold decodeAccess at h ⊢
  rw [if_neg (not_not.2 h4)] at h ⊢
  cases b <;> dsimp only at h ⊢ <;> rw [Except.ok.injEq] at h ⊢
  case cap => exact decodeCap_eq_undefined.2 (decodeCap_eq_undefined.1 h)
  case op => exact decodeOp_eq_undefined.2 (decodeOp_eq_undefined.1 h)
  case rt => exact decodeRt_eq_undefined.2 (decodeRt_eq_undefined.1 h)
  case db => exact (decodeDb_eq_undefined h4).2 ((decodeDb_eq_undefined h4).1 h)

/-- The meaning of a register's read row is the effect of the access that selects it. -/
theorem exec_of_decode_read {c : Params} {b : RegBlock} {off : Dword} {i : Instr}
    (h : decodeAccess c ⟨b, off, none⟩ = .ok i) (s : State) :
    exec i s = (answering .dword (readEffect i)).run s := by
  unfold decodeAccess at h
  split at h
  · cases h
  · cases b <;> cases h
    · show exec (decodeCap off none) s = _
      unfold decodeCap
      dsimp only
      split_ifs <;> rfl
    · show exec (decodeOp c off none) s = _
      unfold decodeOp
      dsimp only
      repeat' split
      all_goals rfl
    · show exec (decodeRt off none) s = _
      unfold decodeRt
      dsimp only
      split_ifs <;> rfl
    · show exec (decodeDb c off none) s = _
      unfold decodeDb
      dsimp only
      split <;> rfl

/-- The meaning of a register's write row is the effect of the access that selects it. -/
theorem exec_of_decode_write {c : Params} {b : RegBlock} {off v : Dword} {i : Instr}
    (h : decodeAccess c ⟨b, off, some v⟩ = .ok i) (s : State) :
    exec i s = (writeEffect i).run s := by
  unfold decodeAccess at h
  split at h
  · cases h
  · cases b <;> cases h
    · show exec (decodeCap off (some v)) s = _
      unfold decodeCap
      dsimp only
      split_ifs <;> rfl
    · show exec (decodeOp c off (some v)) s = _
      unfold decodeOp
      dsimp only
      repeat' split
      all_goals rfl
    · show exec (decodeRt off (some v)) s = _
      unfold decodeRt
      dsimp only
      split_ifs <;> rfl
    · show exec (decodeDb c off (some v)) s = _
      unfold decodeDb
      dsimp only
      repeat' split
      all_goals rfl

section

variable {b : RegBlock} {off v : Dword} {i : Instr} {s : State}

theorem exec_rd32_quiet (hq : s.Quiet) (hk : s.host.baseKnown b = true)
    (hd : decodeAccess s.cfg ⟨b, off, none⟩ = .ok i) :
    exec (.rd32 b off) s = exec i (s.onBus b off) := by
  rw [exec_rd32, exec_of_decode_read hd]
  exact run_answering_congr (regRead32_apply (gap_quiet hq) hk hd)

theorem exec_wr32_quiet (hq : s.Quiet) (hk : s.host.baseKnown b = true)
    (hd : decodeAccess s.cfg ⟨b, off, some v⟩ = .ok i) :
    exec (.wr32 b off v) s = exec i (s.onBus b off) := by
  rw [exec_wr32, exec_of_decode_write hd]
  exact Act.run_congr (regWrite32_apply (gap_quiet hq) hk hd)

end

/-- Settles O27: what selects no register is refused at the access. -/
theorem undefinedAccessesRefused : Obligations.UndefinedAccessesRefused := by
  intro s b off v
  refine ⟨fun w => rfl, fun hq hk => ⟨fun h => ⟨?_, ?_⟩, fun hd => ⟨?_, ?_⟩⟩⟩
  · exact run_answering_error (regRead32_misaligned hq hk h)
  · exact Act.run_of_error (regWrite32_misaligned hq hk h v)
  · exact exec_rd32_quiet hq hk hd
  · exact exec_wr32_quiet hq hk (decodeAccess_undefined_write hd v)

/-- Settles O28: the read row's meaning, which answers for every register. -/
theorem rd32IsTheRead : Obligations.Rd32IsTheRead := by
  intro s b off i hq hk hd
  refine ⟨exec_rd32_quiet hq hk hd, fun hi => ?_⟩
  obtain ⟨v, x, h⟩ := regRead32_quiet hq hk hd hi
  exact ⟨v, x, run_answering_ok h⟩

/-! ### What each register accepts -/

section

variable {s : State} {f : Unit → Act Unit}

theorem not_completes_refused (r : Refusal) : ¬ Completes (.refused r) := by
  rintro ⟨_, h⟩
  cases h

theorem completes_writable_bind : Completes (Act.run (writable >>= f) s) ↔
    s.op.ready = true ∧ Completes (Act.run (f ()) s) := by
  have h : Act.run (writable >>= f) s = Act.run (require s.op.ready .notReady >>= f) s :=
    Act.run_congr rfl
  rw [h, run_require_bind]
  split
  · next hr => exact ⟨fun hc => ⟨hr, hc⟩, And.right⟩
  · next hr => exact iff_of_false (not_completes_refused _) fun hc => hr hc.1

theorem completes_require_bind {c : Bool} {p : Prop} (h : c = true ↔ p) {r : Refusal} :
    Completes (Act.run (require c r >>= f) s) ↔ p ∧ Completes (Act.run (f ()) s) := by
  rw [run_require_bind, ← h]
  split
  · next hr => exact ⟨fun hc => ⟨hr, hc⟩, And.right⟩
  · next hr => exact iff_of_false (not_completes_refused _) fun hc => hr hc.1

theorem completes_writable : Completes (writable.run s) ↔ s.op.ready = true :=
  ⟨fun ⟨_, h⟩ => (writable_eq_ok.1 (Act.run_eq_next.1 h)).1,
    fun h => ⟨s, Act.run_of_ok (writable_eq_ok.2 ⟨h, rfl⟩)⟩⟩

/-- An action that always answers. -/
theorem completes_iff_true {m : Act Unit} {t : State} (h : m s = .ok ((), t)) :
    Completes (m.run s) ↔ True :=
  iff_true_intro ⟨t, Act.run_of_ok h⟩

end

section

variable (s : State) (v : Dword)

theorem completes_writable_modify (f : State → State) :
    Completes (Act.run (writable >>= fun _ => modify f) s) ↔ s.op.ready = true := by
  rw [completes_writable_bind, completes_iff_true (Act.modify_apply f s), and_true]

theorem completes_writeUsbcmd : Completes ((writeUsbcmd v).run s) ↔ s.accepts (.wrUsbcmd v) := by
  unfold writeUsbcmd
  rw [completes_writable_bind, run_get_bind]
  refine and_congr_right fun _ => ?_
  by_cases h : bitOf v s.cfg.bitpos.usbcmdHcrst = true
  · rw [if_pos h, completes_require_bind Iff.rfl, completes_iff_true (Act.set_apply _ _), and_true]
    exact ⟨fun hh _ => hh, fun hh => hh h⟩
  · rw [if_neg h, completes_iff_true (Act.set_apply _ _)]
    exact ⟨fun _ hb => absurd hb h, fun _ => trivial⟩

theorem completes_writeDcbaapLo :
    Completes ((writeDcbaapLo v).run s) ↔ s.accepts (.wrDcbaapLo v) := by
  refine completes_writable_bind.trans (and_congr_right fun _ => ?_)
  exact (completes_require_bind (low6_iff (by norm_num) v)).trans (and_iff_left ⟨_, rfl⟩)

theorem completes_writeErstbaLo :
    Completes ((writeErstbaLo v).run s) ↔ s.accepts (.wrErstbaLo v) := by
  refine completes_writable_bind.trans (and_congr_right fun _ => ?_)
  exact (completes_require_bind (low6_iff (by norm_num) v)).trans (and_iff_left ⟨_, rfl⟩)

theorem completes_writeConfig : Completes ((writeConfig v).run s) ↔ s.accepts (.wrConfig v) := by
  unfold writeConfig
  rw [completes_writable_bind, run_get_bind, completes_require_bind decide_eq_true_iff,
    completes_iff_true (Act.set_apply _ _), and_true]
  rfl

theorem completes_writePortsc (p : PortIx) :
    Completes ((writePortsc p v).run s) ↔ s.accepts (.wrPortsc p v) := by
  unfold writePortsc
  rw [run_get_bind, completes_require_bind Iff.rfl, completes_writable_bind]
  refine and_congr_right fun _ => and_iff_left ?_
  split
  · exact ⟨_, rfl⟩
  · exact ⟨_, rfl⟩

theorem completes_loadEventRing (a : Addr) : Completes ((loadEventRing a).run s) ↔
    (s.mem.read64 a).extractLsb' 0 6 = 0 ∧
    (((s.mem.read32 (a + 8)).extractLsb' 0 16 ≠ 0 ∧
      ((s.mem.read32 (a + 8)).extractLsb' 0 16).toNat ≤ evtRingSize) ∧
    (s.mem.read64 a).toNat %
      Nat.gcd (16 * ((s.mem.read32 (a + 8)).extractLsb' 0 16).toNat) 4096 = 0) := by
  have hsize : ((s.mem.read32 (a + 8)).extractLsb' 0 16 != 0 &&
      decide (((s.mem.read32 (a + 8)).extractLsb' 0 16).toNat ≤ evtRingSize)) = true ↔
      (s.mem.read32 (a + 8)).extractLsb' 0 16 ≠ 0 ∧
      ((s.mem.read32 (a + 8)).extractLsb' 0 16).toNat ≤ evtRingSize := by
    rw [Bool.and_eq_true, bne_iff_ne, decide_eq_true_eq]
  unfold loadEventRing
  rw [run_get_bind]
  refine (completes_require_bind (low6_iff (by norm_num) (s.mem.read64 a))).trans
    (and_congr_right fun _ => ?_)
  refine (completes_require_bind hsize).trans (and_congr_right fun _ => ?_)
  exact (completes_require_bind beq_iff_eq).trans (and_iff_left ⟨_, rfl⟩)

theorem completes_writeErstbaHi :
    Completes ((writeErstbaHi v).run s) ↔ s.accepts (.wrErstbaHi v) := by
  unfold writeErstbaHi
  rw [completes_writable_bind, run_get_bind]
  refine and_congr_right fun _ => ?_
  let t := s.withIntr { s.intr with erstba := withHi s.intr.erstba v }
  show Completes (Act.run (if s.intr.erstsz = 0 then pure () else
      require (s.intr.erstsz == 1) .moreThanOneSegment >>= fun _ =>
        loadEventRing (withHi s.intr.erstba v &&& ~~~0x3F#64)) t) ↔ _
  split
  · next h => exact ⟨fun _ => .inl h, fun _ => ⟨t, rfl⟩⟩
  · next h =>
    rw [completes_require_bind beq_iff_eq, completes_loadEventRing, or_iff_right h, and_assoc]
    rfl

theorem completes_writeDb0 : Completes ((writeDb0 v).run s) ↔ s.accepts (.wrDb0 v) := by
  unfold writeDb0
  rw [completes_writable_bind, run_get_bind]
  refine and_congr_right fun _ => ?_
  split
  · next h => exact ⟨fun _ => .inl h, fun _ => ⟨s, rfl⟩⟩
  · next h =>
    rw [completes_require_bind beq_iff_eq, completes_iff_true (Act.set_apply _ _), and_true,
      or_iff_right h]
    rfl

theorem completes_writeDoorbell (k : SlotId) :
    Completes ((writeDoorbell k v).run s) ↔ s.accepts (.wrDbi k v) := by
  unfold writeDoorbell
  split
  · next h =>
    subst h
    refine (completes_writeDb0 s v).trans ?_
    simp [State.accepts]
  · next h =>
    unfold writeDbi
    rw [run_get_bind, completes_require_bind decide_eq_true_iff, completes_writable_bind]
    refine and_congr_right fun _ => and_congr_right fun _ => ?_
    rw [if_neg h]
    split
    · next hc =>
      rw [Bool.or_eq_true, Bool.not_eq_true'] at hc
      exact ⟨fun _ => hc.imp_right fun hidle => .inl ⟨h, hidle⟩, fun _ => ⟨s, rfl⟩⟩
    · next hc =>
      rw [Bool.or_eq_true, Bool.not_eq_true', not_or] at hc
      rw [completes_require_bind beq_iff_eq, completes_iff_true (Act.set_apply _ _), and_true,
        or_iff_right hc.1, or_iff_right fun hidle => hc.2 hidle.2]
      rfl

/-- A register write completes exactly where the register accepts the value. -/
theorem completes_writeEffect (i : Instr) : Completes ((writeEffect i).run s) ↔ s.accepts i := by
  cases i
  case wrCap => exact completes_iff_true (Act.pure_apply () s)
  case wrUsbcmd v => exact completes_writeUsbcmd s v
  case wrUsbsts => exact completes_writable
  case wrCrcrLo => exact completes_writable_modify s _
  case wrCrcrHi =>
    exact completes_writable_bind.trans (and_iff_left ⟨_, rfl⟩)
  case wrDcbaapLo v => exact completes_writeDcbaapLo s v
  case wrDcbaapHi => exact completes_writable_modify s _
  case wrConfig v => exact completes_writeConfig s v
  case wrPortsc p v => exact completes_writePortsc s v p
  case wrIman => exact completes_writable_modify s _
  case wrErstsz => exact completes_writable_modify s _
  case wrErstbaLo v => exact completes_writeErstbaLo s v
  case wrErstbaHi v => exact completes_writeErstbaHi s v
  case wrErdpLo => exact completes_writable_modify s _
  case wrErdpHi => exact completes_writable_modify s _
  case wrDb0 v => exact completes_writeDb0 s v
  case wrDbi k v => exact completes_writeDoorbell s v k
  all_goals exact iff_of_false (not_completes_refused _) id

/-- The address on the bus is no part of what a register accepts. -/
theorem State.accepts_onBus (b : RegBlock) (off : Dword) (i : Instr) :
    (s.onBus b off).accepts i ↔ s.accepts i := by
  cases i <;> rfl

end

/-- Settles O29: the write row's meaning, and what that accepts. -/
theorem wr32IsTheWrite : Obligations.Wr32IsTheWrite := by
  intro s b off v i hq hk hd
  have hexec := exec_wr32_quiet hq hk hd
  refine ⟨hexec, ?_⟩
  rw [hexec, exec_of_decode_write hd]
  exact (completes_writeEffect (s.onBus b off) i).trans (s.accepts_onBus b off i)

/-! ### 64-bit registers -/

theorem aligned64_iff {off : Dword} : (off.toNat % 8 == 0) = true ↔ ¬ off.toNat % 8 ≠ 0 :=
  beq_iff_eq.trans not_ne_iff.symm

/-- A 64-bit read is the two dword reads, low first (40_register_access R152). -/
theorem exec_rd64_ok {b : RegBlock} {off lo hi : Dword} {s t u : State} (ha : off.toNat % 8 = 0)
    (hlo : regRead32 b off s = .ok (lo, t)) (hhi : regRead32 b (off + 4) t = .ok (hi, u)) :
    exec (.rd64 b off) s = .next (u.withResult (.qword (hi ++ lo))) := by
  refine run_answering_ok (m := regRead64 b off) ?_
  unfold regRead64 aligned64
  rw [Act.bind_ok (require_eq_ok.2 ⟨beq_iff_eq.2 ha, rfl⟩), Act.bind_ok hlo, Act.bind_ok hhi]
  rfl

theorem exec_rd64_misaligned {b : RegBlock} {off : Dword} (h : off.toNat % 8 ≠ 0) (s : State) :
    exec (.rd64 b off) s = .refused .misalignedAccess := by
  refine run_answering_error (m := regRead64 b off) (Act.bind_error ?_)
  unfold aligned64
  rw [beq_eq_false_iff_ne.2 h]
  exact require_false _ s

/-- The two dwords of ERDP together show the pointer and EHB (40_register_access R170). -/
theorem shows_erdp {p : Qword} {lo : Dword} (h : lo.extractLsb' 4 28 = p.extractLsb' 4 28) :
    (hi32 p ++ lo).extractLsb' 4 60 = p.extractLsb' 4 60 := by
  apply BitVec.eq_of_getLsbD_eq
  intro i hi
  have e : (hi32 p ++ lo : Qword).getLsbD (4 + i) = p.getLsbD (4 + i) := by
    have happ := BitVec.getLsbD_append (x := hi32 p) (y := lo) (i := 4 + i)
    refine happ.trans ?_
    by_cases hlt : 4 + i < 32
    · have hbit := congrArg (fun x => x.getLsbD i) h
      simp only [BitVec.getLsbD_extractLsb', show i < 28 by omega, decide_true,
        Bool.true_and] at hbit
      rw [if_pos hlt, hbit]
    · rw [if_neg hlt]
      unfold hi32
      rw [BitVec.getLsbD_extractLsb', decide_eq_true (by omega), Bool.true_and,
        show 32 + (4 + i - 32) = 4 + i by omega]
  rw [BitVec.getLsbD_extractLsb', BitVec.getLsbD_extractLsb', e]

/-- Settles O30: each register by its two dwords. -/
theorem rd64Reads : Obligations.Rd64Reads := by
  intro s hq hb
  refine ⟨?_, ?_, ?_, ?_, fun b off h => exec_rd64_misaligned h s⟩
  · have hlo : regRead32 .op 0x30 s = .ok (lo32 s.op.dcbaap, s.onBus .op 0x30) :=
      regRead32_ok (i := .rdDcbaapLo) (gap_quiet hq) hb rfl rfl
    have hhi : regRead32 .op (0x30 + 4) (s.onBus .op 0x30) =
        .ok (hi32 s.op.dcbaap, s.onBus .op 0x34) :=
      regRead32_ok (i := .rdDcbaapHi) (gap_quiet (s := s.onBus .op 0x30) hq) hb rfl rfl
    rw [exec_rd64_ok rfl hlo hhi, hi32_append_lo32]
  · have hlo : regRead32 .rt 0x30 s = .ok (lo32 s.intr.erstba, s.onBus .rt 0x30) :=
      regRead32_ok (i := .rdErstbaLo) (gap_quiet hq) hb rfl rfl
    have hhi : regRead32 .rt (0x30 + 4) (s.onBus .rt 0x30) =
        .ok (hi32 s.intr.erstba, s.onBus .rt 0x34) :=
      regRead32_ok (i := .rdErstbaHi) (gap_quiet (s := s.onBus .rt 0x30) hq) hb rfl rfl
    rw [exec_rd64_ok rfl hlo hhi, hi32_append_lo32]
  · obtain ⟨w, x, hopen⟩ := openRead_ok 0xFFFFFFF8#32 (erdpLoFields s.er) (s.onBus .rt 0x38)
    have hlo := regRead32_ok (b := .rt) (off := 0x38) (i := .rdErdpLo) (gap_quiet hq) hb rfl hopen
    have hhi : regRead32 .rt (0x38 + 4) ((s.onBus .rt 0x38).withFree x) =
        .ok (hi32 s.er.deqPtr, (s.onBus .rt 0x3C).withFree x) :=
      regRead32_ok (i := .rdErdpHi) (gap_quiet (s := (s.onBus .rt 0x38).withFree x) hq) hb rfl rfl
    obtain ⟨hptr, hehb⟩ := shows_erdpLo s.er w
    refine ⟨_, x, exec_rd64_ok rfl hlo hhi, shows_erdp hptr, ?_⟩
    refine (BitVec.getLsbD_append (x := hi32 s.er.deqPtr)).trans ?_
    rwa [if_pos (by norm_num)]
  · obtain ⟨lo, x, hdraw⟩ := drawDword_ok (s.onBus .op 0x18)
    have hlo := regRead32_ok (b := .op) (off := 0x18) (i := .rdCrcrLo) (gap_quiet hq) hb rfl hdraw
    obtain ⟨hi, y, hdraw'⟩ := drawDword_ok (((s.onBus .op 0x18).withFree x).onBus .op 0x1C)
    have hhi := regRead32_ok (b := .op) (off := 0x18 + 4) (i := .rdCrcrHi)
      (gap_quiet (s := (s.onBus .op 0x18).withFree x) hq) hb rfl hdraw'
    exact ⟨hi ++ lo, y, exec_rd64_ok rfl hlo hhi⟩

/-- A 64-bit write is the two dword writes, low first (40_register_access R153). -/
theorem exec_wr64_ok {b : RegBlock} {off : Dword} {q : Qword} {s t u : State}
    (ha : off.toNat % 8 = 0) (hlo : exec (.wr32 b off (lo32 q)) s = .next t)
    (hhi : exec (.wr32 b (off + 4) (hi32 q)) t = .next u) : exec (.wr64 b off q) s = .next u := by
  refine (run_require_not aligned64_iff _ _ s).trans ((if_neg (not_not.2 ha)).trans ?_)
  exact (Act.run_congr (Act.bind_ok (Act.run_eq_next.1 hlo))).trans hhi

/-- Both halves of an ERDP write: the whole pointer without its four low bits. -/
theorem ackHi_ackLo (e : EvtProducer) (q : Qword) :
    (e.ackLo (lo32 q)).ackHi (hi32 q) = { e with
      deqPtr := q &&& ~~~0xF#64, ehb := if q.getLsbD 3 = true then false else e.ehb } := by
  have hbit : bitOf (lo32 q) 3 = q.getLsbD 3 := by
    unfold bitOf lo32
    rw [BitVec.getLsbD_extractLsb', decide_eq_true (by norm_num), Bool.true_and]
  unfold EvtProducer.ackLo EvtProducer.ackHi
  rw [withHalves_mask, hbit, and_not_eq_ite]

/-- The low bits of a pointer are those of its low dword. -/
theorem extractLsb'_lo32 (q : Qword) : (lo32 q).extractLsb' 0 6 = q.extractLsb' 0 6 := by
  apply BitVec.eq_of_getLsbD_eq
  intro i hi
  unfold lo32
  rw [BitVec.getLsbD_extractLsb', BitVec.getLsbD_extractLsb', BitVec.getLsbD_extractLsb',
    decide_eq_true (show 0 + i < 32 by omega), Bool.true_and, Nat.zero_add]

section

variable {s : State} (hq : s.Quiet) (hb : s.host.basesFixed = true) (h1 : s.op.hcrst = false)
  (h2 : s.op.cnr = false) (q : Qword)

include hq hb h1 h2

/-- DCBAAP written whole (40_register_access R164). -/
theorem exec_wr64_dcbaap (hlow : q.extractLsb' 0 6 = 0) : exec (.wr64 .op 0x30 q) s =
    .next ((s.onBus .op 0x34).withOp { s.op with dcbaap := q }) := by
  let t := (s.onBus .op 0x30).withOp { s.op with dcbaap := withLo s.op.dcbaap (lo32 q) }
  have hlo : exec (.wr32 .op 0x30 (lo32 q)) s = .next t := by
    obtain ⟨-, -, h, -⟩ := pointerAndConfigWrites (s.onBus .op 0x30) (lo32 q) h1 h2
    refine (exec_wr32_quiet (b := .op) (i := .wrDcbaapLo (lo32 q)) hq hb
      (decodeAccess_encodeAccess rfl rfl)).trans ?_
    exact h.trans (if_pos ((extractLsb'_lo32 q).trans hlow))
  have hhi : exec (.wr32 .op 0x34 (hi32 q)) t = .next ((s.onBus .op 0x34).withOp
      { s.op with dcbaap := withHi (withLo s.op.dcbaap (lo32 q)) (hi32 q) }) := by
    obtain ⟨-, -, -, h, -⟩ := pointerAndConfigWrites (t.onBus .op 0x34) (hi32 q) h1 h2
    exact (exec_wr32_quiet (b := .op) (s := t) (i := .wrDcbaapHi (hi32 q)) hq hb
      (decodeAccess_encodeAccess rfl rfl)).trans h
  rw [withHi_withLo] at hhi
  exact exec_wr64_ok rfl hlo hhi

/-- ERDP written whole (40_register_access R170). -/
theorem exec_wr64_erdp : exec (.wr64 .rt 0x38 q) s =
    .next ((s.onBus .rt 0x3C).withEr { s.er with
      deqPtr := q &&& ~~~0xF#64, ehb := if q.getLsbD 3 = true then false else s.er.ehb }) := by
  rw [← ackHi_ackLo]
  exact Act.run_of_ok (writeErdp_quiet hq hb h1 h2 q)

/-- CRCR written whole (40_register_access R163). -/
theorem exec_wr64_crcr : exec (.wr64 .op 0x18 q) s =
    let t := (s.onBus .op 0x1C).withOp { s.op with crcrLatch := q }
    .next (if s.cr.running = true then t
      else t.withCr ⟨q &&& ~~~0x3F#64, 0, q.getLsbD s.cfg.bitpos.crcrRcs, false, true⟩) := by
  let t := (s.onBus .op 0x18).withOp { s.op with crcrLatch := withLo s.op.crcrLatch (lo32 q) }
  have hlo : exec (.wr32 .op 0x18 (lo32 q)) s = .next t := by
    obtain ⟨h, -⟩ := pointerAndConfigWrites (s.onBus .op 0x18) (lo32 q) h1 h2
    exact (exec_wr32_quiet (b := .op) (i := .wrCrcrLo (lo32 q)) hq hb
      (decodeAccess_encodeAccess rfl rfl)).trans h
  have hhi : exec (.wr32 .op 0x1C (hi32 q)) t =
      let latch := withHi (withLo s.op.crcrLatch (lo32 q)) (hi32 q)
      let u := (s.onBus .op 0x1C).withOp { s.op with crcrLatch := latch }
      .next (if s.cr.running = true then u else
        u.withCr ⟨latch &&& ~~~0x3F#64, 0, latch.getLsbD s.cfg.bitpos.crcrRcs, false, true⟩) := by
    obtain ⟨-, h, -⟩ := pointerAndConfigWrites (t.onBus .op 0x1C) (hi32 q) h1 h2
    exact (exec_wr32_quiet (b := .op) (s := t) (i := .wrCrcrHi (hi32 q)) hq hb
      (decodeAccess_encodeAccess rfl rfl)).trans h
  rw [withHi_withLo] at hhi
  exact exec_wr64_ok rfl hlo hhi

end

/-- What the low write leaves decides whether the high one is made. -/
theorem exec_wr64_eq (b : RegBlock) (off : Dword) (q : Qword) (s : State) :
    exec (.wr64 b off q) s =
      if off.toNat % 8 ≠ 0 then .refused .misalignedAccess
      else match exec (.wr32 b off (lo32 q)) s with
        | .next t => exec (.wr32 b (off + 4) (hi32 q)) t
        | o => o := by
  refine (run_require_not aligned64_iff _ _ s).trans (ite_congr rfl (fun _ => rfl) fun _ => ?_)
  cases hlo : regWrite32 b off (lo32 q) s with
  | ok p =>
    have hexec : exec (.wr32 b off (lo32 q)) s = .next p.2 := Act.run_of_ok hlo
    rw [hexec]
    exact Act.run_congr (Act.bind_ok hlo)
  | error r =>
    have hexec : exec (.wr32 b off (lo32 q)) s = .refused r := Act.run_of_error hlo
    rw [hexec]
    exact Act.run_of_error (Act.bind_error hlo)

/-- Settles O31: the two writes, then each pointer whole. -/
theorem wr64Writes : Obligations.Wr64Writes := by
  intro s q
  refine ⟨fun b off => (exec_wr64_eq b off q s).trans ?_, fun hq hb h1 h2 =>
    ⟨exec_wr64_dcbaap hq hb h1 h2 q, exec_wr64_erdp hq hb h1 h2 q, exec_wr64_crcr hq hb h1 h2 q⟩⟩
  rfl

end Sys2Proof.Machine
end

section
/-! Proofs of the register access family (40_register_access), what every step keeps: the slot
invariants, which CONFIG bounds, and the constants. -/

namespace Sys2Proof.Machine

/-! ### The slot invariant -/

theorem State.isAddressed_iff {s : State} {i : SlotId} :
    s.isAddressed i = true ↔ (s.slots.get i).state = .addressed := beq_iff_eq

theorem State.isAddressed_of_slots_eq {s t : State} (h : t.slots = s.slots) (i : SlotId) :
    t.isAddressed i = s.isAddressed i := by
  unfold State.isAddressed
  rw [h]

theorem State.SlotInv.config_le {s : State} (hs : s.SlotInv) :
    s.op.maxSlotsEn.toNat ≤ s.cfg.maxSlots.toNat := hs.2.2.2.2

/-- The invariant speaks of the slots, of which of them have an engine, of CONFIG and MAX_SLOTS. -/
theorem State.SlotInv.of_eq {s t : State} (hs : s.SlotInv) (hslots : t.slots = s.slots)
    (htr : ∀ i, (t.tr.get i).isSome = (s.tr.get i).isSome)
    (hcfg : t.cfg = s.cfg) (hn : t.op.maxSlotsEn.toNat ≤ s.cfg.maxSlots.toNat) : t.SlotInv := by
  obtain ⟨hengine, hinj, hzero, hrange, -⟩ := hs
  have ha := State.isAddressed_of_slots_eq hslots
  unfold State.SlotInv
  simp only [ha, htr, hslots, hcfg]
  exact ⟨hengine, hinj, hzero, hrange, hn⟩

/-- A slot's engine moved, stopped or woken: the same slots have one. -/
theorem State.isSome_withXfer {s : State} {i : SlotId} {x : Option XferRing}
    (h : x.isSome = (s.tr.get i).isSome) (j : SlotId) :
    ((s.withXfer i x).tr.get j).isSome = (s.tr.get j).isSome := by
  show ((s.tr.put i x).get j).isSome = _
  rw [Tab.get_put]
  split
  · next e => rw [h, e]
  · rfl

theorem State.SlotInv.withXfer {s : State} (hs : s.SlotInv) {i : SlotId} {x : Option XferRing}
    (h : x.isSome = (s.tr.get i).isSome) : (s.withXfer i x).SlotInv :=
  hs.of_eq rfl (State.isSome_withXfer h) rfl hs.config_le

/-- Enable Slot: the id was disabled, and CONFIG bounds it (44_commands R304). -/
theorem State.SlotInv.enable {s : State} (hs : s.SlotInv) {i : SlotId} (h : i ∈ s.freeSlotIds) :
    (s.withSlot i { s.slots.get i with state := .enabled }).SlotInv := by
  obtain ⟨hengine, hinj, hzero, hrange, hconfig⟩ := hs
  obtain ⟨hlo, hhi, hoff⟩ := State.mem_freeSlotIds.1 h
  have hget (j : SlotId) : (s.withSlot i { s.slots.get i with state := .enabled }).slots.get j =
      if j = i then { s.slots.get i with state := .enabled } else s.slots.get j :=
    Tab.get_put _ _ _ _
  have haddr (j : SlotId) : ((s.withSlot i { s.slots.get i with state := .enabled }).slots.get
      j).addr = (s.slots.get j).addr := by
    rw [hget]
    split
    · next e => rw [e]
    · rfl
  have hisAddr (j : SlotId) : (s.withSlot i { s.slots.get i with state := .enabled }).isAddressed
      j = s.isAddressed j := by
    unfold State.isAddressed
    rw [hget]
    split
    · next e => rw [e, hoff]; rfl
    · rfl
  unfold State.SlotInv
  simp only [hisAddr, haddr]
  refine ⟨hengine, hinj, hzero, fun j hj => ?_, hconfig⟩
  rw [hget] at hj
  split at hj
  · next e =>
    rw [e]
    exact ⟨hlo, hhi.trans hconfig⟩
  · exact hrange j hj

/-- Address Device: the slot was enabled, its address is held by no other and its engine is new
(44_commands R310). -/
theorem State.SlotInv.address {s : State} (hs : s.SlotInv) {n : SlotId} {a : BitVec 7} {dc : Addr}
    {r : XferRing} (hn : (s.slots.get n).state = .enabled) (ha : a ∈ s.freeAddresses n) :
    ((s.withSlot n ⟨.addressed, a, dc⟩).withXfer n (some r)).SlotInv := by
  obtain ⟨hengine, hinj, hzero, hrange, hconfig⟩ := hs
  obtain ⟨ha0, hfree⟩ := State.mem_freeAddresses.1 ha
  let t := (s.withSlot n ⟨.addressed, a, dc⟩).withXfer n (some r)
  have hslot : t.slots.get n = ⟨.addressed, a, dc⟩ := Tab.get_put_same _ _ _
  have hslot' {j : SlotId} (h : j ≠ n) : t.slots.get j = s.slots.get j := Tab.get_put_ne _ _ h
  have hnew : t.isAddressed n = true := State.isAddressed_iff.2 (by rw [hslot])
  have hold {j : SlotId} (h : j ≠ n) : t.isAddressed j = s.isAddressed j := by
    unfold State.isAddressed
    rw [hslot' h]
  have hclash {j : SlotId} (h : j ≠ n) (hj : t.isAddressed j = true)
      (e : (t.slots.get j).addr = (t.slots.get n).addr) : False := by
    rw [hslot' h, hslot] at e
    exact hfree j h (hold h ▸ hj) e
  refine ⟨fun j => ?_, fun i j hi hj e => ?_, fun j hj => ?_, fun j hj => ?_, hconfig⟩
  · show (t.tr.get j).isSome = t.isAddressed j
    by_cases h : j = n
    · rw [h, hnew]
      exact congrArg Option.isSome (Tab.get_put_same _ _ _)
    · rw [hold h, ← hengine j]
      exact congrArg Option.isSome (Tab.get_put_ne _ _ h)
  · by_cases h : i = n <;> by_cases h' : j = n
    · rw [h, h']
    · rw [h] at e
      exact (hclash h' hj e.symm).elim
    · rw [h'] at e
      exact (hclash h hi e).elim
    · refine hinj i j (hold h ▸ hi) (hold h' ▸ hj) ?_
      rwa [← hslot' h, ← hslot' h']
  · show (t.slots.get j).addr ≠ 0
    by_cases h : j = n
    · rw [h, hslot]
      exact ha0
    · rw [hslot' h]
      exact hzero j (hold h ▸ hj)
  · by_cases h : j = n
    · rw [h]
      exact hrange n (by rw [hn]; simp)
    · exact hrange j (by rw [← hslot' h]; exact hj)

/-- After a controller reset no slot is in use (70_reset R411). -/
theorem slotInv_controllerReset (s : State) : s.controllerReset.SlotInv := by
  have hslots (i : SlotId) : s.controllerReset.slots.get i = .disabled := Tab.get_replicate _ _
  have htr (i : SlotId) : s.controllerReset.tr.get i = none := Tab.get_replicate _ _
  have haddr (i : SlotId) : s.controllerReset.isAddressed i = false := by
    unfold State.isAddressed
    rw [hslots]
    rfl
  refine ⟨fun i => ?_, fun i j hi => ?_, fun i hi => ?_, fun i hi => ?_, Nat.zero_le _⟩
  · rw [htr, haddr]
    rfl
  · rw [haddr] at hi
    cases hi
  · rw [haddr] at hi
    cases hi
  · exact absurd (by rw [hslots]; rfl) hi

theorem slotInv_engineClosed : EngineClosed State.SlotInv := by
  intro s t h hs
  cases h with
  | slotEnable i h => exact hs.enable h
  | install n a dc r hn ha => exact hs.address hn ha
  | xferStop i r h => exact hs.withXfer (by rw [h]; rfl)
  | xferAdvance i r k h => exact hs.withXfer (by rw [h]; rfl)
  | _ => exact hs.of_eq rfl (fun _ => rfl) rfl hs.config_le

/-- A halt stops the engines and takes none away; a reset takes every slot and every engine. -/
theorem slotInv_ctlClosed : CtlClosed State.SlotInv := by
  intro s t h hs
  cases h with
  | engine h => exact slotInv_engineClosed _ _ h hs
  | halt =>
    refine hs.of_eq rfl (fun i => ?_) rfl hs.config_le
    have hget : s.halted.tr.get i = (s.tr.get i).map XferRing.stopped := Tab.get_each _ _ _
    rw [hget, Option.isSome_map]
  | controllerReset => exact slotInv_controllerReset s
  | _ => exact hs.of_eq rfl (fun _ => rfl) rfl hs.config_le

theorem slotInv_hostClosed : HostClosed State.SlotInv := by
  intro s t h hs
  cases h with
  | ringEp0 i => exact hs.withXfer Option.isSome_map
  | _ => exact hs.of_eq rfl (fun _ => rfl) rfl hs.config_le

theorem slotInv_stepKeeps : StepKeeps State.SlotInv where
  ctl := slotInv_ctlClosed
  host := slotInv_hostClosed
  config _ _ _ hn hs := hs.of_eq rfl (fun _ => rfl) rfl hn
  poll := by
    rintro _ _ ⟨n, -⟩ hs
    exact hs.of_eq rfl (fun _ => rfl) rfl hs.config_le
  turns _ _ hs := hs.of_eq rfl (fun _ => rfl) rfl hs.config_le

/-! ### CONFIG's bound on the slots in use -/

/-- The bound speaks of the slots and of CONFIG only. -/
theorem State.EnabledInRange.of_eq {s t : State} (hs : s.EnabledInRange)
    (hslots : t.slots = s.slots) (hn : t.op.maxSlotsEn = s.op.maxSlotsEn) : t.EnabledInRange := by
  unfold State.EnabledInRange
  rwa [hslots, hn]

/-- One slot replaced, by one whose id CONFIG bounds. -/
theorem State.EnabledInRange.withSlot {s : State} (hs : s.EnabledInRange) {i : SlotId} (x : Slot)
    (hi : 1 ≤ i.toNat ∧ i.toNat ≤ s.op.maxSlotsEn.toNat) : (s.withSlot i x).EnabledInRange := by
  intro j hj
  by_cases h : j = i
  · rwa [h]
  · refine hs j ?_
    rwa [← Tab.get_put_ne s.slots x h]

theorem enabledInRange_engineClosed : EngineClosed State.EnabledInRange := by
  intro s t h hs
  cases h with
  | slotEnable i h =>
    obtain ⟨hlo, hhi, -⟩ := State.mem_freeSlotIds.1 h
    exact hs.withSlot _ ⟨hlo, hhi⟩
  | install n a dc r hn =>
    exact (hs.withSlot _ (hs n (by rw [hn]; simp))).of_eq rfl rfl
  | _ => exact hs.of_eq rfl rfl

theorem enabledInRange_ctlClosed : CtlClosed State.EnabledInRange := by
  intro s t h hs
  cases h with
  | engine h => exact enabledInRange_engineClosed _ _ h hs
  | controllerReset =>
    intro i hi
    exact absurd (congrArg Slot.state (Tab.get_replicate Slot.disabled i)) hi
  | _ => exact hs.of_eq rfl rfl

theorem enabledInRange_hostClosed : HostClosed State.EnabledInRange := by
  intro s t h hs
  cases h <;> exact hs.of_eq rfl rfl

theorem enabledInRange_hostStepKeeps : HostStepKeeps State.EnabledInRange where
  host := ⟨enabledInRange_hostClosed,
    gap_keeps enabledInRange_ctlClosed fun _ _ hs => hs.of_eq rfl rfl⟩
  counted n := ⟨enabledInRange_hostClosed.counted n,
    gap_keeps (enabledInRange_ctlClosed.counted n) fun _ _ hs => ⟨hs.1.of_eq rfl rfl, hs.2⟩⟩
  poll := by
    rintro _ _ ⟨n, -⟩ hs
    exact hs.of_eq rfl rfl

/-- Of all updates only a new value of CONFIG can break the bound, so every operation that writes no
CONFIG keeps it. -/
theorem exec_keeps_enabledInRange {i : Instr} (hi : ¬ i.writesConfig) {s t : State}
    (h : exec i s = .next t) (hs : s.EnabledInRange) : t.EnabledInRange := by
  cases hc : i.isController
  · have hR := enabledInRange_ctlClosed.reset
    exact hostExec_keeps_of enabledInRange_hostStepKeeps hc (fun _ => hR) (fun hw => absurd hw hi)
      (regUpdate32_keeps enabledInRange_hostStepKeeps.host _ _ _
        ⟨fun _ _ => hR, fun _ e => absurd e (by decide)⟩) hs h
  · exact ctlExec_keeps enabledInRange_ctlClosed hc hs h

/-- What a write of CONFIG that completes leaves. -/
theorem exec_wrConfig_next {s t : State} {v : Dword} (h : exec (.wrConfig v) s = .next t) :
    t = s.withOp { s.op with maxSlotsEn := v.extractLsb' s.cfg.bitpos.maxSlotsEnLo 8 } := by
  have h' : writeConfig v s = .ok ((), t) := Act.run_eq_next.1 h
  unfold writeConfig at h'
  obtain ⟨_, u, hw, hrest⟩ := Act.bind_eq_ok.1 h'
  obtain ⟨-, rfl⟩ := writable_eq_ok.1 hw
  rw [Act.get_bind] at hrest
  obtain ⟨_, w, hreq, hset⟩ := Act.bind_eq_ok.1 hrest
  obtain ⟨-, rfl⟩ := require_eq_ok.1 hreq
  cases hset
  rfl

/-- Settles O10: every update keeps the slot invariant, and all but CONFIG's keep CONFIG's bound. -/
theorem stepKeepsSlots : Obligations.StepKeepsSlots := by
  refine ⟨fun s t hs h => ?_, fun i s t hi h hs => exec_keeps_enabledInRange hi h hs,
    fun s t v h hs hv i hi => ?_⟩
  · exact step_keeps slotInv_stepKeeps (fun _ _ hs => hs.of_eq rfl (fun _ => rfl) rfl hs.config_le)
      hs h
  · obtain rfl := exec_wrConfig_next h
    exact ⟨(hs i hi).1, hv i hi⟩

/-! ### The constants -/

/-- What a run takes as given: the parameters, the PCI words and whether the heap is full. -/
def State.HasConstants (c : Config.Params) (pci : List PciWord) (full : Bool) (s : State) : Prop :=
  s.cfg = c ∧ s.plat.pci = pci ∧ s.plat.heapFull = full

theorem hasConstants_stepKeeps (c : Config.Params) (pci : List PciWord) (full : Bool) :
    StepKeeps (State.HasConstants c pci full) where
  ctl := by
    intro s t h hs
    cases h with
    | engine h => cases h <;> exact hs
    | _ => exact hs
  host := by
    intro s t h hs
    obtain ⟨hc, hpci, hfull⟩ := id hs
    cases h with
    | plat p hp hf => exact ⟨hc, hp.trans hpci, hf.trans hfull⟩
    | alloc p b hp hf => exact ⟨hc, hp.trans hpci, hf.trans hfull⟩
    | _ => exact hs
  config _ _ _ _ hs := hs
  poll := by
    rintro _ _ ⟨n, -⟩ hs
    exact hs
  turns _ _ hs := hs

/-- Settles O13: no update of the state changes a constant. -/
theorem stepKeepsConstants : Obligations.StepKeepsConstants :=
  fun s _ h => step_keeps (hasConstants_stepKeeps s.cfg s.plat.pci s.plat.heapFull)
    (fun _ _ hs => hs) ⟨rfl, rfl, rfl⟩ h

end Sys2Proof.Machine
end

section
/-! Proofs of the register access family (40_register_access), the lifecycle bits: what each
operation of the controller and of the host does to HCH, HCRST and CNR. -/

namespace Sys2Proof.Machine

/-! ### The controller's operations -/

theorem op_engineClosed (o : OpRegs) : EngineClosed (fun s : State => s.op = o) := by
  intro s t h hs
  cases h <;> exact hs

theorem portEventStep_keeps_op (o : OpRegs) (p : PortIx) :
    Act.Keeps (fun s : State => s.op = o) (portEventStep p) := by
  refine .bind .get fun s => ?_
  split
  · exact .bind (raiseEvent_keeps (op_engineClosed o) _) fun _ => .modify fun _ hs => hs
  · exact .pure _

/-- What an operation of the controller or of ENV leaves in the operational registers: only the five
lifecycle steps change them, each as 42_lifecycle R250 to R254 say. -/
inductive CtlOp (s : State) : Instr → OpRegs → Prop
  | same (i : Instr) : CtlOp s i s.op
  | halt : CtlOp s .xhcHalt { s.op with hch := true }
  | resetBegin : CtlOp s .xhcResetBegin s.op.resetBegun
  | resetComplete : CtlOp s .xhcResetComplete .reset
  | ready : CtlOp s .xhcReady { s.op with cnr := false }
  | start : CtlOp s .xhcStart { s.op with hch := false }

/-- A step that is one update: made where it is enabled, else nothing. -/
theorem ctlOp_of_step {i : Instr} {c : Bool} {s t u : State} {o : OpRegs}
    (h : (Act.run (modify fun _ : State => if c then u else s) s : Out) = .next t) (hu : u.op = o)
    (ho : CtlOp s i o) : CtlOp s i t.op := by
  cases h
  cases c
  · exact .same i
  · exact hu ▸ ho

theorem exec_resetBegin_next {s t : State} (h : exec .xhcResetBegin s = .next t) :
    t = s.withOp s.op.resetBegun := by
  obtain ⟨_, u, hw, hrest⟩ := Act.bind_eq_ok.1 (Act.run_eq_next.1 h)
  obtain ⟨-, rfl⟩ := writable_eq_ok.1 hw
  rw [Act.get_bind] at hrest
  obtain ⟨_, w, hreq, hset⟩ := Act.bind_eq_ok.1 hrest
  obtain ⟨-, rfl⟩ := require_eq_ok.1 hreq
  cases hset
  rfl

/-- The engines leave the operational registers alone, and each lifecycle step is one update. -/
theorem ctlExec_op {i : Instr} (hi : i.isController = true) {s t : State}
    (h : exec i s = .next t) : CtlOp s i t.op := by
  have same (e : t.op = s.op) : CtlOp s i t.op := e ▸ .same i
  cases he : i.isEngine
  · cases i
    case xhcHalt => exact ctlOp_of_step h rfl .halt
    case xhcResetBegin => exact exec_resetBegin_next h ▸ .resetBegin
    case xhcResetComplete => exact ctlOp_of_step h rfl .resetComplete
    case xhcReady => exact ctlOp_of_step h rfl .ready
    case xhcStart => exact ctlOp_of_step h rfl .start
    case xhcPortAttach => exact ctlOp_of_step h rfl (.same _)
    case xhcPortDetach => exact ctlOp_of_step h rfl (.same _)
    case xhcPortResetComplete => exact ctlOp_of_step h rfl (.same _)
    case xhcPortEvent p => exact same (Act.Keeps.run (portEventStep_keeps_op _ p) rfl h)
    all_goals first
      | (cases hi; done)
      | cases he
  · exact same (engineExec_keeps (op_engineClosed s.op) he rfl h)

/-! ### The host's operations -/

/-- With no move scheduled, HCH is as in `o`, and HCRST and CNR are set where they are in `o`. -/
def State.KeepsBits (o : OpRegs) (s : State) : Prop :=
  s.Quiet ∧ s.op.hch = o.hch ∧ (o.hcrst = true → s.op.hcrst = true) ∧
    (o.cnr = true → s.op.cnr = true)

theorem keepsBits_hostClosed (o : OpRegs) : HostClosed (State.KeepsBits o) := by
  intro s t h hs
  cases h <;> exact hs

theorem keepsBits_hostStepKeeps (o : OpRegs) : HostStepKeeps (State.KeepsBits o) :=
  .of_quiet (keepsBits_hostClosed o) (by rintro _ _ ⟨n, -⟩ hs; exact hs) fun _ hs => hs.1

/-- A reset that begins sets HCRST and CNR. -/
theorem keepsBits_resetClosed (o : OpRegs) : ResetClosed (State.KeepsBits o) :=
  fun _ _ _ ⟨hq, hh, _⟩ => ⟨hq, hh, fun _ => rfl, fun _ => rfl⟩

/-- With no move scheduled, and the bits of USBCMD distinct, HCRST and CNR are as in `o`. -/
def State.SameReset (o : OpRegs) (s : State) : Prop :=
  s.Quiet ∧ s.cfg.bitpos.Distinct ∧ s.op.hcrst = o.hcrst ∧ s.op.cnr = o.cnr

theorem sameReset_hostClosed (o : OpRegs) : HostClosed (State.SameReset o) := by
  intro s t h hs
  cases h <;> exact hs

theorem sameReset_hostStepKeeps (o : OpRegs) : HostStepKeeps (State.SameReset o) :=
  .of_quiet (sameReset_hostClosed o) (by rintro _ _ ⟨n, -⟩ hs; exact hs) fun _ hs => hs.1

theorem baseKnown_of_regRead32 {b : RegBlock} {off v : Dword} {s t : State} (hq : s.Quiet)
    (h : regRead32 b off s = .ok (v, t)) : s.host.baseKnown b = true := by
  unfold regRead32 addressAccess at h
  rw [Act.bind_ok (gap_quiet hq)] at h
  obtain ⟨_, u, haddr, -⟩ := Act.bind_eq_ok.1 h
  rw [Act.get_bind] at haddr
  obtain ⟨_, w, hreq, -⟩ := Act.bind_eq_ok.1 haddr
  exact (require_eq_ok.1 hreq).1

/-- USBCMD written, with nothing before the access, only by a ready controller. -/
theorem ready_of_regWrite32_usbcmd {v : Dword} {s t : State} (hq : s.Quiet)
    (hb : s.host.basesFixed = true) (h : regWrite32 .op 0 v s = .ok ((), t)) :
    s.op.ready = true := by
  rw [regWrite32_apply (b := .op) (i := .wrUsbcmd v) (gap_quiet hq) hb rfl] at h
  obtain ⟨_, u, hw, -⟩ := Act.bind_eq_ok.1 h
  exact (writable_eq_ok.1 hw).1

theorem OpRegs.ready_iff {o : OpRegs} : o.ready = true ↔ o.hcrst = false ∧ o.cnr = false := by
  unfold OpRegs.ready
  rw [Bool.and_eq_true, Bool.not_eq_true', Bool.not_eq_true']

/-- The start sequence's write of USBCMD begins no reset: the value it read shows HCRST 0, and it
sets RS and INTE (42_lifecycle R247). -/
theorem setRsInte_keeps_sameReset (o : OpRegs) :
    Act.Keeps (State.SameReset o) (regSet32 .op 0x00 5) := by
  rintro s ⟨⟩ t ⟨hq, hd, hhcrst, hcnr⟩ h
  have h5 (v : Dword) (hv : v.getLsbD s.cfg.bitpos.usbcmdHcrst = false) :
      (v ||| 5).getLsbD s.cfg.bitpos.usbcmdHcrst = false := by
    obtain ⟨⟨hlt, hne0, hne2⟩, -⟩ := hd
    have hbits : ∀ i : Fin 32, i.val ≠ 0 → i.val ≠ 2 → (5 : Dword).getLsbD i.val = false := by
      decide
    rw [BitVec.getLsbD_or, hv, hbits ⟨_, hlt⟩ hne0 hne2, Bool.or_false]
  obtain ⟨v, u, hread, hwrite⟩ := Act.bind_eq_ok.1 h
  have hb : s.host.basesFixed = true := baseKnown_of_regRead32 hq hread
  obtain ⟨v', x, -, hread'⟩ := regRead32_usbcmd hq hb hd
  obtain ⟨rfl, rfl⟩ : v' = v ∧ (s.onBus .op 0).withFree x = u := by
    have := hread'.symm.trans hread
    simpa using this
  have hready : s.op.ready = true :=
    ready_of_regWrite32_usbcmd (s := (s.onBus .op 0).withFree x) hq hb hwrite
  obtain ⟨h1, h2⟩ := OpRegs.ready_iff.1 hready
  obtain ⟨w, y, -, hrun⟩ := regUpdate32_usbcmd hq hb h1 h2 hd h5
  have ht := hrun.symm.trans (Act.run_of_ok h)
  cases ht
  exact ⟨hq, hd, hhcrst, hcnr⟩

/-- What an operation of the host does to the lifecycle bits, with no move inside it: HCH stays, and
HCRST and CNR are not cleared; what writes no USBCMD does not set them either. -/
theorem hostExec_bits {i : Instr} (hi : i.isController = false) {s t : State} (hq : s.Quiet)
    (h : exec i s = .next t) :
    t.op.hch = s.op.hch ∧ (s.op.hcrst = true → t.op.hcrst = true) ∧
    (s.op.cnr = true → t.op.cnr = true) ∧
    (s.cfg.bitpos.Distinct → ¬ i.writesUsbcmd → t.op.hcrst = s.op.hcrst ∧ t.op.cnr = s.op.cnr) := by
  have hbits : t.KeepsBits s.op :=
    hostExec_keeps (keepsBits_hostStepKeeps s.op) (keepsBits_resetClosed s.op)
      (fun _ _ _ _ hs => hs) hi ⟨hq, rfl, id, id⟩ h
  obtain ⟨-, hhch, hhcrst, hcnr⟩ := hbits
  refine ⟨hhch, hhcrst, hcnr, fun hd hw => ?_⟩
  have hsame : t.SameReset s.op :=
    hostExec_keeps_of (sameReset_hostStepKeeps s.op) hi (fun hu => absurd hu hw)
      (fun _ _ _ _ _ hs => hs) (setRsInte_keeps_sameReset s.op) ⟨hq, hd, rfl, rfl⟩ h
  exact hsame.2.2

/-- Settles O14: the five lifecycle steps by what each leaves, the host's operations by what none of
them does. -/
theorem lifecycleBitsChangeOnlyIn : Obligations.LifecycleBitsChangeOnlyIn := by
  intro i s t hq h
  have clash {b : Bool} {p : Prop} (h1 : b = true) (h2 : b = false) : p := by
    cases h1.symm.trans h2
  cases hi : i.isController
  · obtain ⟨hhch, hhcrst, hcnr, hsame⟩ := hostExec_bits hi hq h
    rw [hhch]
    refine ⟨clash, fun h1 h2 => clash h2 h1, fun h1 => clash (hcnr h1), fun h1 => clash (hhcrst h1),
      fun hd => ?_⟩
    by_cases hw : i.writesUsbcmd
    · exact ⟨fun _ _ => .inr hw, fun _ _ => .inr (.inr hw)⟩
    · obtain ⟨ehcrst, ecnr⟩ := hsame hd hw
      rw [ehcrst, ecnr]
      exact ⟨fun h1 h2 => clash h2 h1, fun h1 h2 => clash h2 h1⟩
  · have ho := ctlExec_op hi h
    generalize t.op = o at ho
    cases ho with
    | same => exact ⟨clash, fun h1 h2 => clash h2 h1, clash, clash, fun _ =>
        ⟨fun h1 h2 => clash h2 h1, fun h1 h2 => clash h2 h1⟩⟩
    | halt => exact ⟨fun _ => nofun, fun _ _ => .inl rfl, clash, clash, fun _ =>
        ⟨fun h1 h2 => clash h2 h1, fun h1 h2 => clash h2 h1⟩⟩
    | resetBegin => exact ⟨clash, fun h1 h2 => clash h2 h1, fun _ => nofun, fun _ => nofun, fun _ =>
        ⟨fun _ _ => .inl rfl, fun _ _ => .inl rfl⟩⟩
    | resetComplete => exact ⟨fun _ => nofun, fun _ _ => .inr rfl, fun _ => nofun, fun _ _ => rfl,
        fun _ => ⟨fun _ => nofun, fun _ _ => .inr (.inl rfl)⟩⟩
    | ready => exact ⟨clash, fun h1 h2 => clash h2 h1, fun _ _ => rfl, clash, fun _ =>
        ⟨fun h1 h2 => clash h2 h1, fun _ => nofun⟩⟩
    | start => exact ⟨fun _ _ => rfl, fun _ => nofun, clash, clash, fun _ =>
        ⟨fun h1 h2 => clash h2 h1, fun h1 h2 => clash h2 h1⟩⟩

end Sys2Proof.Machine
end

section
/-! Proofs of the ring protocol family (41_ring_protocol), the words of the spec and the counting of
a ring's indices. -/

namespace Sys2Proof.Machine

open Config

/-- Settles O4: the decoder run on each word. -/
theorem decodeWords : Obligations.DecodeWords := by
  exact ⟨by decide, by decide, by decide, by decide, by decide, by decide⟩

/-! ### Advance with wrap -/

/-- The place of a ring's pointer after `k` TRBs: the index modulo the size, the cycle state
inverted once for each full pass (41_ring_protocol R191). -/
def placeAfter (n k : Nat) (c : Bool) : Nat × Bool := (k % n, xor c (decide (k / n % 2 = 1)))

/-- One TRB more: within a pass the index counts on, at its end the next pass begins. -/
theorem advance_placeAfter {n : Nat} (hn : 0 < n) (k : Nat) (c : Bool) :
    advance (placeAfter n k c).1 (placeAfter n k c).2 n = placeAfter n (k + 1) c := by
  have hk := Nat.div_add_mod k n
  have hlt := Nat.mod_lt k hn
  unfold placeAfter
  rw [advance_eq]
  by_cases hw : k % n + 1 = n
  · have hnext : k + 1 = n * (k / n + 1) := by rw [Nat.mul_add, Nat.mul_one]; omega
    have hdiv : (k + 1) / n = k / n + 1 := by rw [hnext, Nat.mul_div_cancel_left _ hn]
    have hmod : (k + 1) % n = 0 := by rw [hnext, Nat.mul_mod_right]
    have hpar : decide ((k / n + 1) % 2 = 1) = !decide (k / n % 2 = 1) := by
      rw [← decide_not, decide_eq_decide]
      omega
    rw [if_pos hw, if_pos hw, hdiv, hmod, hpar, Bool.xor_not]
  · have hnext : k + 1 = k % n + 1 + n * (k / n) := by omega
    have hdiv : (k + 1) / n = k / n := by
      rw [hnext, Nat.add_mul_div_left _ _ hn, Nat.div_eq_of_lt (by omega), Nat.zero_add]
    have hmod : (k + 1) % n = k % n + 1 := by
      rw [hnext, Nat.add_mul_mod_self_left, Nat.mod_eq_of_lt (by omega)]
    rw [if_neg hw, if_neg hw, hdiv, hmod]

/-- Advancing from the start of a ring reaches that place. -/
theorem iterate_advance {n : Nat} (hn : 0 < n) (k : Nat) (c : Bool) :
    Nat.iterate (fun p : Nat × Bool => advance p.1 p.2 n) k (0, c) = placeAfter n k c := by
  induction k with
  | zero => simp [placeAfter]
  | succ k ih => rw [Function.iterate_succ_apply', ih, advance_placeAfter hn]

/-- So does the producer of a new ring. -/
theorem iterate_enqAdvanced {n : Nat} (hn : 0 < n) (k : Nat) (base : Addr) :
    Nat.iterate Ring.enqAdvanced k ⟨base, 0, 0, true, n⟩ =
      ⟨base, (placeAfter n k true).1, 0, (placeAfter n k true).2, n⟩ := by
  induction k with
  | zero => simp [placeAfter]
  | succ k ih =>
    rw [Function.iterate_succ_apply', ih, ← advance_placeAfter hn]
    rfl

/-- Over the two passes that the cycle state tells apart, the place is the count modulo both. -/
theorem ringPlace_placeAfter (n k : Nat) :
    ringPlace (placeAfter n k true).1 (placeAfter n k true).2 n = k % (2 * n) := by
  rw [Nat.mul_comm 2 n, Nat.mod_mul]
  unfold ringPlace placeAfter
  rcases Nat.mod_two_eq_zero_or_one (k / n) with h | h
  · simp [h]
  · simp [h, Nat.add_comm]

/-- The distance between two counts, from what they leave modulo `m`. -/
theorem mod_distance {j k m : Nat} (h1 : j ≤ k) (h2 : k < j + m) :
    (k % m + m - j % m) % m = k - j := by
  have hj := Nat.mod_lt j (show 0 < m by omega)
  have hk : k % m = if j % m + (k - j) < m then j % m + (k - j) else j % m + (k - j) - m := by
    rw [← mod_eq_ite_sub (by omega), Nat.mod_add_mod, Nat.add_sub_cancel' h1]
  rw [hk]
  split
  · rw [show j % m + (k - j) + m - j % m = k - j + m by omega, Nat.add_mod_right,
      Nat.mod_eq_of_lt (by omega)]
  · rw [show j % m + (k - j) - m + m - j % m = k - j by omega, Nat.mod_eq_of_lt (by omega)]

/-- Settles O17: the place after `k` TRBs, and the distance of two places. -/
theorem advanceCounts : Obligations.AdvanceCounts := by
  intro n k c hn place
  refine ⟨iterate_advance hn k c, fun base j hjk hkj => ?_⟩
  have hcons : place j true = placeAfter n j true := iterate_advance hn j true
  rw [hcons, iterate_enqAdvanced hn]
  unfold Ring.outstanding
  dsimp only
  rw [ringPlace_placeAfter, ringPlace_placeAfter]
  exact mod_distance hjk (by omega)

end Sys2Proof.Machine
end

section
/-! Proofs of the ring protocol family (41_ring_protocol), the doorbells: what a write of each does,
and the host's own doorbell writes. -/

namespace Sys2Proof.Machine

open Config

/-- Slot `k`'s engine awake, with what is staged for the slot handed over (41_ring_protocol R202,
45_control_transfer R347). -/
def State.woken (s : State) (k : SlotId) : State :=
  (s.withXfer k ((s.tr.get k).map fun r => { r with running := true })).account (·.rung k)

section

variable {s : State} (h1 : s.op.hcrst = false) (h2 : s.op.cnr = false)

include h1 h2

/-- DB[0] by its target (41_ring_protocol R201, R203). -/
theorem exec_wrDb0 (v : Dword) : exec (.wrDb0 v) s =
    if s.op.hch = true then .next s
    else if v.extractLsb' s.cfg.bitpos.dbTargetLo 8 = 0 then
      .next (s.withCr { s.cr with running := true })
    else .refused .doorbellTarget := by
  refine ((run_writable_bind h1 h2 _).trans (run_get_bind _ s)).trans ?_
  dsimp only
  split
  · rfl
  · exact run_require_iff beq_iff_eq _ _ s

/-- DB[k] by its bound, the slot and the target (41_ring_protocol R202, R203). -/
theorem exec_wrDbi {k : SlotId} (hk : k ≠ 0) (v : Dword) : exec (.wrDbi k v) s =
    if s.cfg.maxSlots.toNat < k.toNat then .refused .undefinedOffset
    else if s.op.hch = true ∨ (s.slots.get k).state ≠ .addressed then .next s
    else if v.extractLsb' s.cfg.bitpos.dbTargetLo 8 = 1 then .next (s.woken k)
    else .refused .doorbellTarget := by
  have hidle : (s.op.hch || !s.isAddressed k) = true ↔
      s.op.hch = true ∨ (s.slots.get k).state ≠ .addressed := by
    rw [Bool.or_eq_true, Bool.not_eq_true', ← Bool.not_eq_true, s.isAddressed_iff]
  show (writeDoorbell k v).run s = _
  unfold writeDoorbell writeDbi
  rw [if_neg hk]
  refine ((run_get_bind _ s).trans (run_require_not
    (decide_eq_true_iff.trans Nat.not_lt.symm) _ _ s)).trans ?_
  refine ite_congr rfl (fun _ => rfl) fun _ => (run_writable_bind h1 h2 _).trans ?_
  rw [if_congr hidle rfl rfl]
  split
  · rfl
  · exact run_require_iff beq_iff_eq _ _ s

/-- Slot `k`'s doorbell rung by the host for endpoint 0 (45_control_transfer R343). -/
theorem exec_ringEp0 (hq : s.Quiet) (hb : s.host.basesFixed = true)
    (hd : s.cfg.bitpos.Distinct) {k : SlotId} (hk : k ≠ 0)
    (hmax : k.toNat ≤ s.cfg.maxSlots.toNat) : exec (.ringEp0 k) s =
      .next (if s.op.hch = true ∨ (s.slots.get k).state ≠ .addressed
        then s.onBus .db (doorbellOffset k) else (s.onBus .db (doorbellOffset k)).woken k) := by
  obtain ⟨-, -, -, -, -, hlo, -⟩ := hd
  have hk1 : 1 ≤ k.toNat :=
    Nat.one_le_iff_ne_zero.2 fun h => hk (BitVec.eq_of_toNat_eq h)
  have htarget : (fieldAt s.cfg.bitpos.dbTargetLo 1#8).extractLsb' s.cfg.bitpos.dbTargetLo 8 = 1 :=
    extractLsb'_fieldAt _ (by omega)
  have hwrite := exec_wr32_quiet (i := .wrDbi k (fieldAt s.cfg.bitpos.dbTargetLo 1#8)) hq
    (b := .db) hb (decodeAccess_encodeAccess (decide_eq_true ⟨hk1, hmax⟩) rfl)
  refine (run_get_bind _ s).trans (hwrite.trans ((exec_wrDbi
    (s := s.onBus .db (doorbellOffset k)) h1 h2 hk _).trans ?_))
  refine (if_neg (Nat.not_lt.2 hmax)).trans ?_
  show (if s.op.hch = true ∨ (s.slots.get k).state ≠ .addressed then _ else _) = _
  split
  · rfl
  · exact if_pos htarget

end

/-- Settles O26: each doorbell by its target, and the host's writes of the targets that wake. -/
theorem doorbellWrite : Obligations.DoorbellWrite := by
  intro s k v h1 h2 target woken
  refine ⟨exec_wrDb0 h1 h2 v, rfl, fun hk => exec_wrDbi h1 h2 hk v, fun hq hb => ⟨?_, ?_⟩⟩
  · exact Act.run_of_ok (ringCommandDoorbell_quiet hq hb h1 h2)
  · exact fun hk hmax hd => exec_ringEp0 h1 h2 hq hb hd hk hmax

end Sys2Proof.Machine
end

section
/-! Proofs of the ring protocol family (41_ring_protocol), the host as consumer: an event row by its
cycle bit, and `process_events` as the row its TRB selects. -/

namespace Sys2Proof.Machine

open Config

/-! ### The event rows -/

section

variable {s : State} (hs : s.host.evt.size ≠ 0) {cycle : Bool} {f : State → State}

include hs

/-- Past the check of the ring an event is pending or not by its cycle bit (41_ring_protocol R215). -/
theorem consumeEvent_apply : consumeEvent cycle f s =
    (if cycle != s.host.evt.cycle then answer (.bool false) else consumeValid f) s := by
  unfold consumeEvent
  rw [Act.get_bind, Act.bind_ok (require_eq_ok.2 ⟨bne_iff_ne.2 hs, rfl⟩)]

theorem run_consumeEvent_mismatch (h : cycle ≠ s.host.evt.cycle) :
    (consumeEvent cycle f).run s = .next (s.withResult (.bool false)) := by
  refine Act.run_of_ok ((consumeEvent_apply hs).trans ?_)
  rw [if_pos (bne_iff_ne.2 h)]
  rfl

/-- An event that is pending is consumed, where its record leaves the registers writable. -/
theorem run_consumeEvent_match (h : cycle = s.host.evt.cycle) (hq : (f s).Quiet)
    (hb : (f s).host.basesFixed = true) (h1 : (f s).op.hcrst = false) (h2 : (f s).op.cnr = false) :
    (consumeEvent cycle f).run s = .next (f s).consumed := by
  refine Act.run_of_ok ((consumeEvent_apply hs).trans ?_)
  rw [h, bne_self_eq_false, if_neg Bool.false_ne_true]
  exact consumeValid_quiet f hq hb h1 h2

end

/-- A Transfer Event recorded: a short packet leaves the buffer with the controller
(45_control_transfer R347). -/
theorem recordTransfer_eq (e : TransferEvent) (s : State) : recordTransfer e s =
    let r := s.withHost { s.host with
      lastTransfer := ⟨e.code, e.residual, e.slot, e.ep, e.trbPtr, true⟩ }
    if e.code = s.cfg.cc.shortPacket then r else handBack e.trbPtr r := rfl

/-! ### The row a TRB selects -/

/-- A pointer with its low four bits cleared stays so. -/
theorem and_not_low4_idem (p : Qword) : p &&& ~~~0xF#64 &&& ~~~0xF#64 = p &&& ~~~0xF#64 := by
  rw [BitVec.and_assoc, BitVec.and_self]

/-- The row that a TRB on the event ring selects consumes it, recorded by its type
(41_ring_protocol R218, R219). -/
theorem exec_decodeEvt (c : TypeCodes) (t : Trb) (s : State) :
    exec (decodeEvt c t) s = (consumeEvent t.cycle (recordTrb c t)).run s := by
  unfold decodeEvt
  split_ifs with htransfer hcommand hport
  · have hrec : recordTrb c t = recordTransfer (.ofTrb t) := funext fun _ => if_pos htransfer
    rw [hrec]
    rfl
  · have hrec : recordTrb c t = recordCompletion (.ofTrb t) := funext fun _ =>
      (if_neg htransfer).trans (if_pos hcommand)
    show (consumeEvent t.cycle (recordCompletion
      ⟨t.parameter &&& ~~~0xF#64 &&& ~~~0xF#64, t.code, t.slot, t.cycle⟩)).run s = _
    rw [and_not_low4_idem, hrec]
    rfl
  · have hrec : recordTrb c t = recordPort (.ofTrb t) := funext fun _ =>
      (if_neg htransfer).trans ((if_neg hcommand).trans (if_pos hport))
    rw [hrec]
    rfl
  · have hrec : recordTrb c t = id := funext fun _ =>
      (if_neg htransfer).trans ((if_neg hcommand).trans (if_neg hport))
    rw [hrec]
    rfl

/-! ### `process_events` -/

theorem hostLoad32_refused {s : State} (hq : s.Quiet) {a : Addr} {r : Refusal}
    (h : s.loadRefusal a 4 = some r) : hostLoad32 a s = .error r := by
  unfold hostLoad32
  rw [Act.bind_ok (gap_quiet hq), Act.get_bind, h]
  rfl

/-- What `process_events` does once it has loaded the control dword `c`. -/
def processControl (s : State) (c : Dword) : Act Unit :=
  if bitOf c 0 != s.host.evt.cycle then answer (.bool false)
  else do
    let lo ← hostLoad32 s.host.eventAddr
    let hi ← hostLoad32 (s.host.eventAddr + 4)
    let st ← hostLoad32 (s.host.eventAddr + 8)
    consumeValid (recordTrb s.cfg.tt ⟨hi ++ lo, st, c⟩)

section

variable {s : State} (hs : s.host.evt.size ≠ 0) (hq : s.Quiet)

include hs

theorem processEvents_apply : processEvents s =
    (hostLoad32 (s.host.eventAddr + 12) >>= processControl s) s := by
  unfold processEvents
  rw [Act.get_bind, Act.bind_ok (require_eq_ok.2 ⟨bne_iff_ne.2 hs, rfl⟩)]
  rfl

include hq

/-- Where the host may load the TRB at its index it consumes that TRB (41_ring_protocol R214). -/
theorem processEvents_loads (hl : s.mayLoadTrb s.host.eventAddr) :
    processEvents s = consumeEvent (s.mem.readTrb s.host.eventAddr).cycle
      (recordTrb s.cfg.tt (s.mem.readTrb s.host.eventAddr)) s := by
  obtain ⟨h0, h4, h8, h12⟩ := hl
  rw [processEvents_apply hs, consumeEvent_apply hs, Act.bind_ok (hostLoad32_quiet hq h12)]
  show (if (s.mem.readTrb s.host.eventAddr).cycle != s.host.evt.cycle then _ else _ : Act Unit) s = _
  split
  · rfl
  · rw [Act.bind_ok (hostLoad32_quiet hq h0), Act.bind_ok (hostLoad32_quiet hq h4),
      Act.bind_ok (hostLoad32_quiet hq h8)]
    rfl

/-- A valid event in the buffer of an IN transfer the controller holds is refused, at the first of
its dwords that lies there (45_control_transfer R347). -/
theorem processEvents_lent {h : HandOver} {r : Region} (hh : h ∈ s.ledger.handed) (hr : r ∈ h.held)
    (hi : r.isIn = true) (ho : r.Overlaps s.host.eventAddr 16)
    (hc : (s.mem.readTrb s.host.eventAddr).cycle = s.host.evt.cycle) :
    processEvents s = .error .handedOver := by
  have load : ∀ a, hostLoad32 a s = .error .handedOver ∨
      (hostLoad32 a s = .ok (s.mem.read32 a, s) ∧ ¬ r.Overlaps a 4) := fun a => by
    cases hl : s.loadRefusal a 4 with
    | some x => exact .inl (State.loadRefusal_eq_some hl ▸ hostLoad32_refused hq hl)
    | none =>
      refine .inr ⟨hostLoad32_quiet hq hl, fun hov => ?_⟩
      rw [State.loadRefusal_of_overlaps hh hr hi hov] at hl
      cases hl
  have hvalid : ¬ (bitOf (s.mem.read32 (s.host.eventAddr + 12)) 0 != s.host.evt.cycle) = true := by
    rw [show bitOf (s.mem.read32 (s.host.eventAddr + 12)) 0 = s.host.evt.cycle from hc]
    simp
  rw [processEvents_apply hs]
  rcases load (s.host.eventAddr + 12) with e | ⟨e, n12⟩
  · exact Act.bind_error e
  rw [Act.bind_ok e]
  unfold processControl
  rw [if_neg hvalid]
  rcases load s.host.eventAddr with e | ⟨e, n0⟩
  · exact Act.bind_error e
  rw [Act.bind_ok e]
  rcases load (s.host.eventAddr + 4) with e | ⟨e, n4⟩
  · exact Act.bind_error e
  rw [Act.bind_ok e]
  rcases load (s.host.eventAddr + 8) with e | ⟨e, n8⟩
  · exact Act.bind_error e
  rcases Region.overlaps_dword ho with o | o | o | o
  · exact absurd o n0
  · exact absurd o n4
  · exact absurd o n8
  · exact absurd o n12

end

/-- Settles O52: `process_events` as the row of its TRB, or refused; each row by its cycle bit. -/
theorem eventsConsumed : Obligations.EventsConsumed := by
  intro s hs
  refine ⟨fun hq hl => ?_, fun hq hc ⟨h, hh, r, hr, hi, ho⟩ => ?_, fun e c p t =>
    ⟨run_consumeEvent_mismatch hs, run_consumeEvent_mismatch hs, run_consumeEvent_mismatch hs,
      run_consumeEvent_mismatch hs, fun hq hb h1 h2 => ⟨fun hc => ?_, fun hc => ?_, fun hc => ?_,
        fun hc => ?_⟩⟩⟩
  · exact (Act.run_congr (processEvents_loads hs hq hl)).trans (exec_decodeEvt _ _ s).symm
  · exact Act.run_of_error (processEvents_lent hs hq hh hr hi ho hc)
  · have hrun : (consumeEvent e.cycle (recordTransfer e)).run s =
        .next (recordTransfer e s).consumed := by
      refine run_consumeEvent_match hs hc ?_ ?_ ?_ ?_ <;>
        · rw [recordTransfer_eq]
          dsimp only
          split <;> assumption
    refine hrun.trans (congrArg _ ?_)
    rw [recordTransfer_eq]
    exact apply_ite State.consumed _ _ _
  · exact run_consumeEvent_match hs hc hq hb h1 h2
  · exact run_consumeEvent_match hs hc hq hb h1 h2
  · exact run_consumeEvent_match hs hc hq hb h1 h2

end Sys2Proof.Machine
end

section
/-! Proofs of the ring protocol family (41_ring_protocol), allocation: a ring handed out, denied or
refused, and the command ring. -/

namespace Sys2Proof.Machine

open Config

/-! ### Allocation that is refused -/

/-- No block over what the host has lent is zeroed (70_reset R424). -/
theorem State.allocRefusal_of_lent {s : State} {a : Addr} {n : Nat} (h : s.Lent a n) :
    s.allocRefusal a n = some .handedOver := by
  refine if_pos ?_
  rw [← Bool.not_eq_false, State.not_lent, not_not]
  exact h

/-- Nor over a structure the controller writes, unless its memory was freed (70_reset R422,
60_exceptions R374). -/
theorem State.allocRefusal_of_owned {s : State} {a : Addr} {n : Nat} (hl : ¬ s.Lent a n)
    {b : Block} (hb : b ∈ s.ctlBlocks) (ho : b.Overlaps a n)
    (hf : ∀ f ∈ s.plat.freed, ¬ f.Overlaps b.base b.size) :
    s.allocRefusal a n = some .hostWritesControllerMemory := by
  have hlent : (s.ledger.holds a n || s.entryHeld a n) = false := State.not_lent.2 hl
  have hfree : s.plat.freed.any (·.meets b.base b.size) = false := any_meets_eq_false.2 hf
  have howned : (b.meets a n && !s.plat.freed.any (·.meets b.base b.size)) = true := by
    rw [hfree, Block.meets_iff.2 ho]
    rfl
  unfold State.allocRefusal
  rw [hlent, if_neg Bool.false_ne_true]
  exact if_pos (List.any_eq_true.2 ⟨b, hb, howned⟩)

/-- An answer that keeps the allocator's contract, over memory the host may not zero. -/
theorem alloc_refused {s : State} {a : Addr} {left : List (Option Addr)} {size align : Nat}
    {kind : BlockKind} {r : Refusal} (h : s.plat.allocs = some a :: left)
    (halign : a.toNat % align = 0) (hend : a.toNat + size ≤ 2 ^ 64)
    (hlive : ∀ b ∈ s.plat.live, ¬ b.Overlaps a size) (hr : s.allocRefusal a size = some r) :
    alloc size align kind s = .error r := by
  have hcontract : (a.toNat % align == 0 && decide (a.toNat + size ≤ 2 ^ 64) &&
      !s.plat.live.any (·.meets a size)) = true := by
    rw [halign, decide_eq_true hend, any_meets_eq_false.2 hlive]
    rfl
  unfold alloc
  rw [Act.get_bind, h]
  dsimp only
  rw [Act.bind_ok (require_eq_ok.2 ⟨hcontract, rfl⟩), hr]
  rfl

/-- A part that is refused ends the procedure. -/
theorem Proc.bind_error {α β : Type} {p : Proc α} {f : α → Proc β} {s : State} {r : Refusal}
    (h : ExceptT.run p s = .error r) : ExceptT.run (p >>= f) s = .error r := by
  rw [ExceptT.run_bind, Act.bind_error h]

/-! ### The Allocate row -/

section

variable {s : State} {n : Nat} {a : Addr} {left : List (Option Addr)}

theorem allocRing_exhausted {kind : BlockKind} (h : s.plat.allocs = []) :
    ExceptT.run (allocRing n kind) s = .ok (.error (.allocationFailure .ring), s) := by
  unfold allocRing
  rw [Proc.bind_ok (Proc.lift_ok (alloc_exhausted h))]
  rfl

theorem exec_allocate_gives (h : s.plat.allocs = some a :: left)
    (hg : s.mayGive a (16 * n) (16 * n)) : exec (.allocate n) s =
      .next ((s.given a (16 * n) .ring left).withResult (.ring ⟨a, 0, 0, true, n⟩)) :=
  Act.run_of_ok (concluding_ok (f := .ring) (allocRing_gives h hg))

theorem exec_allocate_denied (h : s.plat.allocs = none :: left) : exec (.allocate n) s =
    .next ((s.denied left).withResult (.failure (.allocationFailure .ring))) :=
  Act.run_of_ok (concluding_fails (allocRing_denied h))

theorem exec_allocate_exhausted (h : s.plat.allocs = []) : exec (.allocate n) s =
    .next (s.withResult (.failure (.allocationFailure .ring))) :=
  Act.run_of_ok (concluding_fails (allocRing_exhausted h))

theorem exec_allocate_refused {r : Refusal}
    (h : alloc (16 * n) (16 * n) .ring s = .error r) : exec (.allocate n) s = .refused r :=
  Act.run_of_error (Act.bind_error (Proc.bind_error (Proc.lift_error h)))

end

/-- A block handed out is zeroed, and no other byte changes (20_memory R84). -/
theorem State.read_given (s : State) (a : Addr) (size : Nat) (kind : BlockKind)
    (left : List (Option Addr)) (k : Nat) : (s.given a size kind left).mem.read k =
      if a.toNat ≤ k ∧ k < a.toNat + size then 0 else s.mem.read k :=
  Memory.read_zeroBytes s.mem a.toNat size k

/-! ### CRCR's value -/

/-- The low bits of an aligned pointer. -/
theorem LowZero.extractLsb' {q : Qword} {k : Nat} (h : LowZero q k) : q.extractLsb' 0 k = 0#k := by
  apply BitVec.eq_of_toNat_eq
  rw [BitVec.extractLsb'_toNat, Nat.shiftRight_zero, BitVec.toNat_zero]
  exact h

/-- CRCR's pointer part is the base of the ring, which is aligned (30_encoding R115). -/
theorem crcr_base {b : BitPos} (hb : b.crcrRcs < 6) {a : Addr} (ha : LowZero a 6) :
    (a ||| 1#64 <<< b.crcrRcs) &&& ~~~0x3F#64 = a := by
  have hbase : a &&& ~~~0x3F#64 = a := and_not_low 6 a (by norm_num) ha.extractLsb'
  have hbit : ∀ k < 6, 1#64 <<< k &&& ~~~0x3F#64 = 0#64 := by decide
  rw [BitVec.and_comm, BitVec.and_or_distrib_left, BitVec.and_comm, hbase, BitVec.and_comm,
    hbit _ hb, BitVec.or_zero]

/-- CRCR's RCS is the ring's cycle state. -/
theorem crcr_cycle {b : BitPos} (hb : b.crcrRcs < 6) (a : Addr) :
    (a ||| 1#64 <<< b.crcrRcs).getLsbD b.crcrRcs = true := by
  have hbit : ∀ k < 6, (1#64 <<< k).getLsbD k = true := by decide
  rw [BitVec.getLsbD_or, hbit _ hb, Bool.or_true]

/-- The command ring allocated and recorded, and its base written to CRCR (41_ring_protocol R194). -/
theorem exec_initCommandRing {s : State} {a : Addr} {left : List (Option Addr)} (hq : s.Quiet)
    (hb : s.host.basesFixed = true) (h1 : s.op.hcrst = false) (h2 : s.op.cnr = false)
    (hd : s.cfg.bitpos.Distinct) (h : s.plat.allocs = some a :: left)
    (hg : s.mayGive a 4096 4096) :
    let g := s.given a 4096 .cmdRing left
    let t := (((g.withHost { s.host with cmd := ⟨a, 0, 0, true, 256⟩ }).account
      Ledger.newCmdRing).onBus .op 0x1C).withOp
      { s.op with crcrLatch := a ||| 1#64 <<< s.cfg.bitpos.crcrRcs }
    exec .initCommandRing s = .next ((if s.cr.running = true then t
        else t.withCr ⟨a, 0, true, false, true⟩).withResult .success) := by
  intro g t
  let u := (g.withHost { s.host with cmd := ⟨a, 0, 0, true, 256⟩ }).account Ledger.newCmdRing
  obtain ⟨-, -, hrcs, -⟩ := hd
  have hlow : LowZero a 6 := by
    have halign : a.toNat % 4096 = 0 := hg.1
    show a.toNat % 64 = 0
    omega
  have hwrite := exec_wr64_crcr (s := u) hq hb h1 h2 (a ||| 1#64 <<< s.cfg.bitpos.crcrRcs)
  dsimp only at hwrite
  rw [crcr_base hrcs hlow] at hwrite
  have hcycle : (a ||| 1#64 <<< s.cfg.bitpos.crcrRcs).getLsbD u.cfg.bitpos.crcrRcs = true :=
    crcr_cycle hrcs a
  rw [hcycle] at hwrite
  have hproc : ExceptT.run initCommandRing s =
      .ok (.ok (), if s.cr.running = true then t else t.withCr ⟨a, 0, true, false, true⟩) := by
    unfold initCommandRing
    rw [Proc.get_bind, Proc.bind_ok (allocRing_gives h hg)]
    rw [Proc.bind_ok (Proc.lift_ok (m := setHost _) rfl),
      Proc.bind_ok (Proc.lift_ok (m := accountFor _) rfl)]
    exact Proc.lift_ok (Act.run_eq_next.1 hwrite)
  exact Act.run_of_ok (concluding_ok hproc)

/-- Settles O48: each answer of the allocator to a ring, and the command ring installed. -/
theorem ringAllocation : Obligations.RingAllocation := by
  intro s n a left
  refine ⟨fun h hg => ⟨exec_allocate_gives h hg, s.read_given a (16 * n) .ring left⟩,
    fun h halign hend hlive => ⟨fun hl => ?_, fun hl ⟨b, hb, ho, hf⟩ => ?_⟩,
    exec_allocate_denied, exec_allocate_exhausted, exec_initCommandRing⟩
  · exact exec_allocate_refused
      (alloc_refused h halign hend hlive (State.allocRefusal_of_lent hl))
  · exact exec_allocate_refused
      (alloc_refused h halign hend hlive (State.allocRefusal_of_owned hl hb ho hf))

end Sys2Proof.Machine
end

section
/-! Proofs of the ring protocol family (41_ring_protocol), the event ring: the segment table written,
the registers that load the producer, and the ring given back where there is no table. -/

namespace Sys2Proof.Machine

open Config

/-! ### The segment table -/

/-- Entry 0 of a segment table: the base, 256 TRBs, 0 (30_encoding R128). -/
def segmentEntry (v : Addr) : Trb := ⟨v, 256, 0⟩

theorem Memory.read64_segmentEntry (m : Memory) (e v : Addr) :
    (m.writeTrb e (segmentEntry v)).read64 e = v :=
  congrArg Trb.parameter (m.readTrb_writeTrb_same e (segmentEntry v))

theorem Memory.read32_segmentEntry (m : Memory) (e v : Addr) :
    (m.writeTrb e (segmentEntry v)).read32 (e + 8) = 256 :=
  congrArg Trb.status (m.readTrb_writeTrb_same e (segmentEntry v))

/-- The entry has been written at `e`. -/
def State.tableStored (s : State) (v e : Addr) : State :=
  s.withMem (s.mem.writeTrb e (segmentEntry v))

/-! ### The registers of the event ring -/

/-- ERSTSZ has been written with one segment. -/
def State.segmentCounted (s : State) : State :=
  (s.onBus .rt 0x28).withIntr { s.intr with erstsz := 1 }

/-- ERSTBA has been written with `e`, and the segment at `v` loaded. -/
def State.segmentLoaded (s : State) (v e : Addr) : State :=
  ((s.onBus .rt 0x34).withIntr { s.intr with erstba := e }).withEr
    { s.er with base := v, size := 256, enq := 0, pcs := true }

/-- ERDP has been written with `v`. -/
def State.dequeueSet (s : State) (v : Addr) : State :=
  (s.onBus .rt 0x3C).withEr { s.er with deqPtr := v }

section

variable {s : State} (hq : s.Quiet) (hb : s.host.basesFixed = true) (h1 : s.op.hcrst = false)
  (h2 : s.op.cnr = false)

include hq hb h1 h2

/-- ERSTSZ written with one segment (40_register_access R171). -/
theorem exec_wr32_erstsz_one (hd : s.cfg.bitpos.Distinct) :
    exec (.wr32 .rt 0x28 (fieldAt s.cfg.bitpos.erstszLo 1#16)) s =
      .next s.segmentCounted := by
  obtain ⟨-, -, -, -, hlo, -⟩ := hd
  obtain ⟨h, -⟩ := erstWrite (s.onBus .rt 0x28) (fieldAt s.cfg.bitpos.erstszLo 1#16) h1 h2
  have hone : (fieldAt s.cfg.bitpos.erstszLo 1#16).extractLsb' s.cfg.bitpos.erstszLo 16 = 1 :=
    extractLsb'_fieldAt _ (by omega)
  refine (exec_wr32_quiet (b := .rt) (i := .wrErstsz _) hq hb
    (decodeAccess_encodeAccess rfl rfl)).trans (h.trans ?_)
  rw [State.cfg_onBus, hone]
  rfl

omit hq hb in
/-- ERSTBA's high dword loads the producer from an aligned segment of 256 TRBs
(40_register_access R168). -/
theorem exec_wrErstbaHi_loads {w : Dword} {e v : Addr} (hsz : s.intr.erstsz = 1)
    (hw : withHi s.intr.erstba w = e) (he : LowZero e 6) (hv : LowZero v 12)
    (hbase : s.mem.read64 e = v) (hsize : s.mem.read32 (e + 8) = 256) :
    exec (.wrErstbaHi w) s = .next ((s.withIntr { s.intr with erstba := e }).withEr
      { s.er with base := v, size := 256, enq := 0, pcs := true }) := by
  obtain ⟨-, -, h⟩ := erstWrite s w h1 h2
  have htable : w ++ s.intr.erstba.extractLsb' 0 32 = e := hw
  have hmask : e &&& ~~~0x3F#64 = e := and_not_low 6 e (by norm_num) he.extractLsb'
  have hv6 : ¬ v.extractLsb' 0 6 ≠ 0 := not_not.2 (LowZero.extractLsb' (by
    show v.toNat % 64 = 0
    have : v.toNat % 4096 = 0 := hv
    omega))
  have hone : ¬ s.intr.erstsz = 0 := by
    rw [hsz]
    decide
  have hcount : (BitVec.extractLsb' 0 16 (256 : Dword)).toNat = 256 := by decide
  have halign : Nat.gcd (16 * 256) 4096 = 2 ^ 12 := by decide
  dsimp only at h
  rw [htable, hmask, hbase, hsize, hcount, halign, if_neg hone, if_neg (not_not.2 hsz),
    if_neg hv6, if_neg (by decide), if_neg (not_not.2 (show v.toNat % 2 ^ 12 = 0 from hv))] at h
  exact h

/-- ERSTBA written whole (40_register_access R168). -/
theorem exec_wr64_erstba {e v : Addr} (hsz : s.intr.erstsz = 1) (he : LowZero e 6)
    (hv : LowZero v 12) (hbase : s.mem.read64 e = v) (hsize : s.mem.read32 (e + 8) = 256) :
    exec (.wr64 .rt 0x30 e) s = .next (s.segmentLoaded v e) := by
  let t := (s.onBus .rt 0x30).withIntr { s.intr with erstba := withLo s.intr.erstba (lo32 e) }
  have hlo : exec (.wr32 .rt 0x30 (lo32 e)) s = .next t := by
    obtain ⟨-, h, -⟩ := erstWrite (s.onBus .rt 0x30) (lo32 e) h1 h2
    exact (exec_wr32_quiet (b := .rt) (i := .wrErstbaLo (lo32 e)) hq hb
      (decodeAccess_encodeAccess rfl rfl)).trans
      (h.trans (if_pos ((extractLsb'_lo32 e).trans he.extractLsb')))
  have hhi := (exec_wr32_quiet (b := .rt) (s := t) (i := .wrErstbaHi (hi32 e)) hq hb
    (decodeAccess_encodeAccess rfl rfl)).trans (exec_wrErstbaHi_loads (s := t.onBus .rt 0x34)
      h1 h2 hsz (withHi_withLo _ e) he hv hbase hsize)
  exact exec_wr64_ok rfl hlo hhi

/-- ERDP written whole with a ring's base, which leaves EHB alone (40_register_access R170). -/
theorem exec_wr64_erdp_base {v : Addr} (hv : LowZero v 12) : exec (.wr64 .rt 0x38 v) s =
    .next (s.dequeueSet v) := by
  have hlow : LowZero v 4 := by
    show v.toNat % 16 = 0
    have : v.toNat % 4096 = 0 := hv
    omega
  have hmask : v &&& ~~~0xF#64 = v := and_not_low 4 v (by norm_num) hlow.extractLsb'
  have hbit : v.getLsbD 3 = false := by
    have e := congrArg (·.getLsbD 3) hlow.extractLsb'
    simpa using e
  rw [exec_wr64_erdp hq hb h1 h2, hmask, hbit]
  rfl

end

/-! ### The ring installed -/

/-- A procedure that replaces the host record first. -/
theorem Proc.setHost_bind {α : Type} (f : HostRec → HostRec) (k : Unit → Proc α) (s : State) :
    ExceptT.run ((setHost f : Proc Unit) >>= k) s = ExceptT.run (k ()) (s.withHost (f s.host)) :=
  Proc.bind_ok (Proc.lift_ok (m := setHost f) rfl)

/-- The table at `e` written for the segment at `v`, and the registers programmed: the part of
`init_event_ring` behind its allocations (41_ring_protocol R225). -/
def programEventRing (b : BitPos) (v e : Addr) : Proc Unit := do
  hostPut64 e v
  hostPut32 (e + 8) 256
  hostPut32 (e + 12) 0
  regWrite32 .rt 0x28 (fieldAt b.erstszLo 1#16)
  regWrite64 .rt 0x30 e
  regWrite64 .rt 0x38 v

theorem run_programEventRing {s : State} (hq : s.Quiet) (hb : s.host.basesFixed = true)
    (h1 : s.op.hcrst = false) (h2 : s.op.cnr = false) (hd : s.cfg.bitpos.Distinct) {v e : Addr}
    (hv : LowZero v 12) (he : LowZero e 6) (hst : s.mayStoreTrb e) :
    ExceptT.run (programEventRing s.cfg.bitpos v e) s =
      .ok (.ok (), ((s.tableStored v e).segmentCounted.segmentLoaded v e).dequeueSet v) := by
  obtain ⟨s0, s4, s8, s12⟩ := hst
  have hcounted := exec_wr32_erstsz_one (s := s.tableStored v e) hq hb h1 h2 hd
  have hloaded := exec_wr64_erstba (s := (s.tableStored v e).segmentCounted) hq hb h1 h2 rfl he hv
    (Memory.read64_segmentEntry s.mem e v) (Memory.read32_segmentEntry s.mem e v)
  have hset := exec_wr64_erdp_base (s := (s.tableStored v e).segmentCounted.segmentLoaded v e)
    hq hb h1 h2 hv
  unfold programEventRing
  rw [Proc.bind_ok (Proc.lift_ok (hostPut64_quiet hq v s0 s4)),
    Proc.bind_ok (Proc.lift_ok (hostPut32_mem hq _ _ s8)),
    Proc.bind_ok (Proc.lift_ok (hostPut32_mem hq _ _ s12))]
  refine (Proc.bind_ok (Proc.lift_ok (Act.run_eq_next.1 hcounted))).trans ?_
  rw [Proc.bind_ok (Proc.lift_ok (Act.run_eq_next.1 hloaded))]
  exact Proc.lift_ok (Act.run_eq_next.1 hset)

/-- The segment handed out and recorded (41_ring_protocol R225). -/
def State.segmentGiven (s : State) (v : Addr) (left : List (Option Addr)) : State :=
  (s.given v 4096 .evtRing left).withHost { s.host with evt := ⟨v, 0, 0, true, 256⟩ }

/-- The table handed out and recorded too. -/
def State.tableGiven (s : State) (v e : Addr) (left : List (Option Addr)) : State :=
  ((s.segmentGiven v (some e :: left)).given e 16 .erst left).withHost
    { s.host with evt := ⟨v, 0, 0, true, 256⟩, erst := e }

/-- With both blocks handed out the rest programs the event ring. -/
theorem run_initEventRing_given {s : State} {v e : Addr} {left : List (Option Addr)}
    (hv : s.mayGive v 4096 4096) (h : s.plat.allocs = some v :: some e :: left)
    (he : (s.given v 4096 .evtRing (some e :: left)).mayGive e 16 64) :
    ExceptT.run initEventRing s = ExceptT.run (programEventRing s.cfg.bitpos v e)
      (s.tableGiven v e left) := by
  have halloc : alloc 16 64 .erst (s.segmentGiven v (some e :: left)) =
      .ok (some e, (s.segmentGiven v (some e :: left)).given e 16 .erst left) := alloc_gives rfl he
  unfold initEventRing
  rw [Proc.get_bind, Proc.bind_ok (allocRing_gives h hv)]
  refine (Proc.setHost_bind _ _ _).trans ((Proc.bind_ok (Proc.lift_ok halloc)).trans ?_)
  exact Proc.setHost_bind _ _ _

/-! ### The ring given back -/

/-- Zeroing a block changes no byte outside it. -/
theorem Memory.zeroBytes_agreeOutside (m : Memory) {v : Addr} {n : Nat} (kind : BlockKind)
    (hend : v.toNat + n ≤ 2 ^ 64) : m.AgreeOutside (m.zeroBytes v.toNat n) [⟨v, n, kind⟩] := by
  intro a ha
  rw [Memory.read_zeroBytes, if_neg]
  rintro ⟨hle, hlt⟩
  refine ha ⟨v, n, kind⟩ (List.mem_singleton_self _) (a - v.toNat) ?_ ?_
  · show a - v.toNat < n
    omega
  · show a = byteAddr v (a - v.toNat)
    unfold byteAddr
    rw [BitVec.toNat_add, BitVec.toNat_ofNat]
    omega

theorem Memory.AgreeOutside.trans {m n k : Memory} {l : List Block} (h : m.AgreeOutside n l)
    (h' : n.AgreeOutside k l) : m.AgreeOutside k l := fun a ha => (h' a ha).trans (h a ha)

/-- The test by which a segment is given back. -/
def isSegment (v : Addr) (b : Block) : Bool := b.kind == .evtRing && b.base == v

/-- Of the blocks it finds the segment alone, where no other lies at its base. -/
theorem filter_isSegment {v : Addr} {n : Nat} {live : List Block} (h : ∀ b ∈ live, b.base ≠ v) :
    (⟨v, n, .evtRing⟩ :: live : List Block).filter (isSegment v) = [⟨v, n, .evtRing⟩] ∧
    (⟨v, n, .evtRing⟩ :: live : List Block).filter (fun b => !isSegment v b) = live := by
  have hself : isSegment v ⟨v, n, .evtRing⟩ = true := by simp [isSegment]
  have hother : ∀ b ∈ live, isSegment v b = false := fun b hb => by
    rw [isSegment, beq_eq_false_iff_ne.2 (h b hb), Bool.and_false]
  constructor
  · rw [List.filter_cons_of_pos hself, List.filter_eq_nil_iff.2 fun b hb => by
      rw [hother b hb]
      exact Bool.false_ne_true]
  · rw [List.filter_cons_of_neg (by rw [hself]; exact Bool.false_ne_true),
      List.filter_eq_self.2 fun b hb => by rw [hother b hb]; rfl]

/-- The segment given back, its bytes those of `m`, and the ring's record with it. -/
def State.segmentReturned (s : State) (v : Addr) (m : Memory) (x : FreeSrc)
    (left : List (Option Addr)) : State :=
  (((s.withMem m).withFree x).withPlat { s.plat with
    allocs := left
    freed := ⟨v, 4096, .evtRing⟩ :: s.plat.freed.flatMap (·.minus v 4096) }).withHost
    { s.host with evt := .unallocated }

/-- What giving the segment back leaves, where no other block lies at its base. -/
theorem dropEventRing_ok {s : State} {v : Addr} {left : List (Option Addr)}
    (hend : v.toNat + 4096 ≤ 2 ^ 64) (hlive : ∀ b ∈ s.plat.live, b.base ≠ v) :
    ∃ m x, s.mem.AgreeOutside m [⟨v, 4096, .evtRing⟩] ∧
      dropEventRing ⟨v, 0, 0, true, 256⟩ ((s.segmentGiven v (none :: left)).denied left) =
        .ok ((), s.segmentReturned v m x left) := by
  obtain ⟨hfreed, hleft⟩ := filter_isSegment (n := 4096) hlive
  obtain ⟨m, x, hm, hrel⟩ :=
    releaseWhere_ok (isSegment v) ((s.segmentGiven v (none :: left)).denied left)
  have hblocks : ((s.segmentGiven v (none :: left)).denied left).plat.live =
      ⟨v, 4096, .evtRing⟩ :: s.plat.live := rfl
  rw [hblocks, hfreed] at hm
  rw [hblocks, hfreed, hleft] at hrel
  refine ⟨m, x, (s.mem.zeroBytes_agreeOutside .evtRing hend).trans hm, ?_⟩
  refine (Act.bind_ok hrel).trans ((Act.modify_apply _ _).trans ?_)
  dsimp only [State.segmentReturned, State.segmentGiven, State.denied, State.given,
    Platform.giving, State.withHost, State.withPlat, State.withMem, State.withFree,
    List.singleton_append]

theorem run_initEventRing_denied {s t : State} {v : Addr} {left : List (Option Addr)}
    (hv : s.mayGive v 4096 4096) (h : s.plat.allocs = some v :: none :: left)
    (hdrop : dropEventRing ⟨v, 0, 0, true, 256⟩ ((s.segmentGiven v (none :: left)).denied left) =
      .ok ((), t)) :
    ExceptT.run initEventRing s = .ok (.error (.allocationFailure .erst), t) := by
  unfold initEventRing
  rw [Proc.get_bind, Proc.bind_ok (allocRing_gives h hv)]
  refine (Proc.setHost_bind _ _ _).trans ((Proc.bind_ok (Proc.lift_ok
    (alloc_denies (s := s.segmentGiven v (none :: left)) rfl))).trans ?_)
  exact Proc.bind_ok (Proc.lift_ok hdrop)

/-! ### The procedure -/

/-- The event ring allocated and its table written, the registers programmed
(41_ring_protocol R225). -/
theorem exec_initEventRing_given {s : State} {v e : Addr} {left : List (Option Addr)}
    (hv : s.mayGive v 4096 4096) (hq : s.Quiet) (hb : s.host.basesFixed = true)
    (h1 : s.op.hcrst = false) (h2 : s.op.cnr = false) (hd : s.cfg.bitpos.Distinct)
    (h : s.plat.allocs = some v :: some e :: left)
    (he : (s.given v 4096 .evtRing (some e :: left)).mayGive e 16 64)
    (hst : ((s.given v 4096 .evtRing (some e :: left)).given e 16 .erst left).mayStoreTrb e) :
    exec .initEventRing s = .next (((((s.tableGiven v e left).tableStored v
      e).segmentCounted.segmentLoaded v e).dequeueSet v).withResult .success) :=
  Act.run_of_ok (concluding_ok (f := fun _ => .success) ((run_initEventRing_given hv h he).trans
    (run_programEventRing (s := s.tableGiven v e left) hq hb h1 h2 hd hv.1 he.1 hst)))

/-- With no room for the table the segment is given back, and its record with it
(60_exceptions R374; log 30). -/
theorem exec_initEventRing_denied {s : State} {v : Addr} {left : List (Option Addr)}
    (hv : s.mayGive v 4096 4096) (h : s.plat.allocs = some v :: none :: left)
    (hlive : ∀ b ∈ s.plat.live, b.base ≠ v) :
    ∃ m x, s.mem.AgreeOutside m [⟨v, 4096, .evtRing⟩] ∧ exec .initEventRing s =
      .next ((s.segmentReturned v m x left).withResult
        (.failure (.allocationFailure .erst))) := by
  have ⟨_, hend, _⟩ := hv
  obtain ⟨m, x, hm, hdrop⟩ := dropEventRing_ok (left := left) hend hlive
  exact ⟨m, x, hm, Act.run_of_ok (concluding_fails (f := fun _ => .success)
    (run_initEventRing_denied hv h hdrop))⟩

/-- The state that the steps of the procedure leave, written out. -/
theorem State.eventRing_programmed (s : State) (v e : Addr) (left : List (Option Addr)) :
    let g := (s.given v 4096 .evtRing (some e :: left)).given e 16 .erst left
    ((((s.tableGiven v e left).tableStored v e).segmentCounted.segmentLoaded v e).dequeueSet
        v).withResult .success = { g with
      intr := { s.intr with erstsz := 1, erstba := e }
      er := ⟨v, 256, 0, true, v, s.er.ehb⟩
      mem := ((g.mem.write64 e v).write32 (e + 8) 256).write32 (e + 12) 0
      host := { s.host with
        evt := ⟨v, 0, 0, true, 256⟩
        erst := e
        busAddr := s.host.regAddr .rt 0x3C
        result := .success } } := by
  dsimp only [State.tableGiven, State.segmentGiven, State.tableStored, State.segmentCounted,
    State.segmentLoaded, State.dequeueSet, State.withResult, State.onBus, State.given,
    Platform.giving, State.withHost, State.withPlat, State.withMem, State.withIntr, State.withEr,
    Memory.writeTrb, segmentEntry, HostRec.regAddr, HostRec.base]

/-- The same of a segment given back. -/
theorem State.segmentReturned_failed (s : State) (v : Addr) (m : Memory) (x : FreeSrc)
    (left : List (Option Addr)) (r : FailReason) :
    (s.segmentReturned v m x left).withResult (.failure r) =
      (((s.withMem m).withFree x).withPlat { s.plat with
        allocs := left
        freed := ⟨v, 4096, .evtRing⟩ :: s.plat.freed.flatMap (·.minus v 4096) }).withHost
        { s.host with evt := ⟨0, 0, 0, false, 0⟩, result := .failure r } := by
  dsimp only [State.segmentReturned, State.withResult, State.withHost, State.withPlat,
    State.withMem, State.withFree, Ring.unallocated]

/-- Settles O49: the table given, or denied. -/
theorem eventRingInstalled : Obligations.EventRingInstalled := by
  intro s v e left hv
  refine ⟨fun hq hb h1 h2 hd h he hst => ?_, fun h hlive => ?_⟩
  · rw [exec_initEventRing_given hv hq hb h1 h2 hd h he hst, s.eventRing_programmed]
  · obtain ⟨m, x, hm, hexec⟩ := exec_initEventRing_denied hv h hlive
    exact ⟨m, x, hm, hexec.trans (congrArg _ (s.segmentReturned_failed v m x left _))⟩

end Sys2Proof.Machine
end

section
/-! Proofs of the lifecycle family (42_lifecycle), the controller's own steps: every step keeps the
lifecycle bits legal, what each lifecycle step and each port move does, and configuration reads. -/

namespace Sys2Proof.Machine

/-! ### The lifecycle bits -/

/-- The bits are legal exactly where a reset keeps CNR set and CNR keeps HCH set (42_lifecycle
R248). -/
theorem OpRegs.lifecycle_ne_none_iff {o : OpRegs} :
    o.lifecycle ≠ none ↔ (o.hcrst = true → o.cnr = true) ∧ (o.cnr = true → o.hch = true) := by
  unfold OpRegs.lifecycle
  cases o.hcrst <;> cases o.cnr <;> cases o.hch <;> simp

/-- The engines stand still while the controller is halted (42_lifecycle R250). -/
def State.EnginesStop (s : State) : Prop :=
  s.op.hch = true → s.cr.running = false ∧ ∀ i r, s.tr.get i = some r → r.running = false

theorem State.lifecycleInv_iff {s : State} :
    s.LifecycleInv ↔ s.op.lifecycle ≠ none ∧ s.EnginesStop := by
  unfold State.LifecycleInv State.EnginesStop
  refine and_congr_right fun _ => ?_
  cases s.op.hch <;> simp

/-- The invariant speaks of the operational registers and of what runs. -/
theorem State.LifecycleInv.of_eq {s t : State} (hs : s.LifecycleInv) (ho : t.op = s.op)
    (hc : t.cr.running = true → s.cr.running = true) (ht : t.tr = s.tr) : t.LifecycleInv := by
  obtain ⟨hlife, hcr, htr⟩ := hs
  unfold State.LifecycleInv
  rw [ho, ht]
  exact ⟨hlife, fun h => hcr (hc h), htr⟩

/-- A transfer engine put in place runs only where the controller does. -/
theorem State.LifecycleInv.withXfer {s : State} (hs : s.LifecycleInv) (i : SlotId)
    {x : Option XferRing} (hx : ∀ r, x = some r → r.running = true → s.op.hch = false) :
    (s.withXfer i x).LifecycleInv := by
  obtain ⟨hlife, hcr, htr⟩ := hs
  refine ⟨hlife, hcr, fun j r hr => ?_⟩
  rw [State.tr_withXfer, Tab.get_put] at hr
  split at hr
  · exact hx r hr
  · exact htr j r hr

theorem lifecycleInv_engineClosed : EngineClosed State.LifecycleInv := by
  intro s t h hs
  obtain ⟨-, -, htr⟩ := id hs
  cases h with
  | cmdStop => exact hs.of_eq rfl nofun rfl
  | cmdAdvance => exact hs.of_eq rfl id rfl
  | install n a dc r hn ha hd hb hr =>
    have hslot : (s.withSlot n ⟨.addressed, a, dc⟩).LifecycleInv := hs.of_eq rfl id rfl
    refine hslot.withXfer n ?_
    rintro _ ⟨⟩ hrun
    rw [hr] at hrun
    cases hrun
  | xferStop i r h =>
    refine hs.withXfer i ?_
    rintro _ ⟨⟩ ⟨⟩
  | xferAdvance i r k h =>
    refine hs.withXfer i ?_
    rintro _ ⟨⟩ hrun
    exact htr i r h hrun
  | _ => exact hs.of_eq rfl id rfl

/-- A halt stops every engine with the controller (42_lifecycle R250). -/
theorem State.LifecycleInv.halted {s : State} (hs : s.LifecycleInv) : s.halted.LifecycleInv := by
  rw [State.lifecycleInv_iff, OpRegs.lifecycle_ne_none_iff] at hs ⊢
  obtain ⟨⟨hreset, -⟩, -⟩ := hs
  refine ⟨⟨hreset, fun _ => rfl⟩, fun _ => ⟨rfl, fun i r hr => ?_⟩⟩
  have hget : s.halted.tr.get i = (s.tr.get i).map XferRing.stopped := Tab.get_each _ _ _
  rw [hget] at hr
  obtain ⟨q, -, rfl⟩ := Option.map_eq_some_iff.1 hr
  rfl

/-- A reset leaves the registers of power-on and no engine (42_lifecycle R252). -/
theorem lifecycleInv_controllerReset (s : State) : s.controllerReset.LifecycleInv :=
  lifecycleInv_reset

/-- With HCH as it was, what runs is as legal as before. -/
theorem State.LifecycleInv.withOp {s : State} (hs : s.LifecycleInv) {o : OpRegs}
    (ho : o.lifecycle ≠ none) (hh : s.op.hch = false → o.hch = false) :
    (s.withOp o).LifecycleInv := by
  obtain ⟨-, hcr, htr⟩ := hs
  exact ⟨ho, fun h => hh (hcr h), fun i r hr h => hh (htr i r hr h)⟩

theorem lifecycleInv_resetClosed : ResetClosed State.LifecycleInv := by
  intro s _ hh hs
  exact hs.withOp (OpRegs.lifecycle_ne_none_iff.2 ⟨fun _ => rfl, fun _ => hh⟩) id

theorem OpRegs.haltOn_iff {o : OpRegs} : o.haltOn = true ↔ o.hch = false ∧ o.rs = false := by
  unfold OpRegs.haltOn
  rw [Bool.and_eq_true, Bool.not_eq_true', Bool.not_eq_true']

theorem OpRegs.readyOn_iff {o : OpRegs} : o.readyOn = true ↔ o.hcrst = false ∧ o.cnr = true := by
  unfold OpRegs.readyOn
  rw [Bool.and_eq_true, Bool.not_eq_true']

theorem OpRegs.startOn_iff {o : OpRegs} : o.startOn = true ↔
    o.hch = true ∧ o.cnr = false ∧ o.hcrst = false ∧ o.rs = true := by
  unfold OpRegs.startOn
  simp only [Bool.and_eq_true, Bool.not_eq_true', and_assoc]

/-- Each lifecycle step moves between two of the four combinations (42_lifecycle R249). -/
theorem lifecycleInv_ctlClosed : CtlClosed State.LifecycleInv := by
  intro s t h hs
  have hlife := OpRegs.lifecycle_ne_none_iff.1 hs.1
  cases h with
  | engine h => exact lifecycleInv_engineClosed _ _ h hs
  | halt => exact hs.halted
  | controllerReset => exact lifecycleInv_controllerReset s
  | ready h =>
    obtain ⟨hhcrst, -⟩ := OpRegs.readyOn_iff.1 h
    exact hs.withOp (OpRegs.lifecycle_ne_none_iff.2
      ⟨fun e => absurd (hhcrst.symm.trans e) nofun, nofun⟩) id
  | start h =>
    obtain ⟨-, hcnr, -, -⟩ := OpRegs.startOn_iff.1 h
    exact hs.withOp (OpRegs.lifecycle_ne_none_iff.2
      ⟨hlife.1, fun e => absurd (hcnr.symm.trans e) nofun⟩) fun _ => rfl
  | resetBegun hr hh => exact lifecycleInv_resetClosed s hr hh hs
  | _ => exact hs.of_eq rfl id rfl

/-- The host's registers leave HCRST, CNR and HCH alone, and wake an engine only where HCH is 0. -/
theorem lifecycleInv_hostClosed : HostClosed State.LifecycleInv := by
  intro s t h hs
  cases h with
  | usbcmd rs inte h => exact hs.withOp hs.1 id
  | latch v h => exact hs.withOp hs.1 id
  | dcbaapLo v hr h => exact hs.withOp hs.1 id
  | dcbaapHi v hr => exact hs.withOp hs.1 id
  | loadCr v h => exact hs.of_eq rfl nofun rfl
  | ringCmd h =>
    obtain ⟨hlife, -, htr⟩ := hs
    exact ⟨hlife, fun _ => h, htr⟩
  | ringEp0 i h => exact hs.withXfer i fun _ _ _ => h
  | _ => exact hs.of_eq rfl id rfl

theorem lifecycleInv_stepKeeps : StepKeeps State.LifecycleInv where
  ctl := lifecycleInv_ctlClosed
  host := lifecycleInv_hostClosed
  config _ _ _ _ hs := hs.withOp hs.1 id
  poll := by
    rintro _ _ ⟨n, -⟩ hs
    exact hs.of_eq rfl id rfl
  turns _ _ hs := hs.of_eq rfl id rfl

/-- Settles O8: every update of the state keeps the invariant, so every step does. -/
theorem stepKeepsLifecycle : Obligations.StepKeepsLifecycle :=
  fun _ _ hs h => step_keeps lifecycleInv_stepKeeps (fun _ _ hs => hs.of_eq rfl id rfl) hs h

/-! ### The lifecycle steps -/

/-- A step that updates the state where its condition holds, with the condition written out. -/
theorem run_modify_ite {c : State → Bool} {f : State → State} {s : State} {p : Prop} [Decidable p]
    (h : c s = true ↔ p) :
    Act.run (modify fun s => if c s then f s else s) s = if p then .next (f s) else .next s := by
  refine Eq.trans (b := Host.Outcome.next (if c s = true then f s else s)) rfl ?_
  rw [apply_ite Host.Outcome.next]
  exact if_congr h rfl rfl

theorem exec_xhcHalt (s : State) : exec .xhcHalt s =
    if s.op.hch = false ∧ s.op.rs = false then .next s.halted else .next s :=
  run_modify_ite (c := fun s => s.op.haltOn) (f := State.halted) OpRegs.haltOn_iff

theorem exec_xhcReady (s : State) : exec .xhcReady s =
    if s.op.hcrst = false ∧ s.op.cnr = true then .next (s.withOp { s.op with cnr := false })
    else .next s :=
  run_modify_ite (c := fun s => s.op.readyOn) (f := fun s => s.withOp { s.op with cnr := false })
    OpRegs.readyOn_iff

theorem exec_xhcStart (s : State) : exec .xhcStart s =
    if s.op.hch = true ∧ s.op.cnr = false ∧ s.op.hcrst = false ∧ s.op.rs = true then
      .next (s.withOp { s.op with hch := false })
    else .next s :=
  run_modify_ite (c := fun s => s.op.startOn) (f := fun s => s.withOp { s.op with hch := false })
    OpRegs.startOn_iff

theorem exec_xhcResetComplete (s : State) : exec .xhcResetComplete s =
    if s.op.hcrst = true then .next s.controllerReset else .next s :=
  run_modify_ite (c := fun s => s.op.hcrst) (f := State.controllerReset) Iff.rfl

theorem exec_xhcResetBegin (s : State) : exec .xhcResetBegin s =
    if s.op.cnr = true ∨ s.op.hcrst = true then .refused .notReady
    else if s.op.hch = false then .refused .resetWhileRunning
    else .next (s.withOp { s.op with hcrst := true, cnr := true }) := by
  split
  · next h => exact run_writable_bind_refused h _
  · next h =>
    rw [not_or, Bool.not_eq_true, Bool.not_eq_true] at h
    obtain ⟨hcnr, hhcrst⟩ := h
    refine ((run_writable_bind hhcrst hcnr _).trans (run_get_bind _ s)).trans ?_
    exact run_require_not (p := s.op.hch = false) (Bool.not_eq_false _).symm.to_iff _ _ s

/-- Settles O45: each step by its condition, and the end of a reset port by port. -/
theorem lifecycleSteps : Obligations.LifecycleSteps := by
  intro s
  refine ⟨exec_xhcHalt s, exec_xhcResetBegin s, exec_xhcReady s, exec_xhcStart s, fun h => ?_,
    fun h => ⟨s.ports.each Port.afterReset, ?_, fun p => Tab.get_each _ _ p⟩⟩
  · rw [exec_xhcResetComplete, if_neg (by rw [h]; exact Bool.false_ne_true)]
  · rw [exec_xhcResetComplete, if_pos h]
    rfl

/-! ### Moves of the ports -/

/-- Events are on where the controller runs and has a ring (41_ring_protocol R212). -/
theorem State.eventsOn_eq (s : State) :
    s.eventsOn = (!s.op.hch && decide (s.er.size ≠ 0)) := by
  unfold State.eventsOn
  cases s.er.size <;> rfl

/-- Settles O46: each move by its condition. -/
theorem portMoves : Obligations.PortMoves := by
  intro s p v q noted
  have hnoted : noted = (q.pscPending || s.eventsOn) := by rw [State.eventsOn_eq]
  rw [hnoted]
  refine ⟨?_, ?_, ?_⟩
  · refine run_modify_ite (c := fun s => s.hasPort p && !(s.ports.get p).attached)
      (f := fun s => s.withPort p (noteChange s ((s.ports.get p).attach v))) ?_
    rw [Bool.and_eq_true, s.hasPort_iff, Bool.not_eq_true']
  · refine run_modify_ite (c := fun s => s.hasPort p && (s.ports.get p).attached)
      (f := fun s => s.withPort p (noteChange s (s.ports.get p).detach)) ?_
    rw [Bool.and_eq_true, s.hasPort_iff]
  · refine run_modify_ite (c := fun s => s.portResetOn p)
      (f := fun s => s.withPort p (noteChange s (s.ports.get p).resetDone)) ?_
    unfold State.portResetOn
    rw [Bool.and_eq_true, Bool.and_eq_true, s.hasPort_iff, OpRegs.ready_iff, and_assoc, and_assoc]

/-! ### Configuration reads -/

theorem PciWord.place_iff {w : PciWord} {b : BitVec 8} {d : BitVec 5} {f : BitVec 3}
    {o : BitVec 8} : (w.bus == b && w.device == d && w.function == f && w.offset == o) = true ↔
      (w.bus, w.device, w.function, w.offset) = (b, d, f, o) := by
  simp only [Bool.and_eq_true, beq_iff_eq, Prod.mk.injEq, and_assoc]

/-- The first word listed at a place is the one read there. -/
theorem cfgWord_first {pre post : List PciWord} {w : PciWord}
    (h : ∀ u ∈ pre, (u.bus, u.device, u.function, u.offset) ≠
      (w.bus, w.device, w.function, w.offset)) :
    cfgWord (pre ++ w :: post) w.bus w.device w.function w.offset = w.word := by
  have hself : (w.bus == w.bus && w.device == w.device && w.function == w.function &&
      w.offset == w.offset) = true := PciWord.place_iff.2 rfl
  unfold cfgWord
  rw [List.find?_append, List.find?_eq_none.2 fun u hu e => h u hu (PciWord.place_iff.1 e),
    Option.none_or, List.find?_cons, hself]

/-- A place with no word listed reads as all ones (42_lifecycle R232; log 32). -/
theorem cfgWord_unlisted {l : List PciWord} {b : BitVec 8} {d : BitVec 5} {f : BitVec 3}
    {o : BitVec 8} (h : ∀ u ∈ l, (u.bus, u.device, u.function, u.offset) ≠ (b, d, f, o)) :
    cfgWord l b d f o = 0xFFFFFFFF := by
  unfold cfgWord
  rw [List.find?_eq_none.2 fun u hu e => h u hu (PciWord.place_iff.1 e)]

/-- The speed codes (43_ports R274). -/
theorem decodedSpeed_eq (c : BitVec 4) : decodedSpeed c = (match c.toNat with
    | 1 => .full | 2 => .low | 3 => .high | 4 => .super | _ => .unknown) := by
  revert c
  decide

/-- Settles O34: the word found, or none; the speed codes one by one. -/
theorem cfgReadAndSpeed : Obligations.CfgReadAndSpeed := by
  intro s
  have hread (b d f o) : exec (.cfgRead b d f o) s =
    .next (s.withResult (.dword (cfgWord s.plat.pci b d f o))) := rfl
  refine ⟨fun pre w post hpci h => ?_, fun b d f o h => ?_, fun c => ?_⟩
  · rw [hread, hpci, cfgWord_first h]
  · rw [hread, cfgWord_unlisted h]
  · exact congrArg (fun x => Host.Outcome.next (s.withResult (.speed x))) (decodedSpeed_eq c)

end Sys2Proof.Machine
end

section
/-! Proofs of the lifecycle family (42_lifecycle), polls: a poll is a chain of reads, and waiting for
a bit ends at the first read that shows it, or never while nobody moves. -/

namespace Sys2Proof.Machine

open Config

/-! ### What a read depends on -/

/-- A change of the state that no register read notices. -/
structure ReadFrame (g : State → State) : Prop where
  cfg : ∀ s, (g s).cfg = s.cfg
  op : ∀ s, (g s).op = s.op
  intr : ∀ s, (g s).intr = s.intr
  er : ∀ s, (g s).er = s.er
  ports : ∀ s, (g s).ports = s.ports
  free : ∀ s, (g s).free = s.free
  withFree : ∀ s x, g (s.withFree x) = (g s).withFree x

theorem readFrame_withHost (x : HostRec) : ReadFrame (·.withHost x) :=
  ⟨fun _ => rfl, fun _ => rfl, fun _ => rfl, fun _ => rfl, fun _ => rfl, fun _ => rfl,
    fun _ _ => rfl⟩

theorem readFrame_withTurns (ts : List (List CtlMove)) : ReadFrame (·.withTurns ts) :=
  ⟨fun _ => rfl, fun _ => rfl, fun _ => rfl, fun _ => rfl, fun _ => rfl, fun _ => rfl,
    fun _ _ => rfl⟩

section frame

variable {g : State → State} (hg : ReadFrame g) {s t : State} {v : Dword}

include hg

theorem drawDword_frame (h : drawDword s = .ok (v, t)) : drawDword (g s) = .ok (v, g t) := by
  unfold drawDword at h ⊢
  rw [hg.free]
  split at h <;> cases h <;> rw [hg.withFree]

theorem openRead_frame {m f : Dword} (h : openRead m f s = .ok (v, t)) :
    openRead m f (g s) = .ok (v, g t) := by
  unfold openRead at h ⊢
  obtain ⟨w, u, hdraw, hpure⟩ := Act.bind_eq_ok.1 h
  cases hpure
  rw [Act.bind_ok (drawDword_frame hg hdraw)]
  rfl

omit hg in
theorem readField_frame {f : State → Dword} (hf : f (g s) = f s)
    (h : readField f s = .ok (v, t)) : readField f (g s) = .ok (v, g t) := by
  cases h
  exact congrArg (fun w => Except.ok (w, g s)) hf

/-- A register reads as the same value, and what else the state holds stays changed. -/
theorem readEffect_frame {i : Instr} (h : readEffect i s = .ok (v, t)) :
    readEffect i (g s) = .ok (v, g t) := by
  have hopen (m f : State → Dword) (hm : m (g s) = m s) (hf : f (g s) = f s)
      (h : openRead (m s) (f s) s = .ok (v, t)) :
      openRead (m (g s)) (f (g s)) (g s) = .ok (v, g t) := by
    rw [hm, hf]
    exact openRead_frame hg h
  cases i
  case rdCap0 | rdHcsparams1 | rdDboff | rdRtsoff =>
    exact readField_frame (by rw [hg.cfg]) h
  case rdDcbaapLo | rdDcbaapHi => exact readField_frame (by rw [hg.op]) h
  case rdErstbaLo | rdErstbaHi => exact readField_frame (by rw [hg.intr]) h
  case rdErdpHi => exact readField_frame (by rw [hg.er]) h
  case rdCrcrLo | rdCrcrHi => exact drawDword_frame hg h
  case rdUsbcmd =>
    exact hopen (fun s => usbcmdMask s.cfg.bitpos) (fun s => usbcmdFields s.cfg.bitpos s.op)
      (by rw [hg.cfg]) (by rw [hg.cfg, hg.op]) h
  case rdUsbsts =>
    exact hopen (fun s => usbstsMask s.cfg.bitpos) (fun s => usbstsFields s.cfg.bitpos s.op)
      (by rw [hg.cfg]) (by rw [hg.cfg, hg.op]) h
  case rdConfig =>
    exact hopen (fun s => fieldMask s.cfg.bitpos.maxSlotsEnLo 8)
      (fun s => fieldAt s.cfg.bitpos.maxSlotsEnLo s.op.maxSlotsEn)
      (by rw [hg.cfg]) (by rw [hg.cfg, hg.op]) h
  case rdIman =>
    exact hopen (fun s => imanMask s.cfg.bitpos) (fun s => imanFields s.cfg.bitpos s.intr)
      (by rw [hg.cfg]) (by rw [hg.cfg, hg.intr]) h
  case rdErstsz =>
    exact hopen (fun s => fieldMask s.cfg.bitpos.erstszLo 16)
      (fun s => fieldAt s.cfg.bitpos.erstszLo s.intr.erstsz)
      (by rw [hg.cfg]) (by rw [hg.cfg, hg.intr]) h
  case rdErdpLo =>
    exact hopen (fun _ => 0xFFFFFFF8#32) (fun s => erdpLoFields s.er) rfl (by rw [hg.er]) h
  case rdPortsc p =>
    replace h : readPortsc p s = .ok (v, t) := h
    show readPortsc p (g s) = _
    rw [readPortsc_apply] at h ⊢
    unfold State.hasPort at h ⊢
    rw [hg.cfg, hg.ports]
    split at h
    · rw [if_pos ‹_›]
      exact openRead_frame hg h
    · cases h
  case rdDb k =>
    replace h : readDoorbell k s = .ok (v, t) := h
    show readDoorbell k (g s) = _
    rw [readDoorbell_apply] at h ⊢
    rw [hg.cfg]
    split at h
    · rw [if_pos ‹_›]
      exact drawDword_frame hg h
    · cases h
  all_goals cases h

end frame

/-! ### A poll as a chain of reads -/

/-- A sequence with one element put before it. -/
def prepend {α : Type} (a : α) (f : Nat → α) : Nat → α
  | 0 => a
  | k + 1 => f k

/-- Reads `0` to `n` of one register, one after the other: `u k` the state before read `k`, `v k`
what it answers. -/
def ReadChain (b : RegBlock) (off : Dword) (n : Nat) (u : Nat → State) (v : Nat → Dword) : Prop :=
  ∀ k ≤ n, exec (.rd32 b off) (u k) = .next (u (k + 1)) ∧ (u (k + 1)).host.result = .dword (v k)

theorem ReadChain.single {b : RegBlock} {off : Dword} {s t : State} {v : Dword}
    (h : exec (.rd32 b off) s = .next t) (hr : t.host.result = .dword v) :
    ReadChain b off 0 (prepend s fun _ => t) fun _ => v := by
  intro k hk
  obtain rfl := Nat.le_zero.1 hk
  exact ⟨h, hr⟩

theorem ReadChain.cons {b : RegBlock} {off : Dword} {n : Nat} {u : Nat → State} {v : Nat → Dword}
    {s : State} {w : Dword} (hc : ReadChain b off n u v) (h : exec (.rd32 b off) s = .next (u 0))
    (hr : (u 0).host.result = .dword w) : ReadChain b off (n + 1) (prepend s u) (prepend w v) := by
  intro k hk
  cases k with
  | zero => exact ⟨h, hr⟩
  | succ k => exact hc k (Nat.le_of_succ_le_succ hk)

/-- What a poll knows and a chain of single reads does not: its counter, and the result it leaves
alone. -/
def State.polling (s : State) (c : Nat) (r : HostResult) : State := (s.counted c).withResult r

theorem State.polling_onBus (s : State) (c : Nat) (r : HostResult) (b : RegBlock) (off : Dword) :
    (s.polling c r).onBus b off = (s.onBus b off).polling c r := by
  cases b <;> rfl

/-- The same read made on its own, and within a poll. -/
theorem regRead32_polling {b : RegBlock} {off : Dword} {i : Instr} {s : State} (hq : s.Quiet)
    (hk : s.host.baseKnown b = true) (hd : decodeAccess s.cfg ⟨b, off, none⟩ = .ok i)
    (hi : i ≠ .undefinedOffset b off none) (c : Nat) (r : HostResult) :
    ∃ v t, t.Quiet ∧ t.host.baseKnown b = true ∧ t.cfg = s.cfg ∧ t.host.result = .dword v ∧
      exec (.rd32 b off) s = .next t ∧
      ∃ t', regRead32 b off (s.polling c r) = .ok (v, t') ∧
        t'.counted (t'.host.pollCount + 1) = t.polling (c + 1) r := by
  obtain ⟨v, x, hread⟩ := readEffect_ok (s := s.onBus b off) hd hi
  have hsingle : exec (.rd32 b off) s =
      .next (((s.onBus b off).withFree x).withResult (.dword v)) := by
    rw [exec_rd32]
    exact run_answering_ok ((regRead32_apply (gap_quiet hq) hk hd).trans hread)
  have hknown : (s.polling c r).host.baseKnown b = true := by
    cases b <;> exact hk
  have hpoll : regRead32 b off (s.polling c r) =
      .ok (v, ((s.onBus b off).withFree x).polling c r) := by
    rw [regRead32_apply (gap_quiet (s := s.polling c r) hq) hknown hd, State.polling_onBus]
    have h := readEffect_frame (readFrame_withHost ((s.onBus b off).polling c r).host) hread
    exact h
  refine ⟨v, ((s.onBus b off).withFree x).withResult (.dword v), hq, ?_, rfl, rfl, hsingle,
    ((s.onBus b off).withFree x).polling c r, hpoll, rfl⟩
  cases b <;> exact hk

/-- A poll with nothing between its reads, told by its reads. -/
theorem pollReads_chain {b : RegBlock} {off mask want : Dword} {i : Instr}
    (hi : i ≠ .undefinedOffset b off none) (r : HostResult) (n : Nat) (s : State) (c : Nat)
    (last : Dword) (hq : s.Quiet) (hk : s.host.baseKnown b = true)
    (hd : decodeAccess s.cfg ⟨b, off, none⟩ = .ok i) :
    ∃ m u v, m ≤ n ∧ u 0 = s ∧ ReadChain b off m u v ∧ (∀ k < m, v k &&& mask ≠ want) ∧
      (v m &&& mask ≠ want → m = n) ∧
      pollReads b off mask want (n + 1) last (s.polling c r) =
        .ok (if v m &&& mask = want then .success (v m) else .timeout (v m),
          (u (m + 1)).polling (c + (m + 1)) r) := by
  induction n generalizing s c last with
  | zero =>
    obtain ⟨v, t, ht, -, -, hres, hsingle, t', hread, hcount⟩ := regRead32_polling hq hk hd hi c r
    refine ⟨0, prepend s fun _ => t, fun _ => v, le_rfl, rfl, .single hsingle hres,
      fun k hk => absurd hk (Nat.not_lt_zero k), fun _ => rfl, ?_⟩
    by_cases hv : v &&& mask = want
    · rw [pollReads_hit hread hv, if_pos hv, hcount]
      rfl
    · rw [pollReads_miss hread hv, if_neg hv, hcount]
      exact pollReads_last (gap_quiet (s := t.polling (c + 1) r) ht)
  | succ n ih =>
    obtain ⟨v, t, ht, hkt, hcfg, hres, hsingle, t', hread, hcount⟩ :=
      regRead32_polling hq hk hd hi c r
    by_cases hv : v &&& mask = want
    · refine ⟨0, prepend s fun _ => t, fun _ => v, Nat.zero_le _, rfl, .single hsingle hres,
        fun k hk => absurd hk (Nat.not_lt_zero k), fun h => absurd hv h, ?_⟩
      rw [pollReads_hit hread hv, if_pos hv, hcount]
      rfl
    · obtain ⟨m, u, w, hm, hu, hchain, hmiss, hlast, hpoll⟩ :=
        ih t (c + 1) v ht hkt (by rw [hcfg]; exact hd)
      subst hu
      refine ⟨m + 1, prepend s u, prepend v w, Nat.succ_le_succ hm, rfl, hchain.cons hsingle hres,
        fun k hk => ?_, fun h => congrArg _ (hlast h), ?_⟩
      · cases k with
        | zero => exact hv
        | succ k => exact hmiss k (Nat.lt_of_succ_lt_succ hk)
      · rw [pollReads_miss hread hv, hcount, hpoll, Nat.add_assoc c 1, Nat.add_comm 1]
        rfl

/-! ### Waiting for a bit -/

/-- A bit of a dword under its mask. -/
theorem and_mask1 (v : Dword) (n : Nat) : v &&& mask1 n = flagAt (v.getLsbD n) n := by
  apply BitVec.eq_of_getLsbD_eq
  intro i hi
  rw [BitVec.getLsbD_and, getLsbD_mask1, getLsbD_flagAt, decide_eq_true hi]
  by_cases h : i = n
  · rw [h]
  · simp [h]

theorem flagAt_inj {a b : Bool} {n : Nat} (hn : n < 32) : flagAt a n = flagAt b n ↔ a = b := by
  refine ⟨fun h => ?_, congrArg (flagAt · n)⟩
  have hbit := congrArg (·.getLsbD n) h
  rwa [getLsbD_flagAt, getLsbD_flagAt, decide_eq_true rfl, decide_eq_true hn, Bool.and_true,
    Bool.and_true, Bool.and_true] at hbit

/-- A poll for a bit ends where the bit has the value waited for. -/
theorem and_mask1_eq_iff {v : Dword} {n : Nat} (hn : n < 32) (b : Bool) :
    v &&& mask1 n = flagAt b n ↔ v.getLsbD n = b := by
  rw [and_mask1, flagAt_inj hn]

/-- A value that shows USBSTS's fields, whatever its reserved bits hold. -/
structure ShowsUsbsts (b : BitPos) (o : OpRegs) (v : Dword) : Prop where
  hch : v.getLsbD b.usbstsHch = o.hch
  cnr : v.getLsbD b.usbstsCnr = o.cnr

/-- USBSTS read after the moves that fall before it. -/
theorem regRead32_usbsts {s s' : State} (hg : gap s = .ok ((), s'))
    (hb : s'.host.basesFixed = true) (hd : s'.cfg.bitpos.Distinct) :
    ∃ v x, ShowsUsbsts s'.cfg.bitpos s'.op v ∧
      regRead32 .op 4 s = .ok (v, (s'.onBus .op 4).withFree x) := by
  obtain ⟨w, x, h⟩ := openRead_some (fun s => usbstsMask s.cfg.bitpos)
    (fun s => usbstsFields s.cfg.bitpos s.op) (s'.onBus .op 4)
  obtain ⟨-, ⟨hhch, hcnr, hne⟩, -⟩ := hd
  obtain ⟨h1, h2⟩ := getLsbD_openFlags hhch hcnr hne s'.op.hch s'.op.cnr w
  exact ⟨_, x, ⟨h1, h2⟩, regRead32_ok (b := .op) (i := .rdUsbsts) hg hb rfl h⟩

/-- USBCMD read after the moves that fall before it. -/
theorem regRead32_usbcmd_after {s s' : State} (hg : gap s = .ok ((), s'))
    (hb : s'.host.basesFixed = true) (hd : s'.cfg.bitpos.Distinct) :
    ∃ v x, ShowsUsbcmd s'.cfg.bitpos s'.op v ∧
      regRead32 .op 0 s = .ok (v, (s'.onBus .op 0).withFree x) := by
  obtain ⟨w, x, h⟩ := openRead_some (fun s => usbcmdMask s.cfg.bitpos)
    (fun s => usbcmdFields s.cfg.bitpos s.op) (s'.onBus .op 0)
  exact ⟨_, x, showsUsbcmd_openBits hd s'.op w,
    regRead32_ok (b := .op) (i := .rdUsbcmd) hg hb rfl h⟩

/-- A poll whose first read shows the value wanted. -/
theorem regPoll_first {b : RegBlock} {off mask want v : Dword} {s t : State}
    (h : regRead32 b off (s.counted 0) = .ok (v, t)) (hv : v &&& mask = want)
    (hc : t.host.pollCount = 0) :
    regPoll b off mask want s = .ok (.success v, t.counted 1) := by
  have hhit := pollReads_hit (last := 0) (n := 999) h hv
  rw [hc] at hhit
  exact hhit

/-- The host waits at a register while nobody moves: what its reads see stays. -/
structure State.Waiting (c : Params) (o : OpRegs) (s : State) : Prop where
  quiet : s.Quiet
  bases : s.host.basesFixed = true
  cfg : s.cfg = c
  op : s.op = o

theorem State.Waiting.read {c : Params} {o : OpRegs} {s : State} (h : s.Waiting c o)
    (b : RegBlock) (off : Dword) (x : FreeSrc) (n : Nat) :
    (((s.onBus b off).withFree x).counted n).Waiting c o :=
  ⟨h.quiet, h.bases, h.cfg, h.op⟩

/-- While the value waited for is never shown, every read is made. -/
theorem pollReads_stuck {c : Params} {o : OpRegs} {b : RegBlock} {off mask want : Dword}
    (hread : ∀ s : State, s.Waiting c o → ∃ v x, v &&& mask ≠ want ∧
      regRead32 b off s = .ok (v, (s.onBus b off).withFree x)) (n : Nat) (s : State)
    (last : Dword) (hw : s.Waiting c o) :
    ∃ v x, pollReads b off mask want (n + 1) last s =
      .ok (.timeout v, ((s.onBus b off).withFree x).counted (s.host.pollCount + (n + 1))) := by
  obtain ⟨v, x, hv, h⟩ := hread s hw
  have hw' := hw.read b off x (s.host.pollCount + 1)
  induction n generalizing s last v x with
  | zero =>
    refine ⟨v, x, ?_⟩
    rw [pollReads_miss h hv]
    exact pollReads_last (gap_quiet hw'.quiet)
  | succ n ih =>
    obtain ⟨v', x', hv', h'⟩ := hread _ hw'
    obtain ⟨w, y, hpoll⟩ := ih _ v hw' v' x' hv' h' (hw'.read b off x' _)
    refine ⟨w, y, ?_⟩
    rw [pollReads_miss h hv]
    refine hpoll.trans ?_
    rw [State.onBus_counted, State.withFree_counted, State.counted_counted,
      State.pollCount_counted, Nat.add_assoc, Nat.add_comm 1]
    have honce : ((s.onBus b off).withFree x).onBus b off = (s.onBus b off).withFree x := by
      cases b <;> rfl
    rw [honce]
    rfl

/-- A poll in which nobody moves and the value waited for does not stand in the register: it times
out after all its reads (60_exceptions R392). -/
theorem regPoll_stuck {b : RegBlock} {off mask want : Dword} {s : State} (hq : s.Quiet)
    (hb : s.host.basesFixed = true)
    (hread : ∀ t : State, t.Waiting s.cfg s.op → ∃ v x, v &&& mask ≠ want ∧
      regRead32 b off t = .ok (v, (t.onBus b off).withFree x)) :
    ∃ v x, regPoll b off mask want s =
      .ok (.timeout v, ((s.onBus b off).withFree x).counted 1000) := by
  obtain ⟨v, x, h⟩ := pollReads_stuck hread 999 (s.counted 0) 0 ⟨hq, hb, rfl, rfl⟩
  refine ⟨v, x, h.trans ?_⟩
  rw [State.onBus_counted, State.withFree_counted, State.counted_counted,
    State.pollCount_counted, Nat.zero_add]

/-- A bit of USBSTS that the poll does not wait for, read while nobody moves. -/
theorem regRead32_usbsts_waiting {c : Params} {o : OpRegs} (hd : c.bitpos.Distinct) {n : Nat}
    (hn : n < 32) {x y : Bool} (hne : x ≠ y)
    (hbit : ∀ v, ShowsUsbsts c.bitpos o v → v.getLsbD n = x) (s : State) (hw : s.Waiting c o) :
    ∃ v z, v &&& mask1 n ≠ flagAt y n ∧ regRead32 .op 4 s = .ok (v, (s.onBus .op 4).withFree z) := by
  obtain ⟨hq, hb, rfl, rfl⟩ := hw
  obtain ⟨v, z, hv, h⟩ := regRead32_usbsts (gap_quiet hq) hb hd
  refine ⟨v, z, fun e => hne ?_, h⟩
  rw [← hbit v hv, (and_mask1_eq_iff hn y).1 e]

theorem exec_poll (b : RegBlock) (off mask want : Dword) (s : State) :
    exec (.poll b off mask want) s =
      (answering PollEnd.result (regPoll b off mask want)).run s := rfl

theorem exec_poll_hch {s : State} (hq : s.Quiet) (hb : s.host.basesFixed = true)
    (hd : s.cfg.bitpos.Distinct) (h : Bool) :
    ∃ v x, exec (.poll .op 4 (mask1 s.cfg.bitpos.usbstsHch) (flagAt h s.cfg.bitpos.usbstsHch)) s =
      .next ((((s.onBus .op 4).withFree x).counted (if s.op.hch = h then 1 else 1000)).withResult
        (if s.op.hch = h then .pollSuccess v else .pollTimeout v)) := by
  obtain ⟨-, ⟨hlt, -⟩, -⟩ := id hd
  rw [exec_poll]
  by_cases hh : s.op.hch = h
  · obtain ⟨v, x, hv, hread⟩ := regRead32_usbsts (gap_quiet (s := s.counted 0) hq) hb hd
    have hwant := (and_mask1_eq_iff hlt h).2 (hv.hch.trans hh)
    refine ⟨v, x, ?_⟩
    rw [if_pos hh, if_pos hh]
    exact run_answering_ok (regPoll_first hread hwant rfl)
  · obtain ⟨v, x, hpoll⟩ := regPoll_stuck hq hb
      (regRead32_usbsts_waiting hd hlt hh fun v hv => hv.hch)
    refine ⟨v, x, ?_⟩
    rw [if_neg hh, if_neg hh]
    exact run_answering_ok hpoll

/-- Settles O33: the chain of a poll's reads, then HCH. -/
theorem pollReads_spec : Obligations.PollReads := by
  intro s hq
  refine ⟨fun b off mask want i hk hd hi => ?_, fun h hb hd => exec_poll_hch hq hb hd h⟩
  obtain ⟨m, u, v, hm, hu, hchain, hmiss, hlast, hpoll⟩ :=
    pollReads_chain (mask := mask) (want := want) hi s.host.result 999 s 0 0 hq hk hd
  refine ⟨m, u, v, Nat.lt_succ_of_le hm, hu, hchain, hmiss, fun h => by rw [hlast h], ?_⟩
  refine (run_answering_ok (f := PollEnd.result) (m := regPoll b off mask want) (s := s)
    hpoll).trans ?_
  rw [Nat.zero_add]
  split <;> rfl

end Sys2Proof.Machine
end

section
/-! Proofs of the lifecycle family (42_lifecycle), discovery and capability parsing. -/

namespace Sys2Proof.Machine

open Config

/-! ### One function of PCI space -/

section

variable {l : List PciWord} {b : BitVec 8} {d : BitVec 5} {f : BitVec 3}

theorem probeFunction_hit (h : PciHit l b d f) :
    probeFunction l b d f = some (pciBar0 l b d f) := by
  obtain ⟨hpresent, hclass⟩ := h
  unfold probeFunction isXhciClass
  rw [if_neg hpresent]
  exact if_pos (beq_iff_eq.2 hclass)

theorem probeFunction_miss (h : ¬ PciHit l b d f) : probeFunction l b d f = none := by
  unfold probeFunction isXhciClass
  split
  · rfl
  · next hpresent => exact if_neg fun hclass => h ⟨hpresent, beq_iff_eq.1 hclass⟩

end

/-! ### The scan -/

/-- A search of the numbers below `n` ends at the first that answers. -/
theorem findSome?_range_first {α : Type} {g : Nat → Option α} {n k : Nat} {a : α} (hk : k < n)
    (ha : g k = some a) (hbefore : ∀ j < k, g j = none) :
    (List.range n).findSome? g = some a := by
  induction n with
  | zero => exact absurd hk (Nat.not_lt_zero k)
  | succ n ih =>
    rw [List.range_succ, List.findSome?_append]
    rcases Nat.lt_succ_iff_lt_or_eq.1 hk with hlt | rfl
    · rw [ih hlt]
      rfl
    · rw [List.findSome?_eq_none_iff.2 fun j hj => hbefore j (List.mem_range.1 hj), Option.none_or,
        List.findSome?_cons, ha]

theorem findSome?_range_none {α : Type} {g : Nat → Option α} {n : Nat}
    (h : ∀ j < n, g j = none) : (List.range n).findSome? g = none :=
  List.findSome?_eq_none_iff.2 fun j hj => h j (List.mem_range.1 hj)

theorem scanPci_none {l : List PciWord} (h : ∀ b d f, ¬ PciHit l b d f) : scanPci l = none :=
  findSome?_range_none fun _ _ => findSome?_range_none fun _ _ => findSome?_range_none fun _ _ =>
    probeFunction_miss (h _ _ _)

/-- The scan answers the base of the first function that is an xHCI controller (42_lifecycle
R231). -/
theorem scanPci_first {l : List PciWord} {b : BitVec 8} {d : BitVec 5} {f : BitVec 3}
    (h : PciFirst l b d f) : scanPci l = some (pciBar0 l b d f) := by
  obtain ⟨hhit, hfirst⟩ := h
  have hd := d.isLt
  have hf := f.isLt
  have before {b' d' f' : Nat} (hb' : b' < 256) (hd' : d' < 32) (hf' : f' < 8)
      (hlt : 256 * b' + 8 * d' + f' < 256 * b.toNat + 8 * d.toNat + f.toNat) :
      probeFunction l (BitVec.ofNat 8 b') (BitVec.ofNat 5 d') (BitVec.ofNat 3 f') = none := by
    refine probeFunction_miss fun hit => absurd (hfirst _ _ _ hit) ?_
    simp only [BitVec.toNat_ofNat]
    omega
  refine findSome?_range_first b.isLt ?_ fun b' hb' => ?_
  · refine findSome?_range_first hd ?_ fun d' hd' => ?_
    · refine findSome?_range_first hf ?_ fun f' hf' => ?_
      · rw [BitVec.ofNat_toNat, BitVec.ofNat_toNat, BitVec.ofNat_toNat, BitVec.setWidth_eq,
          BitVec.setWidth_eq, BitVec.setWidth_eq]
        exact probeFunction_hit hhit
      · exact before b.isLt hd (by omega) (by omega)
    · exact findSome?_range_none fun f' hf' => before b.isLt (by omega) hf' (by omega)
  · exact findSome?_range_none fun d' hd' => findSome?_range_none fun f' hf' =>
      before (by omega) hd' hf' (by omega)

theorem exec_discover_found {s : State} {a : Addr} (h : scanPci s.plat.pci = some a) :
    exec .discover s = .next ((s.withHost
      { s.host with found := true, capBase := a }).withResult (.found a)) := by
  refine Act.run_of_ok (m := discoverController) ?_
  unfold discoverController
  rw [Act.get_bind, h]
  rfl

theorem exec_discover_none {s : State} (h : scanPci s.plat.pci = none) :
    exec .discover s = .next (s.withResult (.failure .notFound)) := by
  refine Act.run_of_ok (m := discoverController) ?_
  unfold discoverController
  rw [Act.get_bind, h]
  rfl

theorem exec_discoverAndStart_none {s : State} (h : scanPci s.plat.pci = none) :
    exec .discoverAndStart s = .next (s.withResult (.failure .notFound)) := by
  refine Act.run_of_ok (m := discoverAndStart) ?_
  unfold discoverAndStart
  rw [Act.get_bind, h]
  rfl

/-! ### The capabilities -/

/-- The fields of the first capability dword (30_encoding R114). -/
theorem cap0Word_fields (c : Params) :
    capVersion (cap0Word c) = c.hciversion ∧ capLength (cap0Word c) = c.caplength := by
  unfold capVersion capLength cap0Word
  refine ⟨?_, BitVec.extractLsb'_append_eq_right⟩
  rw [BitVec.extractLsb'_append_eq_of_le (by norm_num)]
  exact BitVec.extractLsb'_append_eq_left

/-- The fields of HCSPARAMS1 (30_encoding R113). -/
theorem hcsWord_fields (c : Params) : hcsMaxSlots (hcsWord c) = c.maxSlots ∧
    hcsMaxIntrs (hcsWord c) = c.maxIntrs ∧ hcsMaxPorts (hcsWord c) = c.maxPorts := by
  unfold hcsMaxSlots hcsMaxIntrs hcsMaxPorts hcsWord
  refine ⟨BitVec.extractLsb'_append_eq_right, ?_, ?_⟩
  · rw [BitVec.extractLsb'_append_eq_of_le (by norm_num)]
    exact BitVec.extractLsb'_append_eq_right
  · rw [BitVec.extractLsb'_append_eq_of_le (by norm_num),
      BitVec.extractLsb'_append_eq_of_le (by norm_num)]
    exact BitVec.extractLsb'_append_eq_left

/-- A capability dword read with nothing before it: the constant, and the bus. -/
theorem regRead32_cap {s : State} {off v : Dword} {i : Instr} (hq : s.Quiet)
    (hf : s.host.found = true) (hd : decodeAccess s.cfg ⟨.cap, off, none⟩ = .ok i)
    (hi : readEffect i (s.onBus .cap off) = .ok (v, s.onBus .cap off)) :
    regRead32 .cap off s = .ok (v, s.onBus .cap off) :=
  regRead32_ok (b := .cap) (gap_quiet hq) hf hd hi

theorem parseCaps_quiet {s : State} (hq : s.Quiet) (hf : s.host.found = true) :
    parseCaps s = .ok ((), s.parsed) := by
  obtain ⟨hversion, hlength⟩ := cap0Word_fields s.cfg
  obtain ⟨hslots, hintrs, hports⟩ := hcsWord_fields s.cfg
  have h0 := regRead32_cap (i := .rdCap0) (off := 0) hq hf rfl rfl
  have h4 := regRead32_cap (s := s.onBus .cap 0) (i := .rdHcsparams1) (off := 4) hq hf rfl rfl
  have hdb := regRead32_cap (s := s.onBus .cap 4) (i := .rdDboff) (off := 0x14) hq hf rfl rfl
  have hrt := regRead32_cap (s := s.onBus .cap 0x14) (i := .rdRtsoff) (off := 0x18) hq hf rfl rfl
  unfold parseCaps
  rw [Act.bind_ok h0]
  refine (Act.bind_ok h4).trans ((Act.bind_ok hdb).trans ((Act.bind_ok hrt).trans ?_))
  unfold State.parsed
  rw [← hversion, ← hlength, ← hslots, ← hintrs, ← hports]
  rfl

/-- Settles O53: the first hit or none, then the four reads. -/
theorem discoverAndParse : Obligations.DiscoverAndParse := by
  intro s word hit place
  refine ⟨fun b d f hhit hfirst => exec_discover_found (scanPci_first ⟨hhit, hfirst⟩),
    fun hnone => ?_, fun hq hf => ⟨s.free, ?_⟩⟩
  · have hscan := scanPci_none hnone
    exact ⟨exec_discover_none hscan, exec_discoverAndStart_none hscan⟩
  · exact run_answering_ok (f := fun _ => .success) (parseCaps_quiet hq hf)

end Sys2Proof.Machine
end

section
/-! Proofs of the lifecycle family (42_lifecycle), schedules: an action that makes `n` host accesses
does with `n` empty turns ahead of it what it does with none, and leaves the turns behind them. -/

namespace Sys2Proof.Machine

open Config

variable {α β : Type}

/-! ### Actions that make no access -/

/-- The action sees nothing of the turns to come, and takes none. -/
def Act.Blind (m : Act α) : Prop :=
  ∀ s ts a t, m s = .ok (a, t) → m (s.withTurns ts) = .ok (a, t.withTurns ts)

theorem Act.Blind.pure (a : α) : Act.Blind (Pure.pure a : Act α) := by
  intro s ts b t h
  cases h
  rfl

theorem Act.Blind.refuse (r : Refusal) : Act.Blind (refuse r : Act α) := by
  intro s ts a t h
  cases h

theorem Act.Blind.bind {m : Act α} {f : α → Act β} (hm : Act.Blind m)
    (hf : ∀ a, Act.Blind (f a)) : Act.Blind (m >>= f) := by
  intro s ts b u h
  obtain ⟨a, t, h1, h2⟩ := Act.bind_eq_ok.1 h
  exact (Act.bind_ok (hm s ts a t h1)).trans (hf a t ts b u h2)

theorem Act.Blind.modify {g : State → State}
    (hg : ∀ s ts, g (s.withTurns ts) = (g s).withTurns ts) :
    Act.Blind (modify g : Act PUnit) := by
  intro s ts a t h
  cases h
  exact congrArg (fun t => Except.ok ((), t)) (hg s ts)

theorem Act.Blind.require (c : Bool) (r : Refusal) : Act.Blind (require c r) := by
  intro s ts a t h
  obtain ⟨hc, rfl⟩ := require_eq_ok.1 h
  exact require_eq_ok.2 ⟨hc, rfl⟩

section get

variable {f g : State → Act α}

/-- An action that looks at the state, but not at the turns to come. -/
theorem Act.Blind.get_bind (hf : ∀ s ts, f (s.withTurns ts) = f s) (h : ∀ s, Act.Blind (f s)) :
    Act.Blind ((get : Act State) >>= f) := by
  intro s ts a t hs
  show f (s.withTurns ts) (s.withTurns ts) = _
  rw [hf]
  exact h s s ts a t hs

theorem Act.Blind.get_set {u : State → State}
    (hu : ∀ s ts, u (s.withTurns ts) = (u s).withTurns ts) :
    Act.Blind ((get : Act State) >>= fun s => (set (u s) : Act PUnit)) :=
  Act.Blind.modify hu

theorem Act.Blind.get_ite {c : State → Prop} [∀ s, Decidable (c s)]
    (hc : ∀ s ts, c (s.withTurns ts) ↔ c s) (hf : Act.Blind ((get : Act State) >>= f))
    (hg : Act.Blind ((get : Act State) >>= g)) :
    Act.Blind ((get : Act State) >>= fun s => if c s then f s else g s) := by
  intro s ts a t hs
  rw [Act.get_bind] at hs ⊢
  by_cases h : c s
  · rw [if_pos h] at hs
    rw [if_pos ((hc s ts).2 h)]
    exact hf s ts a t hs
  · rw [if_neg h] at hs
    rw [if_neg fun e => h ((hc s ts).1 e)]
    exact hg s ts a t hs

theorem Act.Blind.get_require {c : State → Bool} {r : Refusal}
    (hc : ∀ s ts, c (s.withTurns ts) = c s) (hf : Act.Blind ((get : Act State) >>= f)) :
    Act.Blind ((get : Act State) >>= fun s => Machine.require (c s) r >>= fun _ => f s) := by
  intro s ts a t hs
  rw [Act.get_bind] at hs ⊢
  obtain ⟨_, u, h1, h2⟩ := Act.bind_eq_ok.1 hs
  obtain ⟨hcs, rfl⟩ := require_eq_ok.1 h1
  rw [Act.bind_ok (require_eq_ok.2 ⟨(hc u ts).trans hcs, rfl⟩)]
  exact hf u ts a t h2

theorem writable_blind : Act.Blind writable :=
  Act.Blind.get_bind (fun _ _ => rfl) fun _ => .require _ _

theorem Act.Blind.get_writable (hf : Act.Blind ((get : Act State) >>= f)) :
    Act.Blind ((get : Act State) >>= fun s => writable >>= fun _ => f s) := by
  intro s ts a t hs
  rw [Act.get_bind] at hs ⊢
  obtain ⟨_, u, h1, h2⟩ := Act.bind_eq_ok.1 hs
  obtain ⟨hw, rfl⟩ := writable_eq_ok.1 h1
  rw [Act.bind_ok (writable_eq_ok (s := u.withTurns ts).2 ⟨hw, rfl⟩)]
  exact hf u ts a t h2

end get

theorem readEffect_blind (i : Instr) : Act.Blind (readEffect i) :=
  fun _ ts _ _ h => readEffect_frame (readFrame_withTurns ts) h

theorem loadEventRing_blind (a : Addr) : Act.Blind (loadEventRing a) :=
  .get_require (fun _ _ => rfl) (.get_require (fun _ _ => rfl) (.get_require (fun _ _ => rfl)
    (.get_set fun _ _ => rfl)))

theorem writeErstbaHi_blind (v : Dword) : Act.Blind (writeErstbaHi v) := by
  refine .bind writable_blind fun _ s ts a t h => ?_
  rw [Act.get_bind, Act.set_bind] at h ⊢
  by_cases hz : s.intr.erstsz = 0
  · rw [if_pos hz] at h
    cases h
    exact congrFun (if_pos hz) _
  · rw [if_neg hz] at h
    refine (congrFun (if_neg hz) _).trans ?_
    exact Act.Blind.bind (.require _ _) (fun _ => loadEventRing_blind _) _ ts a t h

theorem writeDoorbell_blind (i : SlotId) (v : Dword) : Act.Blind (writeDoorbell i v) := by
  have hdb0 : Act.Blind (writeDb0 v) :=
    .bind writable_blind fun _ => .get_ite (fun _ _ => Iff.rfl) (.pure _)
      (.get_require (fun _ _ => rfl) (.get_set fun _ _ => rfl))
  have hdbi : Act.Blind (writeDbi i v) :=
    .get_require (fun _ _ => rfl) (.get_writable (.get_ite (fun _ _ => Iff.rfl) (.pure _)
      (.get_require (fun _ _ => rfl) (.get_set fun _ _ => rfl))))
  unfold writeDoorbell
  split
  · exact hdb0
  · exact hdbi

/-- A register write is made whatever moves come after it. -/
theorem writeEffect_blind (i : Instr) : Act.Blind (writeEffect i) := by
  cases i
  case wrCap => exact .pure _
  case wrUsbcmd v =>
    exact .bind writable_blind fun _ => .get_ite (fun _ _ => Iff.rfl)
      (.get_require (fun _ _ => rfl) (.get_set fun _ _ => rfl)) (.get_set fun _ _ => rfl)
  case wrUsbsts => exact writable_blind
  case wrCrcrHi v =>
    refine .bind writable_blind fun _ => .get_set fun s ts => ?_
    dsimp only
    rw [apply_ite (State.withTurns · ts)]
    rfl
  case wrCrcrLo | wrDcbaapHi | wrIman | wrErstsz | wrErdpLo | wrErdpHi =>
    exact .bind writable_blind fun _ => .modify fun _ _ => rfl
  case wrDcbaapLo | wrErstbaLo =>
    exact .bind writable_blind fun _ => .bind (.require _ _) fun _ => .modify fun _ _ => rfl
  case wrConfig v =>
    exact .bind writable_blind fun _ => .get_require (fun _ _ => rfl) (.get_set fun _ _ => rfl)
  case wrPortsc p v =>
    exact .get_require (fun _ _ => rfl) (.get_writable (.get_ite (fun _ _ => Iff.rfl)
      (.get_set fun _ _ => rfl) (.pure _)))
  case wrErstbaHi v => exact writeErstbaHi_blind v
  case wrDb0 v => exact writeDoorbell_blind 0 v
  case wrDbi i v => exact writeDoorbell_blind i v
  all_goals exact .refuse _

theorem hostStore32_blind (a : Addr) (v : Dword) : Act.Blind (hostStore32 a v) := by
  intro s ts x t h
  obtain ⟨hr, rfl⟩ := hostStore32_eq_ok.1 h
  exact hostStore32_eq_ok.2 ⟨hr, rfl⟩

theorem alloc_blind (size align : Nat) (kind : BlockKind) : Act.Blind (alloc size align kind) := by
  intro s ts x t h
  cases hal : s.plat.allocs with
  | nil =>
    rw [alloc_exhausted hal] at h
    cases h
    exact alloc_exhausted hal
  | cons o r =>
    cases o with
    | none =>
      rw [alloc_denies hal] at h
      cases h
      exact alloc_denies (s := s.withTurns ts) hal
    | some a =>
      unfold alloc at h
      rw [Act.get_bind, hal] at h
      obtain ⟨_, u, h1, h2⟩ := Act.bind_eq_ok.1 h
      obtain ⟨hc, rfl⟩ := require_eq_ok.1 h1
      obtain ⟨_, v, h3, h4⟩ := Act.bind_eq_ok.1 h2
      obtain ⟨hr, rfl⟩ := refuseIf_eq_ok.1 h3
      cases h4
      unfold alloc
      rw [Act.get_bind, show (v.withTurns ts).plat.allocs = some a :: r from hal]
      exact (Act.bind_ok (require_eq_ok.2 ⟨hc, rfl⟩)).trans
        (Act.bind_ok (refuseIf_eq_ok.2 ⟨hr, rfl⟩))

/-! ### Actions that make accesses -/

@[simp] theorem State.withTurns_nil {s : State} (h : s.Quiet) : s.withTurns [] = s := by
  unfold State.withTurns
  rw [← show s.sched.turns = [] from h]
  rfl

/-- The first `n` turns hold no move. -/
def EmptyTurns (n : Nat) (ts : List (List CtlMove)) : Prop := ∀ m ∈ ts.take n, m = []

theorem emptyTurns_nil (n : Nat) : EmptyTurns n [] := by
  intro m hm
  rw [List.take_nil] at hm
  cases hm

theorem emptyTurns_replicate (n : Nat) (rest : List (List CtlMove)) :
    EmptyTurns n (List.replicate n [] ++ rest) := by
  intro m hm
  rw [List.take_left' List.length_replicate] at hm
  exact List.eq_of_mem_replicate hm

theorem EmptyTurns.left {n k : Nat} {ts : List (List CtlMove)} (h : EmptyTurns (n + k) ts) :
    EmptyTurns n ts := by
  intro m hm
  refine h m ?_
  rw [List.take_add]
  exact List.mem_append_left _ hm

theorem EmptyTurns.right {n k : Nat} {ts : List (List CtlMove)} (h : EmptyTurns (n + k) ts) :
    EmptyTurns k (ts.drop n) := by
  intro m hm
  refine h m ?_
  rw [List.take_add]
  exact List.mem_append_right _ hm

/-- What the action answers where nobody moves it answers with `n` empty turns ahead too, and they
are taken: it makes `n` host accesses. -/
def Act.Takes (n : Nat) (m : Act α) : Prop :=
  ∀ s ts a t, s.Quiet → EmptyTurns n ts → m s = .ok (a, t) →
    m (s.withTurns ts) = .ok (a, t.withTurns (ts.drop n))

/-- Where no turn was to come, none is afterwards. -/
theorem Act.Takes.quiet {n : Nat} {m : Act α} (hm : Act.Takes n m) {s t : State} {a : α}
    (hq : s.Quiet) (h : m s = .ok (a, t)) : t.Quiet := by
  have h' := hm s [] a t hq (emptyTurns_nil n) h
  rw [State.withTurns_nil hq, h, List.drop_nil, Except.ok.injEq, Prod.mk.injEq] at h'
  rw [h'.2]
  rfl

theorem Act.Blind.takes {m : Act α} (hm : Act.Blind m) : Act.Takes 0 m :=
  fun s ts a t _ _ h => hm s ts a t h

theorem Act.Takes.bind {n k : Nat} {m : Act α} {f : α → Act β} (hm : Act.Takes n m)
    (hf : ∀ a, Act.Takes k (f a)) : Act.Takes (n + k) (m >>= f) := by
  intro s ts b u hq hts h
  obtain ⟨a, t, h1, h2⟩ := Act.bind_eq_ok.1 h
  rw [Act.bind_ok (hm s ts a t hq hts.left h1), ← List.drop_drop]
  exact hf a t _ b u (hm.quiet hq h1) hts.right h2

theorem gap_takes : Act.Takes 1 gap := by
  intro s ts a t hq hts h
  rw [gap_quiet hq] at h
  cases h
  cases ts with
  | nil => exact gap_quiet rfl
  | cons m r =>
    obtain rfl : m = [] := hts m (List.mem_cons_self)
    exact gap_moves (s := s.withTurns ([] :: r)) rfl

theorem addressAccess_blind (b : RegBlock) (off : Dword) : Act.Blind (addressAccess b off) := by
  refine .get_require (fun s ts => ?_) (.get_set fun s ts => rfl)
  rfl

theorem selectAccess_blind (a : Access) : Act.Blind (selectAccess a) := by
  refine .get_bind (fun _ _ => rfl) fun s => ?_
  split
  · exact .pure _
  · exact .refuse _

theorem regRead32_takes (b : RegBlock) (off : Dword) : Act.Takes 1 (regRead32 b off) :=
  gap_takes.bind fun _ => (Act.Blind.bind (addressAccess_blind b off) fun _ =>
    .bind (selectAccess_blind _) readEffect_blind).takes

theorem regWrite32_takes (b : RegBlock) (off v : Dword) : Act.Takes 1 (regWrite32 b off v) :=
  gap_takes.bind fun _ => (Act.Blind.bind (addressAccess_blind b off) fun _ =>
    .bind (selectAccess_blind _) writeEffect_blind).takes

theorem regUpdate32_takes (b : RegBlock) (off : Dword) (f : Dword → Dword) :
    Act.Takes 2 (regUpdate32 b off f) :=
  (regRead32_takes b off).bind fun _ => regWrite32_takes b off _

theorem regWrite64_takes (b : RegBlock) (off : Dword) (v : Qword) :
    Act.Takes 2 (regWrite64 b off v) :=
  Act.Takes.bind (n := 0) (Act.Blind.require _ _).takes fun _ =>
    (regWrite32_takes b off _).bind fun _ => regWrite32_takes b _ _

theorem hostPut32_takes (a : Addr) (v : Dword) : Act.Takes 1 (hostPut32 a v) :=
  gap_takes.bind fun _ => (hostStore32_blind a v).takes

theorem hostPut64_takes (a : Addr) (v : Qword) : Act.Takes 2 (hostPut64 a v) :=
  (hostPut32_takes a _).bind fun _ => hostPut32_takes _ _

theorem setHost_blind {f : HostRec → HostRec} : Act.Blind (setHost f) := .modify fun _ _ => rfl

theorem accountFor_blind (f : Ledger → Ledger) : Act.Blind (accountFor f) :=
  .modify fun _ _ => rfl

theorem parseCaps_takes : Act.Takes 4 parseCaps :=
  (regRead32_takes _ _).bind fun _ => (regRead32_takes _ _).bind fun _ =>
    (regRead32_takes _ _).bind fun _ => (regRead32_takes _ _).bind fun _ => setHost_blind.takes

/-! ### Procedures -/

/-- The same of a procedure that succeeds. -/
def Proc.Takes (n : Nat) (p : Proc α) : Prop :=
  ∀ s ts a t, s.Quiet → EmptyTurns n ts → ExceptT.run p s = .ok (.ok a, t) →
    ExceptT.run p (s.withTurns ts) = .ok (.ok a, t.withTurns (ts.drop n))

theorem Proc.Takes.quiet {n : Nat} {p : Proc α} (hp : Proc.Takes n p) {s t : State} {a : α}
    (hq : s.Quiet) (h : ExceptT.run p s = .ok (.ok a, t)) : t.Quiet := by
  have h' := hp s [] a t hq (emptyTurns_nil n) h
  rw [State.withTurns_nil hq, h, List.drop_nil, Except.ok.injEq, Prod.mk.injEq] at h'
  rw [h'.2]
  rfl

theorem Proc.Takes.pure (a : α) : Proc.Takes 0 (Pure.pure a : Proc α) :=
  fun s ts _ t _ _ h => Act.Blind.pure _ s ts _ t h

theorem Proc.Takes.lift {n : Nat} {m : Act α} (hm : Act.Takes n m) :
    Proc.Takes n (liftM m : Proc α) := by
  intro s ts a t hq hts h
  rw [ExceptT.run_monadLift] at h
  change (Except.ok <$> m) s = _ at h
  rw [← bind_pure_comp] at h
  obtain ⟨b, u, h1, h2⟩ := Act.bind_eq_ok.1 h
  cases h2
  exact Proc.lift_ok (hm s ts a t hq hts h1)

/-- A procedure that succeeds does so part by part. -/
theorem Proc.bind_eq_ok {p : Proc α} {f : α → Proc β} {s u : State} {b : β}
    (h : ExceptT.run (p >>= f) s = .ok (.ok b, u)) :
    ∃ a t, ExceptT.run p s = .ok (.ok a, t) ∧ ExceptT.run (f a) t = .ok (.ok b, u) := by
  obtain ⟨x, t, h1, h2⟩ := Act.bind_eq_ok.1 h
  cases x with
  | ok a => exact ⟨a, t, h1, h2⟩
  | error r => cases h2

theorem Proc.Takes.bind {n k : Nat} {p : Proc α} {f : α → Proc β} (hp : Proc.Takes n p)
    (hf : ∀ a, Proc.Takes k (f a)) : Proc.Takes (n + k) (p >>= f) := by
  intro s ts b u hq hts h
  obtain ⟨a, t, h1, h2⟩ := Proc.bind_eq_ok h
  rw [Proc.bind_ok (hp s ts a t hq hts.left h1), ← List.drop_drop]
  exact hf a t _ b u (hp.quiet hq h1) hts.right h2

/-- A procedure that looks at the state, but not at the turns to come. -/
theorem Proc.Takes.get_bind {n : Nat} {f : State → Proc α}
    (hf : ∀ s ts, f (s.withTurns ts) = f s) (h : ∀ s, Proc.Takes n (f s)) :
    Proc.Takes n ((get : Proc State) >>= f) := by
  intro s ts a t hq hts hs
  rw [Proc.get_bind] at hs ⊢
  rw [hf]
  exact h s s ts a t hq hts hs

theorem Proc.Takes.fail {n : Nat} (r : FailReason) : Proc.Takes n (failWith r : Proc α) := by
  intro s ts a t _ _ h
  cases h

end Sys2Proof.Machine
end

section
/-! Proofs of the lifecycle family (42_lifecycle), the reset sequence stage by stage, and what a
bring-up that fails leaves behind. -/

namespace Sys2Proof.Machine

open Config

/-! ### The moves that fall before an access -/

section gap

variable {s t : State} {r : List (List CtlMove)}

theorem gap_empty (h : s.sched.turns = [] :: r) : gap s = .ok ((), s.withTurns r) :=
  gap_moves h

theorem gap_single {m : CtlMove} (h : s.sched.turns = [m] :: r)
    (hm : moveStep m (s.withTurns r) = .ok ((), t)) : gap s = .ok ((), t) :=
  (gap_moves h).trans (Act.bind_ok hm)

theorem gap_resetComplete (h : s.sched.turns = [.resetComplete] :: r)
    (hr : s.op.hcrst = true) : gap s = .ok ((), s.controllerReset.withTurns r) := by
  refine gap_single h (congrArg (fun t => Except.ok ((), t)) ?_)
  exact if_pos hr

theorem gap_ready (h : s.sched.turns = [.ready] :: r) (hr : s.op.hcrst = false)
    (hc : s.op.cnr = true) :
    gap s = .ok ((), (s.withOp { s.op with cnr := false }).withTurns r) := by
  refine gap_single h (congrArg (fun t => Except.ok ((), t)) ?_)
  exact if_pos (OpRegs.readyOn_iff.2 ⟨hr, hc⟩)

theorem gap_start (h : s.sched.turns = [.start] :: r) (hh : s.op.hch = true)
    (hc : s.op.cnr = false) (hr : s.op.hcrst = false) (hrs : s.op.rs = true) :
    gap s = .ok ((), (s.withOp { s.op with hch := false }).withTurns r) := by
  refine gap_single h (congrArg (fun t => Except.ok ((), t)) ?_)
  exact if_pos (OpRegs.startOn_iff.2 ⟨hh, hc, hr, hrs⟩)

/-- The controller asked to stop: it is halted already, or it halts now (42_lifecycle R250). -/
theorem gap_halting (h : s.sched.turns = (if s.op.hch = true then [] else [.halt]) :: r)
    (hrs : s.op.rs = false) : ∃ c q,
    gap s = .ok ((), (((s.withCr c).withTr q).withOp { s.op with hch := true }).withTurns r) := by
  by_cases hh : s.op.hch = true
  · rw [if_pos hh] at h
    refine ⟨s.cr, s.tr, (gap_empty h).trans ?_⟩
    rw [← hh]
    rfl
  · rw [if_neg hh] at h
    have hhch : s.op.hch = false := Bool.not_eq_true _ ▸ hh
    refine ⟨s.cr.stopped, s.tr.each (·.map XferRing.stopped),
      gap_single h (congrArg (fun t => Except.ok ((), t)) ?_)⟩
    exact if_pos (OpRegs.haltOn_iff.2 ⟨hhch, hrs⟩)

end gap

/-- An action that takes turns, run where they are empty. -/
theorem Act.Takes.run {α : Type} {n : Nat} {m : Act α} (hm : Act.Takes n m) {s t : State} {a : α}
    (hts : EmptyTurns n s.sched.turns) (h : m (s.withTurns []) = .ok (a, t)) :
    m s = .ok (a, t.withTurns (s.sched.turns.drop n)) :=
  hm (s.withTurns []) s.sched.turns a t rfl hts h

theorem Proc.Takes.run {α : Type} {n : Nat} {p : Proc α} (hp : Proc.Takes n p) {s t : State}
    {a : α} (hts : EmptyTurns n s.sched.turns)
    (h : ExceptT.run p (s.withTurns []) = .ok (.ok a, t)) :
    ExceptT.run p s = .ok (.ok a, t.withTurns (s.sched.turns.drop n)) :=
  hp (s.withTurns []) s.sched.turns a t rfl hts h

/-! ### Polls that must succeed -/

theorem flagAt_true (n : Nat) : flagAt true n = mask1 n := rfl

section pollOrFail

variable {b : RegBlock} {off mask want v : Dword} {stage : TimeoutStage} {s t : State}

theorem pollOrFail_success (h : regPoll b off mask want s = .ok (.success v, t)) :
    ExceptT.run (pollOrFail b off mask want stage) s = .ok (.ok (), t) := by
  unfold pollOrFail
  exact Proc.bind_ok (Proc.lift_ok h)

theorem pollOrFail_timeout (h : regPoll b off mask want s = .ok (.timeout v, t)) :
    ExceptT.run (pollOrFail b off mask want stage) s = .ok (.error (.timeout stage), t) := by
  unfold pollOrFail
  exact Proc.bind_ok (Proc.lift_ok h)

variable {n : Nat} {x : Bool}

/-- The bit waited for stands in USBSTS once the moves before the first read are made. -/
theorem pollOrFail_usbsts (hg : gap (s.counted 0) = .ok ((), t)) (hb : t.host.basesFixed = true)
    (hc : t.host.pollCount = 0) (hd : t.cfg.bitpos.Distinct) (hn : n < 32)
    (hbit : ∀ v, ShowsUsbsts t.cfg.bitpos t.op v → v.getLsbD n = x) :
    ∃ y, ExceptT.run (pollOrFail .op 4 (mask1 n) (flagAt x n) stage) s =
      .ok (.ok (), ((t.onBus .op 4).withFree y).counted 1) := by
  obtain ⟨v, y, hv, hread⟩ := regRead32_usbsts hg hb hd
  exact ⟨y, pollOrFail_success (regPoll_first hread ((and_mask1_eq_iff hn x).2 (hbit v hv)) hc)⟩

/-- The bit waited for does not stand in USBSTS, and nobody moves. -/
theorem pollOrFail_usbsts_stuck (hq : s.Quiet) (hb : s.host.basesFixed = true)
    (hd : s.cfg.bitpos.Distinct) (hn : n < 32)
    (hbit : ∀ v, ShowsUsbsts s.cfg.bitpos s.op v → v.getLsbD n = !x) :
    ∃ y, ExceptT.run (pollOrFail .op 4 (mask1 n) (flagAt x n) stage) s =
      .ok (.error (.timeout stage), ((s.onBus .op 4).withFree y).counted 1000) := by
  obtain ⟨v, y, h⟩ := regPoll_stuck hq hb
    (regRead32_usbsts_waiting hd hn (Bool.not_ne_self x) hbit)
  exact ⟨y, pollOrFail_timeout h⟩

/-- A reset that does not end, read while nobody moves. -/
theorem regRead32_hcrst_waiting {c : Params} {o : OpRegs} (hd : c.bitpos.Distinct)
    (hr : o.hcrst = true) (s : State) (hw : s.Waiting c o) :
    ∃ v z, v &&& mask1 c.bitpos.usbcmdHcrst ≠ 0 ∧
      regRead32 .op 0 s = .ok (v, (s.onBus .op 0).withFree z) := by
  obtain ⟨hq, hb, rfl, rfl⟩ := hw
  obtain ⟨v, z, hv, h⟩ := regRead32_usbcmd_after (gap_quiet hq) hb hd
  obtain ⟨⟨hlt, -⟩, -⟩ := hd
  refine ⟨v, z, fun e => Bool.false_ne_true ?_, h⟩
  rw [← hr, ← hv.hcrst, (and_mask1_eq_iff hlt false).1 e]

end pollOrFail

/-! ### The accesses of the reset sequence -/

section

variable {s : State}

/-- RS cleared (42_lifecycle R239). -/
theorem regClr32_rs (hq : s.Quiet) (hb : s.host.basesFixed = true) (h1 : s.op.hcrst = false)
    (h2 : s.op.cnr = false) (hd : s.cfg.bitpos.Distinct) : ∃ x, regClr32 .op 0 1 s =
      .ok ((), ((s.onBus .op 0).withFree x).withOp { s.op with rs := false }) := by
  obtain ⟨-, hne, -⟩ := hd.1
  have hm : (1#32).getLsbD s.cfg.bitpos.usbcmdHcrst = false := by
    rw [BitVec.getLsbD_one, decide_eq_false hne, Bool.and_false]
  obtain ⟨-, x, hclr⟩ := (readModifyWrite s 1 hq).2 hd hb h1 h2 hm
  rw [show (1 : Dword).getLsbD 0 = true from rfl, show (1 : Dword).getLsbD 2 = false from rfl,
    Bool.not_true, Bool.and_false, Bool.not_false, Bool.and_true] at hclr
  exact ⟨x, Act.run_eq_next.1 hclr⟩

/-- HCRST set on a halted controller: the reset begins (42_lifecycle R241, R251). -/
theorem regSet32_hcrst (hq : s.Quiet) (hb : s.host.basesFixed = true) (hh : s.op.hch = true)
    (h1 : s.op.hcrst = false) (h2 : s.op.cnr = false) (hd : s.cfg.bitpos.Distinct) :
    ∃ x, regSet32 .op 0 (mask1 s.cfg.bitpos.usbcmdHcrst) s =
      .ok ((), ((s.onBus .op 0).withFree x).withOp { s.op with hcrst := true, cnr := true }) := by
  obtain ⟨v, x, -, hread⟩ := regRead32_usbcmd hq hb hd
  obtain ⟨⟨hlt, -⟩, -⟩ := hd
  have hset : (v ||| mask1 s.cfg.bitpos.usbcmdHcrst).getLsbD s.cfg.bitpos.usbcmdHcrst = true := by
    rw [BitVec.getLsbD_or, getLsbD_mask1, decide_eq_true rfl, decide_eq_true hlt]
    exact Bool.or_true _
  refine ⟨x, (regUpdate32_of_read hread _).trans ?_⟩
  rw [regWrite32_apply (s' := (s.onBus .op 0).withFree x) (b := .op) (i := .wrUsbcmd _)
    (gap_quiet hq) hb rfl]
  have hwrite := (usbcmdWrite ((s.onBus .op 0).withFree x)
    (v ||| mask1 s.cfg.bitpos.usbcmdHcrst)).2 h1 h2
  refine Act.run_eq_next.1 (hwrite.2.trans ?_)
  exact (if_pos hset).trans (if_pos hh)

end

/-! ### The reset sequence, stage by stage -/

/-- The host's records while the controller is being reset (42_lifecycle R238). -/
def HostRec.resetting (h : HostRec) : HostRec :=
  { h with lifecycle := .resetting, initialized := false, running := false }

/-- The last stage: CNR, and the host is Ready. -/
def awaitReady (b : BitPos) : Proc Unit := do
  pollOrFail .op 0x04 (mask1 b.usbstsCnr) 0 .ready
  setHost fun h => { h with lifecycle := .ready, initialized := true, running := false }

/-- From the poll for the end of the reset on. -/
def awaitReset (b : BitPos) : Proc Unit := do
  pollOrFail .op 0x00 (mask1 b.usbcmdHcrst) 0 .reset
  awaitReady b

/-- From the poll for the halt on. -/
def awaitHalt (b : BitPos) : Proc Unit := do
  pollOrFail .op 0x04 (mask1 b.usbstsHch) (mask1 b.usbstsHch) .halt
  regSet32 .op 0x00 (mask1 b.usbcmdHcrst)
  awaitReset b

/-- The controller asked to stop. -/
def State.rsCleared (s : State) (x : FreeSrc) : State :=
  (((s.withHost s.host.resetting).onBus .op 0).withFree x).withOp { s.op with rs := false }

/-- The reset begun once the poll for the halt has ended at its first read. -/
def State.hcrstSet (s : State) (x : FreeSrc) : State :=
  (((s.onBus .op 0).withFree x).counted 1).withOp { s.op with hcrst := true, cnr := true }

section stages

variable {s t : State}

theorem run_resetSequence (hts : EmptyTurns 2 s.sched.turns) (hb : s.host.basesFixed = true)
    (h1 : s.op.hcrst = false) (h2 : s.op.cnr = false) (hd : s.cfg.bitpos.Distinct) :
    ∃ x, ExceptT.run resetSequence s = ExceptT.run (awaitHalt s.cfg.bitpos)
      ((s.rsCleared x).withTurns (s.sched.turns.drop 2)) := by
  obtain ⟨x, hclr⟩ :=
    regClr32_rs (s := (s.withHost s.host.resetting).withTurns []) rfl hb h1 h2 hd
  have hclr' := (regUpdate32_takes .op 0 (· &&& ~~~1)).run
    (s := s.withHost s.host.resetting) hts hclr
  refine ⟨x, ?_⟩
  unfold resetSequence
  rw [Proc.get_bind, Proc.setHost_bind]
  exact Proc.bind_ok (Proc.lift_ok hclr')

/-- The controller has halted once the moves before the first read are made: the reset begins. -/
theorem run_awaitHalt (hg : gap (s.counted 0) = .ok ((), t))
    (hts : EmptyTurns 2 t.sched.turns) (hb : t.host.basesFixed = true)
    (hc : t.host.pollCount = 0) (hh : t.op.hch = true) (h1 : t.op.hcrst = false)
    (h2 : t.op.cnr = false) (hd : t.cfg.bitpos.Distinct) :
    ∃ x, ExceptT.run (awaitHalt t.cfg.bitpos) s = ExceptT.run (awaitReset t.cfg.bitpos)
      ((t.hcrstSet x).withTurns (t.sched.turns.drop 2)) := by
  obtain ⟨-, ⟨hlt, -⟩, -⟩ := id hd
  obtain ⟨y, hpoll⟩ := pollOrFail_usbsts (stage := .halt) (x := true) hg hb hc hd hlt
    fun v hv => hv.hch.trans hh
  rw [flagAt_true] at hpoll
  obtain ⟨x, hset⟩ := regSet32_hcrst
    (s := (((t.onBus .op 4).withFree y).counted 1).withTurns []) rfl hb hh h1 h2 hd
  have hset' := (regUpdate32_takes .op 0 (· ||| mask1 t.cfg.bitpos.usbcmdHcrst)).run
    (s := ((t.onBus .op 4).withFree y).counted 1) hts hset
  refine ⟨x, ?_⟩
  refine (Proc.bind_ok hpoll).trans ((Proc.bind_ok (Proc.lift_ok hset')).trans
    (congrArg (ExceptT.run (awaitReset t.cfg.bitpos)) ?_))
  cases t
  rfl

/-- The controller is halted, and nobody moves. -/
theorem run_awaitHalt_quiet (hq : s.Quiet) (hb : s.host.basesFixed = true) (hh : s.op.hch = true)
    (h1 : s.op.hcrst = false) (h2 : s.op.cnr = false) (hd : s.cfg.bitpos.Distinct) :
    ∃ x, ExceptT.run (awaitHalt s.cfg.bitpos) s = ExceptT.run (awaitReset s.cfg.bitpos)
      ((s.counted 0).hcrstSet x) := by
  have hts : (s.counted 0).sched.turns = [] := hq
  obtain ⟨x, h⟩ := run_awaitHalt (gap_quiet (s := s.counted 0) hq)
    (by rw [hts]; exact emptyTurns_nil 2) hb rfl hh h1 h2 hd
  rw [hts, List.drop_nil, State.withTurns_nil (s := (s.counted 0).hcrstSet x) hq] at h
  exact ⟨x, h⟩

/-- The reset has ended once the moves before the first read are made. -/
theorem run_awaitReset (hg : gap (s.counted 0) = .ok ((), t)) (hb : t.host.basesFixed = true)
    (hc : t.host.pollCount = 0) (h1 : t.op.hcrst = false) (hd : t.cfg.bitpos.Distinct) :
    ∃ x, ExceptT.run (awaitReset t.cfg.bitpos) s = ExceptT.run (awaitReady t.cfg.bitpos)
      (((t.onBus .op 0).withFree x).counted 1) := by
  obtain ⟨v, x, hv, hread⟩ := regRead32_usbcmd_after hg hb hd
  obtain ⟨⟨hlt, -⟩, -⟩ := hd
  have hwant := (and_mask1_eq_iff hlt false).2 (hv.hcrst.trans h1)
  exact ⟨x, Proc.bind_ok (pollOrFail_success (regPoll_first hread hwant hc))⟩

/-- The controller is ready once the moves before the first read are made. -/
theorem run_awaitReady (hg : gap (s.counted 0) = .ok ((), t)) (hb : t.host.basesFixed = true)
    (hc : t.host.pollCount = 0) (h2 : t.op.cnr = false) (hd : t.cfg.bitpos.Distinct) :
    ∃ x, ExceptT.run (awaitReady t.cfg.bitpos) s =
      .ok (.ok (), (t.withFree x).withHost { t.host with
      lifecycle := .ready
      initialized := true
      running := false
      pollCount := 1
      busAddr := t.host.regAddr .op 4 }) := by
  obtain ⟨-, ⟨-, hlt, -⟩, -⟩ := id hd
  obtain ⟨x, hpoll⟩ := pollOrFail_usbsts (stage := .ready) (x := false) hg hb hc hd hlt
    fun v hv => hv.cnr.trans h2
  refine ⟨x, (Proc.bind_ok hpoll).trans (congrArg (fun u => Except.ok (Except.ok (), u)) ?_)⟩
  dsimp only [State.onBus, State.withFree, State.counted, State.withHost, HostRec.regAddr,
    HostRec.base]

/-- The controller does not halt. -/
theorem run_awaitHalt_stuck (hq : s.Quiet) (hb : s.host.basesFixed = true) (hh : s.op.hch = false)
    (hd : s.cfg.bitpos.Distinct) : ∃ x, ExceptT.run (awaitHalt s.cfg.bitpos) s =
      .ok (.error (.timeout .halt), ((s.onBus .op 4).withFree x).counted 1000) := by
  obtain ⟨-, ⟨hlt, -⟩, -⟩ := id hd
  obtain ⟨x, hpoll⟩ := pollOrFail_usbsts_stuck (stage := .halt) (x := true) hq hb hd hlt
    fun v hv => hv.hch.trans hh
  rw [flagAt_true] at hpoll
  exact ⟨x, Proc.bind_fails hpoll⟩

/-- The reset does not end. -/
theorem run_awaitReset_stuck (hq : s.Quiet) (hb : s.host.basesFixed = true)
    (hr : s.op.hcrst = true) (hd : s.cfg.bitpos.Distinct) :
    ∃ x, ExceptT.run (awaitReset s.cfg.bitpos) s =
      .ok (.error (.timeout .reset), ((s.onBus .op 0).withFree x).counted 1000) := by
  obtain ⟨v, x, hpoll⟩ := regPoll_stuck hq hb (regRead32_hcrst_waiting hd hr)
  exact ⟨x, Proc.bind_fails (pollOrFail_timeout hpoll)⟩

/-- The controller does not become ready. -/
theorem run_awaitReady_stuck (hq : s.Quiet) (hb : s.host.basesFixed = true)
    (h2 : s.op.cnr = true) (hd : s.cfg.bitpos.Distinct) :
    ∃ x, ExceptT.run (awaitReady s.cfg.bitpos) s =
      .ok (.error (.timeout .ready), ((s.onBus .op 4).withFree x).counted 1000) := by
  obtain ⟨-, ⟨-, hlt, -⟩, -⟩ := id hd
  obtain ⟨x, hpoll⟩ := pollOrFail_usbsts_stuck (stage := .ready) (x := false) hq hb hd hlt
    fun v hv => hv.cnr.trans h2
  exact ⟨x, Proc.bind_fails hpoll⟩

end stages

/-! ### The reset sequence as a whole -/

/-- The turns of a reset sequence up to its poll for the end of the reset: the controller halts when
it is first asked. -/
def resetTurns (s : State) : List (List CtlMove) :=
  [[], [], if s.op.hch = true then [] else [.halt], [], []]

/-- The controller halted and its reset begun; a halt stops the engines. -/
def State.resetStarted (s : State) (c : CmdEngine) (q : Tab (Option XferRing)) (x : FreeSrc) :
    State :=
  ((((s.withCr c).withTr q).withFree x).withOp
    { s.op with rs := false, hch := true, hcrst := true, cnr := true }).withHost
    { s.host.resetting with pollCount := 1, busAddr := s.host.regAddr .op 0 }

/-- The reset has ended, and the poll for its end at its first read. -/
def State.resetEnded (s : State) (x : FreeSrc) : State :=
  (s.controllerReset.withFree x).withHost
    { s.host.resetting with pollCount := 1, busAddr := s.host.regAddr .op 0 }

section

variable {s : State} {rest : List (List CtlMove)}

theorem State.hcrstSet_rsCleared (s : State) (x y : FreeSrc) :
    ((s.rsCleared x).counted 0).hcrstSet y = ((s.withFree y).withOp
      { s.op with rs := false, hcrst := true, cnr := true }).withHost
      { s.host.resetting with pollCount := 1, busAddr := s.host.regAddr .op 0 } := by
  cases s
  rfl

/-- A reset begins where the controller halts at the first read that asks for it. -/
theorem run_resetSequence_started (hd : s.cfg.bitpos.Distinct) (hb : s.host.basesFixed = true)
    (h1 : s.op.hcrst = false) (h2 : s.op.cnr = false)
    (hts : s.sched.turns = resetTurns s ++ rest) :
    ∃ c q x, ExceptT.run resetSequence s = ExceptT.run (awaitReset s.cfg.bitpos)
      ((s.resetStarted c q x).withTurns rest) := by
  obtain ⟨x, hclear⟩ := run_resetSequence (s := s)
    (by rw [hts]; exact emptyTurns_replicate 2 _) hb h1 h2 hd
  rw [hts] at hclear
  obtain ⟨c, q, hhalt⟩ := gap_halting (r := [] :: [] :: rest)
    (s := ((s.rsCleared x).withTurns ((resetTurns s ++ rest).drop 2)).counted 0) rfl rfl
  obtain ⟨y, hreset⟩ := run_awaitHalt hhalt (emptyTurns_replicate 2 _) hb rfl rfl h1 h2 hd
  refine ⟨c, q, y, hclear.trans (hreset.trans
    (congrArg (ExceptT.run (awaitReset s.cfg.bitpos)) ?_))⟩
  cases s
  rfl

/-- The reset ends at the first read that asks for it. -/
theorem run_resetSequence_ended (hd : s.cfg.bitpos.Distinct) (hb : s.host.basesFixed = true)
    (h1 : s.op.hcrst = false) (h2 : s.op.cnr = false)
    (hts : s.sched.turns = resetTurns s ++ [CtlMove.resetComplete] :: rest) :
    ∃ x, ExceptT.run resetSequence s = ExceptT.run (awaitReady s.cfg.bitpos)
      ((s.resetEnded x).withTurns rest) := by
  obtain ⟨c, q, x, hreset⟩ := run_resetSequence_started hd hb h1 h2 hts
  obtain ⟨y, hready⟩ := run_awaitReset
    (s := (s.resetStarted c q x).withTurns ([.resetComplete] :: rest))
    (gap_resetComplete (s := ((s.resetStarted c q x).withTurns
      ([.resetComplete] :: rest)).counted 0) rfl rfl) hb rfl rfl hd
  refine ⟨y, hreset.trans (hready.trans (congrArg (ExceptT.run (awaitReady s.cfg.bitpos)) ?_))⟩
  cases s
  rfl

/-- The controller is ready at the first read that asks for it (42_lifecycle R238, R244). -/
theorem run_resetSequence_done (hd : s.cfg.bitpos.Distinct) (hb : s.host.basesFixed = true)
    (h1 : s.op.hcrst = false) (h2 : s.op.cnr = false)
    (hts : s.sched.turns = resetTurns s ++ [CtlMove.resetComplete] :: [.ready] :: rest) :
    ∃ x, ExceptT.run resetSequence s = .ok (.ok (), (s.resetDone.withFree x).withTurns rest) := by
  obtain ⟨x, hreset⟩ := run_resetSequence_ended hd hb h1 h2 hts
  obtain ⟨y, hready⟩ := run_awaitReady (s := (s.resetEnded x).withTurns ([.ready] :: rest))
    (gap_ready (s := ((s.resetEnded x).withTurns ([.ready] :: rest)).counted 0) rfl rfl rfl)
    hb rfl rfl hd
  refine ⟨y, hreset.trans (hready.trans (congrArg (fun t => Except.ok (Except.ok (), t)) ?_))⟩
  cases s
  rfl

end

/-! ### A bring-up that ends, and one that fails -/

section

variable {p : Proc Unit} {s t : State}

theorem run_bringingUp_ok (h : ExceptT.run p s = .ok (.ok (), t)) :
    (bringingUp p).run s = .next (t.withResult .success) := by
  refine Act.run_of_ok ?_
  unfold bringingUp
  exact Act.bind_ok h

/-- What the bring-up allocated and the Controller record are gone (42_lifecycle R256). -/
theorem abortBringup_ok (r : FailReason) (s : State) : ∃ m x,
    s.mem.AgreeOutside m (s.plat.live.filter (·.kind.isBringup)) ∧ abortBringup r s =
      .ok ((), (s.withFree x).aborted m r s.host.pollCount s.host.busAddr) := by
  obtain ⟨m, x, hm, hrelease⟩ := releaseWhere_ok (·.kind.isBringup) s
  refine ⟨m, x, hm, ?_⟩
  unfold abortBringup
  rw [Act.get_bind, Act.bind_ok hrelease]
  rfl

theorem run_bringingUp_fails {r : FailReason} (h : ExceptT.run p s = .ok (.error r, t)) :
    ∃ m x, t.mem.AgreeOutside m (t.plat.live.filter (·.kind.isBringup)) ∧
      (bringingUp p).run s =
        .next ((t.withFree x).aborted m r t.host.pollCount t.host.busAddr) := by
  obtain ⟨m, x, hm, habort⟩ := abortBringup_ok r t
  refine ⟨m, x, hm, Act.run_of_ok ?_⟩
  unfold bringingUp
  exact (Act.bind_ok h).trans habort

end

/-- A reset sequence that fails: the last poll's count and address stay, and what the controller
holds. -/
theorem exec_resetController_fails {s t u : State} {r : FailReason} {n : Nat} {a : Addr}
    (h : ExceptT.run resetSequence s = .ok (.error r, t)) (hm : t.mem = s.mem)
    (hp : t.plat = s.plat) (hn : t.host.pollCount = n) (ha : t.host.busAddr = a)
    (hu : ∀ m x, (t.withFree x).aborted m r n a = (u.withFree x).aborted m r n a) :
    ∃ m x, s.mem.AgreeOutside m (s.plat.live.filter (·.kind.isBringup)) ∧
      exec .resetController s = .next ((u.withFree x).aborted m r n a) := by
  obtain ⟨m, x, hagree, hrun⟩ := run_bringingUp_fails h
  rw [hm, hp] at hagree
  rw [hn, ha, hu] at hrun
  exact ⟨m, x, hagree, hrun⟩

section timeouts

variable {s : State} (hd : s.cfg.bitpos.Distinct) (hb : s.host.basesFixed = true)
  (h1 : s.op.hcrst = false) (h2 : s.op.cnr = false)

include hd hb h1 h2

theorem run_resetSequence_quiet (hq : s.Quiet) : ∃ x, ExceptT.run resetSequence s =
    ExceptT.run (awaitHalt s.cfg.bitpos) (s.rsCleared x) := by
  obtain ⟨x, hclear⟩ := run_resetSequence (by rw [hq]; exact emptyTurns_nil 2) hb h1 h2 hd
  have hx : (s.rsCleared x).Quiet := hq
  rw [hq, List.drop_nil, State.withTurns_nil hx] at hclear
  exact ⟨x, hclear⟩

/-- A controller that does not halt. -/
theorem exec_resetController_halt (hq : s.Quiet) (hh : s.op.hch = false) :
    ∃ m x, s.mem.AgreeOutside m (s.plat.live.filter (·.kind.isBringup)) ∧
      exec .resetController s = .next (((s.withOp { s.op with rs := false }).withFree x).aborted m
        (.timeout .halt) 1000 (s.host.regAddr .op 4)) := by
  obtain ⟨x, hclear⟩ := run_resetSequence_quiet hd hb h1 h2 hq
  obtain ⟨y, hstuck⟩ := run_awaitHalt_stuck (s := s.rsCleared x) hq hb hh hd
  refine exec_resetController_fails (hclear.trans hstuck) ?_ ?_ ?_ ?_ fun _ _ => ?_
  all_goals
    cases s
    rfl

/-- A controller whose reset does not end. -/
theorem exec_resetController_reset (hq : s.Quiet) (hh : s.op.hch = true) :
    ∃ m x, s.mem.AgreeOutside m (s.plat.live.filter (·.kind.isBringup)) ∧
      exec .resetController s = .next (((s.withOp { s.op with
        rs := false, hcrst := true, cnr := true }).withFree x).aborted m
        (.timeout .reset) 1000 (s.host.regAddr .op 0)) := by
  obtain ⟨x, hclear⟩ := run_resetSequence_quiet hd hb h1 h2 hq
  obtain ⟨y, hreset⟩ := run_awaitHalt_quiet (s := s.rsCleared x) hq hb hh h1 h2 hd
  rw [State.hcrstSet_rsCleared] at hreset
  obtain ⟨z, hstuck⟩ := run_awaitReset_stuck (s := ((s.withFree y).withOp
      { s.op with rs := false, hcrst := true, cnr := true }).withHost
      { s.host.resetting with pollCount := 1, busAddr := s.host.regAddr .op 0 }) hq hb rfl hd
  refine exec_resetController_fails (hclear.trans (hreset.trans hstuck)) ?_ ?_ ?_ ?_ fun _ _ => ?_
  all_goals
    cases s
    rfl

/-- A controller that does not become ready. -/
theorem exec_resetController_ready
    (hts : s.sched.turns = resetTurns s ++ [[CtlMove.resetComplete]]) :
    ∃ m x, s.mem.AgreeOutside m (s.plat.live.filter (·.kind.isBringup)) ∧
      exec .resetController s = .next (((s.controllerReset.withFree x).withTurns []).aborted m
        (.timeout .ready) 1000 (s.host.regAddr .op 4)) := by
  obtain ⟨x, hreset⟩ := run_resetSequence_ended hd hb h1 h2 hts
  obtain ⟨y, hstuck⟩ := run_awaitReady_stuck (s := (s.resetEnded x).withTurns []) rfl hb rfl hd
  refine exec_resetController_fails (u := s.controllerReset.withTurns []) (hreset.trans hstuck)
    ?_ ?_ ?_ ?_ fun _ _ => ?_
  all_goals
    cases s
    rfl

end timeouts

/-- Settles O54: the stages one after the other, each with the moves that end it or with none. -/
theorem resetController : Obligations.ResetController := by
  intro s rest hd hb h1 h2 halting blocks
  refine ⟨fun hts => ?_, fun hq => ⟨exec_resetController_halt hd hb h1 h2 hq,
    exec_resetController_reset hd hb h1 h2 hq⟩, exec_resetController_ready hd hb h1 h2⟩
  obtain ⟨x, hrun⟩ := run_resetSequence_done hd hb h1 h2 hts
  exact ⟨x, run_bringingUp_ok hrun⟩

end Sys2Proof.Machine
end

section
/-! Proofs of the lifecycle family (42_lifecycle), the start sequence: its four allocations and the
registers they are written to. -/

namespace Sys2Proof.Machine

open Config

/-! ### The accesses of the start sequence -/

/-- Nobody moves, and the controller takes the host's writes. -/
structure State.TakesWrites (s : State) : Prop where
  quiet : s.Quiet
  bases : s.host.basesFixed = true
  hcrst : s.op.hcrst = false
  cnr : s.op.cnr = false
  bits : s.cfg.bitpos.Distinct

section

variable {s : State} (hs : s.TakesWrites)

include hs

/-- CONFIG written with a number of slots the controller has (40_register_access R165). -/
theorem regWrite32_config {n : BitVec 8} (hn : n.toNat ≤ s.cfg.maxSlots.toNat) :
    regWrite32 .op 0x38 (fieldAt s.cfg.bitpos.maxSlotsEnLo n) s =
      .ok ((), (s.onBus .op 0x38).withOp { s.op with maxSlotsEn := n }) := by
  obtain ⟨-, -, -, hlo, -⟩ := hs.bits
  obtain ⟨-, -, -, -, h⟩ := pointerAndConfigWrites (s.onBus .op 0x38)
    (fieldAt s.cfg.bitpos.maxSlotsEnLo n) hs.hcrst hs.cnr
  have hfield : (fieldAt s.cfg.bitpos.maxSlotsEnLo n).extractLsb' s.cfg.bitpos.maxSlotsEnLo 8 = n :=
    extractLsb'_fieldAt _ (by omega)
  dsimp only at h
  rw [State.cfg_onBus, hfield, if_neg (Nat.not_lt.2 hn)] at h
  exact Act.run_eq_next.1 ((exec_wr32_quiet (b := .op) (i := .wrConfig _) hs.quiet hs.bases
    (decodeAccess_encodeAccess rfl rfl)).trans h)

/-- IMAN written with IE, and with IP as it stands, which clears it (40_register_access R169). -/
theorem regWrite32_iman {v : Dword} (hie : v.getLsbD s.cfg.bitpos.imanIe = true)
    (hip : v.getLsbD s.cfg.bitpos.imanIp = s.intr.ip) : regWrite32 .rt 0x20 v s =
      .ok ((), (s.onBus .rt 0x20).withIntr { s.intr with ie := true, ip := false }) := by
  obtain ⟨-, hw⟩ := interrupterWrite (s.onBus .rt 0x20) v
  obtain ⟨hwrite, -⟩ := hw hs.hcrst hs.cnr
  rw [State.cfg_onBus, hie, hip, show (s.onBus .rt 0x20).intr = s.intr from rfl,
    ← and_not_eq_ite, Bool.and_not_self] at hwrite
  exact Act.run_eq_next.1 ((exec_wr32_quiet (b := .rt) (i := .wrIman v) hs.quiet hs.bases
    (decodeAccess_encodeAccess rfl rfl)).trans hwrite)

/-- IE set: the value read shows IP, and a 1 written back clears it. -/
theorem regSet32_imanIe : ∃ x, regSet32 .rt 0x20 (mask1 s.cfg.bitpos.imanIe) s =
    .ok ((), ((s.onBus .rt 0x20).withFree x).withIntr { s.intr with ie := true, ip := false }) := by
  obtain ⟨-, -, -, -, -, -, -, hip, hie, hne⟩ := hs.bits
  obtain ⟨w, x, hread⟩ := openRead_some (fun s => imanMask s.cfg.bitpos)
    (fun s => imanFields s.cfg.bitpos s.intr) (s.onBus .rt 0x20)
  obtain ⟨hshown, -⟩ := getLsbD_openFlags hip hie hne s.intr.ip s.intr.ie w
  have hread' := regRead32_ok (b := .rt) (i := .rdIman) (gap_quiet hs.quiet) hs.bases rfl hread
  have hie1 : (openBits (imanMask s.cfg.bitpos) (imanFields s.cfg.bitpos s.intr) w |||
      mask1 s.cfg.bitpos.imanIe).getLsbD s.cfg.bitpos.imanIe = true := by
    rw [BitVec.getLsbD_or, getLsbD_mask1, decide_eq_true rfl, decide_eq_true hie]
    exact Bool.or_true _
  have hip1 : (openBits (imanMask s.cfg.bitpos) (imanFields s.cfg.bitpos s.intr) w |||
      mask1 s.cfg.bitpos.imanIe).getLsbD s.cfg.bitpos.imanIp = s.intr.ip := by
    rw [BitVec.getLsbD_or, getLsbD_mask1, decide_eq_false hne, Bool.false_and, Bool.or_false]
    exact hshown
  have ht : ((s.onBus .rt 0x20).withFree x).TakesWrites :=
    ⟨hs.quiet, hs.bases, hs.hcrst, hs.cnr, hs.bits⟩
  exact ⟨x, (regUpdate32_of_read hread' _).trans (regWrite32_iman ht hie1 hip1)⟩

/-- RS and INTE set (42_lifecycle R247). -/
theorem regSet32_rs : ∃ x, regSet32 .op 0 5 s =
    .ok ((), ((s.onBus .op 0).withFree x).withOp { s.op with rs := true, inte := true }) := by
  obtain ⟨hlt, hne0, hne2⟩ := hs.bits.1
  have hfive : (5#32) = mask1 0 ||| mask1 2 := rfl
  have hm : (5#32).getLsbD s.cfg.bitpos.usbcmdHcrst = false := by
    rw [hfive, BitVec.getLsbD_or, getLsbD_mask1, getLsbD_mask1, decide_eq_false hne0,
      decide_eq_false hne2]
    rfl
  obtain ⟨⟨x, hset⟩, -⟩ :=
    (readModifyWrite s 5 hs.quiet).2 hs.bits hs.bases hs.hcrst hs.cnr hm
  rw [show (5 : Dword).getLsbD 0 = true from rfl, show (5 : Dword).getLsbD 2 = true from rfl,
    Bool.or_true, Bool.or_true] at hset
  exact ⟨x, Act.run_eq_next.1 hset⟩

end

/-! ### What decides whether memory may be handed out or stored -/

/-- Alike in all that decides whether the allocator may hand out memory, and whether the host may
store there. -/
structure State.SameMemory (s t : State) : Prop where
  cfg : s.cfg = t.cfg
  plat : s.plat = t.plat
  er : s.er = t.er
  slots : s.slots = t.slots
  handed : s.ledger.handed = t.ledger.handed
  installed : s.ledger.installed = t.ledger.installed

namespace State.SameMemory

variable {s t : State} (h : s.SameMemory t)

include h

theorem holds_eq (a : Addr) (n : Nat) : s.ledger.holds a n = t.ledger.holds a n := by
  unfold Ledger.holds
  rw [h.handed]

theorem entryHeld_eq (a : Addr) (n : Nat) : s.entryHeld a n = t.entryHeld a n := by
  unfold State.entryHeld
  rw [h.installed, h.slots]

theorem ctlBlocks_eq : s.ctlBlocks = t.ctlBlocks := by
  unfold State.ctlBlocks
  rw [h.plat, h.er, h.cfg, h.slots]

theorem hostRefusal_eq (a : Addr) (n : Nat) : s.hostRefusal a n = t.hostRefusal a n := by
  unfold State.hostRefusal
  rw [h.holds_eq, h.entryHeld_eq, h.ctlBlocks_eq, h.plat]

theorem mayGive {a : Addr} {size align : Nat} (ht : t.mayGive a size align) :
    s.mayGive a size align := by
  unfold State.mayGive State.allocRefusal
  rw [h.holds_eq, h.entryHeld_eq, h.ctlBlocks_eq, h.plat]
  exact ht

theorem given (a : Addr) (size : Nat) (kind : BlockKind) (left : List (Option Addr)) :
    (s.given a size kind left).SameMemory (t.given a size kind left) :=
  ⟨h.cfg, congrArg (·.giving a size kind left) h.plat, h.er, h.slots, h.handed, h.installed⟩

end State.SameMemory

/-! ### The start sequence, part by part -/

/-- The start sequence up to its poll: everything programmed, and RS set. -/
def programStart (b : BitPos) (n : BitVec 8) : Proc Unit := do
  installDcbaa
  regWrite32 .op 0x38 (fieldAt b.maxSlotsEnLo n)
  initCommandRing
  initEventRing
  regSet32 .rt 0x20 (mask1 b.imanIe)
  regSet32 .op 0x00 5

/-- From the poll for the start on. -/
def awaitStart (b : BitPos) : Proc Unit := do
  pollOrFail .op 0x04 (mask1 b.usbstsHch) 0 .start
  setHost fun h => { h with lifecycle := .running, initialized := true, running := true }

theorem startSequence_eq : startSequence = (get : Proc State) >>= fun s =>
    programStart s.cfg.bitpos s.host.maxSlots >>= fun _ => awaitStart s.cfg.bitpos := by
  unfold startSequence programStart awaitStart
  simp only [bind_assoc]

/-- The DCBAA handed out, and CONFIG written (42_lifecycle R246). -/
def State.dcbaaInstalled (s : State) (d : Addr) (left : List (Option Addr)) : State :=
  ((s.given d (8 * (s.host.maxSlots.toNat + 1)) .dcbaa left).withOp
    { s.op with dcbaap := d, maxSlotsEn := s.host.maxSlots }).withHost
    { s.host with dcbaa := d, busAddr := s.host.regAddr .op 0x38 }

/-- The command ring handed out, and CRCR written (41_ring_protocol R194). -/
def State.cmdRingInstalled (s : State) (c : Addr) (left : List (Option Addr)) : State :=
  ((((s.given c 4096 .cmdRing left).account Ledger.newCmdRing).withCr
    ⟨c, 0, true, false, true⟩).withOp
    { s.op with crcrLatch := c ||| 1#64 <<< s.cfg.bitpos.crcrRcs }).withHost
    { s.host with cmd := ⟨c, 0, 0, true, 256⟩, busAddr := s.host.regAddr .op 0x1C }

/-- The event ring and its table handed out, and the interrupter programmed (41_ring_protocol
R225). -/
def State.eventRingInstalled (s : State) (v e : Addr) (left : List (Option Addr)) : State :=
  (((s.tableGiven v e left).tableStored v e).segmentCounted.segmentLoaded v e).dequeueSet v

/-- Interrupts enabled, and the controller asked to run (42_lifecycle R247). -/
def State.runRequested (s : State) (x : FreeSrc) : State :=
  (((s.withFree x).withIntr { s.intr with ie := true, ip := false }).withOp
    { s.op with rs := true, inte := true }).withHost
    { s.host with busAddr := s.host.regAddr .op 0 }

namespace State.TakesWrites

variable {s : State} (hs : s.TakesWrites)

include hs

theorem dcbaaInstalled (d : Addr) (left : List (Option Addr)) :
    (s.dcbaaInstalled d left).TakesWrites :=
  ⟨hs.quiet, hs.bases, hs.hcrst, hs.cnr, hs.bits⟩

theorem cmdRingInstalled (c : Addr) (left : List (Option Addr)) :
    (s.cmdRingInstalled c left).TakesWrites :=
  ⟨hs.quiet, hs.bases, hs.hcrst, hs.cnr, hs.bits⟩

theorem tableStored (v e : Addr) : (s.tableStored v e).TakesWrites :=
  ⟨hs.quiet, hs.bases, hs.hcrst, hs.cnr, hs.bits⟩

theorem segmentCounted : s.segmentCounted.TakesWrites :=
  ⟨hs.quiet, hs.bases, hs.hcrst, hs.cnr, hs.bits⟩

theorem segmentLoaded (v e : Addr) : (s.segmentLoaded v e).TakesWrites :=
  ⟨hs.quiet, hs.bases, hs.hcrst, hs.cnr, hs.bits⟩

theorem dequeueSet (v : Addr) : (s.dequeueSet v).TakesWrites :=
  ⟨hs.quiet, hs.bases, hs.hcrst, hs.cnr, hs.bits⟩

theorem tableGiven (v e : Addr) (left : List (Option Addr)) :
    (s.tableGiven v e left).TakesWrites :=
  ⟨hs.quiet, hs.bases, hs.hcrst, hs.cnr, hs.bits⟩

theorem eventRingInstalled (v e : Addr) (left : List (Option Addr)) :
    (s.eventRingInstalled v e left).TakesWrites :=
  ((((hs.tableGiven v e left).tableStored v e).segmentCounted).segmentLoaded v e).dequeueSet v

end State.TakesWrites

section

variable {s : State} (hs : s.TakesWrites) {left : List (Option Addr)}

theorem run_installDcbaa_denied (h : s.plat.allocs = none :: left) :
    ExceptT.run installDcbaa s = .ok (.error (.allocationFailure .dcbaa), s.denied left) := by
  unfold installDcbaa
  rw [Proc.get_bind, Proc.bind_ok (Proc.lift_ok (alloc_denies h))]
  rfl

include hs

/-- The DCBAA installed, and the number of slots with it. -/
theorem run_installDcbaa {d : Addr} (h : s.plat.allocs = some d :: left)
    (hg : s.mayGive d (8 * (s.host.maxSlots.toNat + 1)) 64)
    (hn : s.host.maxSlots.toNat ≤ s.cfg.maxSlots.toNat) (k : Unit → Proc Unit) :
    ExceptT.run (installDcbaa >>= fun _ =>
      (regWrite32 .op 0x38 (fieldAt s.cfg.bitpos.maxSlotsEnLo s.host.maxSlots) : Proc Unit) >>= k)
      s = ExceptT.run (k ()) (s.dcbaaInstalled d left) := by
  let t := (s.given d (8 * (s.host.maxSlots.toNat + 1)) .dcbaa left).withHost
    { s.host with dcbaa := d }
  have ht : t.TakesWrites := ⟨hs.quiet, hs.bases, hs.hcrst, hs.cnr, hs.bits⟩
  have hd := exec_wr64_dcbaap ht.quiet ht.bases ht.hcrst ht.cnr d (LowZero.extractLsb' hg.1)
  let u := (t.onBus .op 0x34).withOp { t.op with dcbaap := d }
  have hu : u.TakesWrites := ⟨hs.quiet, hs.bases, hs.hcrst, hs.cnr, hs.bits⟩
  have hinstall : ExceptT.run installDcbaa s = .ok (.ok (), u) := by
    unfold installDcbaa
    rw [Proc.get_bind, Proc.bind_ok (Proc.lift_ok (alloc_gives h hg))]
    exact (Proc.setHost_bind _ _ _).trans (Proc.lift_ok (Act.run_eq_next.1 hd))
  rw [Proc.bind_ok hinstall]
  refine (Proc.bind_ok (Proc.lift_ok (regWrite32_config hu hn))).trans
    (congrArg (ExceptT.run (k ())) ?_)
  cases s
  rfl

/-- The command ring of an engine that stands still. -/
theorem run_initCommandRing {c : Addr} (h : s.plat.allocs = some c :: left)
    (hg : s.mayGive c 4096 4096) (hcr : s.cr.running = false) :
    ExceptT.run initCommandRing s = .ok (.ok (), s.cmdRingInstalled c left) := by
  let t := ((s.given c 4096 .cmdRing left).withHost
    { s.host with cmd := ⟨c, 0, 0, true, 256⟩ }).account Ledger.newCmdRing
  obtain ⟨-, -, hrcs, -⟩ := hs.bits
  have hlow : LowZero c 6 := by
    have halign : c.toNat % 4096 = 0 := hg.1
    show c.toNat % 64 = 0
    omega
  have hwrite := exec_wr64_crcr (s := t) hs.quiet hs.bases hs.hcrst hs.cnr
    (c ||| 1#64 <<< s.cfg.bitpos.crcrRcs)
  have hcycle : (c ||| 1#64 <<< s.cfg.bitpos.crcrRcs).getLsbD t.cfg.bitpos.crcrRcs = true :=
    crcr_cycle hrcs c
  have hstands : ¬ t.cr.running = true := by
    rw [show t.cr.running = s.cr.running from rfl, hcr]
    exact Bool.false_ne_true
  dsimp only at hwrite
  rw [crcr_base hrcs hlow, hcycle, if_neg hstands] at hwrite
  unfold initCommandRing
  rw [Proc.get_bind, Proc.bind_ok (allocRing_gives h hg)]
  refine (Proc.setHost_bind _ _ _).trans ((Proc.bind_ok (Proc.lift_ok
    (m := accountFor _) rfl)).trans ((Proc.lift_ok (Act.run_eq_next.1 hwrite)).trans
    (congrArg (fun u => Except.ok (Except.ok (), u)) ?_)))
  cases s
  rfl

omit hs in
theorem run_initCommandRing_denied (h : s.plat.allocs = none :: left) :
    ExceptT.run initCommandRing s = .ok (.error (.allocationFailure .ring), s.denied left) := by
  unfold initCommandRing
  rw [Proc.get_bind]
  exact Proc.bind_fails (allocRing_denied h)

omit hs in
theorem run_initEventRing_none (h : s.plat.allocs = none :: left) :
    ExceptT.run initEventRing s = .ok (.error (.allocationFailure .ring), s.denied left) := by
  unfold initEventRing
  rw [Proc.get_bind]
  exact Proc.bind_fails (allocRing_denied h)

theorem run_initEventRing {v e : Addr} (h : s.plat.allocs = some v :: some e :: left)
    (hv : s.mayGive v 4096 4096) (he : (s.given v 4096 .evtRing (some e :: left)).mayGive e 16 64)
    (hst : ((s.given v 4096 .evtRing (some e :: left)).given e 16 .erst left).mayStoreTrb e) :
    ExceptT.run initEventRing s = .ok (.ok (), s.eventRingInstalled v e left) :=
  (run_initEventRing_given hv h he).trans (run_programEventRing (s := s.tableGiven v e left)
    hs.quiet hs.bases hs.hcrst hs.cnr hs.bits hv.1 he.1 hst)

/-- IE, then RS and INTE. -/
theorem run_runRequested : ∃ x, ExceptT.run (do
      regSet32 .rt 0x20 (mask1 s.cfg.bitpos.imanIe)
      regSet32 .op 0x00 5 : Proc Unit) s = .ok (.ok (), s.runRequested x) := by
  obtain ⟨x, hie⟩ := regSet32_imanIe hs
  let t := ((s.onBus .rt 0x20).withFree x).withIntr { s.intr with ie := true, ip := false }
  have ht : t.TakesWrites := ⟨hs.quiet, hs.bases, hs.hcrst, hs.cnr, hs.bits⟩
  obtain ⟨y, hrs⟩ := regSet32_rs ht
  refine ⟨y, (Proc.bind_ok (Proc.lift_ok hie)).trans ((Proc.lift_ok hrs).trans
    (congrArg (fun u => Except.ok (Except.ok (), u)) ?_))⟩
  cases s
  rfl

end

/-! ### The whole of it -/

/-- Everything is programmed, from DCBAAP to the segment table. -/
def State.allInstalled (s : State) (d c v e : Addr) (left : List (Option Addr)) : State :=
  ((s.dcbaaInstalled d (some c :: some v :: some e :: left)).cmdRingInstalled c
    (some v :: some e :: left)).eventRingInstalled v e left

section

variable {s : State} {d c v e : Addr} {left : List (Option Addr)}

theorem State.dcbaaInstalled_sameMemory (s : State) (d : Addr) (left : List (Option Addr)) :
    (s.dcbaaInstalled d left).SameMemory
      (s.given d (8 * (s.host.maxSlots.toNat + 1)) .dcbaa left) :=
  ⟨rfl, rfl, rfl, rfl, rfl, rfl⟩

theorem State.cmdRingInstalled_sameMemory (s : State) (c : Addr) (left : List (Option Addr)) :
    (s.cmdRingInstalled c left).SameMemory (s.given c 4096 .cmdRing left) :=
  ⟨rfl, rfl, rfl, rfl, rfl, rfl⟩

theorem State.SameMemory.trans {s t u : State} (h : s.SameMemory t) (h' : t.SameMemory u) :
    s.SameMemory u :=
  ⟨h.cfg.trans h'.cfg, h.plat.trans h'.plat, h.er.trans h'.er, h.slots.trans h'.slots,
    h.handed.trans h'.handed, h.installed.trans h'.installed⟩

/-- What the registers hold by then does not matter to the allocator. -/
theorem State.bothInstalled_sameMemory (s : State) (d c : Addr) (l l' : List (Option Addr)) :
    ((s.dcbaaInstalled d l).cmdRingInstalled c l').SameMemory
      ((s.given d (8 * (s.host.maxSlots.toNat + 1)) .dcbaa l).given c 4096 .cmdRing l') :=
  (State.cmdRingInstalled_sameMemory _ c l').trans
    ((s.dcbaaInstalled_sameMemory d l).given c 4096 .cmdRing l')

theorem State.mayStoreTrb_of_sameMemory {s t : State} (h : s.SameMemory t) {a : Addr}
    (ht : t.mayStoreTrb a) : s.mayStoreTrb a := by
  unfold State.mayStoreTrb
  rw [h.hostRefusal_eq, h.hostRefusal_eq, h.hostRefusal_eq, h.hostRefusal_eq]
  exact ht

variable (hs : s.TakesWrites) (hn : s.host.maxSlots.toNat ≤ s.cfg.maxSlots.toNat)
  (hcr : s.cr.running = false)

include hs hn hcr

theorem run_programStart (hm : s.mayStart d c v e left) : ∃ x,
    ExceptT.run (programStart s.cfg.bitpos s.host.maxSlots) s =
      .ok (.ok (), (s.allInstalled d c v e left).runRequested x) := by
  obtain ⟨hallocs, hd, hc, hv, he, hst⟩ := hm
  have h1 := hs.dcbaaInstalled d (some c :: some v :: some e :: left)
  have h2 := h1.cmdRingInstalled c (some v :: some e :: left)
  have hsame := s.bothInstalled_sameMemory d c (some c :: some v :: some e :: left)
    (some v :: some e :: left)
  obtain ⟨x, hrun⟩ := run_runRequested (h2.eventRingInstalled v e left)
  refine ⟨x, (run_installDcbaa hs hallocs hd hn _).trans
    ((Proc.bind_ok (run_initCommandRing h1 rfl
      ((s.dcbaaInstalled_sameMemory d _).mayGive hc) hcr)).trans
    ((Proc.bind_ok (run_initEventRing h2 rfl (hsame.mayGive hv)
      ((hsame.given v 4096 .evtRing _).mayGive he)
      (State.mayStoreTrb_of_sameMemory
        ((hsame.given v 4096 .evtRing _).given e 16 .erst left) hst))).trans ?_))⟩
  exact hrun

end

/-! ### The turns of the start sequence -/

/-- What fails whatever it has done takes any number of turns. -/
theorem Proc.Takes.bind_fail {α : Type} {n : Nat} (p : Proc Unit) (r : FailReason) :
    Proc.Takes n (p >>= fun _ => (failWith r : Proc α)) := by
  intro s ts a t _ _ h
  obtain ⟨-, u, -, hfail⟩ := Proc.bind_eq_ok h
  cases hfail

theorem alloc_takes (size align : Nat) (kind : BlockKind) :
    Proc.Takes 0 (alloc size align kind : Proc (Option Addr)) :=
  .lift (alloc_blind size align kind).takes

theorem setHost_takes (f : HostRec → HostRec) : Proc.Takes 0 (setHost f : Proc Unit) :=
  .lift setHost_blind.takes

theorem allocRing_takes (n : Nat) (kind : BlockKind) : Proc.Takes 0 (allocRing n kind) := by
  refine (alloc_takes _ _ _).bind (k := 0) fun a => ?_
  cases a with
  | none => exact .fail _
  | some a => exact .pure _

theorem installDcbaa_takes : Proc.Takes 2 installDcbaa := by
  refine .get_bind (fun _ _ => rfl) fun s => (alloc_takes _ _ _).bind (k := 2) fun a => ?_
  cases a with
  | none => exact .fail _
  | some a => exact (setHost_takes _).bind fun _ => .lift (regWrite64_takes _ _ _)

theorem initCommandRing_takes : Proc.Takes 2 initCommandRing :=
  .get_bind (fun _ _ => rfl) fun _ => (allocRing_takes _ _).bind (k := 2) fun _ =>
    (setHost_takes _).bind fun _ => (Proc.Takes.lift (accountFor_blind _).takes).bind fun _ =>
      .lift (regWrite64_takes _ _ _)

theorem programEventRing_takes (b : BitPos) (v e : Addr) :
    Proc.Takes 9 (programEventRing b v e) :=
  (Proc.Takes.lift (hostPut64_takes e v)).bind fun _ =>
    (Proc.Takes.lift (hostPut32_takes (e + 8) 256)).bind fun _ =>
      (Proc.Takes.lift (hostPut32_takes (e + 12) 0)).bind fun _ =>
        (Proc.Takes.lift (regWrite32_takes .rt 0x28 _)).bind fun _ =>
          (Proc.Takes.lift (regWrite64_takes .rt 0x30 e)).bind fun _ =>
            .lift (regWrite64_takes .rt 0x38 v)

theorem initEventRing_takes : Proc.Takes 9 initEventRing := by
  refine .get_bind (fun _ _ => rfl) fun s => (allocRing_takes _ _).bind (k := 9) fun r =>
    (setHost_takes _).bind (k := 9) fun _ => (alloc_takes _ _ _).bind (k := 9) fun e => ?_
  cases e with
  | none => exact .bind_fail _ _
  | some e => exact (setHost_takes _).bind fun _ => programEventRing_takes s.cfg.bitpos r.base e

/-- The start sequence makes 18 accesses before its poll. -/
theorem programStart_takes (b : BitPos) (n : BitVec 8) : Proc.Takes 18 (programStart b n) :=
  installDcbaa_takes.bind fun _ => (Proc.Takes.lift (regWrite32_takes _ _ _)).bind fun _ =>
    initCommandRing_takes.bind fun _ => initEventRing_takes.bind fun _ =>
      (Proc.Takes.lift (regUpdate32_takes _ _ _)).bind fun _ =>
        .lift (regUpdate32_takes _ _ _)

/-! ### The poll for the start -/

section

variable {s t : State}

/-- The controller has started once the moves before the first read are made. -/
theorem run_awaitStart (hg : gap (s.counted 0) = .ok ((), t)) (hb : t.host.basesFixed = true)
    (hc : t.host.pollCount = 0) (hh : t.op.hch = false) (hd : t.cfg.bitpos.Distinct) :
    ∃ x, ExceptT.run (awaitStart t.cfg.bitpos) s =
      .ok (.ok (), (t.withFree x).withHost { t.host with
        lifecycle := .running
        initialized := true
        running := true
        pollCount := 1
        busAddr := t.host.regAddr .op 4 }) := by
  obtain ⟨-, ⟨hlt, -⟩, -⟩ := id hd
  obtain ⟨x, hpoll⟩ := pollOrFail_usbsts (stage := .start) (x := false) hg hb hc hd hlt
    fun v hv => hv.hch.trans hh
  refine ⟨x, (Proc.bind_ok hpoll).trans ((Proc.lift_ok (m := setHost _) rfl).trans
    (congrArg (fun u => Except.ok (Except.ok (), u)) ?_))⟩
  dsimp only [State.onBus, State.withFree, State.counted, State.withHost, HostRec.regAddr,
    HostRec.base]

/-- The controller does not start. -/
theorem run_awaitStart_stuck (hs : s.TakesWrites) (hh : s.op.hch = true) :
    ∃ x, ExceptT.run (awaitStart s.cfg.bitpos) s =
      .ok (.error (.timeout .start), ((s.onBus .op 4).withFree x).counted 1000) := by
  obtain ⟨-, ⟨hlt, -⟩, -⟩ := hs.bits
  obtain ⟨x, hpoll⟩ := pollOrFail_usbsts_stuck (stage := .start) (x := false) hs.quiet hs.bases
    hs.bits hlt fun v hv => hv.hch.trans hh
  exact ⟨x, Proc.bind_fails hpoll⟩

end

/-- What the host knows once everything is programmed. -/
def HostRec.programmed (h : HostRec) (d c v e : Addr) : HostRec :=
  { h with
    dcbaa := d
    cmd := ⟨c, 0, 0, true, 256⟩
    evt := ⟨v, 0, 0, true, 256⟩
    erst := e
    busAddr := h.regAddr .op 0 }

section

variable {s : State} {d c v e : Addr} {left : List (Option Addr)}

/-- The parts of the start sequence leave the state the sequence is said to leave. -/
theorem State.allInstalled_runRequested (h1 : s.op.hcrst = false) (h2 : s.op.cnr = false)
    (hh : s.op.hch = true) (x : FreeSrc) : (s.allInstalled d c v e left).runRequested x =
      ((s.startProgrammed d c v e left).withFree x).withHost (s.host.programmed d c v e) := by
  obtain ⟨cfg, op, _, _, _, _, _, _, _, _, _⟩ := s
  obtain ⟨rs, inte, hcrst, hch, cnr, latch, dcbaap, slots⟩ := op
  obtain rfl : hcrst = false := h1
  obtain rfl : cnr = false := h2
  obtain rfl : hch = true := hh
  dsimp only [State.allInstalled, State.runRequested, State.eventRingInstalled,
    State.cmdRingInstalled, State.dcbaaInstalled, State.startProgrammed, State.startGiven,
    HostRec.programmed, State.tableGiven, State.segmentGiven, State.tableStored,
    State.segmentCounted, State.segmentLoaded, State.dequeueSet, State.onBus, State.given,
    Platform.giving, State.account, State.withLedger, State.withFree, State.withHost,
    State.withPlat, State.withMem, State.withIntr, State.withEr, State.withCr, State.withOp,
    Memory.writeTrb, segmentEntry, HostRec.regAddr, HostRec.base]

end

end Sys2Proof.Machine
end

section
/-! Proofs of the lifecycle family (42_lifecycle), the start sequence as a whole: it ends, its poll
times out, or one of its allocations is denied. -/

namespace Sys2Proof.Machine

open Config

/-! ### What a bring-up changes of the memory -/

theorem Memory.AgreeOutside.mono {m n : Memory} {l l' : List Block} (h : m.AgreeOutside n l)
    (hl : ∀ b ∈ l, b ∈ l') : m.AgreeOutside n l' := fun a ha => h a fun b hb => ha b (hl b hb)

/-- Storing a table entry changes no byte outside its block. -/
theorem Memory.writeTrb_agreeOutside (m : Memory) (e : Addr) (t : Trb) (kind : BlockKind) :
    m.AgreeOutside (m.writeTrb e t) [⟨e, 16, kind⟩] := fun a ha =>
  m.read_writeTrb_ne e t a fun k hk => ha ⟨e, 16, kind⟩ (List.mem_singleton_self _) k hk

/-- Of the memory `m`, the state has changed nothing but the blocks a bring-up allocates. -/
def State.Spares (s : State) (m : Memory) : Prop :=
  m.AgreeOutside s.mem (s.plat.live.filter (·.kind.isBringup))

section

variable {s : State} {m : Memory}

theorem State.spares_self (s : State) : s.Spares s.mem := fun _ _ => rfl

theorem State.Spares.given (h : s.Spares m) {a : Addr} {size align : Nat} {kind : BlockKind}
    (hg : s.mayGive a size align) (hk : kind.isBringup = true) (left : List (Option Addr)) :
    (s.given a size kind left).Spares m := by
  obtain ⟨-, hend, -⟩ := hg
  have hlive : (s.given a size kind left).plat.live.filter (·.kind.isBringup) =
      ⟨a, size, kind⟩ :: s.plat.live.filter (·.kind.isBringup) := List.filter_cons_of_pos hk
  unfold State.Spares
  rw [hlive]
  refine (Memory.AgreeOutside.mono h fun b hb => List.mem_cons_of_mem _ hb).trans ?_
  refine (s.mem.zeroBytes_agreeOutside kind hend).mono fun b hb => ?_
  rw [List.mem_singleton.1 hb]
  exact List.mem_cons_self

/-- The four blocks of a start sequence, and the entry stored in the last. -/
theorem State.spares_startProgrammed {d c v e : Addr} {left : List (Option Addr)}
    (hm : s.mayStart d c v e left) : s.mem.AgreeOutside (s.startProgrammed d c v e left).mem
      ((s.startGiven d c v e left).plat.live.filter (·.kind.isBringup)) := by
  obtain ⟨-, hd, hc, hv, he, -⟩ := hm
  have hgiven : (s.startGiven d c v e left).Spares s.mem :=
    (((s.spares_self.given hd rfl _).given hc rfl _).given hv rfl _).given he rfl _
  have hstored : (s.startProgrammed d c v e left).mem =
      (s.startGiven d c v e left).mem.writeTrb e (segmentEntry v) := by
    dsimp only [State.startProgrammed, Memory.writeTrb, segmentEntry]
  rw [hstored]
  refine Memory.AgreeOutside.trans hgiven ?_
  refine (Memory.writeTrb_agreeOutside (s.startGiven d c v e left).mem e (segmentEntry v)
    .erst).mono fun b hb => ?_
  rw [List.mem_singleton.1 hb]
  exact List.mem_cons_self

end

/-! ### The start sequence that ends, or times out -/

/-- Everything is programmed, and the host knows it. -/
def State.programmed (s : State) (d c v e : Addr) (left : List (Option Addr)) (x : FreeSrc) :
    State :=
  ((s.startProgrammed d c v e left).withFree x).withHost (s.host.programmed d c v e)

theorem State.programmed_withTurns (s : State) (d c v e : Addr) (left : List (Option Addr))
    (x : FreeSrc) (ts us : List (List CtlMove)) :
    ((s.withTurns us).programmed d c v e left x).withTurns ts =
      (s.programmed d c v e left x).withTurns ts := by
  dsimp only [State.programmed, State.startProgrammed, State.startGiven, State.given,
    Platform.giving, State.withTurns, State.withSched, State.withFree, State.withHost,
    State.withPlat, State.withMem]

/-- The same four allocations may be made where memory is alike. -/
theorem State.SameMemory.mayStart {s t : State} (h : s.SameMemory t)
    (hn : s.host.maxSlots = t.host.maxSlots) {d c v e : Addr} {left : List (Option Addr)}
    (ht : t.mayStart d c v e left) : s.mayStart d c v e left := by
  obtain ⟨hallocs, hd, hc, hv, he, hst⟩ := ht
  have g1 := h.given d (8 * (t.host.maxSlots.toNat + 1)) .dcbaa (some c :: some v :: some e :: left)
  have g2 := g1.given c 4096 .cmdRing (some v :: some e :: left)
  have g3 := g2.given v 4096 .evtRing (some e :: left)
  unfold State.mayStart State.startGiven
  rw [hn]
  exact ⟨h.plat ▸ hallocs, h.mayGive hd, g1.mayGive hc, g2.mayGive hv, g3.mayGive he,
    State.mayStoreTrb_of_sameMemory (g3.given e 16 .erst left) hst⟩

theorem State.withTurns_sameMemory (s : State) (ts : List (List CtlMove)) :
    (s.withTurns ts).SameMemory s := ⟨rfl, rfl, rfl, rfl, rfl, rfl⟩

section

variable {s : State} {d c v e : Addr} {left : List (Option Addr)} {rest : List (List CtlMove)}
  (hd : s.cfg.bitpos.Distinct) (hb : s.host.basesFixed = true) (hh : s.op.hch = true)
  (h1 : s.op.hcrst = false) (h2 : s.op.cnr = false) (hcr : s.cr.running = false)
  (hn : s.host.maxSlots.toNat ≤ s.cfg.maxSlots.toNat) (hm : s.mayStart d c v e left)

include hd hb hh h1 h2 hcr hn hm

theorem run_startSequence (hts : EmptyTurns 18 s.sched.turns) : ∃ x,
    ExceptT.run startSequence s = ExceptT.run (awaitStart s.cfg.bitpos)
      ((s.programmed d c v e left x).withTurns (s.sched.turns.drop 18)) := by
  obtain ⟨x, hrun⟩ := run_programStart (s := s.withTurns []) ⟨rfl, hb, h1, h2, hd⟩ hn hcr
    ((s.withTurns_sameMemory []).mayStart rfl hm)
  rw [State.allInstalled_runRequested (s := s.withTurns []) h1 h2 hh] at hrun
  have hrun' := (programStart_takes s.cfg.bitpos s.host.maxSlots).run hts hrun
  refine ⟨x, ?_⟩
  rw [startSequence_eq, Proc.get_bind, ← s.programmed_withTurns d c v e left x _ []]
  exact Proc.bind_ok hrun'

/-- The controller starts at the first read that asks for it (42_lifecycle R254). -/
theorem run_startSequence_done
    (hts : s.sched.turns = List.replicate 18 [] ++ [CtlMove.start] :: rest) :
    ∃ x, ExceptT.run startSequence s =
      .ok (.ok (), ((s.startDone d c v e left).withFree x).withTurns rest) := by
  obtain ⟨x, hrun⟩ := run_startSequence hd hb hh h1 h2 hcr hn hm
    (by rw [hts]; exact emptyTurns_replicate 18 _)
  rw [hts, List.drop_left' List.length_replicate] at hrun
  obtain ⟨y, hstart⟩ := run_awaitStart
    (gap_start (s := ((s.programmed d c v e left x).withTurns ([.start] :: rest)).counted 0)
      rfl rfl rfl rfl rfl) hb rfl rfl hd
  refine ⟨y, hrun.trans (hstart.trans (congrArg (fun u => Except.ok (Except.ok (), u)) ?_))⟩
  dsimp only [State.programmed, State.startDone, HostRec.programmed, State.withTurns,
    State.withSched, State.withFree, State.withHost, State.withOp, State.counted,
    HostRec.regAddr, HostRec.base]

/-- The controller does not start, and RS stays set. -/
theorem run_startSequence_stuck (hq : s.Quiet) : ∃ x y, ExceptT.run startSequence s =
    .ok (.error (.timeout .start),
      (((s.programmed d c v e left x).onBus .op 4).withFree y).counted 1000) := by
  obtain ⟨x, hrun⟩ := run_startSequence hd hb hh h1 h2 hcr hn hm
    (by rw [hq]; exact emptyTurns_nil 18)
  have hx : (s.programmed d c v e left x).Quiet := hq
  rw [hq, List.drop_nil, State.withTurns_nil hx] at hrun
  obtain ⟨y, hstuck⟩ := run_awaitStart_stuck (s := s.programmed d c v e left x)
    ⟨hx, hb, rfl, rfl, hd⟩ rfl
  exact ⟨x, y, hrun.trans hstuck⟩

end

/-! ### The start sequence that is denied memory -/

section

variable {s : State} {d c v : Addr} {left : List (Option Addr)}

theorem run_startSequence_noDcbaa (h : s.plat.allocs = none :: left) :
    ExceptT.run startSequence s = .ok (.error (.allocationFailure .dcbaa), s.denied left) := by
  unfold startSequence
  rw [Proc.get_bind]
  exact Proc.bind_fails (run_installDcbaa_denied h)

variable (hs : s.TakesWrites) (hn : s.host.maxSlots.toNat ≤ s.cfg.maxSlots.toNat)
  (hd : s.mayGive d (8 * (s.host.maxSlots.toNat + 1)) 64)

include hs hn hd

theorem run_startSequence_noCmdRing (h : s.plat.allocs = some d :: none :: left) :
    ExceptT.run startSequence s = .ok (.error (.allocationFailure .ring),
      (s.dcbaaInstalled d (none :: left)).denied left) := by
  unfold startSequence
  rw [Proc.get_bind]
  refine (run_installDcbaa hs h hd hn _).trans ?_
  exact Proc.bind_fails (run_initCommandRing_denied rfl)

variable (hcr : s.cr.running = false)

include hcr

theorem run_startSequence_noEvtRing (h : s.plat.allocs = some d :: some c :: none :: left)
    (hc : (s.given d (8 * (s.host.maxSlots.toNat + 1)) .dcbaa (some c :: none :: left)).mayGive
      c 4096 4096) :
    ExceptT.run startSequence s = .ok (.error (.allocationFailure .ring),
      ((s.dcbaaInstalled d (some c :: none :: left)).cmdRingInstalled c
        (none :: left)).denied left) := by
  unfold startSequence
  rw [Proc.get_bind]
  refine (run_installDcbaa hs h hd hn _).trans ?_
  refine (Proc.bind_ok (run_initCommandRing (hs.dcbaaInstalled d _) rfl
    ((s.dcbaaInstalled_sameMemory d _).mayGive hc) hcr)).trans ?_
  exact Proc.bind_fails (run_initEventRing_none rfl)

/-- With no table the segment is given back first (60_exceptions R374). -/
theorem run_startSequence_noTable
    (h : s.plat.allocs = some d :: some c :: some v :: none :: left)
    (hc : (s.given d (8 * (s.host.maxSlots.toNat + 1)) .dcbaa
      (some c :: some v :: none :: left)).mayGive c 4096 4096)
    (hv : ((s.given d (8 * (s.host.maxSlots.toNat + 1)) .dcbaa
      (some c :: some v :: none :: left)).given c 4096 .cmdRing
      (some v :: none :: left)).mayGive v 4096 4096)
    (hlive : ∀ b ∈ ((⟨c, 4096, .cmdRing⟩ :: ⟨d, 8 * (s.host.maxSlots.toNat + 1), .dcbaa⟩ ::
      s.plat.live) : List Block), b.base ≠ v) :
    ∃ m x, ((s.dcbaaInstalled d (some c :: some v :: none :: left)).cmdRingInstalled c
        (some v :: none :: left)).mem.AgreeOutside m [⟨v, 4096, .evtRing⟩] ∧
      ExceptT.run startSequence s = .ok (.error (.allocationFailure .erst),
        ((s.dcbaaInstalled d (some c :: some v :: none :: left)).cmdRingInstalled c
          (some v :: none :: left)).segmentReturned v m x left) := by
  have hv' := (s.bothInstalled_sameMemory d c (some c :: some v :: none :: left)
    (some v :: none :: left)).mayGive hv
  have ⟨_, hend, _⟩ := hv
  obtain ⟨m, x, hm, hdrop⟩ := dropEventRing_ok
    (s := (s.dcbaaInstalled d (some c :: some v :: none :: left)).cmdRingInstalled c
      (some v :: none :: left)) (left := left) hend hlive
  refine ⟨m, x, hm, ?_⟩
  unfold startSequence
  rw [Proc.get_bind]
  refine (run_installDcbaa hs h hd hn _).trans ?_
  refine (Proc.bind_ok (run_initCommandRing (hs.dcbaaInstalled d _) rfl
    ((s.dcbaaInstalled_sameMemory d _).mayGive hc) hcr)).trans ?_
  exact Proc.bind_fails (run_initEventRing_denied hv' rfl hdrop)

end

/-! ### The row -/

/-- A start sequence that fails, with the memory changed in `l` at most, and the registers
programmed as in `u`. -/
theorem exec_startController_fails {s t u : State} {r : FailReason} {l : List Block} {n : Nat}
    {a : Addr} (h : ExceptT.run startSequence s = .ok (.error r, t))
    (hm : s.mem.AgreeOutside t.mem l)
    (hl : ∀ b ∈ t.plat.live.filter (·.kind.isBringup), b ∈ l)
    (hn : t.host.pollCount = n) (ha : t.host.busAddr = a)
    (hu : ∀ m x, (t.withFree x).aborted m r n a = (u.withFree x).aborted m r n a) :
    ∃ m x, s.mem.AgreeOutside m l ∧
      exec .startController s = .next ((u.withFree x).aborted m r n a) := by
  obtain ⟨m, x, hagree, hrun⟩ := run_bringingUp_fails h
  rw [hn, ha, hu] at hrun
  exact ⟨m, x, hm.trans (hagree.mono hl), hrun⟩

section

variable {s : State} {d c v e : Addr} {left : List (Option Addr)}

theorem exec_startController_noDcbaa (h : s.plat.allocs = none :: left) : ∃ m x,
    s.mem.AgreeOutside m (s.plat.live.filter (·.kind.isBringup)) ∧
    exec .startController s = .next (((s.denied left).withFree x).aborted m
      (.allocationFailure .dcbaa) s.host.pollCount s.host.busAddr) :=
  exec_startController_fails (run_startSequence_noDcbaa h) s.spares_self (fun _ hb => hb) rfl rfl
    fun _ _ => rfl

/-- The DCBAA's block. -/
def State.dcbaaBlock (s : State) (d : Addr) : Block :=
  ⟨d, 8 * (s.host.maxSlots.toNat + 1), .dcbaa⟩

/-- The registers of `s` once DCBAAP and CONFIG are written. -/
def State.slotRegs (s : State) (d : Addr) : OpRegs :=
  { s.op with dcbaap := d, maxSlotsEn := s.host.maxSlots }

/-- The state `t` with the registers of `s` once CRCR is written too, the command engine loaded. -/
def State.cmdLoaded (s t : State) (d c : Addr) : State :=
  ((t.withOp { s.slotRegs d with crcrLatch := c ||| 1#64 <<< s.cfg.bitpos.crcrRcs }).withCr
    ⟨c, 0, true, false, true⟩).account Ledger.newCmdRing

/-- What the host knows once it has written CRCR. -/
def HostRec.cmdLoaded (h : HostRec) (d c : Addr) : HostRec :=
  { h with dcbaa := d, cmd := ⟨c, 0, 0, true, 256⟩, busAddr := h.regAddr .op 0x1C }

/-- The first two parts of the start sequence together. -/
theorem State.bothInstalled_eq (s : State) (d c : Addr) (l l' : List (Option Addr)) :
    (s.dcbaaInstalled d l).cmdRingInstalled c l' =
      (s.cmdLoaded ((s.given d (8 * (s.host.maxSlots.toNat + 1)) .dcbaa l).given c 4096 .cmdRing
        l') d c).withHost (s.host.cmdLoaded d c) := by
  dsimp only [State.cmdRingInstalled, State.dcbaaInstalled, State.cmdLoaded, State.slotRegs,
    HostRec.cmdLoaded, State.given, Platform.giving, State.account, State.withLedger,
    State.withHost, State.withPlat, State.withMem, State.withCr, State.withOp, HostRec.regAddr,
    HostRec.base]

variable (hs : s.TakesWrites) (hn : s.host.maxSlots.toNat ≤ s.cfg.maxSlots.toNat)

include hs hn

theorem exec_startController_noCmdRing (h : s.plat.allocs = some d :: none :: left)
    (hg : s.mayGiveAll (none :: left) [s.dcbaaBlock d]) : ∃ m x,
    s.mem.AgreeOutside m (((s.givenAll (none :: left) [s.dcbaaBlock d]).denied
      left).plat.live.filter (·.kind.isBringup)) ∧
    exec .startController s = .next (((((s.givenAll (none :: left) [s.dcbaaBlock d]).denied
      left).withOp (s.slotRegs d)).withFree x).aborted m
      (.allocationFailure .ring) s.host.pollCount (s.host.regAddr .op 0x38)) := by
  obtain ⟨hd, -⟩ := hg
  refine exec_startController_fails (run_startSequence_noCmdRing hs hn hd h)
    (s.spares_self.given hd rfl (none :: left)) (fun _ hb => hb) rfl rfl fun _ _ => ?_
  dsimp only [State.dcbaaInstalled, State.slotRegs, State.dcbaaBlock, State.givenAll, State.aborted,
    HostRec.failed, HostRec.dropped, State.denied, State.given, Platform.giving, State.account,
    State.withLedger, State.withFree, State.withHost, State.withPlat, State.withMem, State.withOp,
    List.map_nil, List.nil_append]

variable (hcr : s.cr.running = false)

include hcr

theorem exec_startController_noEvtRing (h : s.plat.allocs = some d :: some c :: none :: left)
    (hg : s.mayGiveAll (none :: left) [s.dcbaaBlock d, ⟨c, 4096, .cmdRing⟩]) : ∃ m x,
    s.mem.AgreeOutside m (((s.givenAll (none :: left) [s.dcbaaBlock d,
      ⟨c, 4096, .cmdRing⟩]).denied left).plat.live.filter (·.kind.isBringup)) ∧
    exec .startController s = .next (((s.cmdLoaded ((s.givenAll (none :: left) [s.dcbaaBlock d,
      ⟨c, 4096, .cmdRing⟩]).denied left) d c).withFree x).aborted m
      (.allocationFailure .ring) s.host.pollCount (s.host.regAddr .op 0x1C)) := by
  obtain ⟨hd, hc, -⟩ := hg
  have hrun := run_startSequence_noEvtRing hs hn hd hcr h hc
  rw [State.bothInstalled_eq] at hrun
  refine exec_startController_fails hrun
    ((s.spares_self.given hd rfl _).given hc rfl (none :: left)) (fun _ hb => hb) rfl rfl
    fun _ _ => ?_
  dsimp only [State.cmdLoaded, State.dcbaaBlock, State.givenAll, State.aborted,
    HostRec.failed, HostRec.dropped, State.denied, State.given, Platform.giving, State.account,
    State.withLedger, State.withFree, State.withHost, State.withPlat, State.withMem, State.withOp,
    State.withCr, List.map_nil, List.map_cons, List.nil_append, List.cons_append]

theorem exec_startController_noTable
    (h : s.plat.allocs = some d :: some c :: some v :: none :: left)
    (hg : s.mayGiveAll (none :: left)
      [s.dcbaaBlock d, ⟨c, 4096, .cmdRing⟩, ⟨v, 4096, .evtRing⟩])
    (hlive : ∀ b ∈ (⟨c, 4096, .cmdRing⟩ :: s.dcbaaBlock d :: s.plat.live : List Block),
      b.base ≠ v) : ∃ m x,
    s.mem.AgreeOutside m (((s.givenAll (none :: left) [s.dcbaaBlock d, ⟨c, 4096, .cmdRing⟩,
      ⟨v, 4096, .evtRing⟩]).denied left).plat.live.filter (·.kind.isBringup)) ∧
    exec .startController s = .next ((((s.cmdLoaded ((s.givenAll (none :: left) [s.dcbaaBlock d,
      ⟨c, 4096, .cmdRing⟩, ⟨v, 4096, .evtRing⟩]).denied left) d c).returned
      [⟨v, 4096, .evtRing⟩] (⟨c, 4096, .cmdRing⟩ :: s.dcbaaBlock d :: s.plat.live)).withFree
      x).aborted m (.allocationFailure .erst) s.host.pollCount (s.host.regAddr .op 0x1C)) := by
  obtain ⟨hd, hc, hv, -⟩ := hg
  obtain ⟨m, x, hm, hrun⟩ := run_startSequence_noTable hs hn hd hcr h hc hv hlive
  have hgiven : ((s.given d (8 * (s.host.maxSlots.toNat + 1)) .dcbaa
      (some c :: some v :: none :: left)).given c 4096 .cmdRing
      (some v :: none :: left)).Spares s.mem :=
    (s.spares_self.given hd rfl _).given hc rfl _
  have hmem : s.mem.AgreeOutside m (((s.givenAll (none :: left) [s.dcbaaBlock d,
      ⟨c, 4096, .cmdRing⟩, ⟨v, 4096, .evtRing⟩]).denied left).plat.live.filter
      (·.kind.isBringup)) := by
    refine (Memory.AgreeOutside.mono hgiven fun b hb => List.mem_cons_of_mem _ hb).trans
      (hm.mono fun b hb => ?_)
    rw [List.mem_singleton.1 hb]
    exact List.mem_cons_self
  refine exec_startController_fails hrun hmem (fun b hb => List.mem_cons_of_mem _ hb) ?_ ?_
    fun _ _ => ?_
  all_goals
    cases s
    rfl

end

/-- The poll for the start times out. -/
theorem exec_startController_stuck {s : State} {d c v e : Addr} {left : List (Option Addr)}
    (hs : s.TakesWrites) (hn : s.host.maxSlots.toNat ≤ s.cfg.maxSlots.toNat)
    (hcr : s.cr.running = false) (hh : s.op.hch = true) (hm : s.mayStart d c v e left) : ∃ m x,
    s.mem.AgreeOutside m
      ((s.startGiven d c v e left).plat.live.filter (·.kind.isBringup)) ∧
    exec .startController s = .next (((s.startProgrammed d c v e left).withFree x).aborted m
      (.timeout .start) 1000 (s.host.regAddr .op 4)) := by
  obtain ⟨x, y, hrun⟩ := run_startSequence_stuck hs.bits hs.bases hh hs.hcrst hs.cnr hcr hn hm
    hs.quiet
  have hmem := State.spares_startProgrammed hm
  have hlive : (s.startProgrammed d c v e left).plat = (s.startGiven d c v e left).plat := rfl
  unfold State.programmed at hrun
  generalize s.startProgrammed d c v e left = t at hrun hmem hlive ⊢
  rw [← hlive] at hmem ⊢
  refine exec_startController_fails hrun ?_ (fun _ hb => hb) rfl ?_ fun _ _ => ?_
  · dsimp only [State.counted, State.withFree, State.onBus, State.withHost]
    exact hmem
  · dsimp only [State.counted, State.withFree, State.onBus, State.withHost, HostRec.programmed,
      HostRec.regAddr, HostRec.base]
  · dsimp only [State.aborted, HostRec.failed, HostRec.dropped, State.counted, State.withFree,
      State.onBus, State.withHost, State.withMem, State.withPlat, State.account, State.withLedger]

/-- Settles O55: the sequence to its end, its poll timed out, and each denied allocation. -/
theorem startController : Obligations.StartController := by
  intro s d c v e left rest
  refine ⟨exec_startController_noDcbaa, fun hd hb hh h1 h2 hcr hn =>
    ⟨fun hm => ⟨fun hts => ?_, fun hq => ?_⟩, fun hq => ?_⟩⟩
  · obtain ⟨x, hrun⟩ := run_startSequence_done hd hb hh h1 h2 hcr hn hm hts
    exact ⟨x, run_bringingUp_ok hrun⟩
  · exact exec_startController_stuck ⟨hq, hb, h1, h2, hd⟩ hn hcr hh hm
  · have hs : s.TakesWrites := ⟨hq, hb, h1, h2, hd⟩
    exact ⟨exec_startController_noCmdRing hs hn, exec_startController_noEvtRing hs hn hcr,
      exec_startController_noTable hs hn hcr⟩

end Sys2Proof.Machine
end

section
/-! Proofs of the lifecycle family (42_lifecycle), the whole bring-up: discovery, parsing, reset and
start, each after the success of the one before. -/

namespace Sys2Proof.Machine

open Config

/-- With no memory for the Controller record there is no bring-up (42_lifecycle R256; log 15). -/
theorem exec_discoverAndStart_heapFull {s : State} {a : Addr} (h : scanPci s.plat.pci = some a)
    (hf : s.plat.heapFull = true) : exec .discoverAndStart s =
      .next ((s.withHost s.host.dropped).withResult
        (.failure (.allocationFailure .controller))) := by
  refine Act.run_of_ok (m := discoverAndStart) ?_
  unfold discoverAndStart
  rw [Act.get_bind, h]
  exact (congrFun (if_pos hf) s).trans rfl

/-- A controller is found and its record made: the bring-up runs. -/
theorem exec_discoverAndStart_found {s : State} {a : Addr} (h : scanPci s.plat.pci = some a)
    (hf : s.plat.heapFull = false) : exec .discoverAndStart s =
      (bringingUp bringupSequence).run (s.withHost (s.host.created a)) := by
  refine Act.run_congr (m := discoverAndStart) ?_
  unfold discoverAndStart
  rw [Act.get_bind, h]
  exact (congrFun (if_neg (by rw [hf]; exact Bool.false_ne_true)) s).trans rfl

section

variable {s : State} {d c v e : Addr} {left : List (Option Addr)} {rest : List (List CtlMove)}

theorem State.startDone_frame (s : State) (d c v e : Addr) (left : List (Option Addr))
    (x y : FreeSrc) (ts rest : List (List CtlMove)) :
    ((((s.withFree x).withTurns ts).startDone d c v e left).withFree y).withTurns rest =
      ((s.startDone d c v e left).withFree y).withTurns rest := by
  dsimp only [State.startDone, State.startProgrammed, State.startGiven, State.given,
    Platform.giving, State.withTurns, State.withSched, State.withFree, State.withPlat,
    State.withMem]

theorem State.resetDone_withTurns (s : State) (x : FreeSrc) (ts us : List (List CtlMove)) :
    ((s.withTurns ts).resetDone.withFree x).withTurns us =
      (s.resetDone.withFree x).withTurns us := by
  dsimp only [State.resetDone, State.controllerReset, State.withTurns, State.withSched,
    State.withFree, State.withHost, State.withOp, State.withIntr, State.withCr, State.withEr,
    State.withPorts, State.withSlots, State.withTr, State.account, State.withLedger]

/-- What the start sequence needs of the controller, and of the capabilities parsed. -/
structure State.ReadyToStart (s : State) : Prop where
  bits : s.cfg.bitpos.Distinct
  bases : s.host.basesFixed = true
  hch : s.op.hch = true
  hcrst : s.op.hcrst = false
  cnr : s.op.cnr = false
  cr : s.cr.running = false
  slots : s.host.maxSlots.toNat ≤ s.cfg.maxSlots.toNat

/-- A reset, and a start of the controller that is ready. -/
theorem run_resetAndStart {ts : List (List CtlMove)} (hd : s.cfg.bitpos.Distinct)
    (hb : s.host.basesFixed = true) (h1 : s.op.hcrst = false) (h2 : s.op.cnr = false)
    (hn : s.host.maxSlots.toNat ≤ s.cfg.maxSlots.toNat)
    (hm : s.resetDone.mayStart d c v e left)
    (hts : ts = resetTurns s ++ [CtlMove.resetComplete] :: [CtlMove.ready] ::
      (List.replicate 18 [] ++ [CtlMove.start] :: rest)) :
    ∃ x, ExceptT.run (resetSequence >>= fun _ => startSequence) (s.withTurns ts) = .ok (.ok (),
      ((s.resetDone.startDone d c v e left).withFree x).withTurns rest) := by
  obtain ⟨x, hreset⟩ := run_resetSequence_done (s := s.withTurns ts) hd hb h1 h2 hts
  rw [State.resetDone_withTurns] at hreset
  have hdone : s.resetDone.ReadyToStart := ⟨hd, hb, rfl, rfl, rfl, rfl, hn⟩
  generalize s.resetDone = t at hreset hdone hm ⊢
  have hsame : ((t.withFree x).withTurns
      (List.replicate 18 [] ++ [CtlMove.start] :: rest)).SameMemory t :=
    ⟨rfl, rfl, rfl, rfl, rfl, rfl⟩
  obtain ⟨hd, hb, hh, h1, h2, hcr, hn⟩ := hdone
  obtain ⟨y, hstart⟩ := run_startSequence_done
    (s := (t.withFree x).withTurns (List.replicate 18 [] ++ [CtlMove.start] :: rest))
    hd hb hh h1 h2 hcr hn (hsame.mayStart rfl hm) rfl
  rw [State.startDone_frame] at hstart
  exact ⟨y, (Proc.bind_ok hreset).trans hstart⟩

/-- The three sequences one after the other (42_lifecycle R258). -/
theorem run_bringupSequence (hd : s.cfg.bitpos.Distinct) (hf : s.host.found = true)
    (h1 : s.op.hcrst = false) (h2 : s.op.cnr = false)
    (hm : s.parsed.resetDone.mayStart d c v e left)
    (hts : s.sched.turns = List.replicate 4 [] ++ (resetTurns s ++
      [CtlMove.resetComplete] :: [CtlMove.ready] ::
        (List.replicate 18 [] ++ [CtlMove.start] :: rest))) :
    ∃ x, ExceptT.run bringupSequence s = .ok (.ok (),
      ((s.parsed.resetDone.startDone d c v e left).withFree x).withTurns rest) := by
  have hparse := parseCaps_takes.run (s := s) (by rw [hts]; exact emptyTurns_replicate 4 _)
    (parseCaps_quiet (s := s.withTurns []) rfl hf)
  rw [hts, List.drop_left' List.length_replicate] at hparse
  obtain ⟨x, hrun⟩ := run_resetAndStart (s := s.parsed) hd rfl h1 h2 le_rfl hm rfl
  exact ⟨x, (Proc.bind_ok (Proc.lift_ok hparse)).trans hrun⟩

end

/-- The record made holds nothing of the host before that a reset does not overwrite. -/
theorem State.created_resetDone (s : State) (a : Addr) :
    (s.withHost (s.host.created a)).parsed.resetDone = (s.withHost
      { HostRec.initial with found := true, capBase := a }).parsed.resetDone := by
  dsimp only [State.parsed, State.resetDone, State.controllerReset, HostRec.created,
    State.withHost, State.withOp, State.withIntr, State.withCr, State.withEr, State.withPorts,
    State.withSlots, State.withTr, State.account, State.withLedger, HostRec.regAddr, HostRec.base]

/-- Settles O56: the record denied, or the three sequences. -/
theorem discoverAndStart_spec : Obligations.DiscoverAndStart := by
  intro s b dev f hfirst
  have hscan := scanPci_first hfirst
  refine ⟨exec_discoverAndStart_heapFull hscan, fun d c v e left rest => ?_⟩
  intro h u halting hf hd h1 h2 hm hts
  rw [exec_discoverAndStart_found hscan hf]
  have hu := s.created_resetDone (pciBar0 s.plat.pci b dev f)
  obtain ⟨x, hrun⟩ := run_bringupSequence (s := s.withHost (s.host.created _)) hd rfl h1 h2
    (by rw [hu]; exact hm) hts
  rw [hu] at hrun
  exact ⟨x, run_bringingUp_ok hrun⟩

end Sys2Proof.Machine
end

section
/-! Proofs of the ports family (43_ports), the controller's side: every step keeps the fields of a
port in agreement, and a pending change raises its event. -/

namespace Sys2Proof.Machine

/-! ### The fields of a port -/

/-- The change noted for an event is no field of the agreement. -/
theorem Port.Inv.noteChange {q : Port} (hq : q.Inv) (s : State) :
    (Machine.noteChange s q).Inv := hq

theorem Port.Inv.eventRaised {q : Port} (hq : q.Inv) :
    Port.Inv { q with pscPending := false } := hq

/-- The device attached sets CCS and Speed together (43_ports R280). -/
theorem Port.Inv.attach {q : Port} (hq : q.Inv) (v : BitVec 4) : (q.attach v).Inv := by
  obtain ⟨-, -, hpr, hped⟩ := hq
  refine ⟨rfl, rfl, hpr, fun e => ⟨rfl, ?_⟩⟩
  obtain ⟨-, hidle⟩ := hped e
  exact hidle

theorem Port.Inv.detach {q : Port} (hq : q.Inv) : q.detach.Inv := by
  obtain ⟨-, -, hpr, -⟩ := hq
  exact ⟨rfl, rfl, hpr, nofun⟩

/-- A port in reset is not enabled (43_ports R280, R283). -/
theorem Port.Inv.resetBegun {q : Port} (hq : q.Inv) : q.resetBegun.Inv := by
  obtain ⟨hccs, hspeed, -, -⟩ := hq
  exact ⟨hccs, hspeed, rfl, nofun⟩

/-- A port reset enables a port with a device, whose speed CCS shows already (43_ports R284). -/
theorem Port.Inv.resetDone {q : Port} (hq : q.Inv) : q.resetDone.Inv := by
  obtain ⟨hccs, hspeed, -, -⟩ := hq
  refine ⟨hccs, ?_, rfl, fun hped => ⟨hccs.trans hped, rfl⟩⟩
  show (if q.attached = true then q.devSpeed else q.speed) = if q.ccs = true then q.devSpeed else 0
  rw [hspeed, ← hccs]
  split <;> rfl

/-- After a controller reset the fields follow the device, whatever they were. -/
theorem Port.inv_afterReset (q : Port) : q.afterReset.Inv := ⟨rfl, rfl, rfl, nofun⟩

/-! ### Every step -/

/-- The invariant speaks of the ports only. -/
theorem State.PortInv.of_eq {s t : State} (hs : s.PortInv) (h : t.ports = s.ports) :
    t.PortInv := by
  unfold State.PortInv
  rwa [h]

theorem State.PortInv.withPort {s : State} (hs : s.PortInv) (p : PortIx) {q : Port}
    (hq : q.Inv) : (s.withPort p q).PortInv := by
  intro i
  show ((s.ports.put p q).get i).Inv
  rw [Tab.get_put]
  split
  · exact hq
  · exact hs i

theorem State.portInv_controllerReset (s : State) : s.controllerReset.PortInv := by
  intro p
  have hget : s.controllerReset.ports.get p = (s.ports.get p).afterReset := Tab.get_each _ _ _
  rw [hget]
  exact Port.inv_afterReset _

/-- Of the controller's updates, the moves of a port and a controller reset reach the ports. -/
theorem portInv_ctlClosed : CtlClosed State.PortInv := by
  intro s t h hs
  cases h with
  | engine h => cases h <;> exact hs.of_eq rfl
  | controllerReset => exact s.portInv_controllerReset
  | attach p v => exact hs.withPort p (((hs p).attach v).noteChange s)
  | detach p => exact hs.withPort p ((hs p).detach.noteChange s)
  | portDone p => exact hs.withPort p ((hs p).resetDone.noteChange s)
  | pscClear p => exact hs.withPort p (hs p).eventRaised
  | _ => exact hs.of_eq rfl

/-- The host reaches a port by the begin of its reset alone. -/
theorem portInv_hostClosed : HostClosed State.PortInv := by
  intro s t h hs
  cases h with
  | portReset p => exact hs.withPort p (hs p).resetBegun
  | _ => exact hs.of_eq rfl

theorem portInv_stepKeeps : StepKeeps State.PortInv where
  ctl := portInv_ctlClosed
  host := portInv_hostClosed
  config _ _ _ _ hs := hs.of_eq rfl
  poll := by
    rintro _ _ ⟨n, -⟩ hs
    exact hs.of_eq rfl
  turns _ _ hs := hs.of_eq rfl

/-- Settles O9: every update of the state keeps the invariant, so every step does. -/
theorem stepKeepsPorts : Obligations.StepKeepsPorts :=
  fun _ _ hs h => step_keeps portInv_stepKeeps (fun _ _ hs => hs.of_eq rfl) hs h

/-! ### The event of a port -/

theorem State.portEventOn_iff {s : State} {p : PortIx} : s.portEventOn p = true ↔
    p.toNat < s.cfg.maxPorts.toNat ∧ (s.ports.get p).pscPending = true ∧ s.op.hch = false ∧
      s.er.size ≠ 0 ∧ s.er.hasRoom = true := by
  unfold State.portEventOn
  rw [Bool.and_eq_true, Bool.and_eq_true, s.hasPort_iff, State.canRaise_iff, and_assoc]

/-- The step of a port's event that is enabled, and of one that is not (log 11). -/
theorem portEventStep_apply (p : PortIx) (s : State) : portEventStep p s =
    if s.portEventOn p = true then
      (raiseEvent (portTrb s.cfg p) >>= fun _ =>
        modify fun s => s.withPort p { s.ports.get p with pscPending := false }) s
    else .ok ((), s) := by
  unfold portEventStep
  rw [Act.get_bind]
  split <;> rfl

/-- Settles O47: the step by what enables it; the event leaves the ports to be updated. -/
theorem portEventStep_spec : Obligations.PortEventStep := by
  intro s p
  refine ⟨fun hoff => ?_, fun hp hpsc hh hs hroom hallow => ?_⟩
  · refine Act.run_of_ok ((portEventStep_apply p s).trans (if_neg fun hon => ?_))
    obtain ⟨hp, hpsc, hh, hs, hroom⟩ := State.portEventOn_iff.1 hon
    rcases hoff with h | h | h | h | h
    · exact Bool.false_ne_true (h.symm.trans hpsc)
    · exact Bool.false_ne_true (hh.symm.trans h)
    · exact hs h
    · exact Bool.false_ne_true (h.symm.trans hroom)
    · exact Nat.not_lt.2 h hp
  · have hon := State.portEventOn_iff.2 ⟨hp, hpsc, hh, hs, hroom⟩
    exact Act.run_of_ok ((portEventStep_apply p s).trans ((if_pos hon).trans
      (Act.bind_ok (raiseEvent_raised hallow))))

end Sys2Proof.Machine
end

section
/-! Proofs of the ports family (43_ports), the host's procedures: PORTSC read and written after the
moves that fall before the access, the probe of every port, and a port reset that ends or not. -/

namespace Sys2Proof.Machine

open Config

/-! ### A port replaced -/

theorem Tab.put_get {α : Type} (t : Tab α) (i : BitVec 8) : t.put i (t.get i) = t :=
  Vector.set_getElem_self i.isLt

theorem Tab.put_put {α : Type} (t : Tab α) (i : BitVec 8) (v w : α) :
    (t.put i v).put i w = t.put i w :=
  Vector.set_set v i.isLt

/-- A port replaced by itself. -/
theorem State.withPort_get (s : State) (p : PortIx) : s.withPort p (s.ports.get p) = s :=
  congrArg s.withPorts (Tab.put_get s.ports p)

/-- Of two replacements of a port the later one stays. -/
theorem State.withPort_withPort (s : State) (p : PortIx) (q r : Port) :
    (s.withPort p q).withPort p r = s.withPort p r :=
  congrArg s.withPorts (Tab.put_put s.ports p q r)

@[simp] theorem State.withTurns_withTurns (s : State) (ts us : List (List CtlMove)) :
    (s.withTurns ts).withTurns us = s.withTurns us := rfl

/-! ### A port's register -/

/-- The host may access port `p`'s register. -/
structure State.SeesPort (s : State) (p : PortIx) : Prop where
  bases : s.host.basesFixed = true
  bits : s.cfg.bitpos.Distinct
  bound : p.toNat < s.cfg.maxPorts.toNat

theorem decodeAccess_portOffset {c : Params} {p : PortIx} (h : p.toNat < c.maxPorts.toNat)
    (w : Option Dword) :
    decodeAccess c ⟨.op, portOffset p, w⟩ = .ok (w.elim (.rdPortsc p) (.wrPortsc p)) := by
  have haligned : (portOffset p).toNat % 4 = 0 := by
    rw [toNat_portOffset]
    omega
  rw [decodeAccess_op haligned, decodeOp_portOffset h]

section

variable {s t : State} {p : PortIx}

/-- PORTSC read after the moves that fall before it. -/
theorem regRead32_portsc (hg : gap s = .ok ((), t)) (ht : t.SeesPort p) :
    ∃ v x, ShowsPortsc t.cfg.bitpos (t.ports.get p) v ∧
      regRead32 .op (portOffset p) s = .ok (v, (t.onBus .op (portOffset p)).withFree x) := by
  obtain ⟨hb, hd, hp⟩ := ht
  obtain ⟨w, x, h⟩ := openRead_ok (portscMask t.cfg.bitpos)
    (portscFields t.cfg.bitpos (t.ports.get p)) (t.onBus .op (portOffset p))
  have hport : (t.onBus .op (portOffset p)).hasPort p = true := (State.hasPort_iff _).2 hp
  exact ⟨_, x, showsPortsc_openBits hd (t.ports.get p) w,
    regRead32_ok (i := .rdPortsc p) hg hb (decodeAccess_portOffset hp none)
      ((readPortsc_apply _ p).trans ((if_pos hport).trans h))⟩

/-- What setting PR makes of a port: a reset begins, unless one is under way (43_ports R283). -/
def Port.resetAsked (q : Port) : Port := if q.pr = true then q else q.resetBegun

/-- PORTSC written with PR set, on a controller that takes writes (40_register_access R167). -/
theorem regWrite32_portsc_pr (hg : gap s = .ok ((), t)) (ht : t.SeesPort p)
    (h1 : t.op.hcrst = false) (h2 : t.op.cnr = false) {v : Dword}
    (hv : v.getLsbD t.cfg.bitpos.portscPr = true) : regWrite32 .op (portOffset p) v s =
      .ok ((), (t.onBus .op (portOffset p)).withPort p (t.ports.get p).resetAsked) := by
  obtain ⟨hb, -, hp⟩ := ht
  rw [regWrite32_apply (b := .op) (i := .wrPortsc p v) hg hb (decodeAccess_portOffset hp (some v))]
  refine Act.run_eq_next.1 ((portscWrite (t.onBus .op (portOffset p)) p v h1 h2).trans
    ((if_neg (Nat.not_le.2 hp)).trans ?_))
  unfold Port.resetAsked
  cases hpr : (t.ports.get p).pr
  · exact if_pos ⟨hv, hpr⟩
  · refine (if_neg fun h => Bool.false_ne_true (h.2.symm.trans hpr)).trans ?_
    exact congrArg Host.Outcome.next (State.withPort_get (t.onBus .op (portOffset p)) p).symm

end

/-! ### Probing -/

/-- What the host reports of a port (43_ports R272). -/
def Port.report (q : Port) : PortReport := ⟨q.ccs, q.ped, decodedSpeed q.speed⟩

theorem ShowsPortsc.portReport_eq {b : BitPos} {q : Port} {v : Dword} (h : ShowsPortsc b q v) :
    portReport b v = q.report := by
  obtain ⟨hccs, hped, -, hspeed⟩ := h
  unfold portReport bitOf portSpeedOf
  rw [hccs, hped, hspeed]
  rfl

/-- The reports of ports `p` to `p + n - 1`. -/
def State.reports (s : State) (p n : Nat) : List PortReport :=
  (List.range' p n).map fun k => (s.ports.get (BitVec.ofNat 8 k)).report

/-- The bus after the reads of ports `p` to `p + n - 1`. -/
def State.probed (s : State) (p n : Nat) : State :=
  if n = 0 then s else s.onBus .op (portOffset (BitVec.ofNat 8 (p + n - 1)))

/-- The last port read is the one the bus shows. -/
theorem State.probed_succ (s : State) (p n : Nat) (x : FreeSrc) :
    (((s.onBus .op (portOffset (BitVec.ofNat 8 p))).withFree x).probed (p + 1) n) =
      (s.probed p (n + 1)).withFree x := by
  unfold State.probed
  rw [if_neg (Nat.succ_ne_zero n)]
  split
  · next h =>
    subst h
    rfl
  · rw [show p + 1 + n - 1 = p + (n + 1) - 1 by omega]
    rfl

/-- Each read answers for its port, and leaves the ports to be read as they are. -/
theorem probeFrom_quiet (n : Nat) (s : State) (p : Nat) (hq : s.Quiet)
    (hb : s.host.basesFixed = true) (hd : s.cfg.bitpos.Distinct)
    (hp : p + n ≤ s.cfg.maxPorts.toNat) :
    ∃ x, probeFrom p n s = .ok (s.reports p n, (s.probed p n).withFree x) := by
  induction n generalizing s p with
  | zero => exact ⟨s.free, rfl⟩
  | succ n ih =>
    have hbound : (BitVec.ofNat 8 p).toNat < s.cfg.maxPorts.toNat :=
      (Nat.mod_le _ _).trans_lt (by omega)
    obtain ⟨v, x, hv, hread⟩ := regRead32_portsc (gap_quiet hq) ⟨hb, hd, hbound⟩
    obtain ⟨y, hrest⟩ := ih ((s.onBus .op (portOffset (BitVec.ofNat 8 p))).withFree x) (p + 1)
      hq hb hd (by rw [Nat.add_right_comm]; exact hp)
    rw [State.probed_succ] at hrest
    refine ⟨y, ?_⟩
    unfold probeFrom
    rw [Act.bind_ok hread, Act.get_bind, Act.bind_ok hrest]
    exact congrArg (fun r => Except.ok (r :: _, _)) hv.portReport_eq

theorem exec_probePorts {s : State} (hq : s.Quiet) (hb : s.host.basesFixed = true)
    (hd : s.cfg.bitpos.Distinct) (hp : s.host.maxPorts.toNat ≤ s.cfg.maxPorts.toNat) :
    ∃ x, exec .probePorts s = .next (((s.probed 0 s.host.maxPorts.toNat).withFree x).withResult
      (.ports (s.reports 0 s.host.maxPorts.toNat))) := by
  obtain ⟨x, h⟩ := probeFrom_quiet s.host.maxPorts.toNat s 0 hq hb hd
    (by rw [Nat.zero_add]; exact hp)
  exact ⟨x, run_answering_ok (m := probePorts) ((Act.get_bind _ s).trans h)⟩

theorem State.getElem?_reports (s : State) {i : PortIx} {n : Nat} (h : i.toNat < n) :
    (s.reports 0 n)[i.toNat]? = some (s.ports.get i).report := by
  unfold State.reports
  rw [List.getElem?_map, List.getElem?_range' h, Option.map_some, Nat.zero_add, Nat.one_mul,
    BitVec.ofNat_toNat, BitVec.setWidth_eq]

/-- The whole probe ends at the register of the last port. -/
theorem State.probed_zero (s : State) (n : BitVec 8) : s.probed 0 n.toNat =
    if n = 0 then s else s.onBus .op (portOffset (n - 1)) := by
  unfold State.probed
  have hzero : n.toNat = 0 ↔ n = 0 := (BitVec.toNat_eq (x := n) (y := 0)).symm
  rw [if_congr hzero rfl rfl]
  split
  · rfl
  · next h =>
    have hlast : BitVec.ofNat 8 (0 + n.toNat - 1) = n - 1 := by
      rw [← hzero] at h
      bv_omega
    rw [hlast]

/-! ### Polls that never see what they wait for -/

/-- While every read shows another value than the one wanted, the poll answers no success. -/
theorem pollReads_timeout {b : RegBlock} {off mask want : Dword} {Q : State → Prop}
    (hgap : ∀ s, Q s → gap s = .ok ((), s))
    (hread : ∀ s, Q s → ∃ v t, v &&& mask ≠ want ∧ regRead32 b off s = .ok (v, t) ∧
      Q (t.counted (t.host.pollCount + 1))) (n : Nat) (s : State) (last : Dword) (hs : Q s) :
    ∃ v t, pollReads b off mask want n last s = .ok (.timeout v, t) := by
  induction n generalizing s last with
  | zero => exact ⟨last, s, pollReads_last (hgap s hs)⟩
  | succ n ih =>
    obtain ⟨v, t, hv, h, ht⟩ := hread s hs
    rw [pollReads_miss h hv]
    exact ih _ v ht

/-! ### Resetting a port -/

/-- PR shown as 0 is what a port reset waits for. -/
theorem ShowsPortsc.and_pr_eq_zero_iff {b : BitPos} (hd : b.Distinct) {q : Port} {v : Dword}
    (h : ShowsPortsc b q v) : v &&& mask1 b.portscPr = 0 ↔ q.pr = false := by
  obtain ⟨-, -, -, -, -, -, ⟨-, -, hlt, -⟩, -⟩ := hd
  rw [← h.pr]
  exact and_mask1_eq_iff hlt false

theorem getLsbD_or_mask1 {n : Nat} (hn : n < 32) (v : Dword) :
    (v ||| mask1 n).getLsbD n = true := by
  rw [BitVec.getLsbD_or, getLsbD_mask1, decide_eq_true rfl, decide_eq_true hn]
  exact Bool.or_true _

theorem Port.pr_resetAsked (q : Port) : q.resetAsked.pr = true := by
  unfold Port.resetAsked
  split
  · assumption
  · rfl

/-- The end of a port reset overwrites what its begin has set (43_ports R283, R284). -/
theorem Port.resetDone_resetBegun (q : Port) : q.resetBegun.resetDone = q.resetDone := rfl

/-- The poll that ends a port reset (43_ports R275). -/
abbrev awaitPortReset (b : BitPos) (p : PortIx) : Proc Unit :=
  pollOrFail .op (portOffset p) (mask1 b.portscPr) 0 .portReset

/-- The host waits at port `p`, which is in reset, while nobody moves. -/
structure State.AwaitsPort (b : BitPos) (p : PortIx) (s : State) : Prop where
  quiet : s.Quiet
  sees : s.SeesPort p
  places : s.cfg.bitpos = b
  reset : (s.ports.get p).pr = true

theorem State.AwaitsPort.read {b : BitPos} {p : PortIx} {s : State} (h : s.AwaitsPort b p)
    (off : Dword) (x : FreeSrc) (n : Nat) :
    (((s.onBus .op off).withFree x).counted n).AwaitsPort b p :=
  ⟨h.quiet, ⟨h.sees.bases, h.sees.bits, h.sees.bound⟩, h.places, h.reset⟩

/-- Port `p`'s register read, and written with PR set. -/
def State.resetAsked (s : State) (p : PortIx) (x : FreeSrc) : State :=
  ((s.onBus .op (portOffset p)).withFree x).withPort p (s.ports.get p).resetAsked

/-- The same with the reset of the port ended behind the write (43_ports R284). -/
def State.portResetEnded (s : State) (p : PortIx) (x : FreeSrc) : State :=
  ((s.onBus .op (portOffset p)).withFree x).withPort p
    (noteChange s (s.ports.get p).resetDone)

section

variable {s t : State} {p : PortIx}

theorem State.port_resetAsked (s : State) (p : PortIx) (x : FreeSrc) :
    (s.resetAsked p x).ports.get p = (s.ports.get p).resetAsked := Tab.get_put_same _ _ _

theorem State.port_portResetEnded (s : State) (p : PortIx) (x : FreeSrc) :
    (s.portResetEnded p x).ports.get p = noteChange s (s.ports.get p).resetDone :=
  Tab.get_put_same _ _ _

/-- Another read of a port's register shows on the bus and in the source of free values only. -/
theorem State.withPort_read (s : State) (p : PortIx) (q : Port) (x y : FreeSrc) :
    ((((s.onBus .op (portOffset p)).withFree x).withPort p q).onBus .op (portOffset p)).withFree y =
      ((s.onBus .op (portOffset p)).withFree y).withPort p q := rfl

/-- PORTSC is read and written where no move falls before either access. -/
theorem run_resetPort (hts : EmptyTurns 2 s.sched.turns) (hs : s.SeesPort p)
    (h1 : s.op.hcrst = false) (h2 : s.op.cnr = false) :
    ∃ x, ExceptT.run (resetPort p) s = ExceptT.run (awaitPortReset s.cfg.bitpos p)
      ((s.resetAsked p x).withTurns (s.sched.turns.drop 2)) := by
  obtain ⟨hb, hd, hp⟩ := hs
  obtain ⟨-, -, -, -, -, -, ⟨-, -, hlt, -⟩, -⟩ := id hd
  obtain ⟨v, x, -, hread⟩ := regRead32_portsc (s := s.withTurns []) (gap_quiet rfl) ⟨hb, hd, hp⟩
  have hwrite : regWrite32 .op (portOffset p) (v ||| mask1 s.cfg.bitpos.portscPr)
      (((s.withTurns []).onBus .op (portOffset p)).withFree x) =
        .ok ((), (s.resetAsked p x).withTurns []) := by
    refine (regWrite32_portsc_pr (t := ((s.withTurns []).onBus .op (portOffset p)).withFree x)
      (gap_quiet rfl) ⟨hb, hd, hp⟩ h1 h2 (getLsbD_or_mask1 hlt v)).trans
      (congrArg (fun t => Except.ok ((), t)) ?_)
    cases s
    rfl
  have hupdate := (regUpdate32_takes .op (portOffset p)
    (· ||| mask1 s.cfg.bitpos.portscPr)).run hts ((regUpdate32_of_read hread _).trans hwrite)
  rw [State.withTurns_withTurns] at hupdate
  obtain ⟨w, u, hread', hwrite'⟩ := Act.bind_eq_ok.1 hupdate
  refine ⟨x, ?_⟩
  unfold resetPort
  exact (Proc.get_bind _ s).trans ((Proc.bind_ok (Proc.lift_ok hread')).trans
    (Proc.bind_ok (Proc.lift_ok hwrite')))

/-! ### A port reset that does not end -/

/-- A port stays in reset while nobody moves: the poll makes all its reads (43_ports R277). -/
theorem run_awaitPortReset_stuck (hs : s.AwaitsPort s.cfg.bitpos p) :
    ∃ x, ExceptT.run (awaitPortReset s.cfg.bitpos p) s = .ok (.error (.timeout .portReset),
      ((s.onBus .op (portOffset p)).withFree x).counted 1000) := by
  have hread (u : State) (hu : u.AwaitsPort s.cfg.bitpos p) : ∃ v t,
      v &&& mask1 s.cfg.bitpos.portscPr ≠ 0 ∧
      regRead32 .op (portOffset p) u = .ok (v, t) ∧
      (t.counted (t.host.pollCount + 1)).AwaitsPort s.cfg.bitpos p := by
    obtain ⟨v, x, hv, h⟩ := regRead32_portsc (gap_quiet hu.quiet) hu.sees
    refine ⟨v, _, fun e => Bool.false_ne_true ?_, h, hu.read _ x _⟩
    rw [← hu.places] at e
    exact ((hv.and_pr_eq_zero_iff hu.sees.bits).1 e).symm.trans hu.reset
  have hs0 : (s.counted 0).AwaitsPort s.cfg.bitpos p :=
    ⟨hs.quiet, ⟨hs.sees.bases, hs.sees.bits, hs.sees.bound⟩, rfl, hs.reset⟩
  obtain ⟨w, u, htimeout⟩ := pollReads_timeout (fun _ hu => gap_quiet hu.quiet) hread pollBudget
    (s.counted 0) 0 hs0
  obtain ⟨v, x, k, -, -, hk, hpoll⟩ := regPoll_quiet (b := .op)
    (mask := mask1 s.cfg.bitpos.portscPr) (want := 0) hs.quiet hs.sees.bases
    (decodeAccess_portOffset hs.sees.bound none) nofun
  have hne : v &&& mask1 s.cfg.bitpos.portscPr ≠ 0 := by
    intro hv
    rw [if_pos hv] at hpoll
    cases hpoll.symm.trans htimeout
  rw [if_neg hne, hk hne] at hpoll
  exact ⟨x, pollOrFail_timeout hpoll⟩

theorem exec_resetPort_timeout (hq : s.Quiet) (hs : s.SeesPort p) (h1 : s.op.hcrst = false)
    (h2 : s.op.cnr = false) : ∃ x, exec (.resetPort p) s =
      .next (((s.resetAsked p x).counted 1000).withResult (.failure (.timeout .portReset))) := by
  obtain ⟨x, hask⟩ := run_resetPort (by rw [hq]; exact emptyTurns_nil 2) hs h1 h2
  have hx : (s.resetAsked p x).Quiet := hq
  rw [hq, List.drop_nil, State.withTurns_nil hx] at hask
  have hpr : ((s.resetAsked p x).ports.get p).pr = true := by
    rw [State.port_resetAsked]
    exact Port.pr_resetAsked _
  obtain ⟨y, hstuck⟩ :=
    run_awaitPortReset_stuck ⟨hx, ⟨hs.bases, hs.bits, hs.bound⟩, rfl, hpr⟩
  rw [State.resetAsked, State.withPort_read] at hstuck
  exact ⟨y, Act.run_of_ok (concluding_fails (hask.trans hstuck))⟩

/-! ### A port reset that ends -/

/-- The port is out of reset once the moves before the first read are made. -/
theorem run_awaitPortReset (hg : gap (s.counted 0) = .ok ((), t)) (ht : t.SeesPort p)
    (hc : t.host.pollCount = 0) (hpr : (t.ports.get p).pr = false) :
    ∃ x, ExceptT.run (awaitPortReset t.cfg.bitpos p) s =
      .ok (.ok (), ((t.onBus .op (portOffset p)).withFree x).counted 1) := by
  obtain ⟨v, x, hv, hread⟩ := regRead32_portsc hg ht
  exact ⟨x, pollOrFail_success (regPoll_first hread ((hv.and_pr_eq_zero_iff ht.bits).2 hpr) hc)⟩

/-- The end of a port reset falls before the access (43_ports R284). -/
theorem gap_portResetComplete {r : List (List CtlMove)}
    (h : s.sched.turns = [.portResetComplete p] :: r) (hon : s.portResetOn p = true) :
    gap s = .ok ((), (s.withPort p (noteChange s (s.ports.get p).resetDone)).withTurns r) := by
  refine gap_single h (congrArg (fun t => Except.ok ((), t)) ?_)
  exact if_pos hon

/-- The read that ends a poll, with turns to come. -/
theorem State.read_polling (s : State) (ts : List (List CtlMove)) (b : RegBlock) (off : Dword)
    (x : FreeSrc) : ((((s.counted 0).withTurns ts).onBus b off).withFree x).counted 1 =
      (((s.onBus b off).withFree x).counted 1).withTurns ts := by
  cases b <;> rfl

/-- A port written while a poll begins, with turns to come. -/
theorem State.withPort_polling (s : State) (ts us : List (List CtlMove)) (n : Nat) (p : PortIx)
    (q : Port) : (((s.withTurns ts).counted n).withPort p q).withTurns us =
      ((s.withPort p q).counted n).withTurns us := rfl

/-- Whether a change is noted depends on the controller's run and its event ring (43_ports R286). -/
theorem noteChange_resetAsked (s : State) (p : PortIx) (x : FreeSrc) (ts : List (List CtlMove))
    (n : Nat) (q : Port) :
    noteChange (((s.resetAsked p x).withTurns ts).counted n) q = noteChange s q := by
  cases s
  rfl

/-- The reset that was asked for ends before the poll's first read. -/
theorem gap_resetAsked {rest : List (List CtlMove)} (hp : p.toNat < s.cfg.maxPorts.toNat)
    (h1 : s.op.hcrst = false) (h2 : s.op.cnr = false) (hpr : (s.ports.get p).pr = false)
    (x : FreeSrc) :
    gap (((s.resetAsked p x).withTurns ([.portResetComplete p] :: rest)).counted 0) =
      .ok ((), ((s.portResetEnded p x).counted 0).withTurns rest) := by
  have hbegun : (s.ports.get p).resetAsked = (s.ports.get p).resetBegun :=
    if_neg (by rw [hpr]; exact Bool.false_ne_true)
  have hport := s.port_resetAsked p x
  rw [hbegun] at hport
  have hon : (s.resetAsked p x).portResetOn p = true := by
    unfold State.portResetOn
    rw [hport, Bool.and_eq_true, Bool.and_eq_true]
    exact ⟨⟨(State.hasPort_iff _).2 hp, OpRegs.ready_iff.2 ⟨h1, h2⟩⟩, rfl⟩
  have hgap := gap_portResetComplete (s := ((s.resetAsked p x).withTurns
    ([.portResetComplete p] :: rest)).counted 0) rfl hon
  have hends : (((s.resetAsked p x).withTurns
      ([CtlMove.portResetComplete p] :: rest)).counted 0).ports.get p =
      (s.ports.get p).resetBegun := hport
  rw [noteChange_resetAsked, State.withPort_polling, hends, Port.resetDone_resetBegun] at hgap
  refine hgap.trans ?_
  exact congrArg (fun t => Except.ok ((), (t.counted 0).withTurns rest))
    (State.withPort_withPort _ p _ _)

theorem exec_resetPort_success {rest : List (List CtlMove)} (hs : s.SeesPort p)
    (h1 : s.op.hcrst = false) (h2 : s.op.cnr = false) (hpr : (s.ports.get p).pr = false)
    (hts : s.sched.turns = [] :: [] :: [.portResetComplete p] :: rest) :
    ∃ x, exec (.resetPort p) s =
      .next ((((s.portResetEnded p x).counted 1).withTurns rest).withResult .success) := by
  obtain ⟨x, hask⟩ := run_resetPort (by rw [hts]; exact emptyTurns_replicate 2 _) hs h1 h2
  rw [hts] at hask
  have hidle : ((s.portResetEnded p x).ports.get p).pr = false := by
    rw [State.port_portResetEnded]
    rfl
  obtain ⟨y, hend⟩ := run_awaitPortReset (gap_resetAsked (rest := rest) hs.bound h1 h2 hpr x)
    ⟨hs.bases, hs.bits, hs.bound⟩ rfl hidle
  rw [State.read_polling, State.portResetEnded, State.withPort_read] at hend
  exact ⟨y, Act.run_of_ok (concluding_ok (hask.trans hend))⟩

end

/-- Settles O57: the probe port by port; a reset asked for, and the poll with the move that ends it
or with none. -/
theorem portProcedures : Obligations.PortProcedures := by
  intro s p rest hb hd
  refine ⟨fun hq hmax => ?_, fun hp h1 h2 => ⟨fun hq => ?_, fun hpr hts => ?_⟩⟩
  · obtain ⟨x, hprobe⟩ := exec_probePorts hq hb hd hmax
    rw [State.probed_zero] at hprobe
    refine ⟨x, _, ?_, fun i hi => s.getElem?_reports hi, hprobe⟩
    unfold State.reports
    rw [List.length_map, List.length_range']
  · exact exec_resetPort_timeout hq ⟨hb, hd, hp⟩ h1 h2
  · rw [← State.eventsOn_eq]
    exact exec_resetPort_success ⟨hb, hd, hp⟩ h1 h2 hpr hts

end Sys2Proof.Machine
end

section
/-! Proofs of the commands family (44_commands), the controller's side: the commands the engine
executes, and those it refuses. -/

namespace Sys2Proof.Machine

open Config

/-! ### A command's effect and its completion -/

/-- A command whose execution leads to the effect `u`, with the engine passed, is retired there with
its completion; the event lies where the effect allows it (20_memory R96). -/
theorem run_consumeCommand {s u : State} {cycle : Bool} {m : Act Completion} {code : BitVec 8}
    {k : SlotId} (h : s.commandReady cycle) (hm : m s.cmdPassed = .ok ((code, k), u.cmdPassed))
    (hcfg : u.cfg = s.cfg) (hcr : u.cr = s.cr) (her : u.er = s.er) (ho : u.eventAllowed) :
    (consumeCommand cycle m).run s = .next (u.completed code k) := by
  have hroom : u.cmdPassed.ctlRefusal s.eventAddr 16 = none := by
    rw [u.ctlRefusal_cmdPassed, State.eventAddr, ← her]
    exact ho
  rw [Act.run_of_ok (consumeCommand_ok h hm her hroom), ← hcfg, ← hcr]
  rfl

theorem run_consumeCommand_error {s : State} {cycle : Bool} {m : Act Completion} {r : Refusal}
    (h : s.commandReady cycle) (hm : m s.cmdPassed = .error r) :
    (consumeCommand cycle m).run s = .refused r :=
  Act.run_of_error (consumeCommand_error h hm)

/-- A command with no effect of its own is retired with its code. -/
theorem run_consumeCommand_stay {s : State} {cycle : Bool} {m : Act Completion} {code : BitVec 8}
    {k : SlotId} (h : s.commandReady cycle) (hm : m s.cmdPassed = .ok ((code, k), s.cmdPassed)) :
    (consumeCommand cycle m).run s = .next (s.completed code k) := by
  obtain ⟨-, -, -, -, -, hallow⟩ := id h
  exact run_consumeCommand h hm rfl rfl rfl hallow

/-! ### No-Op, unknown and refused types -/

theorem exec_cmdOther_ready {s : State} {t : Trb} (h : s.commandReady t.cycle) :
    exec (.cmdOther t) s = .next (s.completed s.cfg.cc.trbError 0) :=
  run_consumeCommand_stay h rfl

/-- Settles O36: either command leaves the state as it is and answers slot id 0. -/
theorem noopAndOtherCommands : Obligations.NoopAndOtherCommands := by
  intro s cycle t h
  refine ⟨exec_cmdNoop_ready h, ?_⟩
  rintro rfl
  exact exec_cmdOther_ready h

/-- Settles O41: each of these arms is its refusal, whatever the engines' state (log 18). -/
theorem namedRefusals : Obligations.NamedRefusals := by
  intro s n a ep c t
  exact ⟨rfl, rfl, rfl, rfl, rfl, rfl, rfl, rfl, rfl, rfl, rfl⟩

/-! ### Draws -/

/-- Every member of a list that a dword can index may be the one drawn. -/
theorem exists_pick {α : Type} {l : List α} {a : α} (d : α) (ha : a ∈ l)
    (hl : l.length ≤ 2 ^ 32) : ∃ w : Dword, pick l d w = a := by
  obtain ⟨k, hk, rfl⟩ := List.mem_iff_getElem.1 ha
  refine ⟨BitVec.ofNat 32 k, ?_⟩
  have hindex : (BitVec.ofNat 32 k).toNat % l.length = k := by
    rw [BitVec.toNat_ofNat, Nat.mod_eq_of_lt (by omega : k < 2 ^ 32), Nat.mod_eq_of_lt hk]
  rw [pick, hindex, List.getD_eq_getElem _ _ hk]

/-- A draw takes the head of the tape. -/
theorem drawDword_tape {s : State} {w : Dword} {r : List Dword} {c : Nat}
    (h : s.free = ⟨w :: r, c⟩) : drawDword s = .ok (w, s.withFree ⟨r, c⟩) := by
  unfold drawDword
  rw [h]

theorem drawSetAddress_answered {s : State} {b : Bool} {r : List Bool} (enabled : Bool)
    (h : s.env.setAddress = b :: r) : drawSetAddress enabled s =
      .ok (enabled && b, s.withEnv { s.env with setAddress := r }) := by
  unfold drawSetAddress
  rw [h]

/-! ### Enable Slot -/

theorem State.length_freeSlotIds (s : State) : s.freeSlotIds.length ≤ 2 ^ 32 := by
  have hfilter : s.freeSlotIds.length ≤ s.op.maxSlotsEn.toNat := by
    refine (List.length_filter_le _ _).trans ?_
    rw [List.length_map, List.length_range]
  have := s.op.maxSlotsEn.isLt
  omega

/-- Enable Slot once its draw is made. -/
theorem exec_cmdEnableSlot_drawn {s : State} {cycle : Bool} {v : Dword} {x : FreeSrc}
    (h : s.commandReady cycle) (hne : s.freeSlotIds ≠ [])
    (hd : drawDword s.cmdPassed = .ok (v, s.cmdPassed.withFree x)) :
    exec (.cmdEnableSlot cycle) s = .next (((s.withFree x).withSlot (pick s.freeSlotIds 0 v)
      { s.slots.get (pick s.freeSlotIds 0 v) with state := .enabled }).completed
      s.cfg.cc.success (pick s.freeSlotIds 0 v)) := by
  obtain ⟨-, -, -, -, -, hallow⟩ := id h
  exact run_consumeCommand h (executeEnableSlot_some (s := s.cmdPassed) hne hd) rfl rfl rfl hallow

/-- Settles O37: the ids Enable Slot draws from, and the draw that takes a given one of them. -/
theorem enableSlotCommand : Obligations.EnableSlotCommand := by
  intro s cycle h
  refine ⟨fun hnone => ?_, ?_, fun i h1 h2 hi => ?_⟩
  · have hempty : s.freeSlotIds = [] := by
      refine List.eq_nil_iff_forall_not_mem.2 fun i hi => ?_
      obtain ⟨h1, h2, hdisabled⟩ := State.mem_freeSlotIds.1 hi
      exact hnone i h1 h2 hdisabled
    exact run_consumeCommand_stay h (executeEnableSlot_none (s := s.cmdPassed) hempty)
  · rintro ⟨i, hi⟩
    have hne : s.freeSlotIds ≠ [] := List.ne_nil_of_mem (State.mem_freeSlotIds.2 hi)
    obtain ⟨v, x, hd⟩ := drawDword_ok s.cmdPassed
    obtain ⟨h1, h2, hdisabled⟩ := State.mem_freeSlotIds.1 (pick_mem (d := 0) (v := v) hne)
    exact ⟨_, x, h1, h2, hdisabled, exec_cmdEnableSlot_drawn h hne hd⟩
  · have hmem : i ∈ s.freeSlotIds := State.mem_freeSlotIds.2 ⟨h1, h2, hi⟩
    obtain ⟨w, hw⟩ := exists_pick 0 hmem s.length_freeSlotIds
    refine ⟨w, fun r => ?_⟩
    have hdrawn := exec_cmdEnableSlot_drawn (s := s.withFree ⟨w :: r, s.free.count⟩) h
      (List.ne_nil_of_mem hmem) (drawDword_tape rfl)
    have hpick : pick (s.withFree ⟨w :: r, s.free.count⟩).freeSlotIds 0 w = i := hw
    rw [hpick] at hdrawn
    exact hdrawn

/-! ### Address Device, as far as it fails -/

/-- The input control context at `ic`, as Address Device reads it (44_commands R310). -/
def State.controlCtx (s : State) (ic : Addr) : List Byte :=
  (s.mem.readBytes ic (3 * s.cfg.ctxSize)).take s.cfg.ctxSize

/-- The slot context of the input context at `ic`. -/
def State.slotCtx (s : State) (ic : Addr) : List Byte :=
  ((s.mem.readBytes ic (3 * s.cfg.ctxSize)).drop s.cfg.ctxSize).take s.cfg.ctxSize

/-- The endpoint-0 context of the input context at `ic`. -/
def State.ep0Ctx (s : State) (ic : Addr) : List Byte :=
  (s.mem.readBytes ic (3 * s.cfg.ctxSize)).drop (2 * s.cfg.ctxSize)

theorem State.length_slotCtx_add_ep0Ctx (s : State) (ic : Addr) :
    (s.slotCtx ic).length + (s.ep0Ctx ic).length = 2 * s.cfg.ctxSize := by
  unfold State.slotCtx State.ep0Ctx
  rw [List.length_take, List.length_drop, List.length_drop, Memory.length_readBytes]
  omega

section

variable {s t : State} {n : SlotId} {ic : Addr}

theorem addressDeviceEarlyError_range (h : n = 0 ∨ s.op.maxSlotsEn.toNat < n.toNat) :
    addressDeviceEarlyError s n = some s.cfg.cc.trbError := if_pos h

/-- The error of a slot that is not Enabled (44_commands R319). -/
def slotStateError (c : Params) : SlotState → Option (BitVec 8)
  | .disabled => some c.cc.slotNotEnabled
  | .addressed => some c.cc.contextStateError
  | .enabled => none

/-- Within CONFIG's range the slot's state decides. -/
theorem addressDeviceEarlyError_state (h0 : n ≠ 0) (hn : n.toNat ≤ s.op.maxSlotsEn.toNat) :
    addressDeviceEarlyError s n = slotStateError s.cfg (s.slots.get n).state := by
  have hin : ¬ (n = 0 ∨ s.op.maxSlotsEn.toNat < n.toNat) := by
    rintro (h | h)
    · exact h0 h
    · omega
  unfold addressDeviceEarlyError
  rw [if_neg hin]
  cases (s.slots.get n).state <;> rfl

theorem executeAddressDevice_early {code : BitVec 8}
    (h : addressDeviceEarlyError s n = some code) :
    executeAddressDevice n ic s = .ok ((code, n), s) := by
  unfold executeAddressDevice
  rw [Act.get_bind, h]
  rfl

theorem require_error {c : Bool} (h : c = false) (r : Refusal) (s : State) :
    require c r s = .error r := by
  rw [h, require_false]

theorem executeAddressDevice_misaligned (he : addressDeviceEarlyError s n = none)
    (h : ic.extractLsb' 0 6 ≠ 0) : executeAddressDevice n ic s = .error .misalignedPointer := by
  unfold executeAddressDevice
  rw [Act.get_bind, he]
  exact Act.bind_error
    (require_error ((and_low_beq 6 ic (by norm_num)).trans (decide_eq_false h)) _ s)

theorem executeAddressDevice_badEntry (he : addressDeviceEarlyError s n = none)
    (hic : ic.extractLsb' 0 6 = 0) (h : s.mem.read64 (dcbaaEntry s.op.dcbaap n) = 0 ∨
      (s.mem.read64 (dcbaaEntry s.op.dcbaap n)).extractLsb' 0 6 ≠ 0) :
    executeAddressDevice n ic s = .error .badDeviceContext := by
  have haligned : require (ic &&& 0x3F#64 == 0) .misalignedPointer s = .ok ((), s) :=
    require_eq_ok.2 ⟨(and_low_beq 6 ic (by norm_num)).trans (decide_eq_true hic), rfl⟩
  have hbad : (s.mem.read64 (dcbaaEntry s.op.dcbaap n) != 0 &&
      s.mem.read64 (dcbaaEntry s.op.dcbaap n) &&& 0x3F#64 == 0) = false := by
    rw [Bool.and_eq_false_iff]
    rcases h with h | h
    · exact .inl (by rw [h]; rfl)
    · exact .inr ((and_low_beq 6 _ (by norm_num)).trans (decide_eq_false h))
  unfold executeAddressDevice
  rw [Act.get_bind, he]
  exact (Act.bind_ok haligned).trans (Act.bind_error (require_error hbad _ s))

/-- What Address Device reads does not change while the engine passes its TRB. -/
theorem AddressDeviceReads.cmdPassed (h : AddressDeviceReads s n ic) :
    AddressDeviceReads s.cmdPassed n ic := ⟨h.early, h.icAligned, h.entry, h.entryAligned⟩

theorem addressDeviceRest_noAdds (h : addsBoth s.cfg.ctx (s.controlCtx ic) = false) :
    addressDeviceRest s n ic s = .ok ((s.cfg.cc.parameterError, n), s) := by
  have hskip : (!addsBoth s.cfg.ctx (s.controlCtx ic)) = true := by rw [h]; rfl
  exact congrFun (if_pos hskip) s

/-- The rest of Address Device with both add marks set: it asks the device. -/
def addressDeviceAsk (s : State) (n : SlotId) (ic : Addr) (ok : Bool) : Act Completion :=
  if !ok then pure (s.cfg.cc.usbTransactionError, n)
  else match s.freeAddresses n with
    | [] => pure (s.cfg.cc.usbTransactionError, n)
    | l => do
      let v ← drawDword
      installDevice n (s.mem.read64 (dcbaaEntry s.op.dcbaap n)) (pick l 0 v) (s.slotCtx ic)
        (s.ep0Ctx ic)
      pure (s.cfg.cc.success, n)

theorem addressDeviceRest_asks {ok : Bool} (h : addsBoth s.cfg.ctx (s.controlCtx ic) = true)
    (hd : drawSetAddress (namedPortEnabled s (s.slotCtx ic)) s = .ok (ok, t)) :
    addressDeviceRest s n ic s = addressDeviceAsk s n ic ok t := by
  have hgo : ¬ (!addsBoth s.cfg.ctx (s.controlCtx ic)) = true := by rw [h]; decide
  exact (congrFun (if_neg hgo) s).trans (Act.bind_ok hd)

theorem addressDeviceAsk_noAddress (h : s.freeAddresses n = []) :
    addressDeviceAsk s n ic true t = .ok ((s.cfg.cc.usbTransactionError, n), t) := by
  unfold addressDeviceAsk
  rw [if_neg (by decide), h]
  rfl

theorem addressDeviceAsk_address (h : s.freeAddresses n ≠ []) {v : Dword} {x : FreeSrc}
    (hd : drawDword t = .ok (v, t.withFree x)) : addressDeviceAsk s n ic true t =
      (installDevice n (s.mem.read64 (dcbaaEntry s.op.dcbaap n)) (pick (s.freeAddresses n) 0 v)
        (s.slotCtx ic) (s.ep0Ctx ic) >>= fun _ => pure (s.cfg.cc.success, n)) (t.withFree x) := by
  unfold addressDeviceAsk
  rw [if_neg (by decide)]
  cases hl : s.freeAddresses n with
  | nil => exact absurd hl h
  | cons a l => exact Act.bind_ok hd

theorem installDevice_misaligned {dc : Addr} {a : BitVec 7} {sctx ectx : List Byte}
    (h : (ctxRingPointer s.cfg.ctx ectx).extractLsb' 0 12 ≠ 0) :
    installDevice n dc a sctx ectx s = .error .misalignedPointer := by
  unfold installDevice
  rw [Act.get_bind]
  exact Act.bind_error
    (require_error ((and_low_beq 12 _ (by norm_num)).trans (decide_eq_false h)) _ s)

theorem State.freeAddresses_eq_nil_iff : s.freeAddresses n = [] ↔ ¬ ∃ a : BitVec 7,
    a ≠ 0 ∧ ∀ j, j ≠ n → s.isAddressed j = true → (s.slots.get j).addr ≠ a := by
  simp only [List.eq_nil_iff_forall_not_mem, State.mem_freeAddresses, not_exists]

/-- Address Device up to the device's answer, in the engine. -/
theorem executeAddressDevice_asks {b : Bool} {r : List Bool} (h : AddressDeviceReads s n ic)
    (hadds : addsBoth s.cfg.ctx (s.controlCtx ic) = true) (henv : s.env.setAddress = b :: r) :
    executeAddressDevice n ic s.cmdPassed = addressDeviceAsk s n ic
      (namedPortEnabled s (s.slotCtx ic) && b)
      (s.withEnv { s.env with setAddress := r }).cmdPassed :=
  (executeAddressDevice_reads h.cmdPassed).trans
    (addressDeviceRest_asks (s := s.cmdPassed) hadds (drawSetAddress_answered _ henv))

end

/-- Settles O38: the errors in the order of R319, each where the checks before it pass. -/
theorem addressDeviceFailures : Obligations.AddressDeviceFailures := by
  intro s n ic cycle h
  have early : ∀ code, addressDeviceEarlyError s n = some code →
      exec (.cmdAddressDevice n ic cycle) s = .next (s.completed code n) := fun code he =>
    run_consumeCommand_stay h (executeAddressDevice_early (s := s.cmdPassed) he)
  have refused : ∀ r, executeAddressDevice n ic s.cmdPassed = .error r →
      exec (.cmdAddressDevice n ic cycle) s = .refused r := fun r hr =>
    run_consumeCommand_error h hr
  refine ⟨fun hn => early _ (addressDeviceEarlyError_range hn), fun h0 hn => ?_⟩
  have hstate := addressDeviceEarlyError_state h0 hn
  refine ⟨fun hs => early _ (hstate.trans (congrArg _ hs)),
    fun hs => early _ (hstate.trans (congrArg _ hs)), fun hs => ?_⟩
  replace hstate : addressDeviceEarlyError s n = none := hstate.trans (congrArg _ hs)
  intro dc c ctx
  refine ⟨fun hic => refused _ (executeAddressDevice_misaligned (s := s.cmdPassed) hstate hic),
    fun hic hdc => refused _ (executeAddressDevice_badEntry (s := s.cmdPassed) hstate hic hdc),
    fun hic hdc hdca => ?_⟩
  have hreads : AddressDeviceReads s n ic := ⟨hstate, hic, hdc, hdca⟩
  have failed : ∀ r, executeAddressDevice n ic s.cmdPassed = .ok
      ((s.cfg.cc.usbTransactionError, n), (s.withEnv { s.env with setAddress := r }).cmdPassed) →
      exec (.cmdAddressDevice n ic cycle) s = .next ((s.withEnv
        { s.env with setAddress := r }).completed s.cfg.cc.usbTransactionError n) := by
    obtain ⟨-, -, -, -, -, hallow⟩ := id h
    exact fun r hr => run_consumeCommand h hr rfl rfl rfl hallow
  refine ⟨fun hadds => ?_, fun hadds b r henv hno => ?_, fun hadds r henv hport => ?_⟩
  · exact run_consumeCommand_stay h ((executeAddressDevice_reads hreads.cmdPassed).trans
      (addressDeviceRest_noAdds (s := s.cmdPassed) hadds))
  · have hanswer : (namedPortEnabled s (s.slotCtx ic) && b) = false := Bool.and_eq_false_iff.2 hno
    refine failed r ((executeAddressDevice_asks hreads hadds henv).trans ?_)
    rw [hanswer]
    rfl
  · have hasks := executeAddressDevice_asks hreads hadds henv
    rw [show namedPortEnabled s (s.slotCtx ic) = true from hport, Bool.true_and] at hasks
    refine ⟨fun hnone => failed r (hasks.trans (addressDeviceAsk_noAddress
      (State.freeAddresses_eq_nil_iff.2 hnone))), fun hsome hring => refused _ (hasks.trans ?_)⟩
    obtain ⟨v, x, hd⟩ := drawDword_ok (s.withEnv { s.env with setAddress := r }).cmdPassed
    have hne : s.freeAddresses n ≠ [] := fun e => State.freeAddresses_eq_nil_iff.1 e hsome
    exact (addressDeviceAsk_address hne hd).trans
      (Act.bind_error (installDevice_misaligned (s := State.withFree _ x) hring))

/-! ### Address Device, as it succeeds -/

theorem State.length_freeAddresses (s : State) (n : SlotId) :
    (s.freeAddresses n).length ≤ 2 ^ 32 := by
  have hfilter : (s.freeAddresses n).length ≤ 127 := by
    refine (List.length_filter_le _ _).trans ?_
    rw [List.length_map, List.length_range]
  omega

/-- The device context `bs` stored at `dc`, the slot addressed, its engine at `ring` (44_commands
R310, R313, R315). -/
def State.withDevice (s : State) (n : SlotId) (dc : Addr) (a : BitVec 7) (bs : List Byte)
    (ring : XferRing) : State :=
  ((s.withMem (s.mem.writeBytes dc bs)).withSlot n ⟨.addressed, a, dc⟩).withXfer n (some ring)

theorem State.cmdPassed_withDevice (s : State) (n : SlotId) (dc : Addr) (a : BitVec 7)
    (bs : List Byte) (ring : XferRing) :
    (s.withDevice n dc a bs ring).cmdPassed = s.cmdPassed.withDevice n dc a bs ring := by
  cases s
  rfl

/-- The device context Address Device writes back for address `a`. -/
def State.addressedCtx (s : State) (ic : Addr) (a : BitVec 7) : List Byte :=
  addressedSlotCtx s.cfg.ctx a (s.slotCtx ic) ++ runningEpCtx s.cfg.ctx (s.ep0Ctx ic)

/-- The effect of an Address Device that takes address `a`, with ENV's answer and the draw taken. -/
def State.deviceAddressed (s : State) (n : SlotId) (ic : Addr) (a : BitVec 7) (left : List Bool)
    (x : FreeSrc) (ring : XferRing) : State :=
  ((s.withEnv { s.env with setAddress := left }).withFree x).withDevice n
    (s.mem.read64 (dcbaaEntry s.op.dcbaap n)) a (s.addressedCtx ic a) ring

theorem State.engines_deviceAddressed (s : State) (n : SlotId) (ic : Addr) (a : BitVec 7)
    (left : List Bool) (x : FreeSrc) (ring : XferRing) :
    (s.deviceAddressed n ic a left x ring).cfg = s.cfg ∧
    (s.deviceAddressed n ic a left x ring).cr = s.cr ∧
    (s.deviceAddressed n ic a left x ring).er = s.er := by
  simp [State.deviceAddressed, State.withDevice]

/-- The engine's ring as the endpoint-0 context of the input context names it (44_commands R313). -/
def State.namedRing (s : State) (ic : Addr) : XferRing :=
  ⟨ctxRingPointer s.cfg.ctx (s.ep0Ctx ic), 0,
    (ctxDequeue s.cfg.ctx (s.ep0Ctx ic)).getLsbD s.cfg.ctx.dcsBit, false⟩

/-- What Address Device needs once its reads are made, to succeed. -/
structure AddressDeviceGoes (s : State) (n : SlotId) (ic : Addr) (left : List Bool) : Prop where
  reads : AddressDeviceReads s n ic
  adds : addsBoth s.cfg.ctx (s.controlCtx ic) = true
  port : namedPortEnabled s (s.slotCtx ic) = true
  answer : s.env.setAddress = true :: left
  ringAligned : (ctxRingPointer s.cfg.ctx (s.ep0Ctx ic)).extractLsb' 0 12 = 0
  allowed : s.ctlRefusal (s.mem.read64 (dcbaaEntry s.op.dcbaap n)) (2 * s.cfg.ctxSize) = none
  event : (s.withXfer n (some (s.namedRing ic))).eventAllowed

/-- The host's structures are those of the platform and of what the registers and the engines
name. -/
theorem State.hostBlocks_congr {s t : State} (hcfg : t.cfg = s.cfg) (hop : t.op = s.op)
    (hintr : t.intr = s.intr) (hcr : t.cr = s.cr) (her : t.er = s.er) (htr : t.tr = s.tr)
    (hplat : t.plat = s.plat) : t.hostBlocks = s.hostBlocks := by
  unfold State.hostBlocks State.namedTables
  rw [hcfg, hop, hintr, hcr, her, htr, hplat]

/-- The event's slot is judged after the effect as it is once the ring is loaded. -/
theorem State.eventAllowed_deviceAddressed {s : State} {n : SlotId} {ic : Addr} (a : BitVec 7)
    (left : List Bool) (x : FreeSrc) {ring : XferRing}
    (h : (s.withXfer n (some ring)).eventAllowed) :
    (s.deviceAddressed n ic a left x ring).eventAllowed := by
  have hblocks : (s.deviceAddressed n ic a left x ring).hostBlocks =
      (s.withXfer n (some ring)).hostBlocks := by
    refine State.hostBlocks_congr ?_ ?_ ?_ ?_ ?_ ?_ ?_ <;>
      simp [State.deviceAddressed, State.withDevice]
  have haddr : (s.deviceAddressed n ic a left x ring).eventAddr =
      (s.withXfer n (some ring)).eventAddr := by
    simp [State.deviceAddressed, State.withDevice, State.eventAddr]
  unfold State.eventAllowed at h ⊢
  rw [haddr, ← h]
  exact State.ctlRefusal_congr (by simp [State.deviceAddressed, State.withDevice]) hblocks
    (by simp [State.deviceAddressed, State.withDevice])
    (by simp [State.deviceAddressed, State.withDevice]) _ _

/-- Address Device with a given draw of the address. -/
theorem exec_cmdAddressDevice_drawn {s : State} {n : SlotId} {ic : Addr} {cycle : Bool}
    {left : List Bool} (h : s.commandReady cycle) (hg : AddressDeviceGoes s n ic left)
    (hne : s.freeAddresses n ≠ []) {v : Dword} {x : FreeSrc}
    (hd : drawDword (s.withEnv { s.env with setAddress := left }).cmdPassed =
      .ok (v, (s.withEnv { s.env with setAddress := left }).cmdPassed.withFree x)) :
    exec (.cmdAddressDevice n ic cycle) s = .next ((s.deviceAddressed n ic
      (pick (s.freeAddresses n) 0 v) left x (s.namedRing ic)).completed s.cfg.cc.success n) := by
  obtain ⟨hreads, hadds, hport, hanswer, hring, hallowed, hevent⟩ := hg
  have hasks := executeAddressDevice_asks hreads hadds hanswer
  rw [hport, Bool.true_and] at hasks
  have hstore : State.ctlRefusal
      ((s.withEnv { s.env with setAddress := left }).cmdPassed.withFree x)
      (s.mem.read64 (dcbaaEntry s.op.dcbaap n))
      ((s.slotCtx ic).length + (s.ep0Ctx ic).length) = none := by
    rw [s.length_slotCtx_add_ep0Ctx]
    exact (State.ctlRefusal_congr (s := s.cmdPassed) rfl rfl rfl rfl _ _).trans
      ((s.ctlRefusal_cmdPassed _ _).trans hallowed)
  have hdone := hasks.trans ((addressDeviceAsk_address hne hd).trans
    (Act.bind_ok (installDevice_ok (a := pick (s.freeAddresses n) 0 v) hring hstore)))
  obtain ⟨hcfg, hcr, her⟩ := s.engines_deviceAddressed n ic (pick (s.freeAddresses n) 0 v) left x
    (s.namedRing ic)
  refine run_consumeCommand h (hdone.trans ?_) hcfg hcr her
    (State.eventAllowed_deviceAddressed _ _ _ hevent)
  rw [State.deviceAddressed, State.cmdPassed_withDevice]
  rfl

/-- Settles O39: the addresses Address Device draws from, and the draw that takes a given one. -/
theorem addressDeviceSucceeds : Obligations.AddressDeviceSucceeds := by
  intro s n ic cycle left h h0 hn hs hic dc c l ctx sctx ectx ring free installed hdc hdca hallowed
    hslot hep0 hport hanswer hring hevent
  have hearly : addressDeviceEarlyError s n = none :=
    (addressDeviceEarlyError_state h0 hn).trans (congrArg _ hs)
  have hadds : addsBoth s.cfg.ctx (s.controlCtx ic) = true := by
    rw [addsBoth, Bool.and_eq_true, beq_iff_eq, beq_iff_eq]
    exact ⟨hslot, hep0⟩
  have hgoes : AddressDeviceGoes s n ic left :=
    ⟨⟨hearly, hic, hdc, hdca⟩, hadds, hport, hanswer, hring, hallowed, hevent⟩
  refine ⟨fun hsome => ?_, fun a ha => ?_⟩
  · have hne : s.freeAddresses n ≠ [] := fun e => State.freeAddresses_eq_nil_iff.1 e hsome
    obtain ⟨v, x, hd⟩ := drawDword_ok (s.withEnv { s.env with setAddress := left }).cmdPassed
    exact ⟨_, x, State.mem_freeAddresses.1 (pick_mem hne),
      exec_cmdAddressDevice_drawn h hgoes hne hd⟩
  · have hmem : a ∈ s.freeAddresses n := State.mem_freeAddresses.2 ha
    obtain ⟨w, hw⟩ := exists_pick 0 hmem (s.length_freeAddresses n)
    refine ⟨w, fun r => ?_⟩
    have hdrawn := exec_cmdAddressDevice_drawn (s := s.withFree ⟨w :: r, s.free.count⟩) h
      ⟨⟨hearly, hic, hdc, hdca⟩, hadds, hport, hanswer, hring, hallowed, hevent⟩
      (List.ne_nil_of_mem hmem) (drawDword_tape rfl)
    rw [show pick ((s.withFree ⟨w :: r, s.free.count⟩).freeAddresses n) 0 w = a from hw] at hdrawn
    exact hdrawn

end Sys2Proof.Machine
end

section
/-! Proofs of the commands family (44_commands), the host's completions: what each observer makes of
the last completion or the last transfer. -/

namespace Sys2Proof.Machine

open Config

/-- The host has taken the last completion: its flag is cleared (44_commands R306, R316). -/
def State.completionTaken (s : State) : State := s.withHost
  { s.host with lastCompletion := { s.host.lastCompletion with valid := false } }

/-- The host has taken the last transfer (45_control_transfer R346). -/
def State.transferObserved (s : State) : State := s.withHost
  { s.host with lastTransfer := { s.host.lastTransfer with valid := false } }

/-- The completion's slot id is 0, or has no place in the host's device table (44_commands R306). -/
abbrev State.slotRejected (s : State) : Prop :=
  s.host.lastCompletion.slotId = 0 ∨ s.cfg.devTableSize ≤ s.host.lastCompletion.slotId.toNat

/-- Slot `k`'s device record marked (44_commands R306, R308). -/
def State.slotMarked (s : State) (k : SlotId) (bind : Option PortBinding) : State := s.withHost
  { s.host with dev := s.host.dev.put k ((s.host.dev.get k).enabled k bind) }

section

variable {s : State} {n : SlotId} {bind : Option PortBinding}

/-! ### Enable Slot's completion -/

theorem exec_onEnableSlotCompletion_waiting (hv : s.host.lastCompletion.valid = false) :
    exec (.onEnableSlotCompletion bind) s = .next (s.withResult .waiting) := by
  refine Act.run_of_ok (m := onEnableSlotCompletion bind) ?_
  unfold onEnableSlotCompletion
  rw [Act.get_bind, hv]
  rfl

/-- What the code and the slot id of an Enable Slot's completion decide (44_commands R306). -/
def enableSlotOutcome (s : State) (bind : Option PortBinding) : Act Unit :=
  let k := s.host.lastCompletion.slotId
  if s.host.lastCompletion.code != s.cfg.cc.success then
    answer (.failure (.commandFailed s.host.lastCompletion.code))
  else if s.slotRejected then answer (.failure (.slotIdRejected k))
  else do
    modify (·.slotMarked k bind)
    answer (.slot k)

theorem exec_onEnableSlotCompletion_taken (hv : s.host.lastCompletion.valid = true) :
    exec (.onEnableSlotCompletion bind) s = (enableSlotOutcome s bind).run s.completionTaken := by
  refine Act.run_congr (m := onEnableSlotCompletion bind) ?_
  unfold onEnableSlotCompletion
  rw [Act.get_bind, hv, if_neg (by decide)]
  rfl

theorem exec_onEnableSlotCompletion_failed (hv : s.host.lastCompletion.valid = true)
    (hc : s.host.lastCompletion.code ≠ s.cfg.cc.success) :
    exec (.onEnableSlotCompletion bind) s = .next (s.completionTaken.withResult
      (.failure (.commandFailed s.host.lastCompletion.code))) := by
  rw [exec_onEnableSlotCompletion_taken hv, enableSlotOutcome, if_pos (bne_iff_ne.2 hc)]
  rfl

theorem exec_onEnableSlotCompletion_rejected (hv : s.host.lastCompletion.valid = true)
    (hc : s.host.lastCompletion.code = s.cfg.cc.success) (hk : s.slotRejected) :
    exec (.onEnableSlotCompletion bind) s = .next (s.completionTaken.withResult
      (.failure (.slotIdRejected s.host.lastCompletion.slotId))) := by
  rw [exec_onEnableSlotCompletion_taken hv, enableSlotOutcome, hc, if_neg (by simp), if_pos hk]
  rfl

theorem exec_onEnableSlotCompletion_marked (hv : s.host.lastCompletion.valid = true)
    (hc : s.host.lastCompletion.code = s.cfg.cc.success) (hk : ¬ s.slotRejected) :
    exec (.onEnableSlotCompletion bind) s =
      .next ((s.completionTaken.slotMarked s.host.lastCompletion.slotId bind).withResult
        (.slot s.host.lastCompletion.slotId)) := by
  rw [exec_onEnableSlotCompletion_taken hv, enableSlotOutcome, hc, if_neg (by simp), if_neg hk]
  rfl

/-- The marked record is in use, and every other record as it was. -/
theorem State.inUse_slotMarked (k j : SlotId) (bind : Option PortBinding) :
    ((s.slotMarked k bind).host.dev.get j).inUse =
      if j = k then true else (s.host.dev.get j).inUse := by
  unfold State.slotMarked
  rw [State.host_withHost, Tab.get_put]
  split
  · cases bind <;> rfl
  · rfl

/-- Only a record of the completion's slot is marked in use (44_commands R329). -/
theorem inUse_onEnableSlotCompletion (hv : s.host.lastCompletion.valid = true)
    (hc : s.host.lastCompletion.code = s.cfg.cc.success)
    (hk : (s.slots.get s.host.lastCompletion.slotId).state ≠ .disabled)
    (hs : ∀ j, (s.host.dev.get j).inUse = true → (s.slots.get j).state ≠ .disabled) {t : State}
    (h : exec (.onEnableSlotCompletion bind) s = .next t) (j : SlotId)
    (hj : (t.host.dev.get j).inUse = true) : (t.slots.get j).state ≠ .disabled := by
  by_cases hr : s.slotRejected
  · cases (exec_onEnableSlotCompletion_rejected hv hc hr).symm.trans h
    simp only [State.completionTaken, State.withResult, State.host_withHost,
      State.slots_withHost] at hj ⊢
    exact hs j hj
  · cases (exec_onEnableSlotCompletion_marked hv hc hr).symm.trans h
    rw [State.withResult, State.host_withHost, State.inUse_slotMarked] at hj
    simp only [State.slotMarked, State.completionTaken, State.withResult, State.host_withHost,
      State.slots_withHost] at hj ⊢
    split at hj
    · rename_i he
      rw [he]
      exact hk
    · exact hs j hj

/-! ### Address Device's completion -/

theorem exec_onAddressDeviceCompletion_waiting (hv : s.host.lastCompletion.valid = false) :
    exec (.onAddressDeviceCompletion n) s = .next (s.withResult .waiting) := by
  refine Act.run_of_ok (m := onAddressDeviceCompletion n) ?_
  unfold onAddressDeviceCompletion
  rw [Act.get_bind, hv]
  rfl

theorem State.inTable_iff : s.inTable n = true ↔ n.toNat < s.cfg.devTableSize := decide_eq_true_iff

theorem State.inTable_eq_false : s.inTable n = false ↔ s.cfg.devTableSize ≤ n.toNat := by
  rw [← Bool.not_eq_true, State.inTable_iff, Nat.not_lt]

/-- Where the USB address of slot `n`'s device context stands (44_commands R316). -/
def State.addressPlace (s : State) (n : SlotId) : Addr :=
  (s.host.dev.get n).devCtx + BitVec.ofNat 64 (4 * s.cfg.ctx.usbAddress.dword)

/-- After a success the address is copied from the device context to the record. -/
def copyAddress (s : State) (n : SlotId) : Act Unit := do
  let v ← hostLoad32 (s.addressPlace n)
  setHost fun h => { h with
    dev := h.dev.put n { h.dev.get n with
      address := (s.cfg.ctx.usbAddress.read v).setWidth 7 } }
  answer .success

/-- What the code of an Address Device's completion decides (44_commands R316). -/
def addressDeviceOutcome (s : State) (n : SlotId) : Act Unit :=
  if s.host.lastCompletion.code != s.cfg.cc.success then
    answer (.failure (.commandFailed s.host.lastCompletion.code))
  else if s.inTable n then copyAddress s n
  else answer (.failure (.slotIdRejected n))

theorem exec_onAddressDeviceCompletion_taken (hv : s.host.lastCompletion.valid = true) :
    exec (.onAddressDeviceCompletion n) s =
      (addressDeviceOutcome s n).run s.completionTaken := by
  refine Act.run_congr (m := onAddressDeviceCompletion n) ?_
  unfold onAddressDeviceCompletion
  rw [Act.get_bind, hv, if_neg (by decide)]
  rfl

theorem exec_onAddressDeviceCompletion_failed (hv : s.host.lastCompletion.valid = true)
    (hc : s.host.lastCompletion.code ≠ s.cfg.cc.success) :
    exec (.onAddressDeviceCompletion n) s = .next (s.completionTaken.withResult
      (.failure (.commandFailed s.host.lastCompletion.code))) := by
  rw [exec_onAddressDeviceCompletion_taken hv, addressDeviceOutcome, if_pos (bne_iff_ne.2 hc)]
  rfl

theorem exec_onAddressDeviceCompletion_rejected (hv : s.host.lastCompletion.valid = true)
    (hc : s.host.lastCompletion.code = s.cfg.cc.success) (hn : s.inTable n = false) :
    exec (.onAddressDeviceCompletion n) s =
      .next (s.completionTaken.withResult (.failure (.slotIdRejected n))) := by
  rw [exec_onAddressDeviceCompletion_taken hv, addressDeviceOutcome, hc, if_neg (by simp),
    if_neg (by rw [hn]; decide)]
  rfl

theorem exec_onAddressDeviceCompletion_copies (hv : s.host.lastCompletion.valid = true)
    (hc : s.host.lastCompletion.code = s.cfg.cc.success) (hn : s.inTable n = true) :
    exec (.onAddressDeviceCompletion n) s = (copyAddress s n).run s.completionTaken := by
  rw [exec_onAddressDeviceCompletion_taken hv, addressDeviceOutcome, hc, if_neg (by simp),
    if_pos hn]

/-- Slot `n`'s record with an address (44_commands R316). -/
def State.withDevAddress (s : State) (n : SlotId) (a : BitVec 7) : State := s.withHost
  { s.host with dev := s.host.dev.put n { s.host.dev.get n with address := a } }

theorem copyAddress_ok {t : State} (hq : t.Quiet)
    (h : t.loadRefusal (s.addressPlace n) 4 = none) : copyAddress s n t =
      .ok ((), (t.withDevAddress n ((s.cfg.ctx.usbAddress.read
        (t.mem.read32 (s.addressPlace n))).setWidth 7)).withResult .success) :=
  Act.bind_ok (hostLoad32_quiet hq h)

theorem copyAddress_refused {t : State} {r : Refusal} (hq : t.Quiet)
    (h : t.loadRefusal (s.addressPlace n) 4 = some r) : copyAddress s n t = .error r :=
  Act.bind_error (hostLoad32_refused hq h)

/-! ### A transfer's completion -/

variable {len : Dword}

theorem exec_onTransferCompletion_waiting (hv : s.host.lastTransfer.valid = false) :
    exec (.onTransferCompletion n len) s = .next (s.withResult .waiting) := by
  refine Act.run_of_ok (m := onTransferCompletion len) ?_
  unfold onTransferCompletion
  rw [Act.get_bind, hv]
  rfl

/-- What the code of a transfer that is over decides (45_control_transfer R346). -/
def transferOutcome (s : State) (len : Dword) : Act Unit :=
  if s.host.lastTransfer.code = s.cfg.cc.success then answer (.bytes len)
  else if s.host.lastTransfer.code = s.cfg.cc.shortPacket then
    answering .bytes (shortLength len s.host.lastTransfer.residual)
  else answer (.failure (.transferFailed s.host.lastTransfer.code))

theorem exec_onTransferCompletion_over (hv : s.host.lastTransfer.valid = true) :
    exec (.onTransferCompletion n len) s = (transferOutcome s len).run s.transferObserved := by
  refine Act.run_congr (m := onTransferCompletion len) ?_
  unfold onTransferCompletion
  rw [Act.get_bind, hv, if_neg (by decide)]
  rfl

/-- A short packet moved what the residual leaves of the request (log 23). -/
theorem shortLength_within {r : BitVec 24} (h : r.toNat ≤ len.toNat) :
    shortLength len r s = .ok (len - r.setWidth 32, s) := by
  unfold shortLength
  rw [if_pos h]
  rfl

theorem shortLength_above {r : BitVec 24} (h : len.toNat < r.toNat) :
    ∃ m x, shortLength len r s = .ok (m, s.withFree x) := by
  obtain ⟨m, x, hd⟩ := drawDword_ok s
  exact ⟨m, x, (congrFun (if_neg (Nat.not_le.2 h)) s).trans hd⟩

theorem exec_onTransferCompletion_short (hv : s.host.lastTransfer.valid = true)
    (h1 : s.host.lastTransfer.code ≠ s.cfg.cc.success)
    (h2 : s.host.lastTransfer.code = s.cfg.cc.shortPacket) {m : Dword} {x : FreeSrc}
    (h : shortLength len s.host.lastTransfer.residual s.transferObserved =
      .ok (m, s.transferObserved.withFree x)) : exec (.onTransferCompletion n len) s =
        .next ((s.transferObserved.withFree x).withResult (.bytes m)) := by
  rw [exec_onTransferCompletion_over hv, transferOutcome, if_neg h1, if_pos h2]
  exact Act.run_of_ok (answering_ok h)

end

/-- Settles O58: each observer by the flag, the code, and the slot id or the residual. -/
theorem completions : Obligations.Completions := by
  intro s n len bind
  refine ⟨fun hv => ⟨exec_onEnableSlotCompletion_waiting hv,
      exec_onAddressDeviceCompletion_waiting hv⟩, exec_onTransferCompletion_waiting,
    fun hv => ⟨fun hc => ⟨exec_onEnableSlotCompletion_failed hv hc,
      exec_onAddressDeviceCompletion_failed hv hc⟩, fun hc => ?_⟩, fun hv => ⟨fun hc => ?_,
      fun h1 h2 => ⟨fun hr => ?_, fun hr => ?_⟩, fun h1 h2 => ?_⟩⟩
  · refine ⟨exec_onEnableSlotCompletion_rejected hv hc, fun h0 hk => ?_,
      fun hn => exec_onAddressDeviceCompletion_rejected hv hc (State.inTable_eq_false.2 hn),
      fun hk hs t h => inUse_onEnableSlotCompletion hv hc hk hs h,
      fun hq hn => ⟨fun hl => ?_, ?_⟩⟩
    · have hplace : ¬ s.slotRejected := by
        rintro (h | h)
        · exact h0 h
        · omega
      have hmarked := exec_onEnableSlotCompletion_marked (bind := bind) hv hc hplace
      cases bind with
      | none => exact hmarked
      | some b => exact hmarked
    · rw [exec_onAddressDeviceCompletion_copies hv hc (State.inTable_iff.2 hn)]
      exact Act.run_of_ok (copyAddress_ok (t := s.completionTaken) hq hl)
    · rintro ⟨x, hx, r, hr, hin, ho⟩
      rw [exec_onAddressDeviceCompletion_copies hv hc (State.inTable_iff.2 hn)]
      exact Act.run_of_error (copyAddress_refused (t := s.completionTaken) hq
        (State.loadRefusal_of_overlaps hx hr hin ho))
  · rw [exec_onTransferCompletion_over hv, transferOutcome, if_pos hc]
    rfl
  · exact exec_onTransferCompletion_short (x := s.free) hv h1 h2 (shortLength_within hr)
  · obtain ⟨m, x, h⟩ := shortLength_above (s := s.transferObserved) hr
    exact ⟨m, x, exec_onTransferCompletion_short hv h1 h2 h⟩
  · rw [exec_onTransferCompletion_over hv, transferOutcome, if_neg h1, if_neg h2]
    rfl

end Sys2Proof.Machine
end

section
/-! Proofs of the commands family (44_commands), the host's half of Address Device: the three
allocations and what their failure gives back, the entry installed, and the command posted. -/

namespace Sys2Proof.Machine

open Config

/-! ### Procedures that catch a failure -/

theorem Proc.tryCatch_ok {α : Type} {p : Proc α} {f : FailReason → Proc α} {s t : State} {a : α}
    (h : ExceptT.run p s = .ok (.ok a, t)) :
    ExceptT.run (MonadExcept.tryCatch p f) s = .ok (.ok a, t) := by
  rw [ExceptT.run_tryCatch, Act.bind_ok h]
  rfl

theorem Proc.tryCatch_fails {α : Type} {p : Proc α} {f : FailReason → Proc α} {s t : State}
    {r : FailReason} (h : ExceptT.run p s = .ok (.error r, t)) :
    ExceptT.run (MonadExcept.tryCatch p f) s = ExceptT.run (f r) t := by
  rw [ExceptT.run_tryCatch, Act.bind_ok h]

/-- A failure raised again after the blocks before it have been given back. -/
theorem Proc.lift_failWith {α : Type} {m : Act Unit} {s t : State} (r : FailReason)
    (h : m s = .ok ((), t)) :
    ExceptT.run ((m : Proc Unit) >>= fun _ => (failWith r : Proc α)) s = .ok (.error r, t) :=
  Proc.bind_ok (Proc.lift_ok h)

/-! ### Blocks handed out and given back -/

/-- Blocks handed out are zeroed, and no other byte changes (20_memory R84). -/
theorem State.givenAll_agreeOutside {left : List (Option Addr)} {l : List Block} {s : State}
    (h : s.mayGiveAll left l) : s.mem.AgreeOutside (s.givenAll left l).mem l := by
  induction l generalizing s with
  | nil => exact fun _ _ => rfl
  | cons b r ih =>
    obtain ⟨⟨-, hend, -⟩, hrest⟩ := h
    have hb : s.mem.AgreeOutside (s.mem.zeroBytes b.base.toNat b.size) (b :: r) :=
      (s.mem.zeroBytes_agreeOutside b.kind hend).mono fun c hc =>
        List.mem_singleton.1 hc ▸ List.mem_cons_self
    exact hb.trans ((ih hrest).mono fun c hc => List.mem_cons_of_mem _ hc)

/-- The test by which a context is given back. -/
def isBlock (kind : BlockKind) (a : Addr) (b : Block) : Bool := b.kind == kind && b.base == a

theorem isBlock_eq_false {kind : BlockKind} {a : Addr} {b : Block}
    (h : b.kind = kind → b.base ≠ a) : isBlock kind a b = false := by
  by_cases hk : b.kind = kind
  · rw [isBlock, beq_eq_false_iff_ne.2 (h hk), Bool.and_false]
  · rw [isBlock, beq_eq_false_iff_ne.2 hk, Bool.false_and]

/-- Of a list of blocks the test finds the one block of its kind at its base. -/
theorem filter_isBlock {b : Block} {l r : List Block}
    (h : ∀ c ∈ l ++ r, c.kind = b.kind → c.base ≠ b.base) :
    (l ++ b :: r).filter (isBlock b.kind b.base) = [b] ∧
    (l ++ b :: r).filter (fun c => !isBlock b.kind b.base c) = l ++ r := by
  have hself : isBlock b.kind b.base b = true := by simp [isBlock]
  have hother : ∀ c ∈ l ++ r, isBlock b.kind b.base c = false := fun c hc =>
    isBlock_eq_false (h c hc)
  have hnone : ∀ k : List Block, (∀ c ∈ k, c ∈ l ++ r) →
      k.filter (isBlock b.kind b.base) = [] := fun k hk =>
    List.filter_eq_nil_iff.2 fun c hc => by rw [hother c (hk c hc)]; exact Bool.false_ne_true
  have hall : ∀ k : List Block, (∀ c ∈ k, c ∈ l ++ r) →
      k.filter (fun c => !isBlock b.kind b.base c) = k := fun k hk =>
    List.filter_eq_self.2 fun c hc => by rw [hother c (hk c hc)]; rfl
  have hl : ∀ c ∈ l, c ∈ l ++ r := fun c hc => List.mem_append_left r hc
  have hr : ∀ c ∈ r, c ∈ l ++ r := fun c hc => List.mem_append_right l hc
  constructor
  · rw [List.filter_append, List.filter_cons_of_pos hself, hnone l hl, hnone r hr, List.nil_append]
  · rw [List.filter_append, List.filter_cons_of_neg (by rw [hself]; exact Bool.false_ne_true),
      hall l hl, hall r hr]

/-- A block given back, where no other of its kind lies at its base (60_exceptions R374). -/
theorem dropBlock_ok {s : State} {b : Block} {l r : List Block} (hlive : s.plat.live = l ++ b :: r)
    (h : ∀ c ∈ l ++ r, c.kind = b.kind → c.base ≠ b.base) :
    ∃ m x, s.mem.AgreeOutside m [b] ∧ dropBlock b.kind b.base s =
      .ok ((), ((s.returned [b] (l ++ r)).withFree x).withMem m) := by
  obtain ⟨hfreed, hleft⟩ := filter_isBlock h
  obtain ⟨m, x, hm, hrel⟩ := releaseWhere_ok (isBlock b.kind b.base) s
  rw [hlive, hfreed] at hm
  rw [hlive, hfreed, hleft] at hrel
  exact ⟨m, x, hm, hrel⟩

/-- Blocks given back one after the other. -/
theorem State.returned_returned (s : State) (l k live live' : List Block) (m m' : Memory)
    (x x' : FreeSrc) :
    (((((s.returned k live).withFree x).withMem m).returned l live').withFree x').withMem m' =
      ((s.returned (l ++ k) live').withFree x').withMem m' := by
  dsimp only [State.returned, State.withFree, State.withMem, State.withPlat]
  rw [List.append_assoc]

/-! ### The three allocations -/

section

variable {s t : State} {n : SlotId} {ic dc ring : Addr} {left : List (Option Addr)}

/-- The block of a device's input context (44_commands R309). -/
def State.inputBlock (s : State) (ic : Addr) : Block := ⟨ic, s.cfg.inCtxBytes, .inCtx⟩

/-- The block of its device context. -/
def State.deviceBlock (s : State) (dc : Addr) : Block := ⟨dc, s.cfg.devCtxBytes, .devCtx⟩

/-- The block of its endpoint-0 ring. -/
def ep0Block (ring : Addr) : Block := ⟨ring, 4096, .ep0Ring⟩

theorem run_allocDevice_noInput (h : s.plat.allocs = none :: left) :
    ExceptT.run allocDevice s = .ok (.error (.allocationFailure .context), s.denied left) := by
  unfold allocDevice
  rw [Proc.get_bind]
  exact Proc.bind_fails (allocContext_denied h)

/-- With no room for the device context the input context is given back. -/
theorem run_allocDevice_noContext (h : s.plat.allocs = some ic :: none :: left)
    (hg : s.mayGiveAll (none :: left) [s.inputBlock ic])
    (hlive : ∀ b ∈ s.plat.live, b.base ≠ ic) :
    ∃ m x, s.mem.AgreeOutside m [s.inputBlock ic] ∧ ExceptT.run allocDevice s =
      .ok (.error (.allocationFailure .context),
        ((((s.givenAll (none :: left) [s.inputBlock ic]).denied left).returned [s.inputBlock ic]
          s.plat.live).withFree x).withMem m) := by
  have hagree := State.givenAll_agreeOutside hg
  obtain ⟨hic, -⟩ := hg
  obtain ⟨m, x, hm, hdrop⟩ := dropBlock_ok (l := []) (r := s.plat.live) (b := s.inputBlock ic)
    (s := (s.givenAll (none :: left) [s.inputBlock ic]).denied left) rfl
    fun c hc _ => hlive c hc
  refine ⟨m, x, hagree.trans hm, ?_⟩
  unfold allocDevice
  rw [Proc.get_bind]
  refine Eq.trans (Proc.bind_ok (allocContext_gives h hic)) ?_
  refine Proc.bind_fails (Eq.trans (Proc.tryCatch_fails (allocContext_denied rfl)) ?_)
  exact Proc.lift_failWith _ hdrop

/-- With no room for the ring both contexts are. -/
theorem run_allocDevice_noRing (h : s.plat.allocs = some ic :: some dc :: none :: left)
    (hg : s.mayGiveAll (none :: left) [s.inputBlock ic, s.deviceBlock dc])
    (hlive : ∀ b ∈ s.plat.live, b.base ≠ ic ∧ b.base ≠ dc) :
    ∃ m x, s.mem.AgreeOutside m [s.inputBlock ic, s.deviceBlock dc] ∧
      ExceptT.run allocDevice s = .ok (.error (.allocationFailure .ring),
        ((((s.givenAll (none :: left) [s.inputBlock ic, s.deviceBlock dc]).denied left).returned
          [s.deviceBlock dc, s.inputBlock ic] s.plat.live).withFree x).withMem m) := by
  have hagree := State.givenAll_agreeOutside hg
  obtain ⟨hic, hdc, -⟩ := hg
  obtain ⟨m, x, hm, hdropInput⟩ := dropBlock_ok (l := [s.deviceBlock dc]) (r := s.plat.live)
    (b := s.inputBlock ic)
    (s := (s.givenAll (none :: left) [s.inputBlock ic, s.deviceBlock dc]).denied left) rfl
    fun c hc hkind => by
      rcases List.mem_cons.1 hc with rfl | hc
      · cases hkind
      · exact (hlive c hc).1
  obtain ⟨m', x', hm', hdropDevice⟩ := dropBlock_ok (l := []) (r := s.plat.live)
    (b := s.deviceBlock dc)
    (s := ((((s.givenAll (none :: left) [s.inputBlock ic, s.deviceBlock dc]).denied left).returned
      [s.inputBlock ic] ([s.deviceBlock dc] ++ s.plat.live)).withFree x).withMem m) rfl
    fun c hc _ => (hlive c hc).2
  rw [State.returned_returned] at hdropDevice
  refine ⟨m', x', (hagree.trans (hm.mono ?_)).trans (hm'.mono ?_), ?_⟩
  · exact fun b hb => List.mem_singleton.1 hb ▸ List.mem_cons_self
  · exact fun b hb => List.mem_cons_of_mem _ hb
  unfold allocDevice
  rw [Proc.get_bind]
  refine Eq.trans (Proc.bind_ok (allocContext_gives h hic)) ?_
  refine Eq.trans (Proc.bind_ok (Proc.tryCatch_ok (allocContext_gives rfl hdc))) ?_
  refine Proc.bind_fails (Eq.trans (Proc.tryCatch_fails (allocRing_denied rfl)) ?_)
  exact (Proc.bind_ok (Proc.lift_ok hdropInput)).trans (Proc.lift_failWith _ hdropDevice)

/-- The three blocks given. -/
theorem run_allocDevice (hg : s.mayGiveDevice ic dc ring left) : ExceptT.run allocDevice s =
    .ok (.ok (ic, dc, ⟨ring, 0, 0, true, 256⟩),
      s.givenAll left [s.inputBlock ic, s.deviceBlock dc, ep0Block ring]) := by
  obtain ⟨h, hic, hdc, hring⟩ := hg
  unfold allocDevice
  rw [Proc.get_bind]
  refine Eq.trans (Proc.bind_ok (allocContext_gives h hic)) ?_
  refine Eq.trans (Proc.bind_ok (Proc.tryCatch_ok (allocContext_gives rfl hdc))) ?_
  exact Proc.bind_ok (Proc.tryCatch_ok (allocRing_gives rfl hring))

/-! ### The procedure, as far as an allocation fails -/

theorem exec_addressDevice_rejected (hn : s.inTable n = false) : exec (.addressDevice n) s =
    .next (s.withResult (.failure (.slotIdRejected n))) :=
  Act.run_of_ok (concluding_fails (p := addressDevice n)
    ((Proc.get_bind _ s).trans (Proc.bind_fails (rejectSlot_fails hn))))

theorem exec_addressDevice_fails {r : FailReason} (hn : s.inTable n = true)
    (h : ExceptT.run allocDevice s = .ok (.error r, t)) :
    exec (.addressDevice n) s = .next (t.withResult (.failure r)) := by
  have hrun : ExceptT.run (addressDevice n) s = .ok (.error r, t) := by
    unfold addressDevice
    rw [Proc.get_bind, Proc.bind_ok (rejectSlot_ok hn)]
    exact Proc.bind_fails h
  exact Act.run_of_ok (concluding_fails hrun)

end

/-! ### The entry installed and the command posted -/

/-- A command's control dword with no endpoint, cycle bit clear: the slot and the type. -/
theorem commandControl_eq (n : SlotId) (ty : BitVec 6) :
    commandControl n 0 ty false = (n.setWidth 32 <<< 24) ||| (ty.setWidth 32 <<< 10) := by
  unfold commandControl bit1
  apply BitVec.eq_of_getLsbD_eq
  intro i hi
  simp only [BitVec.getLsbD_append, BitVec.getLsbD_or, BitVec.getLsbD_shiftLeft,
    BitVec.getLsbD_setWidth]
  interval_cases i <;> simp

/-- The Address Device TRB: the input context, the slot and the type (30_encoding R106). -/
theorem addressDeviceTrb_eq (c : TypeCodes) (n : SlotId) (ic : Addr) :
    addressDeviceTrb c n ic =
      ⟨ic, 0, (n.setWidth 32 <<< 24) ||| (c.addressDevice.setWidth 32 <<< 10)⟩ := by
  rw [addressDeviceTrb, commandControl_eq]

section

variable {s t : State} {n : SlotId} {ic dc ring : Addr} {left : List (Option Addr)}

/-- Entry 0 is not written (93 U28). -/
theorem installEntry_zero : installEntry 0 dc s = .error .dcbaaEntryZero := rfl

theorem require_nonzero (h0 : n ≠ 0) (r : Refusal) : require (n != 0) r s = .ok ((), s) :=
  require_eq_ok.2 ⟨bne_iff_ne.2 h0, rfl⟩

/-- Nor is the entry of a slot that lives, or one that lies in a ring or the segment table. -/
theorem installEntry_handedOver (h0 : n ≠ 0)
    (h : s.entryHeld (dcbaaEntry s.host.dcbaa n) 8 = true ∨
      s.isInUse .dcbaa (dcbaaEntry s.host.dcbaa n) 8 = true) :
    installEntry n dc s = .error .handedOver := by
  unfold installEntry
  rw [Act.get_bind, Act.bind_ok (require_nonzero h0 _)]
  cases hheld : s.entryHeld (dcbaaEntry s.host.dcbaa n) 8 with
  | true => rfl
  | false =>
    rw [hheld] at h
    have huse := h.resolve_left Bool.false_ne_true
    rw [Bool.not_false, Act.bind_ok (require_true _ _), huse]
    rfl

theorem installEntry_ok (hq : s.Quiet) (h0 : n ≠ 0) (h : s.mayInstall n) :
    installEntry n dc s = .ok ((), s.deviceInstalled n dc) := by
  obtain ⟨hheld, huse, hlo, hhi⟩ := h
  unfold installEntry
  rw [Act.get_bind, Act.bind_ok (require_nonzero h0 _),
    hheld, Bool.not_false, Act.bind_ok (require_true _ _), huse, Bool.not_false,
    Act.bind_ok (require_true _ _), Act.bind_ok (hostPut64_quiet hq dc hlo hhi)]
  rfl

theorem State.entryHeld_of_overlaps {a : Addr} {k : Nat} {x : DcbaaEntry}
    (hx : x ∈ s.ledger.installed) (hs : (s.slots.get x.slot).state ≠ .disabled)
    (ho : (⟨x.addr, 8, false⟩ : Region).Overlaps a k) : s.entryHeld a k = true := by
  refine List.any_eq_true.2 ⟨x, hx, ?_⟩
  rw [Bool.and_eq_true]
  exact ⟨bne_iff_ne.2 hs, Region.meets_iff.2 ho⟩

theorem State.isInUse_of_overlaps {own : BlockKind} {a : Addr} {k : Nat} {b : Block}
    (hb : b ∈ s.hostBlocks) (h1 : b.kind ≠ .inCtx) (h2 : b.kind ≠ own) (ho : b.Overlaps a k) :
    s.isInUse own a k = true := by
  rw [← Bool.not_eq_false, State.isInUse_eq_false]
  exact fun hnone => hnone b hb h1 h2 ho

/-- The source of free values plays no part in a post. -/
theorem State.rungCommand_withFree (s : State) (x : FreeSrc) :
    (s.withFree x).rungCommand = s.rungCommand.withFree x := by
  unfold State.rungCommand
  by_cases h : s.op.hch = true
  · rw [if_pos h, if_pos (by exact h)]
    rfl
  · rw [if_neg h, if_neg (by exact h)]
    rfl

/-- A post before its doorbell (41_ring_protocol R195). -/
def State.commandStored (s : State) (c : Trb) : State :=
  let a := ringAddr s.host.cmd.base s.host.cmd.enq
  ((s.withMem (s.mem.storedTrb a c s.host.cmd.cycle)).account
    (·.posted a (commandRegions s.cfg c))).withHost { s.host with cmd := s.host.cmd.enqAdvanced }

theorem State.posted_withFree (s : State) (x : FreeSrc) (c : Trb) :
    (s.withFree x).posted c = (s.posted c).withFree x :=
  State.rungCommand_withFree (s.commandStored c) x

/-! ### The procedure, once the blocks are given -/

/-- The host's procedure behind its allocations, step by step. -/
theorem run_addressDevice_filled (hn : s.inTable n = true) (hg : s.mayGiveDevice ic dc ring left)
    (hf : fillContexts ic n (s.deviceGiven n ic dc ring left) = .ok ((), t)) :
    ExceptT.run (addressDevice n) s = ExceptT.run ((installEntry n dc : Proc Unit) >>= fun _ =>
      (postCommand (addressDeviceTrb s.cfg.tt n ic) : Proc Unit)) t := by
  unfold addressDevice
  rw [Proc.get_bind, Proc.bind_ok (rejectSlot_ok hn)]
  refine Eq.trans (Proc.bind_ok (run_allocDevice hg)) ?_
  refine Eq.trans (Proc.setHost_bind _ _ _) ?_
  refine Eq.trans (Proc.bind_ok (Proc.lift_ok (m := accountFor (·.newEp0Ring n)) rfl)) ?_
  exact Proc.bind_ok (Proc.lift_ok hf)

theorem exec_addressDevice_refused (hn : s.inTable n = true)
    (hg : s.mayGiveDevice ic dc ring left)
    (hf : fillContexts ic n (s.deviceGiven n ic dc ring left) = .ok ((), t)) {r : Refusal}
    (hr : installEntry n dc t = .error r) : exec (.addressDevice n) s = .refused r := by
  have hrun : ExceptT.run (addressDevice n) s = .error r :=
    (run_addressDevice_filled hn hg hf).trans (Proc.bind_error (Proc.lift_error hr))
  show (concluding _ (addressDevice n)).run s = _
  unfold Act.run concluding
  rw [Act.bind_error hrun]

theorem exec_addressDevice_done {u : State} (hn : s.inTable n = true)
    (hg : s.mayGiveDevice ic dc ring left)
    (hf : fillContexts ic n (s.deviceGiven n ic dc ring left) = .ok ((), t))
    (hi : installEntry n dc t = .ok ((), t.deviceInstalled n dc))
    (hp : postCommand (addressDeviceTrb s.cfg.tt n ic) (t.deviceInstalled n dc) = .ok ((), u)) :
    exec (.addressDevice n) s = .next (u.withResult .success) :=
  Act.run_of_ok (concluding_ok (f := fun _ => .success) ((run_addressDevice_filled hn hg hf).trans
    ((Proc.bind_ok (Proc.lift_ok hi)).trans (Proc.lift_ok hp))))

/-! ### What it changes -/

/-- The state `address_device` leaves, before its result: `g` once the blocks are given. -/
def State.devicePosted (g : State) (n : SlotId) (ic dc : Addr) (packet : Dword) (c : Trb) :
    State :=
  ((g.filled ic n packet).deviceInstalled n dc).posted c

theorem State.mem_devicePosted (g : State) (n : SlotId) (ic dc : Addr) (packet : Dword) (c : Trb) :
    (g.devicePosted n ic dc packet c).mem =
      ((g.filled ic n packet).mem.write64 (dcbaaEntry g.host.dcbaa n) dc).storedTrb
        (ringAddr g.host.cmd.base g.host.cmd.enq) c g.host.cmd.cycle :=
  State.mem_posted _ _

/-- Of the host's records a post changes the command ring's and the bus address. -/
theorem State.host_posted (s : State) (c : Trb) : ∃ a, (s.posted c).host =
    { s.host with cmd := s.host.cmd.enqAdvanced, busAddr := a } := by
  unfold State.posted State.rungCommand
  dsimp only
  split <;> exact ⟨_, rfl⟩

theorem Memory.read_write64_ne (m : Memory) (a : Addr) (v : Qword) (b : Nat)
    (h : ∀ k < 8, b ≠ byteAddr a k) : (m.write64 a v).read b = m.read b := by
  unfold Memory.write64
  rw [show (4 : Addr) = BitVec.ofNat 64 4 from rfl, Memory.read_write32_ne, Memory.read_write32_ne]
  · exact fun k hk => h k (by omega)
  · intro k hk
    rw [byteAddr_add]
    exact h _ (by omega)

/-- A 64-bit value is its eight bytes. -/
theorem Memory.read64_congr {m m' : Memory} {a : Addr}
    (h : ∀ j < 8, m.read (byteAddr a j) = m'.read (byteAddr a j)) : m.read64 a = m'.read64 a := by
  unfold Memory.read64 Memory.read32
  rw [show (4 : Addr) = BitVec.ofNat 64 4 from rfl]
  simp only [byteAddr_add]
  rw [h 0 (by omega), h 1 (by omega), h 2 (by omega), h 3 (by omega), h (4 + 0) (by omega),
    h (4 + 1) (by omega), h (4 + 2) (by omega), h (4 + 3) (by omega)]

/-- The entries of two slots share no byte. -/
theorem byteAddr_dcbaaEntry_ne (d : Addr) {k n : SlotId} (h : k ≠ n) {i j : Nat} (hi : i < 8)
    (hj : j < 8) : byteAddr (dcbaaEntry d k) i ≠ byteAddr (dcbaaEntry d n) j := by
  intro e
  unfold dcbaaEntry at e
  rw [byteAddr_add, byteAddr_add] at e
  have hk := k.isLt
  have hn := n.isLt
  have hsame := byteAddr_inj d (by omega) (by omega) e
  exact h (BitVec.eq_of_toNat_eq (by omega))

theorem State.mayGiveAll_of_mayGiveDevice (hg : s.mayGiveDevice ic dc ring left) :
    s.mayGiveAll left [s.inputBlock ic, s.deviceBlock dc, ep0Block ring] := by
  obtain ⟨-, hic, hdc, hring⟩ := hg
  exact ⟨hic, hdc, hring, trivial⟩

theorem State.mem_deviceGiven (s : State) (n : SlotId) (ic dc ring : Addr)
    (left : List (Option Addr)) : (s.deviceGiven n ic dc ring left).mem =
      (s.givenAll left [s.inputBlock ic, s.deviceBlock dc, ep0Block ring]).mem := rfl

theorem State.cfg_deviceGiven (s : State) (n : SlotId) (ic dc ring : Addr)
    (left : List (Option Addr)) : (s.deviceGiven n ic dc ring left).cfg = s.cfg := by
  simp [State.deviceGiven, State.given]

theorem State.dcbaa_deviceGiven (s : State) (n : SlotId) (ic dc ring : Addr)
    (left : List (Option Addr)) : (s.deviceGiven n ic dc ring left).host.dcbaa = s.host.dcbaa := rfl

theorem State.cmd_deviceGiven (s : State) (n : SlotId) (ic dc ring : Addr)
    (left : List (Option Addr)) : (s.deviceGiven n ic dc ring left).host.cmd = s.host.cmd := rfl

theorem State.read_filled {g : State} (packet : Dword) (hf : g.cfg.ctx.Fits g.cfg.ctxSize) {a : Nat}
    (ha : ∀ k < 3 * g.cfg.ctxSize, a ≠ byteAddr ic k) :
    (g.filled ic n packet).mem.read a = g.mem.read a := read_filled_ne g.mem ic hf _ _ packet ha

/-- Nothing outside the three blocks, the entry and the posted TRB changes. -/
theorem read_devicePosted (hg : s.mayGiveDevice ic dc ring left) (packet : Dword) (c : Trb)
    (hfits : s.cfg.ctx.Fits s.cfg.ctxSize) {a : Nat}
    (hblocks : ∀ b ∈ [s.inputBlock ic, s.deviceBlock dc, ep0Block ring], ∀ k < b.size,
      a ≠ byteAddr b.base k)
    (hentry : ∀ k < 8, a ≠ byteAddr (dcbaaEntry s.host.dcbaa n) k)
    (htrb : ∀ k < 16, a ≠ byteAddr (ringAddr s.host.cmd.base s.host.cmd.enq) k) :
    ((s.deviceGiven n ic dc ring left).devicePosted n ic dc packet c).mem.read a =
      s.mem.read a := by
  have hsize : 3 * s.cfg.ctxSize ≤ (s.inputBlock ic).size := by
    dsimp only [State.inputBlock, Params.inCtxBytes]
    omega
  have hfilled := State.read_filled (g := s.deviceGiven n ic dc ring left) (ic := ic) (n := n)
    packet (by rw [s.cfg_deviceGiven]; exact hfits) (a := a) fun k hk =>
      hblocks _ List.mem_cons_self k (Nat.lt_of_lt_of_le (s.cfg_deviceGiven .. ▸ hk) hsize)
  have hgiven := State.givenAll_agreeOutside (State.mayGiveAll_of_mayGiveDevice hg)
  rw [State.mem_devicePosted, s.dcbaa_deviceGiven, s.cmd_deviceGiven,
    Memory.read_storedTrb_ne _ _ _ _ _ htrb, Memory.read_write64_ne _ _ _ _ hentry, hfilled,
    State.mem_deviceGiven]
  exact hgiven a hblocks

/-- Every entry that is not 0 stays of a record in use (44_commands R329). -/
theorem entriesInUse_devicePosted (hg : s.mayGiveDevice ic dc ring left) (packet : Dword) (c : Trb)
    (hfits : s.cfg.ctx.Fits s.cfg.ctxSize) (hn : (s.host.dev.get n).inUse = true)
    (hs : s.EntriesInUse)
    (hapart : ∀ k : SlotId, k.toNat ≤ s.host.maxSlots.toNat → ∀ j < 8,
      (∀ b ∈ [s.inputBlock ic, s.deviceBlock dc, ep0Block ring], ∀ m < b.size,
        byteAddr (dcbaaEntry s.host.dcbaa k) j ≠ byteAddr b.base m) ∧
      ∀ m < 16, byteAddr (dcbaaEntry s.host.dcbaa k) j ≠
        byteAddr (ringAddr s.host.cmd.base s.host.cmd.enq) m) :
    ((s.deviceGiven n ic dc ring left).devicePosted n ic dc packet c).EntriesInUse := by
  obtain ⟨a, hhost⟩ := State.host_posted
    (((s.deviceGiven n ic dc ring left).filled ic n packet).deviceInstalled n dc) c
  have hdev : ((s.deviceGiven n ic dc ring left).devicePosted n ic dc packet c).host.dev =
      s.host.dev.put n { s.host.dev.get n with inCtx := ic, devCtx := dc } :=
    congrArg HostRec.dev hhost
  have hdcbaa : ((s.deviceGiven n ic dc ring left).devicePosted n ic dc packet c).host.dcbaa =
      s.host.dcbaa := (congrArg HostRec.dcbaa hhost).trans rfl
  have hmax : ((s.deviceGiven n ic dc ring left).devicePosted n ic dc packet c).host.maxSlots =
      s.host.maxSlots := (congrArg HostRec.maxSlots hhost).trans rfl
  intro k hk hv
  rw [hmax] at hk
  rw [hdcbaa] at hv
  rw [hdev, Tab.get_put]
  split
  · exact hn
  · rename_i hne
    refine hs k hk fun h0 => hv ?_
    rw [← h0]
    refine Memory.read64_congr fun j hj => ?_
    obtain ⟨hblocks, htrb⟩ := hapart k hk j hj
    exact read_devicePosted hg packet c hfits hblocks
      (fun m hm => byteAddr_dcbaaEntry_ne s.host.dcbaa hne hj hm) htrb

/-! ### The cases of the procedure -/

/-- Neither the packet size nor the draw it may take bears on what the host may store. -/
theorem State.mayInstall_filled {g : State} {packet : Dword} {x : FreeSrc} (h : g.mayInstall n) :
    ((g.filled ic n packet).withFree x).mayInstall n := h

theorem State.deviceInstalled_withMem (s : State) (m : Memory) (n : SlotId) (dc : Addr) :
    (s.withMem m).deviceInstalled n dc =
      (s.deviceInstalled n dc).withMem (m.write64 (dcbaaEntry s.host.dcbaa n) dc) := rfl

theorem State.deviceInstalled_withFree (s : State) (x : FreeSrc) (n : SlotId) (dc : Addr) :
    (s.withFree x).deviceInstalled n dc = (s.deviceInstalled n dc).withFree x := rfl

theorem State.mayPost_withMem {s : State} (h : s.mayPost) (m : Memory) : (s.withMem m).mayPost := h

theorem State.mayPost_withFree {s : State} (h : s.mayPost) (x : FreeSrc) :
    (s.withFree x).mayPost := h

theorem State.mayPost_filled {g : State} {packet : Dword} {x : FreeSrc}
    (h : (g.deviceInstalled n dc).mayPost) :
    (((g.filled ic n packet).withFree x).deviceInstalled n dc).mayPost := by
  rw [State.deviceInstalled_withFree, State.filled, State.deviceInstalled_withMem]
  exact State.mayPost_withFree (State.mayPost_withMem h _) x

/-- The device's speed is that of the record before the blocks were recorded. -/
theorem State.speed_deviceGiven (s : State) (n : SlotId) (ic dc ring : Addr)
    (left : List (Option Addr)) : ((s.deviceGiven n ic dc ring left).host.dev.get n).speed =
      (s.host.dev.get n).speed := by
  have hdev : (s.deviceGiven n ic dc ring left).host.dev =
      s.host.dev.put n { s.host.dev.get n with inCtx := ic, devCtx := dc } := rfl
  rw [hdev, Tab.get_put_same]

theorem State.entryHeld_congr (hi : t.ledger.installed = s.ledger.installed)
    (hs : t.slots = s.slots) (a : Addr) (k : Nat) : t.entryHeld a k = s.entryHeld a k := by
  unfold State.entryHeld
  rw [hi, hs]

/-- With the blocks given, the entry of a slot that lives is still held. -/
theorem State.entryHeld_deviceGiven (s : State) (n : SlotId) (ic dc ring : Addr)
    (left : List (Option Addr)) (a : Addr) (k : Nat) :
    (s.deviceGiven n ic dc ring left).entryHeld a k = s.entryHeld a k := by
  refine State.entryHeld_congr ?_ ?_ a k <;>
    simp [State.deviceGiven, State.given, Ledger.newEp0Ring]

/-- An entry that is not written for a state is not once the contexts are filled. -/
theorem installEntry_filled_handedOver {g : State} {packet : Dword} {x : FreeSrc} (h0 : n ≠ 0)
    (h : g.entryHeld (dcbaaEntry g.host.dcbaa n) 8 = true ∨
      g.isInUse .dcbaa (dcbaaEntry g.host.dcbaa n) 8 = true) :
    installEntry n dc ((g.filled ic n packet).withFree x) = .error .handedOver :=
  installEntry_handedOver h0 h

/-- The contexts filled, the entry installed, the command posted. -/
theorem exec_addressDevice_posted (hn : s.inTable n = true) (hq : s.Quiet)
    (hg : s.mayGiveDevice ic dc ring left) {packet : Dword} {x : FreeSrc}
    (hf : fillContexts ic n (s.deviceGiven n ic dc ring left) =
      .ok ((), ((s.deviceGiven n ic dc ring left).filled ic n packet).withFree x))
    (h0 : n ≠ 0) (hi : (s.deviceGiven n ic dc ring left).mayInstall n)
    (hp : ((s.deviceGiven n ic dc ring left).deviceInstalled n dc).mayPost) :
    exec (.addressDevice n) s = .next ((((s.deviceGiven n ic dc ring left).devicePosted n ic dc
      packet (addressDeviceTrb s.cfg.tt n ic)).withFree x).withResult .success) := by
  have hpost := postCommand_quiet
    (s := (((s.deviceGiven n ic dc ring left).filled ic n packet).withFree x).deviceInstalled n dc)
    hq (State.mayPost_filled hp) (addressDeviceTrb s.cfg.tt n ic)
  rw [exec_addressDevice_done hn hg hf
    (installEntry_ok hq h0 (State.mayInstall_filled hi)) hpost, State.deviceInstalled_withFree,
    State.posted_withFree]
  rfl

end

/-- Settles O60: each denied allocation, each entry that is not written, and the procedure to its
end with what it leaves unchanged. -/
theorem addressDeviceHost : Obligations.AddressDeviceHost := by
  intro s n ic dc ring left I D R
  refine ⟨fun hn => exec_addressDevice_rejected (State.inTable_eq_false.2 hn), fun hn => ?_⟩
  have hin : s.inTable n = true := State.inTable_iff.2 hn
  refine ⟨fun h => exec_addressDevice_fails hin (run_allocDevice_noInput h),
    fun h hg hlive => ?_, fun h hg hlive => ?_, ?_⟩
  · obtain ⟨m, x, hm, hrun⟩ := run_allocDevice_noContext h hg hlive
    exact ⟨m, x, hm, exec_addressDevice_fails hin hrun⟩
  · obtain ⟨m, x, hm, hrun⟩ := run_allocDevice_noRing h hg hlive
    exact ⟨m, x, hm, exec_addressDevice_fails hin hrun⟩
  intro hq hg g hfill
  obtain ⟨packet, x, hpacket, hfilled⟩ := fillContexts_ok (s := g) hq hfill
  refine ⟨?_, fun h0 hentry => ?_, fun h0 hblock => ?_, fun h0 hi hp => ?_⟩
  · rintro rfl
    exact exec_addressDevice_refused hin hg hfilled installEntry_zero
  · obtain ⟨e, he, hs, ho⟩ := hentry
    refine exec_addressDevice_refused hin hg hfilled (installEntry_filled_handedOver h0 (.inl ?_))
    rw [s.dcbaa_deviceGiven, s.entryHeld_deviceGiven]
    exact State.entryHeld_of_overlaps he hs ho
  · obtain ⟨b, hb, h1, h2, ho⟩ := hblock
    refine exec_addressDevice_refused hin hg hfilled (installEntry_filled_handedOver h0 (.inr ?_))
    rw [s.dcbaa_deviceGiven]
    exact State.isInUse_of_overlaps hb h1 h2 ho
  · have hexec := exec_addressDevice_posted hin hq hg hfilled h0 hi hp
    rw [addressDeviceTrb_eq] at hexec
    rw [s.speed_deviceGiven] at hpacket
    refine ⟨packet, x, hpacket, hexec, fun hfits a => read_devicePosted hg packet _ hfits, ?_⟩
    exact fun hfits hinUse hs => entriesInUse_devicePosted hg packet _ hfits hinUse hs

end Sys2Proof.Machine
end

section
/-! Proofs of the control transfer family (45_control_transfer), the transfer engine: which rows
serve a transfer, and when the engine waits, stops or refuses. -/

namespace Sys2Proof.Machine

open Config

/-! ### The engine's step, by what it finds -/

/-- An engine that is not enabled changes nothing (45_control_transfer R350; log 11). -/
theorem run_consumeTransfer_off {s : State} {i : SlotId} (h : s.transferOn i = none)
    (t0 t1 t2 : Trb) : (consumeTransfer i t0 t1 t2).run s = .next s := by
  refine Act.run_of_ok ?_
  unfold consumeTransfer
  rw [Act.get_bind, h]
  rfl

/-- An enabled engine's checks, in their order (45_control_transfer R350 to R352, R357). -/
theorem run_consumeTransfer_on {s : State} {i : SlotId} {r : XferRing}
    (h : s.transferOn i = some r) (t0 t1 t2 : Trb) : (consumeTransfer i t0 t1 t2).run s =
      if t0.cycle ≠ r.ccs then .next (s.withXfer i (some { r with running := false }))
      else if t0.typ ≠ s.cfg.tt.setup then .refused (headRefusal s.cfg.tt t0)
      else if laterValid r t0 t1 t2 = false then
        .next (s.withXfer i (some { r with running := false }))
      else if transferShape s.cfg.tt t0 t1 t2 = false then .refused .transferShape
      else if s.er.free < 2 then .next s
      else (serveTransfer i r t0 t1).run s := by
  unfold consumeTransfer
  rw [run_get_bind, h]
  simp only [bne_iff_ne, Bool.not_eq_true']
  split_ifs <;> rfl

theorem State.transferOn_of {s : State} {i : SlotId} {r : XferRing} (hh : s.op.hch = false)
    (ha : s.isAddressed i = true) (ht : s.tr.get i = some r) (hr : r.running = true) :
    s.transferOn i = some r := by
  unfold State.transferOn
  rw [ht]
  simp [hh, ha, hr]

theorem State.transferOn_none {s : State} {i : SlotId} (h : s.op.hch = true ∨
    s.isAddressed i = false ∨ s.tr.get i = none ∨ ∃ r, s.tr.get i = some r ∧ r.running = false) :
    s.transferOn i = none := by
  rw [Option.eq_none_iff_forall_ne_some]
  intro r hr
  obtain ⟨htr, hhch, haddr, hrun⟩ := State.transferOn_eq_some hr
  rcases h with h | h | h | ⟨q, hq, h⟩
  · exact Bool.false_ne_true (hhch.symm.trans h)
  · exact Bool.false_ne_true (h.symm.trans haddr)
  · cases h.symm.trans htr
  · cases hq.symm.trans htr
    exact Bool.false_ne_true (h.symm.trans hrun)

/-! ### The shape of a transfer -/

theorem Trb.stages_eq_two_iff {t : Trb} : t.stages = 2 ↔ t.trt = 0 := by
  unfold Trb.stages
  split <;> simp_all

theorem Trb.stages_eq_three_iff {t : Trb} : t.stages = 3 ↔ t.trt ≠ 0 := by
  unfold Trb.stages
  split <;> simp_all

theorem Trb.stages_two_or_three (t : Trb) : t.stages = 2 ∨ t.stages = 3 := by
  rw [Trb.stages_eq_two_iff, Trb.stages_eq_three_iff]
  exact em _

theorem transferShape_two {c : TypeCodes} {t0 t1 t2 : Trb} (h : t0.stages = 2) :
    transferShape c t0 t1 t2 = (setupShape t0 && t1.typ == c.status) := by
  unfold transferShape
  rw [if_pos h]

theorem transferShape_three {c : TypeCodes} {t0 t1 t2 : Trb} (h : t0.stages = 3) :
    transferShape c t0 t1 t2 = (setupShape t0 && (dataShape c t0 t1 && t2.typ == c.status)) := by
  unfold transferShape
  rw [if_neg (by omega)]

/-- The later TRBs are not all valid where one that the transfer takes is not (45_control_transfer
R351). -/
theorem laterValid_eq_false {r : XferRing} {t0 t1 t2 : Trb} (h : t1.cycle ≠ r.slotCycle 1 ∨
    t0.stages = 3 ∧ t2.cycle ≠ r.slotCycle 2) : laterValid r t0 t1 t2 = false := by
  unfold laterValid
  rcases h with h | ⟨h3, h⟩
  · rw [beq_eq_false_iff_ne.2 h, Bool.false_and]
  · rw [h3, beq_eq_false_iff_ne.2 h]
    simp

/-- A TRB that begins no transfer is refused for one of six reasons (45_control_transfer R352, R358
to R360). -/
theorem headRefusal_mem (c : TypeCodes) (t : Trb) : headRefusal c t ∈ [Refusal.transferShape,
    .normalOnEp0, .linkOnTransferRing, .eventDataOnEp0, .noopOnEp0, .otherOnEp0] := by
  unfold headRefusal
  split_ifs <;> simp

/-! ### The rows that serve a transfer (log 18) -/

/-- The engine cannot tell `u0`, `u1`, `u2` as a transfer from `t0`, `t1`, `t2`: what it looks at is
the same, and so is the buffer where there is a Data stage. -/
structure SameTransfer (c : TypeCodes) (t0 t1 t2 u0 u1 u2 : Trb) : Prop where
  cycle : u0.cycle = t0.cycle
  typ : u0.typ = t0.typ
  stages : u0.stages = t0.stages
  request : requestOf u0 = requestOf t0
  later : ∀ r, laterValid r u0 u1 u2 = laterValid r t0 t1 t2
  shape : transferShape c u0 u1 u2 = transferShape c t0 t1 t2
  buffer : t0.stages = 3 → u1.parameter = t1.parameter

section

variable {c : TypeCodes} {t0 t1 t2 : Trb}

theorem SameTransfer.refl : SameTransfer c t0 t1 t2 t0 t1 t2 :=
  ⟨rfl, rfl, rfl, rfl, fun _ => rfl, rfl, fun _ => rfl⟩

/-- The Setup stage as its row carries it. -/
theorem SameTransfer.setup (h : t0.typ = c.setup) :
    SameTransfer c t0 t1 t2 ((SetupTrb.ofTrb t0).toTrb c) t1 t2 := by
  have hcycle : ((SetupTrb.ofTrb t0).toTrb c).cycle = t0.cycle := SetupTrb.cycle_toTrb c _
  have htrt : ((SetupTrb.ofTrb t0).toTrb c).trt = t0.trt := SetupTrb.trt_toTrb c _
  have hsetup : setupShape ((SetupTrb.ofTrb t0).toTrb c) = setupShape t0 := by
    unfold setupShape bitOf
    rw [SetupTrb.idt_toTrb, SetupTrb.length_toTrb, htrt, Trb.setupLength_setup]
    rfl
  have hdata : dataShape c ((SetupTrb.ofTrb t0).toTrb c) t1 = dataShape c t0 t1 := by
    unfold dataShape
    rw [htrt, Trb.setupLength_setup]
  refine ⟨hcycle, (SetupTrb.typ_toTrb c _).trans h.symm, Trb.stages_setup c t0, ?_, fun r => ?_, ?_,
    fun _ => rfl⟩
  · unfold requestOf
    rw [htrt, Trb.setupLength_setup, Trb.stages_setup]
  · unfold laterValid
    rw [Trb.stages_setup]
  · unfold transferShape
    rw [hsetup, hdata, Trb.stages_setup]

/-- The Data stage as its row carries it. -/
theorem SameTransfer.data (h3 : t0.stages = 3) (h : t1.typ = c.data) :
    SameTransfer c t0 t1 t2 t0 ((DataTrb.ofTrb t1).toTrb c) t2 := by
  have hcycle : ((DataTrb.ofTrb t1).toTrb c).cycle = t1.cycle := DataTrb.cycle_toTrb c _
  have hdata : dataShape c t0 ((DataTrb.ofTrb t1).toTrb c) = dataShape c t0 t1 := by
    unfold dataShape bitOf
    rw [DataTrb.typ_toTrb, h, DataTrb.dir_toTrb, DataTrb.length_toTrb]
    rfl
  refine ⟨rfl, rfl, rfl, rfl, fun r => ?_, ?_, fun _ => rfl⟩
  · unfold laterValid
    rw [hcycle]
  · rw [transferShape_three h3, transferShape_three h3, hdata]

/-- The Status stage as its row carries it, behind a Data stage. -/
theorem SameTransfer.statusAfterData (h3 : t0.stages = 3) (h : t2.typ = c.status) :
    SameTransfer c t0 t1 t2 t0 t1 ((StatusTrb.ofTrb t2).toTrb c) := by
  have hcycle : ((StatusTrb.ofTrb t2).toTrb c).cycle = t2.cycle := StatusTrb.cycle_toTrb c _
  refine ⟨rfl, rfl, rfl, rfl, fun r => ?_, ?_, fun _ => rfl⟩
  · unfold laterValid
    rw [hcycle]
  · rw [transferShape_three h3, transferShape_three h3, StatusTrb.typ_toTrb, h]

/-- The Status stage as its row carries it, where there is no Data stage. -/
theorem SameTransfer.statusAlone (h2 : t0.stages = 2) (h : t1.typ = c.status) (u2 : Trb) :
    SameTransfer c t0 t1 t2 t0 ((StatusTrb.ofTrb t1).toTrb c) u2 := by
  have hcycle : ((StatusTrb.ofTrb t1).toTrb c).cycle = t1.cycle := StatusTrb.cycle_toTrb c _
  refine ⟨rfl, rfl, rfl, rfl, fun r => ?_, ?_, fun h3 => ?_⟩
  · unfold laterValid
    rw [hcycle, h2]
    rfl
  · rw [transferShape_two h2, transferShape_two h2, StatusTrb.typ_toTrb, h]
  · omega

end

theorem State.mem_transferRows {s : State} {i : SlotId} {row : Instr} :
    row ∈ s.transferRows i ↔
      row = .xhcTransferStep i ∨ row = .xferSetup i (.ofTrb (s.xferTrb i 0)) ∨
      ((s.xferTrb i 0).stages = 3 ∧ row = .xferData i (.ofTrb (s.xferTrb i 1))) ∨
      row = .xferStatus i (.ofTrb
        (if (s.xferTrb i 0).stages = 2 then s.xferTrb i 1 else s.xferTrb i 2)) := by
  unfold State.transferRows
  by_cases h3 : (s.xferTrb i 0).stages = 3 <;> simp [h3]

/-- The engine's step is the engine meeting the TRBs from its index on. -/
theorem exec_xhcTransferStep (s : State) (i : SlotId) : exec (.xhcTransferStep i) s =
    (consumeTransfer i (s.xferTrb i 0) (s.xferTrb i 1) (s.xferTrb i 2)).run s := by
  show (transferStep i).run s = _
  unfold transferStep
  exact run_get_bind _ s

/-- The STATUS row's TRB is the transfer's last. -/
theorem exec_xferStatus (s : State) (i : SlotId) (t : StatusTrb) : exec (.xferStatus i t) s =
    (consumeTransfer i (s.xferTrb i 0)
      (if (s.xferTrb i 0).stages = 2 then t.toTrb s.cfg.tt else s.xferTrb i 1)
      (t.toTrb s.cfg.tt)).run s := rfl

/-- Every row that serves a transfer is the engine meeting TRBs which it cannot tell from those at
its index, where these have the host's shape. -/
theorem exec_transferRow {s : State} {i : SlotId} {row : Instr} (h : row ∈ s.transferRows i) :
    ∃ u0 u1 u2, exec row s = (consumeTransfer i u0 u1 u2).run s ∧
      ((s.xferTrb i 0).typ = s.cfg.tt.setup →
        transferShape s.cfg.tt (s.xferTrb i 0) (s.xferTrb i 1) (s.xferTrb i 2) = true →
        SameTransfer s.cfg.tt (s.xferTrb i 0) (s.xferTrb i 1) (s.xferTrb i 2) u0 u1 u2) := by
  rcases State.mem_transferRows.1 h with rfl | rfl | ⟨h3, rfl⟩ | rfl
  · exact ⟨_, _, _, exec_xhcTransferStep s i, fun _ _ => .refl⟩
  · exact ⟨_, _, _, rfl, fun htyp _ => .setup htyp⟩
  · refine ⟨_, _, _, rfl, fun _ hshape => .data h3 ?_⟩
    rw [transferShape_three h3] at hshape
    simp only [dataShape, Bool.and_eq_true, beq_iff_eq] at hshape
    obtain ⟨-, ⟨⟨hdata, -⟩, -⟩, -⟩ := hshape
    exact hdata
  · refine ⟨_, _, _, exec_xferStatus s i _, fun _ hshape => ?_⟩
    rcases Trb.stages_two_or_three (s.xferTrb i 0) with h2 | h3
    · rw [transferShape_two h2, Bool.and_eq_true, beq_iff_eq] at hshape
      rw [if_pos h2, if_pos h2]
      exact .statusAlone h2 hshape.2 _
    · have hne : (s.xferTrb i 0).stages ≠ 2 := by omega
      rw [transferShape_three h3] at hshape
      simp only [Bool.and_eq_true, beq_iff_eq] at hshape
      obtain ⟨-, -, hstatus⟩ := hshape
      rw [if_neg hne, if_neg hne]
      exact .statusAfterData h3 hstatus

/-! ### The room for events -/

/-- The room of an event ring: the slots between the producer and ERDP, less one
(45_control_transfer R357). -/
theorem EvtProducer.free_eq {e : EvtProducer} {d : Nat} (hd : d < e.size) (hsize : e.size ≤ 256)
    (henq : e.enq < e.size) (hptr : e.deqPtr = e.base + BitVec.ofNat 64 (16 * d)) :
    e.free = (d + e.size - 1 - e.enq) % e.size := by
  have hdist : (e.deqPtr - e.base).toNat / 16 = d := by
    rw [hptr, BitVec.add_comm, BitVec.add_sub_cancel, BitVec.toNat_ofNat,
      Nat.mod_eq_of_lt (by omega), Nat.mul_div_cancel_left _ (by omega)]
  unfold EvtProducer.free
  rw [if_neg (by omega), hdist, Nat.mod_eq_of_lt henq]
  congr 1
  omega

/-- Settles O44: every row of an engine that is off, the room, and the checks of one that is on. -/
theorem transferEngineWaits : Obligations.TransferEngineWaits := by
  intro s i
  refine ⟨fun hoff row hrow => ?_,
    fun d hd hsize henq hptr => EvtProducer.free_eq hd hsize henq hptr, fun r hh ha ht hr => ?_⟩
  · obtain ⟨u0, u1, u2, hexec, -⟩ := exec_transferRow hrow
    exact hexec.trans (run_consumeTransfer_off (State.transferOn_none hoff) _ _ _)
  have hon := run_consumeTransfer_on (State.transferOn_of hh ha ht hr)
  intro t0 t1 t2 stopped
  have hstep : exec (.xhcTransferStep i) s = _ := (exec_xhcTransferStep s i).trans (hon t0 t1 t2)
  refine ⟨fun hc => hstep.trans (if_pos hc), fun hc => ⟨fun htyp => ?_, fun htyp =>
    ⟨fun hmissing => ?_, fun hlater => ⟨fun hshape => ?_, fun hshape hfree row hrow => ?_⟩⟩⟩⟩
  · refine ⟨_, headRefusal_mem s.cfg.tt t0, ?_⟩
    rw [hstep, if_neg (not_not.2 hc), if_pos htyp]
  · rw [hstep, if_neg (not_not.2 hc), if_neg (not_not.2 htyp),
      if_pos (laterValid_eq_false hmissing)]
  · rw [hstep, if_neg (not_not.2 hc), if_neg (not_not.2 htyp), if_neg (by simp [hlater]),
      if_pos hshape]
  · obtain ⟨u0, u1, u2, hexec, hsame⟩ := exec_transferRow hrow
    have h := hsame htyp hshape
    rw [hexec, hon, h.cycle, h.typ, h.later, h.shape, if_neg (not_not.2 hc),
      if_neg (not_not.2 htyp), if_neg (by simp [t0, t1, t2, hlater]),
      if_neg (by simp [t0, t1, t2, hshape]), if_pos hfree]

end Sys2Proof.Machine
end

section
/-! Proofs of the control transfer family (45_control_transfer), the transfers served: the engine
past the transfer, ENV's answer within its set, and what the answer stores and raises. -/

namespace Sys2Proof.Machine

open Config

/-! ### The answer -/

/-- What ENV's answer comes to for the transfer at slot `i`'s index (45_control_transfer R356). -/
def State.answerTo (s : State) (i : SlotId) (a : ControlAnswer) : ControlAnswer :=
  normalAnswer (freeByte s.free.count) (requestOf (s.xferTrb i 0)) (slotPortEnabled s i) a

/-- A row that serves a ready transfer applies ENV's answer once the transfer is taken, to the Data
stage's buffer where there is a Data stage. -/
theorem exec_transferRow_ready {s : State} {i : SlotId} {r : XferRing} {a : ControlAnswer}
    {left : List ControlAnswer} (hready : s.transferReady i r) (he : s.env.control = a :: left)
    {row : Instr} (hrow : row ∈ s.transferRows i) : ∃ buf,
      ((s.xferTrb i 0).stages = 3 → buf = (s.xferTrb i 1).parameter) ∧
      exec row s = (applyAnswer i (requestOf (s.xferTrb i 0)) r.slotAddr buf (s.answerTo i a)).run
        (s.transferTaken i r left) := by
  obtain ⟨-, -, -, -, hcycle, htyp, hlater, hshape, hfree⟩ := id hready
  obtain ⟨u0, u1, u2, hexec, hsame⟩ := exec_transferRow hrow
  have h := hsame htyp hshape
  refine ⟨u1.parameter, h.buffer, hexec.trans (Act.run_congr ?_)⟩
  rw [consumeTransfer_serves hready.on (h.cycle.trans hcycle) (h.typ.trans htyp)
    ((h.later r).trans hlater) (h.shape.trans hshape) hfree, serveTransfer_answer he, h.stages,
    h.request]
  rfl

/-! ### What the answer stores and raises -/

section

variable (s : State) (i : SlotId) (r : XferRing) (left : List ControlAnswer)

@[simp] theorem State.cfg_transferTaken : (s.transferTaken i r left).cfg = s.cfg := by
  simp [State.transferTaken]

@[simp] theorem State.er_transferTaken : (s.transferTaken i r left).er = s.er := by
  simp [State.transferTaken]

@[simp] theorem State.mem_transferTaken : (s.transferTaken i r left).mem = s.mem := by
  simp [State.transferTaken]

theorem State.ledger_transferTaken : (s.transferTaken i r left).ledger =
    if r.base = (s.host.ep0.get i).base then s.ledger.consumed i r (s.xferTrb i 0).stages
    else s.ledger := by
  simp [State.transferTaken]

/-- A transfer taken leaves what the controller may store as it was. -/
theorem State.ctlRefusal_transferTaken (ht : s.tr.get i = some r) (a : Addr) (n : Nat) :
    (s.transferTaken i r left).ctlRefusal a n = s.ctlRefusal a n := by
  have hplat : (s.transferTaken i r left).plat = s.plat := by simp [State.transferTaken]
  have hblocks : (s.transferTaken i r left).hostBlocks = s.hostBlocks := by
    simp [State.transferTaken, State.hostBlocks_xferPassed ht]
  obtain ⟨hhanded, hinstalled⟩ :
      (s.transferTaken i r left).ledger.handed = s.ledger.handed ∧
      (s.transferTaken i r left).ledger.installed = s.ledger.installed := by
    rw [State.ledger_transferTaken]
    split <;> exact ⟨rfl, rfl⟩
  exact State.ctlRefusal_congr (congrArg Platform.freed hplat) hblocks hhanded hinstalled a n

end

section

variable {t : State} {i : SlotId} {q : Request} {addr : Nat → Addr} {buf : Addr}

/-- An answer in full without an IN Data stage raises the Status stage's success
(45_control_transfer R353). -/
theorem applyAnswer_ok (h : t.eventAllowed) (hin : q.isIn = false) (data : List Byte) :
    applyAnswer i q addr buf (.ok data) t = .ok ((), t.raised
      (transferTrb t.cfg (addr (stageIndex q .status)) t.cfg.cc.success 0 i)) := by
  unfold applyAnswer
  dsimp only
  rw [Act.get_bind, hin]
  exact raiseTransfer_ok h

/-- An answer in full to an IN transfer stores its bytes before. -/
theorem applyAnswer_ok_in (h : t.eventAllowed) (hin : q.isIn = true) {data : List Byte}
    (hs : t.ctlRefusal buf data.length = none) :
    applyAnswer i q addr buf (.ok data) t =
      .ok ((), (t.withMem (t.mem.writeBytes buf data)).raised
        (transferTrb t.cfg (addr (stageIndex q .status)) t.cfg.cc.success 0 i)) := by
  unfold applyAnswer
  dsimp only
  rw [Act.get_bind, hin, if_pos rfl, Act.bind_ok (ctlStore_ok hs)]
  exact raiseTransfer_ok (s := t.withMem _) h

/-- A short packet stores its bytes and raises two events (45_control_transfer R354). -/
theorem applyAnswer_short (h : t.eventAllowed)
    (h2 : t.ctlRefusal (ringAddr t.er.base t.er.advanced.enq) 16 = none) (m : Nat)
    {data : List Byte} (hs : t.ctlRefusal buf data.length = none) :
    applyAnswer i q addr buf (.short m data) t =
      .ok ((), ((t.withMem (t.mem.writeBytes buf data)).raised (transferTrb t.cfg (addr 1)
        t.cfg.cc.shortPacket (BitVec.ofNat 24 (q.len - m)) i)).raised
        (transferTrb t.cfg (addr (stageIndex q .status)) t.cfg.cc.success 0 i)) := by
  unfold applyAnswer
  dsimp only
  rw [Act.get_bind, Act.bind_ok (ctlStore_ok hs),
    Act.bind_ok (raiseTransfer_ok (s := t.withMem (t.mem.writeBytes buf data)) h)]
  exact raiseTransfer_ok (s := (t.withMem (t.mem.writeBytes buf data)).raised _) h2

/-- A failed stage raises one event, for its TRB (45_control_transfer R355); no byte is stored for
a transfer that is not IN, nor where its Setup stage failed. -/
theorem applyAnswer_error (h : t.eventAllowed) {st : Stage} (hin : q.isIn = false ∨ st = .setup)
    (code : BusError) : applyAnswer i q addr buf (.error st code) t = .ok ((), t.raised
      (transferTrb t.cfg (addr (stageIndex q st)) (busErrorCode t.cfg.cc code)
        (BitVec.ofNat 24 (if st == .data then q.len else 0)) i)) := by
  have hnone : (q.isIn && st != .setup) = false := by
    rcases hin with h | h <;> simp [h]
  unfold applyAnswer
  dsimp only
  rw [Act.get_bind, hnone]
  exact raiseTransfer_ok h

/-- After the Data or the Status stage of an IN transfer has failed the buffer holds any bytes
(60_exceptions R378; log 50). -/
theorem applyAnswer_error_in (h : t.eventAllowed) (hs : t.ctlRefusal buf q.len = none)
    (hin : q.isIn = true) : ∃ (bs : List Byte) (x : FreeSrc), bs.length = q.len ∧
      ∀ st ≠ Stage.setup, ∀ code, applyAnswer i q addr buf (.error st code) t =
        .ok ((), ((t.withFree x).withMem (t.mem.writeBytes buf bs)).raised
          (transferTrb t.cfg (addr (stageIndex q st)) (busErrorCode t.cfg.cc code)
            (BitVec.ofNat 24 (if st == .data then q.len else 0)) i)) := by
  obtain ⟨bs, x, hdraw, hlen⟩ :
      ∃ bs x, drawBytes q.len t = .ok (bs, t.withFree x) ∧ bs.length = q.len :=
    ⟨_, _, rfl, by simp⟩
  refine ⟨bs, x, hlen, fun st hst code => ?_⟩
  have hstores : (q.isIn && st != .setup) = true := by simp [hin, hst]
  have hs' : (t.withFree x).ctlRefusal buf bs.length = none := by
    rw [hlen]
    exact hs
  unfold applyAnswer
  dsimp only
  rw [Act.get_bind, if_pos hstores, Act.bind_ok hdraw, Act.bind_ok (ctlStore_ok hs')]
  exact raiseTransfer_ok (s := (t.withFree x).withMem _) h

end

theorem stageIndex_status (t0 : Trb) : stageIndex (requestOf t0) .status = t0.stages - 1 := by
  unfold stageIndex requestOf
  rcases Trb.stages_two_or_three t0 with h | h <;> rw [h] <;> rfl

theorem busErrorCode_eq (c : CompletionCodes) (code : BusError) :
    busErrorCode c code = if code = .stall then c.stall else c.usbTransactionError := by
  cases code <;> rfl

/-- An IN transfer has a Data stage. -/
theorem Trb.stages_of_in {t : Trb} (h : t.trt = 3) : t.stages = 3 :=
  Trb.stages_eq_three_iff.2 (by rw [h]; decide)

theorem isIn_requestOf (t0 : Trb) : (requestOf t0).isIn = (t0.trt == 3) := rfl

/-! ### The rows, by the answer -/

section

variable {s : State} {i : SlotId} {r : XferRing} {a : ControlAnswer} {left : List ControlAnswer}
  (hready : s.transferReady i r) (he : s.env.control = a :: left) (hev : s.eventAllowed)
  {row : Instr} (hrow : row ∈ s.transferRows i)

include hready in
theorem State.transferReady.ctlRefusal_taken (left : List ControlAnswer) (a : Addr) (n : Nat) :
    (s.transferTaken i r left).ctlRefusal a n = s.ctlRefusal a n := by
  obtain ⟨-, -, ht, -⟩ := hready
  exact s.ctlRefusal_transferTaken i r left ht a n

include hready hev in
theorem State.transferReady.eventAllowed_taken (left : List ControlAnswer) :
    (s.transferTaken i r left).eventAllowed := by
  unfold State.eventAllowed State.eventAddr
  rw [hready.ctlRefusal_taken, State.er_transferTaken]
  exact hev

include hready he hev hrow

/-- An answer in full to a transfer without an IN Data stage. -/
theorem exec_transferRow_ok {data : List Byte} (ha : s.answerTo i a = .ok data)
    (hin : (s.xferTrb i 0).trt ≠ 3) : exec row s = .next ((s.transferTaken i r left).raised
      (transferTrb s.cfg (r.slotAddr ((s.xferTrb i 0).stages - 1)) s.cfg.cc.success 0 i)) := by
  obtain ⟨buf, -, hexec⟩ := exec_transferRow_ready hready he hrow
  rw [hexec, ha, Act.run_of_ok (applyAnswer_ok (hready.eventAllowed_taken hev left)
    (beq_eq_false_iff_ne.2 hin) data), stageIndex_status, State.cfg_transferTaken]

/-- An answer in full to an IN transfer. -/
theorem exec_transferRow_ok_in {data : List Byte} (ha : s.answerTo i a = .ok data)
    (hin : (s.xferTrb i 0).trt = 3)
    (hs : s.ctlRefusal (s.xferTrb i 1).parameter data.length = none) :
    exec row s = .next (((s.transferTaken i r left).withMem
      (s.mem.writeBytes (s.xferTrb i 1).parameter data)).raised (transferTrb s.cfg
        (r.slotAddr ((s.xferTrb i 0).stages - 1)) s.cfg.cc.success 0 i)) := by
  obtain ⟨buf, hbuf, hexec⟩ := exec_transferRow_ready hready he hrow
  rw [hbuf (Trb.stages_of_in hin)] at hexec
  rw [hexec, ha, Act.run_of_ok (applyAnswer_ok_in (hready.eventAllowed_taken hev left)
    (beq_iff_eq.2 hin) ((hready.ctlRefusal_taken left _ _).trans hs)), stageIndex_status,
    State.cfg_transferTaken, State.mem_transferTaken]

/-- A short packet. -/
theorem exec_transferRow_short {m : Nat} {data : List Byte} (ha : s.answerTo i a = .short m data)
    (hin : (s.xferTrb i 0).trt = 3)
    (hs : s.ctlRefusal (s.xferTrb i 1).parameter data.length = none)
    (h2 : s.ctlRefusal (ringAddr s.er.base s.er.advanced.enq) 16 = none) :
    exec row s = .next ((((s.transferTaken i r left).withMem
      (s.mem.writeBytes (s.xferTrb i 1).parameter data)).raised (transferTrb s.cfg (r.slotAddr 1)
        s.cfg.cc.shortPacket (BitVec.ofNat 24 ((s.xferTrb i 0).setupLength.toNat - m)) i)).raised
      (transferTrb s.cfg (r.slotAddr 2) s.cfg.cc.success 0 i)) := by
  obtain ⟨buf, hbuf, hexec⟩ := exec_transferRow_ready hready he hrow
  have hnext : (s.transferTaken i r left).ctlRefusal (ringAddr (s.transferTaken i r left).er.base
      (s.transferTaken i r left).er.advanced.enq) 16 = none := by
    rw [hready.ctlRefusal_taken, State.er_transferTaken]
    exact h2
  rw [hbuf (Trb.stages_of_in hin)] at hexec
  rw [hexec, ha, Act.run_of_ok (applyAnswer_short (hready.eventAllowed_taken hev left) hnext m
    ((hready.ctlRefusal_taken left _ _).trans hs)), stageIndex_status, Trb.stages_of_in hin,
    State.cfg_transferTaken, State.mem_transferTaken]
  rfl

/-- A stage failed, where nothing is stored: the event is for the stage's TRB, with the bytes not
moved. -/
theorem exec_transferRow_error {st : Stage} {code : BusError} (ha : s.answerTo i a = .error st code)
    (hin : (s.xferTrb i 0).trt ≠ 3 ∨ st = .setup) {n residual : Nat} {c : BitVec 8}
    (hn : stageIndex (requestOf (s.xferTrb i 0)) st = n) (hc : busErrorCode s.cfg.cc code = c)
    (hres : (if st == .data then (s.xferTrb i 0).setupLength.toNat else 0) = residual) :
    exec row s = .next ((s.transferTaken i r left).raised
      (transferTrb s.cfg (r.slotAddr n) c (BitVec.ofNat 24 residual) i)) := by
  obtain ⟨buf, -, hexec⟩ := exec_transferRow_ready hready he hrow
  rw [hexec, ha, Act.run_of_ok (applyAnswer_error (hready.eventAllowed_taken hev left)
    (hin.imp beq_eq_false_iff_ne.2 id) code), ← hn, ← hc, ← hres, State.cfg_transferTaken]
  rfl

omit hrow in
/-- The Data or the Status stage of an IN transfer failed: the bytes in the buffer do not depend on
the row or the error. -/
theorem exec_transferRow_error_in (hin : (s.xferTrb i 0).trt = 3)
    (hs : s.ctlRefusal (s.xferTrb i 1).parameter (s.xferTrb i 0).setupLength.toNat = none) :
    ∃ (bs : List Byte) (x : FreeSrc), bs.length = (s.xferTrb i 0).setupLength.toNat ∧
      ∀ row ∈ s.transferRows i, ∀ st ≠ Stage.setup, ∀ code n c residual,
        s.answerTo i a = .error st code → stageIndex (requestOf (s.xferTrb i 0)) st = n →
        busErrorCode s.cfg.cc code = c →
        (if st == .data then (s.xferTrb i 0).setupLength.toNat else 0) = residual →
        exec row s = .next ((((s.transferTaken i r left).withFree x).withMem
          (s.mem.writeBytes (s.xferTrb i 1).parameter bs)).raised
            (transferTrb s.cfg (r.slotAddr n) c (BitVec.ofNat 24 residual) i)) := by
  obtain ⟨bs, x, hlen, happly⟩ := applyAnswer_error_in (i := i)
    (q := requestOf (s.xferTrb i 0)) (addr := r.slotAddr)
    (hready.eventAllowed_taken hev left) ((hready.ctlRefusal_taken left _ _).trans hs)
    (beq_iff_eq.2 hin)
  refine ⟨bs, x, hlen, fun row hrow st hst code n c residual ha hn hc hres => ?_⟩
  obtain ⟨buf, hbuf, hexec⟩ := exec_transferRow_ready hready he hrow
  rw [hbuf (Trb.stages_of_in hin)] at hexec
  rw [hexec, ha, Act.run_of_ok (happly st hst code), ← hn, ← hc, ← hres,
    State.cfg_transferTaken, State.mem_transferTaken]
  rfl

end

/-! ### ENV's answer within its set (45_control_transfer R356) -/

section

variable {s : State} {i : SlotId}

theorem State.answerTo_disabled (hp : slotPortEnabled s i = false) (a : ControlAnswer) :
    s.answerTo i a = .error .setup .transaction := by
  unfold State.answerTo normalAnswer
  rw [hp]
  rfl

theorem State.answerTo_ok_of_not_in (hp : slotPortEnabled s i = true)
    (hin : (s.xferTrb i 0).trt ≠ 3) (data : List Byte) : s.answerTo i (.ok data) = .ok [] := by
  unfold State.answerTo normalAnswer
  rw [hp, isIn_requestOf, beq_eq_false_iff_ne.2 hin]
  rfl

theorem State.answerTo_ok_of_in (hp : slotPortEnabled s i = true)
    (hin : (s.xferTrb i 0).trt = 3) (data : List Byte) : s.answerTo i (.ok data) =
      .ok (answerBytes (freeByte s.free.count) data (s.xferTrb i 0).setupLength.toNat) := by
  unfold State.answerTo normalAnswer
  rw [hp, isIn_requestOf, hin]
  rfl

theorem State.answerTo_short (hp : slotPortEnabled s i = true) (hin : (s.xferTrb i 0).trt = 3)
    {m : Nat} (hm : m < (s.xferTrb i 0).setupLength.toNat) (data : List Byte) :
    s.answerTo i (.short m data) = .short m (answerBytes (freeByte s.free.count) data m) := by
  have hallowed : ((requestOf (s.xferTrb i 0)).isIn && decide (m < (requestOf (s.xferTrb i 0)).len))
      = true := by
    rw [isIn_requestOf, hin, Bool.and_eq_true]
    exact ⟨rfl, decide_eq_true hm⟩
  unfold State.answerTo normalAnswer
  rw [hp]
  exact if_pos hallowed

theorem State.answerTo_error (hp : slotPortEnabled s i = true) {st : Stage} {code : BusError}
    (hq : errorAllowed (requestOf (s.xferTrb i 0)) st code = true) :
    s.answerTo i (.error st code) = .error st code := by
  unfold State.answerTo normalAnswer
  rw [hp]
  exact if_pos hq

/-- A Data stage may fail where there is one (45_control_transfer R355). -/
theorem errorAllowed_data {t0 : Trb} (h : t0.trt ≠ 0) (code : BusError) :
    errorAllowed (requestOf t0) .data code = true := by
  cases code <;> exact beq_iff_eq.2 (Trb.stages_eq_three_iff.2 h)

theorem errorAllowed_status (q : Request) (code : BusError) :
    errorAllowed q .status code = true := by
  cases code <;> rfl

end

/-- Settles O42: the answer in full, by the transfer's direction. -/
theorem transferAnswered : Obligations.TransferAnswered := by
  intro s i r data left hready hp he hev t0 buf len event row hrow
  have hout (h : t0.trt ≠ 3) : exec row s = .next ((s.transferTaken i r left).raised event) :=
    exec_transferRow_ok hready he hev hrow (State.answerTo_ok_of_not_in hp h data) h
  refine ⟨fun h => hout (by rw [h]; decide), fun h => hout (by rw [h]; decide), fun h hs => ?_⟩
  refine ⟨answerBytes (freeByte s.free.count) data len, length_answerBytes _ _ _,
    fun k hk hd => getElem?_answerBytes _ _ hk hd, ?_⟩
  exact exec_transferRow_ok_in hready he hev hrow (State.answerTo_ok_of_in hp h data) h
    (by rw [length_answerBytes]; exact hs)

/-- Settles O43: a port that is not Enabled, a short packet, and each stage that fails. -/
theorem transferShortOrFailed : Obligations.TransferShortOrFailed := by
  intro s i r a left hready he hev t0 buf len taken event row hrow
  refine ⟨fun hp => ?_, fun hp => ⟨?_, ?_, ?_⟩⟩
  · exact exec_transferRow_error hready he hev hrow (State.answerTo_disabled hp a) (.inr rfl)
      rfl rfl rfl
  · rintro m data rfl hin hm hs h2
    refine ⟨answerBytes (freeByte s.free.count) data m, length_answerBytes _ _ _,
      fun k hk hd => getElem?_answerBytes _ _ hk hd, ?_⟩
    exact exec_transferRow_short hready he hev hrow (State.answerTo_short hp hin hm data) hin
      (by rw [length_answerBytes]; exact hs) h2
  · rintro rfl
    exact exec_transferRow_error hready he hev hrow (State.answerTo_error hp rfl) (.inr rfl)
      rfl rfl rfl
  intro code c
  have hc : busErrorCode s.cfg.cc code = c := busErrorCode_eq _ _
  have hdata (h : t0.trt ≠ 0) : s.answerTo i (.error .data code) = .error .data code :=
    State.answerTo_error hp (errorAllowed_data h code)
  have hstatus : s.answerTo i (.error .status code) = .error .status code :=
    State.answerTo_error hp (errorAllowed_status _ code)
  refine ⟨?_, ?_, fun hin hs => ?_⟩
  · rintro rfl hin
    exact exec_transferRow_error hready he hev hrow hstatus (.inl hin) (stageIndex_status t0) hc rfl
  · rintro rfl hin
    exact exec_transferRow_error hready he hev hrow (hdata (by rw [hin]; decide))
      (.inl (by rw [hin]; decide)) rfl hc rfl
  obtain ⟨bs, x, hlen, hstored⟩ := exec_transferRow_error_in hready he hev hin hs
  have hlast : stageIndex (requestOf t0) .status = 2 := by
    rw [stageIndex_status, Trb.stages_of_in hin]
  refine ⟨bs, x, hlen, ?_, ?_⟩
  · rintro rfl
    exact hstored row hrow .data (by decide) code _ _ _ (hdata (by rw [hin]; decide)) rfl hc rfl
  · rintro rfl
    exact hstored row hrow .status (by decide) code _ _ _ hstatus hlast hc rfl

end Sys2Proof.Machine
end

section
/-! Proofs of the control transfer family (45_control_transfer), the host's staging: the TRBs it
stores, what is outstanding, and what the slot's doorbell hands over. -/

namespace Sys2Proof.Machine

open Config

/-! ### A TRB staged -/

section

variable (s : State) (k : SlotId) (t : Trb)

theorem State.mem_staged : (s.staged k t).mem = s.mem.storedTrb
    (ringAddr (s.host.ep0.get k).base (s.host.ep0.get k).enq) t (s.host.ep0.get k).cycle := rfl

theorem State.ledger_staged : (s.staged k t).ledger = s.ledger.staged s.cfg.tt k
    (ringAddr (s.host.ep0.get k).base (s.host.ep0.get k).enq) t := rfl

theorem State.ep0_staged : (s.staged k t).host.ep0.get k = (s.host.ep0.get k).enqAdvanced := by
  unfold State.staged
  exact Tab.get_put_same _ _ _

theorem State.ep0RingFull_iff : s.ep0RingFull k = true ↔
    (s.host.ep0.get k).size ≤ s.ep0Outstanding k := decide_eq_true_iff

/-- A TRB staged is one more outstanding (45_control_transfer R344). -/
theorem State.ep0Outstanding_staged (henq : (s.host.ep0.get k).enq < (s.host.ep0.get k).size)
    (hpos : (s.ledger.ep0Pos.get k).idx < (s.host.ep0.get k).size)
    (hroom : s.ep0RingFull k = false) :
    (s.staged k t).ep0Outstanding k = s.ep0Outstanding k + 1 := by
  unfold State.ep0Outstanding
  rw [State.ep0_staged, State.ledger_staged]
  refine Ring.outstanding_enqAdvanced henq hpos (Nat.lt_of_not_le fun hle => ?_)
  exact Bool.false_ne_true (hroom.symm.trans ((s.ep0RingFull_iff k).2 hle))

end

/-- A place on an endpoint-0 ring `n` TRBs on has as many less outstanding. -/
theorem Ring.outstanding_ep0After {r : Ring} (hsize : r.size = ep0RingSize) (n : Nat)
    {p : Nat × Bool} (hp : p.1 < ep0RingSize) (hn : n ≤ r.outstanding ⟨p.1, p.2⟩) :
    r.outstanding ⟨(ep0After n p).1, (ep0After n p).2⟩ = r.outstanding ⟨p.1, p.2⟩ - n := by
  induction n generalizing p with
  | zero => rfl
  | succ n ih =>
    have hone := Ring.outstanding_advance (r := r) (c := p.2) (hsize ▸ hp) (by omega)
    rw [hsize] at hone
    have hrest := ih (p := advance p.1 p.2 ep0RingSize) (advance_lt hp) (by omega)
    unfold ep0After
    rw [hrest, hone]
    omega

/-- A transfer consumed takes off its own TRBs, on an engine that runs on the host's ring
(45_control_transfer R344; log 17). -/
theorem State.ep0Outstanding_xferPassed {s : State} {k : SlotId} {x : XferRing} {n : Nat}
    (hsize : (s.host.ep0.get k).size = ep0RingSize) (hbase : x.base = (s.host.ep0.get k).base)
    (hpos : s.ledger.ep0Pos.get k = x.pos) (hdeq : x.deq < ep0RingSize)
    (hn : n ≤ s.ep0Outstanding k) :
    (s.xferPassed k x n).ep0Outstanding k = s.ep0Outstanding k - n := by
  have hmoved : (s.xferPassed k x n).ledger.ep0Pos.get k = (x.advanced n).pos := by
    rw [State.ledger_xferPassed, if_pos hbase]
    unfold Ledger.consumed
    rw [Tab.get_put_same]
    exact if_pos hpos
  unfold State.ep0Outstanding at hn ⊢
  rw [hpos] at hn ⊢
  rw [hmoved, State.host_xferPassed]
  exact Ring.outstanding_ep0After hsize n (p := (x.deq, x.ccs)) hdeq hn

/-! ### Staging that is refused, and staging in order -/

theorem exec_ep0Enqueue_overrun {s : State} (hq : s.Quiet) {k : SlotId}
    (hs : (s.host.ep0.get k).size ≠ 0) (hf : s.ep0RingFull k = true) (t : Trb) :
    exec (.ep0Enqueue k t) s = .refused .ringOverrun := by
  have he : enqueueOn (s.host.ep0.get k) (State.ep0RingFull · k) t s = .error .ringOverrun := by
    rw [enqueueOn_allocated hq _ _ hs, hf]
    rfl
  refine run_answering_error ?_
  unfold ep0Enqueue
  rw [Act.get_bind]
  exact Act.bind_error he

theorem exec_ep0Enqueue_quiet {s : State} (hq : s.Quiet) {k : SlotId} (h : s.mayStage k) (t : Trb) :
    exec (.ep0Enqueue k t) s = .next ((s.staged k t).withResult .success) :=
  run_answering_ok (ep0Enqueue_quiet hq h t)

theorem stageAll_quiet {k : SlotId} {l : List Trb} {s : State} (hq : s.Quiet)
    (h : s.mayStageAll k l) : stageAll k l s = .ok ((), s.stagedAll k l) := by
  induction l generalizing s with
  | nil => rfl
  | cons t r ih =>
    obtain ⟨hone, hrest⟩ := h
    unfold stageAll
    rw [Act.bind_ok (ep0Enqueue_quiet hq hone t)]
    exact ih (s := s.staged k t) hq hrest

/-- What staging leaves unchanged, of what the doorbell looks at. -/
theorem State.stagedAll_unchanged (k : SlotId) (l : List Trb) (s : State) :
    (s.stagedAll k l).cfg = s.cfg ∧ (s.stagedAll k l).op = s.op ∧
    (s.stagedAll k l).slots = s.slots ∧ (s.stagedAll k l).sched = s.sched ∧
    (s.stagedAll k l).host.basesFixed = s.host.basesFixed := by
  induction l generalizing s with
  | nil => exact ⟨rfl, rfl, rfl, rfl, rfl⟩
  | cons t r ih => exact ih (s.staged k t)

/-- The slot's doorbell, on a controller that takes writes (45_control_transfer R343). -/
theorem ringEp0Doorbell_quiet {s : State} (hq : s.Quiet) (hb : s.host.basesFixed = true)
    (h1 : s.op.hcrst = false) (h2 : s.op.cnr = false) (hd : s.cfg.bitpos.Distinct) {k : SlotId}
    (hk : k ≠ 0) (hmax : k.toNat ≤ s.cfg.maxSlots.toNat) :
    ringEp0Doorbell k s = .ok ((), s.rungSlot k) := by
  have hidle : s.op.hch = true ∨ (s.slots.get k).state ≠ .addressed ↔
      s.op.hch = true ∨ s.isAddressed k = false := by
    rw [← Bool.not_eq_true (s.isAddressed k), s.isAddressed_iff]
  refine Act.run_eq_next.1 ((exec_ringEp0 h1 h2 hq hb hd hk hmax).trans ?_)
  rw [if_congr hidle rfl rfl]
  unfold State.rungSlot
  dsimp only
  split <;> rfl

/-- `control_transfer` with nothing between its accesses (45_control_transfer R340). -/
theorem exec_controlTransfer_quiet {s : State} (hq : s.Quiet) (hb : s.host.basesFixed = true)
    (h1 : s.op.hcrst = false) (h2 : s.op.cnr = false) (hd : s.cfg.bitpos.Distinct) {k : SlotId}
    (hk : k ≠ 0) (hmax : k.toNat ≤ s.cfg.maxSlots.toNat) {p : SetupPacket} {buf : Addr}
    (h : s.mayStageAll k (controlStages s.cfg.tt p buf)) : exec (.controlTransfer k p buf) s =
      .next (((s.stagedAll k (controlStages s.cfg.tt p buf)).rungSlot k).withResult .success) := by
  obtain ⟨hcfg, hop, -, hsched, hbases⟩ :=
    State.stagedAll_unchanged k (controlStages s.cfg.tt p buf) s
  have hring := ringEp0Doorbell_quiet (s := s.stagedAll k (controlStages s.cfg.tt p buf)) (k := k)
    (by rw [State.Quiet, hsched]; exact hq) (hbases.trans hb) (by rw [hop]; exact h1)
    (by rw [hop]; exact h2) (by rw [hcfg]; exact hd) hk (by rw [hcfg]; exact hmax)
  refine run_answering_ok (a := ()) ?_
  unfold controlTransfer
  rw [Act.get_bind, Act.bind_ok (stageAll_quiet hq h)]
  exact hring

/-! ### What is handed over (log 25) -/

/-- A region waits for slot `k`'s doorbell. -/
def AwaitsDoorbell (l : List HandOver) (k : SlotId) (r : Region) : Prop :=
  ∃ h ∈ l, h.slot = k ∧ r ∈ h.staged

theorem awaitsDoorbell_cons {x : HandOver} {l : List HandOver} {k : SlotId} {r : Region} :
    AwaitsDoorbell (x :: l) k r ↔ x.slot = k ∧ r ∈ x.staged ∨ AwaitsDoorbell l k r := by
  simp only [AwaitsDoorbell, List.exists_mem_cons_iff]

theorem awaitsDoorbell_concat {x : HandOver} {l : List HandOver} {k : SlotId} {r : Region} :
    AwaitsDoorbell (l ++ [x]) k r ↔ AwaitsDoorbell l k r ∨ x.slot = k ∧ r ∈ x.staged := by
  simp only [AwaitsDoorbell, List.mem_append, List.mem_singleton, or_and_right, exists_or,
    exists_eq_left]

/-- A TRB added to a transfer of the slot waits with it, and what waited still does. -/
theorem awaits_addToTransfer {k : SlotId} {a : Addr} {rs : List Region} {l l' : List HandOver}
    (h : addToTransfer k a rs l = some l') (r : Region) :
    AwaitsDoorbell l' k r ↔ AwaitsDoorbell l k r ∨ r ∈ rs := by
  induction l generalizing l' with
  | nil => cases h
  | cons x l ih =>
    unfold addToTransfer at h
    cases hr : addToTransfer k a rs l with
    | some r' =>
      rw [hr] at h
      cases h
      rw [awaitsDoorbell_cons, awaitsDoorbell_cons, ih hr, or_assoc]
    | none =>
      rw [hr] at h
      dsimp only at h
      split at h
      · rename_i hadds
        obtain ⟨hslot, -⟩ := hadds
        cases h
        simp only [awaitsDoorbell_cons, hslot, List.mem_append, true_and]
        rw [or_right_comm]
      · cases h

/-- A TRB staged waits with its memory for the doorbell, whichever transfer it belongs to, and what
waited still does. -/
theorem awaits_staged (l : Ledger) (c : TypeCodes) (k : SlotId) (a : Addr) (t : Trb) (r : Region) :
    AwaitsDoorbell (l.staged c k a t).handed k r ↔
      AwaitsDoorbell l.handed k r ∨ r ∈ trbRegions c a t := by
  have begun (need : Nat) :
      AwaitsDoorbell (l.handed ++ [⟨k, need, [a], trbRegions c a t, []⟩]) k r ↔
        AwaitsDoorbell l.handed k r ∨ r ∈ trbRegions c a t :=
    awaitsDoorbell_concat.trans (or_congr_right (and_iff_right rfl))
  unfold Ledger.staged
  dsimp only
  split
  · exact begun _
  · cases hadd : addToTransfer k a (trbRegions c a t) l.handed with
    | some l' => exact awaits_addToTransfer hadd r
    | none => exact begun _

/-- The doorbell hands over what waits for it (45_control_transfer R347). -/
theorem held_rung {l : Ledger} {k : SlotId} {r : Region} (h : AwaitsDoorbell l.handed k r) :
    ∃ y ∈ (l.rung k).handed, r ∈ y.held := by
  obtain ⟨y, hy, hk, hr⟩ := h
  refine ⟨_, List.mem_map_of_mem hy, ?_⟩
  rw [if_pos hk]
  exact List.mem_append_right _ hr

theorem State.awaits_stagedAll_of_waits {k : SlotId} {r : Region} (l : List Trb) {s : State}
    (h : AwaitsDoorbell s.ledger.handed k r) :
    AwaitsDoorbell (s.stagedAll k l).ledger.handed k r := by
  induction l generalizing s with
  | nil => exact h
  | cons t l ih =>
    refine ih (s := s.staged k t) ?_
    rw [State.ledger_staged]
    exact (awaits_staged _ _ _ _ t r).2 (.inl h)

/-- Every TRB staged in order waits, at its place on the ring, with its memory. -/
theorem State.awaits_stagedAll {k : SlotId} {l : List Trb} {s : State} {m : Nat} (hm : m < l.length)
    {r : Region} (hr : r ∈ trbRegions s.cfg.tt (ringAddr (s.host.ep0.get k).base
      (Nat.iterate Ring.enqAdvanced m (s.host.ep0.get k)).enq) l[m]) :
    AwaitsDoorbell (s.stagedAll k l).ledger.handed k r := by
  induction l generalizing s m with
  | nil => simp at hm
  | cons t l ih =>
    cases m with
    | zero =>
      refine State.awaits_stagedAll_of_waits l (s := s.staged k t) ?_
      rw [State.ledger_staged]
      exact (awaits_staged _ _ _ _ t r).2 (.inr hr)
    | succ m =>
      refine ih (s := s.staged k t) (m := m) (by simpa using hm) ?_
      rw [State.ep0_staged]
      exact hr

section

variable {s : State} {k : SlotId} (hh : s.op.hch = false) (ha : (s.slots.get k).state = .addressed)

include hh ha

theorem State.ledger_rungSlot : (s.rungSlot k).ledger = s.ledger.rung k := by
  have haddr : s.isAddressed k = true := s.isAddressed_iff.2 ha
  have hwakes : ¬(s.op.hch = true ∨ s.isAddressed k = false) := by simp [hh, haddr]
  unfold State.rungSlot
  dsimp only
  rw [if_neg hwakes]
  rfl

/-- The host stores nothing over what the doorbell has handed over (70_reset R424). -/
theorem State.hostRefusal_rungSlot {r : Region} (hw : AwaitsDoorbell s.ledger.handed k r) {a : Addr}
    {n : Nat} (ho : r.Overlaps a n) : (s.rungSlot k).hostRefusal a n ≠ none := by
  obtain ⟨y, hy, hr⟩ := held_rung hw
  rw [← State.ledger_rungSlot hh ha] at hy
  intro hnone
  obtain ⟨-, -, hlent⟩ := State.hostRefusal_eq_none.1 hnone
  exact hlent (.inl ⟨y, hy, r, hr, ho⟩)

/-- Nor does it load from an IN buffer handed over (45_control_transfer R347). -/
theorem State.loadRefusal_rungSlot {r : Region} (hw : AwaitsDoorbell s.ledger.handed k r)
    (hin : r.isIn = true) {a : Addr} {n : Nat} (ho : r.Overlaps a n) :
    (s.rungSlot k).loadRefusal a n = some .handedOver := by
  obtain ⟨y, hy, hr⟩ := held_rung hw
  rw [← State.ledger_rungSlot hh ha] at hy
  exact State.loadRefusal_of_overlaps hy hr hin ho

end

/-! ### The stages of a control transfer (45_control_transfer R340, R348) -/

theorem setupControl_eq (trt : BitVec 2) (ty : BitVec 6) :
    0#14 ++ trt ++ ty ++ 0#3 ++ bit1 true ++ 0#5 ++ bit1 false =
      (trt.setWidth 32 <<< 16) ||| (ty.setWidth 32 <<< 10) ||| (1#32 <<< 6) := by
  unfold bit1
  apply BitVec.eq_of_getLsbD_eq
  intro i hi
  simp only [BitVec.getLsbD_append, BitVec.getLsbD_or, BitVec.getLsbD_shiftLeft,
    BitVec.getLsbD_setWidth]
  interval_cases i <;> simp

theorem dataControl_eq (dir : Bool) (ty : BitVec 6) :
    0#15 ++ bit1 dir ++ ty ++ 0#9 ++ bit1 false =
      ((bit1 dir).setWidth 32 <<< 16) ||| (ty.setWidth 32 <<< 10) := by
  unfold bit1
  apply BitVec.eq_of_getLsbD_eq
  intro i hi
  simp only [BitVec.getLsbD_append, BitVec.getLsbD_or, BitVec.getLsbD_shiftLeft,
    BitVec.getLsbD_setWidth]
  interval_cases i <;> simp

theorem statusControl_eq (dir : Bool) (ty : BitVec 6) :
    0#15 ++ bit1 dir ++ ty ++ 0#4 ++ bit1 true ++ 0#4 ++ bit1 false =
      ((bit1 dir).setWidth 32 <<< 16) ||| (ty.setWidth 32 <<< 10) ||| (1#32 <<< 5) := by
  unfold bit1
  apply BitVec.eq_of_getLsbD_eq
  intro i hi
  simp only [BitVec.getLsbD_append, BitVec.getLsbD_or, BitVec.getLsbD_shiftLeft,
    BitVec.getLsbD_setWidth]
  interval_cases i <;> simp

theorem setupStageTrb_eq (c : TypeCodes) (p : SetupPacket) : setupStageTrb c p =
    ⟨p.wLength ++ p.wIndex ++ p.wValue ++ p.bRequest ++ p.bmRequestType, 8,
      (p.trt.setWidth 32 <<< 16) ||| (c.setup.setWidth 32 <<< 10) ||| (1#32 <<< 6)⟩ := by
  unfold setupStageTrb SetupTrb.toTrb
  dsimp only
  rw [setupControl_eq]
  rfl

theorem dataStageTrb_eq (c : TypeCodes) (p : SetupPacket) (buf : Addr) : dataStageTrb c p buf =
    ⟨buf, p.wLength.setWidth 32,
      ((bit1 p.isIn).setWidth 32 <<< 16) ||| (c.data.setWidth 32 <<< 10)⟩ := by
  have hlen : 0#15 ++ p.wLength.setWidth 17 = p.wLength.setWidth 32 := by
    apply BitVec.eq_of_getLsbD_eq
    intro i hi
    simp only [BitVec.getLsbD_append, BitVec.getLsbD_setWidth]
    interval_cases i <;> simp
  unfold dataStageTrb DataTrb.toTrb
  dsimp only
  rw [dataControl_eq, hlen]

/-- The Status stage goes the other way than the data, and IN where there is none. -/
theorem statusStageTrb_eq (c : TypeCodes) {p : SetupPacket} {dir : Bool}
    (h : (p.wLength = 0 || !p.isIn) = dir) : statusStageTrb c p =
    ⟨0, 0, ((bit1 dir).setWidth 32 <<< 16) ||| (c.status.setWidth 32 <<< 10) |||
      (1#32 <<< 5)⟩ := by
  subst h
  unfold statusStageTrb StatusTrb.toTrb
  dsimp only
  rw [statusControl_eq]

theorem SetupPacket.trt_of_none {p : SetupPacket} (h : p.wLength = 0) : p.trt = 0 := if_pos h

theorem SetupPacket.trt_of_data {p : SetupPacket} (h : p.wLength ≠ 0) :
    p.trt = if p.isIn then 3 else 2 := if_neg h

/-- The Data stage hands over its buffer. -/
theorem buffer_mem_trbRegions (c : TypeCodes) (a : Addr) (p : SetupPacket) (buf : Addr) :
    ⟨buf, p.wLength.toNat, p.isIn⟩ ∈ trbRegions c a (dataStageTrb c p buf) := by
  have hlen : ((dataStageTrb c p buf).status.extractLsb' 0 17).toNat = p.wLength.toNat := by
    unfold dataStageTrb
    rw [DataTrb.length_toTrb]
    have := p.wLength.isLt
    rw [BitVec.toNat_setWidth, Nat.mod_eq_of_lt (by omega)]
  have hdir : bitOf (dataStageTrb c p buf).control 16 = p.isIn := DataTrb.dir_toTrb c _
  have htyp : (dataStageTrb c p buf).typ = c.data := DataTrb.typ_toTrb c _
  unfold trbRegions
  rw [if_pos htyp, hlen, hdir]
  exact List.mem_cons_of_mem _ List.mem_cons_self

/-- Where there is data the buffer waits for the doorbell with the transfer's TRBs. -/
theorem State.awaits_buffer (s : State) (k : SlotId) {p : SetupPacket} (hp : p.wLength ≠ 0)
    (buf : Addr) : AwaitsDoorbell (s.stagedAll k (controlStages s.cfg.tt p buf)).ledger.handed k
      ⟨buf, p.wLength.toNat, p.isIn⟩ := by
  unfold controlStages
  rw [if_neg hp]
  exact State.awaits_stagedAll (m := 1) (by simp) (buffer_mem_trbRegions _ _ p buf)

/-- Settles O51: a TRB staged, a transfer consumed, a full ring, and the transfer by its stages. -/
theorem controlTransfer_spec : Obligations.ControlTransfer := by
  intro s k hq
  refine ⟨fun t hstage => ?_, fun x n hsize hbase hpos hdeq hn => ?_, fun t hs hfull => ?_,
    fun p buf hk hmax hd hb h1 h2 => ?_⟩
  · intro r a
    obtain ⟨-, hroom, -⟩ := id hstage
    refine ⟨exec_ep0Enqueue_quiet hq hstage t, ?_, fun henq hidx =>
      s.ep0Outstanding_staged k t henq hidx hroom, fun b hfar => ?_⟩
    · rw [State.mem_staged, ← storedControl_eq]
      exact Memory.readTrb_storedTrb _ _ _ _
    · rw [State.mem_staged]
      exact Memory.read_storedTrb_ne _ _ _ _ _ hfar
  · exact State.ep0Outstanding_xferPassed hsize hbase hpos hdeq hn
  · exact exec_ep0Enqueue_overrun hq hs ((s.ep0RingFull_iff k).2 hfull) t
  intro tt setup data status r run
  have hrun : ∀ l, controlStages tt p buf = l → s.mayStageAll k l → run l := by
    rintro l rfl hstage
    refine ⟨exec_controlTransfer_quiet hq hb h1 h2 hd hk hmax hstage, fun hh ha a n => ?_⟩
    obtain ⟨-, hop, hslots, -⟩ := State.stagedAll_unchanged k (controlStages tt p buf) s
    have hh' : (s.stagedAll k (controlStages tt p buf)).op.hch = false := by rw [hop]; exact hh
    have ha' : ((s.stagedAll k (controlStages tt p buf)).slots.get k).state = .addressed := by
      rw [hslots]; exact ha
    refine ⟨fun m hm ho => ?_, fun hp ho => ⟨?_, fun hin => ?_⟩⟩
    · exact State.hostRefusal_rungSlot hh' ha' (State.awaits_stagedAll hm List.mem_cons_self) ho
    · exact State.hostRefusal_rungSlot hh' ha' (s.awaits_buffer k hp buf) ho
    · exact State.loadRefusal_rungSlot hh' ha' (s.awaits_buffer k hp buf) hin ho
  refine ⟨fun h0 => hrun _ ?_, fun hp hin => hrun _ ?_, fun hp hout => hrun _ ?_⟩
  · unfold controlStages
    rw [if_pos h0, setupStageTrb_eq, SetupPacket.trt_of_none h0,
      statusStageTrb_eq (dir := true) _ (by simp [h0])]
    rfl
  · have hdir : p.isIn = true := hin
    unfold controlStages
    rw [if_neg hp, setupStageTrb_eq, SetupPacket.trt_of_data hp, dataStageTrb_eq, hdir,
      statusStageTrb_eq (dir := false) _ (by rw [decide_eq_false hp, hdir]; rfl)]
    rfl
  · have hdir : p.isIn = false := hout
    unfold controlStages
    rw [if_neg hp, setupStageTrb_eq, SetupPacket.trt_of_data hp, dataStageTrb_eq, hdir,
      statusStageTrb_eq (dir := true) _ (by simp [hdir])]
    rfl

end Sys2Proof.Machine
end

section
/-! Proofs of the exceptions family (60_exceptions), who writes what: the controller and ENV reach
no record of the host, and the host reaches only part of the controller's working state. -/

namespace Sys2Proof.Machine

/-! ### The controller's side -/

/-- No update of the controller or of ENV reaches the host's records, the platform, the schedule or
the parameters. -/
theorem CtlMicro.hostSide_eq {s t : State} (h : CtlMicro s t) :
    t.host = s.host ∧ t.plat = s.plat ∧ t.sched = s.sched ∧ t.cfg = s.cfg := by
  cases h with
  | engine h => cases h <;> exact ⟨rfl, rfl, rfl, rfl⟩
  | _ => exact ⟨rfl, rfl, rfl, rfl⟩

/-- The host's records, the platform, the schedule and the parameters are those of `o`. -/
def State.SameHostSide (o s : State) : Prop :=
  s.host = o.host ∧ s.plat = o.plat ∧ s.sched = o.sched ∧ s.cfg = o.cfg

theorem sameHostSide_ctlClosed (o : State) : CtlClosed (State.SameHostSide o) := by
  intro s t h ⟨hhost, hplat, hsched, hcfg⟩
  obtain ⟨ehost, eplat, esched, ecfg⟩ := h.hostSide_eq
  exact ⟨ehost.trans hhost, eplat.trans hplat, esched.trans hsched, ecfg.trans hcfg⟩

/-- Settles O15: every operation of the controller and of ENV is made of their updates. -/
theorem controllerLeavesHostAlone : Obligations.ControllerLeavesHostAlone :=
  fun _ s _ hi h => ctlExec_keeps (sameHostSide_ctlClosed s) hi ⟨rfl, rfl, rfl, rfl⟩ h

/-! ### The host's side -/

/-- What the host leaves of a port `o`: the device, what PORTSC shows of it and the pending event,
and a port it finds not Enabled stays so. -/
def Port.LeftByHost (o p : Port) : Prop :=
  p.ccs = o.ccs ∧ p.speed = o.speed ∧ p.attached = o.attached ∧ p.devSpeed = o.devSpeed ∧
    p.pscPending = o.pscPending ∧ (p.ped = true → o.ped = true)

theorem Port.leftByHost_refl (o : Port) : o.LeftByHost o := ⟨rfl, rfl, rfl, rfl, rfl, id⟩

/-- The begin of a port reset, the one write of PORTSC that does anything, takes PED away
(40_register_access R167, 43_ports R283). -/
theorem Port.LeftByHost.resetBegun {o p : Port} (h : o.LeftByHost p) :
    o.LeftByHost p.resetBegun := by
  obtain ⟨hccs, hspeed, hattached, hdev, hpsc, -⟩ := h
  exact ⟨hccs, hspeed, hattached, hdev, hpsc, nofun⟩

/-- With no move scheduled, what the host leaves of the controller's state in `o`: a transfer engine
counts as left alone when it only runs or stops. -/
def State.LeftByHost (o s : State) : Prop :=
  s.Quiet ∧ s.slots = o.slots ∧ s.op.hch = o.op.hch ∧ s.env = o.env ∧
    (s.intr.ip = true → o.intr.ip = true) ∧ (s.er.ehb = true → o.er.ehb = true) ∧
    (∀ k, (s.tr.get k).map XferRing.stopped = (o.tr.get k).map XferRing.stopped) ∧
    ∀ p, (o.ports.get p).LeftByHost (s.ports.get p)

theorem State.leftByHost_refl {o : State} (hq : o.Quiet) : o.LeftByHost o :=
  ⟨hq, rfl, rfl, rfl, id, id, fun _ => rfl, fun _ => Port.leftByHost_refl _⟩

theorem State.LeftByHost.withIntr {o s : State} (h : o.LeftByHost s) {x : IntrRegs}
    (hx : x.ip = true → s.intr.ip = true) : o.LeftByHost (s.withIntr x) := by
  obtain ⟨hq, hslots, hhch, henv, hip, hehb, htr, hports⟩ := h
  exact ⟨hq, hslots, hhch, henv, hip ∘ hx, hehb, htr, hports⟩

theorem State.LeftByHost.withEr {o s : State} (h : o.LeftByHost s) {x : EvtProducer}
    (hx : x.ehb = true → s.er.ehb = true) : o.LeftByHost (s.withEr x) := by
  obtain ⟨hq, hslots, hhch, henv, hip, hehb, htr, hports⟩ := h
  exact ⟨hq, hslots, hhch, henv, hip, hehb ∘ hx, htr, hports⟩

theorem State.LeftByHost.withPort {o s : State} (h : o.LeftByHost s) {p : PortIx} {q : Port}
    (hp : (o.ports.get p).LeftByHost q) : o.LeftByHost (s.withPort p q) := by
  obtain ⟨hq, hslots, hhch, henv, hip, hehb, htr, hports⟩ := h
  refine ⟨hq, hslots, hhch, henv, hip, hehb, htr, fun j => ?_⟩
  show (o.ports.get j).LeftByHost ((s.ports.put p q).get j)
  rw [Tab.get_put]
  split
  · subst j; exact hp
  · exact hports j

theorem State.LeftByHost.withXfer {o s : State} (h : o.LeftByHost s) {i : SlotId}
    {x : Option XferRing}
    (hx : x.map XferRing.stopped = (s.tr.get i).map XferRing.stopped) :
    o.LeftByHost (s.withXfer i x) := by
  obtain ⟨hq, hslots, hhch, henv, hip, hehb, htr, hports⟩ := h
  refine ⟨hq, hslots, hhch, henv, hip, hehb, fun j => ?_, hports⟩
  show ((s.tr.put i x).get j).map XferRing.stopped = _
  rw [Tab.get_put]
  split
  · subst j; exact hx.trans (htr i)
  · exact htr j

/-- The acknowledgement of an event only clears EHB (40_register_access R170). -/
theorem EvtProducer.ehb_of_ackLo {e : EvtProducer} {v : Dword} (h : (e.ackLo v).ehb = true) :
    e.ehb = true :=
  Bool.and_elim_left h

/-- An engine set running stands where it stood. -/
theorem XferRing.map_stopped_running (x : Option XferRing) :
    (x.map fun r => { r with running := true }).map XferRing.stopped = x.map XferRing.stopped := by
  rw [Option.map_map]
  rfl

/-- Of the host's updates only a port's reset, writes of the interrupter and of ERDP, and a slot's
doorbell reach what is spoken of. -/
theorem leftByHost_hostClosed (o : State) : HostClosed (State.LeftByHost o) := by
  intro s t h hs
  cases h with
  | portReset p =>
    obtain ⟨-, -, -, -, -, -, -, hports⟩ := id hs
    exact hs.withPort (hports p).resetBegun
  | intr x hr h hi => exact hs.withIntr hi
  | ackLo v => exact hs.withEr EvtProducer.ehb_of_ackLo
  | ringEp0 i => exact hs.withXfer (XferRing.map_stopped_running _)
  | _ => exact hs

theorem leftByHost_hostStepKeeps (o : State) : HostStepKeeps (State.LeftByHost o) :=
  .of_quiet (leftByHost_hostClosed o) (by rintro _ _ ⟨n, -⟩ hs; exact hs) fun _ ⟨hq, _⟩ => hq

/-- Settles O16: every operation of the host is made of its updates, the begin of a controller reset
and CONFIG's new value, and neither of these two reaches what is spoken of. -/
theorem hostLeavesControllerAlone : Obligations.HostLeavesControllerAlone := by
  intro i s t hi hq h
  have ht : s.LeftByHost t :=
    hostExec_keeps (leftByHost_hostStepKeeps s) (fun _ _ _ hs => hs) (fun _ _ _ _ hs => hs) hi
      (State.leftByHost_refl hq) h
  obtain ⟨-, hleft⟩ := ht
  exact hleft

end Sys2Proof.Machine
end
